-- ==== Sys2Proof/Word.lean ====
section
/-! DEFINITION. The word and byte types and the plainest arithmetic of spec/00_scope.md (R9, R10, R11). -/

namespace Sys2Proof

/-- A 32-bit register word (R9). -/
abbrev Word := BitVec 32

/-- A bus or memory byte (R9). -/
abbrev Byte := BitVec 8

/-- `ceil_div(a, b)` of R11, for b > 0. -/
def ceilDiv (a b : Nat) : Nat := (a + b - 1) / b

/-- `{a, b}` takes its bits from `a` where `mask` is 1 and from `b` elsewhere: an implemented register field beside reserved
bits. -/
def mixBits (mask a b : Word) : Word := (a &&& mask) ||| (b &&& ~~~mask)

end Sys2Proof
end

