-- ==== Sys2Proof/Syntax.lean ====
section
/-! DEFINITION. The command set: one constructor per row of spec/opcode_table.json (30_encoding.md R152, R154). A command word
has no operand field (R141), so no constructor takes an argument. -/

namespace Sys2Proof

/-- The data path a phase or a host instance uses (30_encoding.md R153): byte register, pooled buffer, DMA. -/
inductive Path where
  | byte
  | buf
  | dma
  deriving DecidableEq, Repr, Inhabited

/-- A command (R150): CMD_NOP and the 43 legal words of R152. -/
inductive Instr where
  | cmdNop
  | mtxB
  | mstart
  | stxB
  | mrxB
  | mstartRxB
  | mrxlB
  | mstartRxlB
  | mstop
  | mtxStopB
  | mstartStop
  | mrxStopB
  | mstartRxStopB
  | mrxlStopB
  | mstartRxlStopB
  | mtxBuf
  | mstartTxBuf
  | stxBuf
  | mtxStopBuf
  | mstartTxStopBuf
  | srxarmBuf
  | mrxBuf
  | mstartRxBuf
  | mrxlBuf
  | mstartRxlBuf
  | mrxStopBuf
  | mstartRxStopBuf
  | mrxlStopBuf
  | mstartRxlStopBuf
  | mtxDma
  | mstartTxDma
  | stxDma
  | mtxStopDma
  | mstartTxStopDma
  | srxarmDma
  | mrxDma
  | mstartRxDma
  | mrxlDma
  | mstartRxlDma
  | mrxStopDma
  | mstartRxStopDma
  | mrxlStopDma
  | mstartRxlStopDma
  | recover
  deriving DecidableEq, Repr, Inhabited

end Sys2Proof
end

