-- ==== Sys2Proof/Machine/Event.lean ====
section
/-! DEFINITION. The vocabulary of inputs and draws: what the host, the bus environment, the reset controller and the scheduler
give the machine, as plain data (00_scope.md R7, R12; 41_line_driver.md R240, R253; 45_host_sequencer.md R456). -/

namespace Sys2Proof

/-- One of the two wires (R241). -/
inductive Line where
  | scl
  | sda
  deriving DecidableEq, Repr, Inhabited

/-- The ninth bit of a slot: A (driven low) or N (left high), R13. -/
inductive Ack where
  | ack
  | nak
  deriving DecidableEq, Repr, Inhabited

/-- A bus condition: a START or repeated START, or a STOP (R241). -/
inductive Cond where
  | start
  | stop
  deriving DecidableEq, Repr, Inhabited

/-- The faults a slot can end with (R245, R246). -/
inductive SlotFault where
  | arb
  | sclTo
  | sdaTo
  | abn (k : Cond)
  deriving DecidableEq, Repr, Inhabited

/-- The result of a transmit slot (R245). -/
inductive TxResult where
  | ack
  | nak
  | fault (f : SlotFault)
  deriving DecidableEq, Repr, Inhabited

/-- The result of a receive slot (R246). -/
inductive RxResult where
  | data (d : Byte)
  | fault (f : SlotFault)
  deriving DecidableEq, Repr, Inhabited

/-- The result of a START, repeated START or STOP step (R242 to R244, R248, R255). -/
inductive LineResult where
  | ok
  | arb
  | sclTo
  | sdaTo
  deriving DecidableEq, Repr, Inhabited

/-- START_WHEN_BUSY (R8, R305). -/
inductive BusyChoice where
  | wait
  | arbLoss
  deriving DecidableEq, Repr, Inhabited

/-- RECOVER_FAIL (R8, R271). -/
inductive RecoverFail where
  | done
  | silent
  deriving DecidableEq, Repr, Inhabited

/-- The draw taken inside one master step (R240). -/
inductive Draw where
  | tx (r : TxResult)
  | rx (r : RxResult)
  | line (r : LineResult)
  | busy (w : BusyChoice)
  | pulse (release : Bool)
  | failed (r : RecoverFail)
  deriving DecidableEq, Repr, Inhabited

/-- Which of a source's values since the CMD write a late sample takes (20_memory.md R118): 0 the current one, k the k-th older
one. `timing` is the same choice for the TIMING word of a slot that a fault ends: 0 when a SCL low phase began in it
(40_clock_timing.md R225), any other number when none did (log 26). -/
structure SrcPick where
  txByte : Nat := 0
  bufCtrl : Nat := 0
  dmaAddr : Nat := 0
  dmaLen : Nat := 0
  pool : Nat := 0
  mem : Nat := 0
  timing : Nat := 0
  deriving DecidableEq, Repr, Inhabited

/-- An environment event (R253). `mid start` is `env mid(Sr)`, `mid stop` is `env mid(P)`. -/
inductive EnvEvent where
  | s
  | sr
  | p
  | wbyte (d : Byte)
  | rbyte (a : Ack)
  | mid (k : Cond)
  | hold (l : Line)
  | release (l : Line)
  | timeout (l : Line)
  deriving DecidableEq, Repr, Inhabited

/-- An MMIO space of the block (R100). -/
inductive Space where
  | bus (n : Nat)
  | pool (n : Nat)
  | global
  deriving DecidableEq, Repr, Inhabited

/-- Where a host access goes: an absolute address, or a space and an offset (the spec's own program encoding, R161). -/
inductive Loc where
  | addr (a : Nat)
  | space (sp : Space) (off : Nat)
  deriving DecidableEq, Repr, Inhabited

/-- The draws of a host read: a value for every reserved bit (R63), and for each byte lane whether a pool byte of a running
receive phase reads old (70_reset_and_hazards.md R568). -/
structure ReadDraw where
  bits : Word := 0
  old : BitVec 4 := 0
  deriving DecidableEq, Repr, Inhabited

/-- The direction of a message (R443). -/
inductive Dir where
  | write
  | read
  deriving DecidableEq, Repr, Inhabited

/-- A message (45_host_sequencer.md R443). -/
structure Msg where
  addr7 : BitVec 7
  dir : Dir
  len : Nat
  buf : List Byte
  varlen : Bool
  phys : Word
  deriving DecidableEq, Repr, Inhabited

/-- A slave handler: one whose bytes are draws, or the echo handler of R462. -/
inductive Handler where
  | drawn
  | echo (b : Byte)
  deriving DecidableEq, Repr, Inhabited

/-- The API entry points of the host sequencer (R440, R454, R460). -/
inductive HostCall where
  | attach (f : Nat) (mode : Path) (mmShared : Bool)
  | submit (msgs : List Msg)
  | register (h : Handler) (addr7 : BitVec 7)
  | unregister
  deriving DecidableEq, Repr, Inhabited

/-- The draws of one step of a host context: the draws of the read it makes, for each byte of memory it reads whether that byte
reads old (70_reset_and_hazards.md R568), the byte its slave handler returns (R455), and the bytes it puts into the unused lanes of
a pool word (95_test_vectors.md V-H5, "the host's choice"). -/
structure HostDraw where
  read : ReadDraw := {}
  memOld : List Bool := []
  byte : Byte := 0
  pad : Word := 0
  deriving DecidableEq, Repr, Inhabited

/-- The values a block reset leaves unspecified on one bus (70_reset_and_hazards.md R551, R552). -/
structure ResetDraw where
  txByte : Byte := 0
  rxByte : Byte := 0
  dmaAddr : Word := 0
  sBase : Word := 0
  dmaPtr : Word := 0
  pool : List Byte := []
  deriving DecidableEq, Repr, Inhabited

/-- One input: which agent moves next, and with which draws. -/
inductive Event where
  /-- the host reads (R100, R108) -/
  | read (loc : Loc) (width : Nat) (d : ReadDraw)
  /-- the host writes (R100, R109) -/
  | write (loc : Loc) (width : Nat) (v : Word)
  /-- the host reads its own memory (R116, R568) -/
  | memRead (a : Word) (old : Bool)
  /-- the host writes its own memory (R116) -/
  | memWrite (a : Word) (b : Byte)
  /-- bus n's master engine takes its next step (R240) -/
  | engine (n : Nat) (d : Draw) (pk : SrcPick)
  /-- bus n's slave takes its internal step (R364) -/
  | slave (n : Nat)
  /-- bus n's environment acts (R253) -/
  | env (n : Nat) (e : EnvEvent) (pk : SrcPick)
  /-- the reset controller asserts block_reset (R550) -/
  | blockReset (u : List ResetDraw)
  /-- the boot code writes CLK_DIV (R556) -/
  | boot
  /-- a caller enters an API entry point of bus n's host sequencer -/
  | call (n : Nat) (c : HostCall)
  /-- bus n's submitter takes its next step (R456) -/
  | submitter (n : Nat) (d : HostDraw)
  /-- bus n's submitter's wait expires (R450) -/
  | hostTimeout (n : Nat)
  /-- the host enters its interrupt entry (R511, R513) -/
  | irqEntry
  /-- the dispatcher takes its next step (R459) -/
  | dispatcher (d : HostDraw)
  deriving DecidableEq, Repr, Inhabited

end Sys2Proof
end

