-- ==== Sys2Proof/Config.lean ====
section
/-! DEFINITION. What a part fixes (the parameters of 00_scope.md R8), the constants the source fixes, and the free inputs. -/

namespace Sys2Proof

/-- CLK_DIV_MODE (R75). -/
inductive ClkDivMode where
  | legacy
  | new
  deriving DecidableEq, Repr, Inhabited

/-- MM_DIS_EFFECT (41_line_driver.md R259). -/
inductive MmDisEffect where
  | none
  | noBusyWait
  deriving DecidableEq, Repr, Inhabited

/-- The numeric values of the host's results (45_host_sequencer.md R449), left open by the source. -/
structure ErrCodes where
  retryable : Int
  bus : Int
  protocol : Int
  addressing : Int
  timeout : Int
  busy : Int
  invalid : Int
  deriving DecidableEq, Repr, Inhabited

/-- The base-clock formula, a parameter of the part (10_state.md R74; 93_implementation_defined.md section 4): R74's default, or
another function, a free one for each number (log 33). -/
inductive BaseClkFn where
  | standard
  | other (id : Nat)
  deriving DecidableEq, Repr, Inhabited

/-- The parameters of R8, with the base-clock formula. They are constants of the part: no step changes them. A list stands for a
function of the bus number or of an address. `startWhenBusy = none` takes the choice as a draw per START, `recoverFail = none` as a
draw per RECOVER. -/
structure Params where
  part : String
  nbus : Nat
  busBase : List Nat
  poolBase : List Nat
  globalBase : Nat
  bufSize : Nat
  dmaMax : Nat
  dmaOk : List (Nat × Nat)
  inputClk : Nat
  baseClkFn : BaseClkFn
  clkDivMode : ClkDivMode
  legacyTable : List (Nat × Word)
  recoverPulses : Nat
  recoverFail : Option RecoverFail
  startWhenBusy : Option BusyChoice
  statusClearOnRead : Bool
  zlAddrAck : Bool
  mmDisEffect : MmDisEffect
  timingExtra : Word
  pec : Bool
  hostTimeoutCfg : Word
  varlenMax : Nat
  slaveDmaPhys : Word
  slaveDmaCap : Nat
  clkDivReset : Word
  clkDivBoot : Word
  errCodes : ErrCodes
  deriving DecidableEq, Repr, Inhabited

/-- RATIO_MAX of R8: "input/target ≤ 32". -/
def ratioMax : Nat := 32

/-- PHASE_MAX of R8: "clamped to 4 bits". -/
def phaseMax : Nat := 15

/-- The illustrative legacy table of 40_clock_timing.md R205. -/
def illustrativeLegacyTable : List (Nat × Word) :=
  [(64, 0x000FF001#32), (128, 0x000FF002#32), (256, 0x000FF003#32), (512, 0x000FF004#32)]

/-- The parameters of State.reset: the common parameters of 95_test_vectors.md where it gives them.
DESIGN CHOICE (log 3, unsafe): one value for State.reset only; every statement about all states holds for all parameters. -/
def Params.illustrative : Params :=
  { part := "", nbus := 1, busBase := [0x80], poolBase := [0x200], globalBase := 0, bufSize := 16, dmaMax := 4096,
    dmaOk := [(0, 2 ^ 32)], inputClk := 100000000, baseClkFn := .standard, clkDivMode := .new, legacyTable := illustrativeLegacyTable,
    recoverPulses := 9, recoverFail := some .done, startWhenBusy := none, statusClearOnRead := false, zlAddrAck := false,
    mmDisEffect := .none, timingExtra := 0, pec := false, hostTimeoutCfg := 0, varlenMax := 32,
    slaveDmaPhys := 0x8000, slaveDmaCap := 16, clkDivReset := 0, clkDivBoot := 0x62220803,
    errCodes := { retryable := -1, bus := -2, protocol := -3, addressing := -4, timeout := -5, busy := -6, invalid := -7 } }

/-- The inputs that the list in State does not give (log 1): nothing is known of them, so a run past the end of the list may be
any run. -/
opaque Config.futureInput : Nat → Event

/-- The base clocks of a part whose formula is not R74's: of its number, INPUT_CLK, CLK_DIV and the index (log 33). -/
opaque Config.otherBaseClk : Nat → Nat → Word → Nat → Nat

/-- Byte `i` of a message whose buffer holds fewer bytes (45_host_sequencer.md R443, R444 give it no value; log 44). -/
opaque Config.missingByte : Nat → Byte

end Sys2Proof
end

