-- ==== Sys2Proof/WellFormed.lean ====
section
/-! DEFINITION. What is well formed: a command word (30_encoding.md R151), a message (45_host_sequencer.md R443, R458), the legacy
table (40_clock_timing.md R205) and the parameters (00_scope.md R8, 20_memory.md R102). -/

namespace Sys2Proof

/-- The names R140 gives the bits of a command word. -/
structure CmdBits where
  s : Bool
  t : Bool
  x : Bool
  r : Bool
  l : Bool
  p : Bool
  b : Bool
  c : Bool
  d : Bool
  e : Bool
  z : Bool
  v : Bool
  deriving DecidableEq, Repr

/-- The bits of the word `c` (R140). -/
def CmdBits.of (c : BitVec 12) : CmdBits :=
  { s := c.getLsbD 0, t := c.getLsbD 1, x := c.getLsbD 2, r := c.getLsbD 3, l := c.getLsbD 4, p := c.getLsbD 5,
    b := c.getLsbD 6, c := c.getLsbD 7, d := c.getLsbD 8, e := c.getLsbD 9, z := c.getLsbD 10, v := c.getLsbD 11 }

/-- RECOVER, alone: `c = BIT(11)` (R151). -/
def CmdBits.isRecover (w : CmdBits) : Bool :=
  w.v && !(w.s || w.t || w.x || w.r || w.l || w.p || w.b || w.c || w.d || w.e)

/-- STX, at most one transmit path (R151). -/
def CmdBits.isStx (w : CmdBits) : Bool :=
  w.x && !(w.s || w.t || w.r || w.l || w.p || w.c || w.e || w.v) && !(w.b && w.d)

/-- SRXARM, exactly one receive path (R151). -/
def CmdBits.isSrxarm (w : CmdBits) : Bool :=
  !(w.x || w.v || w.s || w.t || w.r || w.l || w.p || w.b || w.d) && (w.c != w.e)

/-- A master command (R151). -/
def CmdBits.isMaster (w : CmdBits) : Bool :=
  !w.x && !w.v && (w.s || w.t || w.r || w.p)
    && (!w.s || w.t)
    && (!w.l || w.r)
    && !(w.b && w.d) && !(w.c && w.e)
    && (!(w.b || w.d) || w.t)
    && (!(w.c || w.e) || w.r)
    && !(w.t && w.r && !w.s)
    && !(w.r && (w.b || w.d))

/-- The legality predicate of R151. -/
def legal (c : BitVec 12) : Bool :=
  let w := CmdBits.of c
  !w.z && (w.isRecover || w.isStx || w.isSrxarm || w.isMaster)

/-- `td` of R301: the command has a data transmit phase. -/
def CmdBits.td (w : CmdBits) : Bool := w.t && (!w.s || w.b || w.d)

/-- A message that submit rejects with ERR_INVALID (R458): a zero-length read, or a variable-length write. -/
def Msg.rejected (m : Msg) : Bool :=
  match m.dir with
  | .read => m.len == 0
  | .write => m.varlen

/-- The data model of R443: the length fits 16 bits, and a message that is not rejected. -/
def Msg.wf (m : Msg) : Bool := decide (m.len < 2 ^ 16) && !m.rejected

/-- The divisor that the fields of a timing word give in LEGACY mode (R205). -/
def legacyDivisor (w : Word) : Nat :=
  2 ^ (w.extractLsb' 0 4).toNat * ((w.extractLsb' 16 4).toNat + (w.extractLsb' 12 4).toNat + 2)

/-- A legacy table: not empty, divisors strictly increasing (R203), each word dividing by its own divisor (R205). -/
def legacyTableWf (t : List (Nat × Word)) : Bool :=
  !t.isEmpty && t.all (fun e => e.1 == legacyDivisor e.2)
    && (List.zip t (t.drop 1)).all (fun p => decide (p.1.1 < p.2.1))

/-- The MMIO ranges (base, bytes) of the block (R100). -/
def Params.ranges (p : Params) : List (Nat × Nat) :=
  (p.globalBase, 0x14) :: (p.busBase.map (fun a => (a, 0x40)) ++ p.poolBase.map (fun a => (a, 4 * ceilDiv p.bufSize 4)))

/-- Two ranges do not overlap. -/
def rangesApart (a b : Nat × Nat) : Bool := decide (a.1 + a.2 ≤ b.1) || decide (b.1 + b.2 ≤ a.1)

/-- Every two ranges of the list are apart (R102). -/
def allApart : List (Nat × Nat) → Bool
  | [] => true
  | a :: rest => rest.all (rangesApart a) && allApart rest

/-- The result codes are distinct and negative (R449). -/
def ErrCodes.wf (e : ErrCodes) : Bool :=
  let l := [e.retryable, e.bus, e.protocol, e.addressing, e.timeout, e.busy, e.invalid]
  l.all (fun x => decide (x < 0)) && decide l.Nodup

/-- The ranges R8 gives the parameters, R102's check of the map, and R144's zeros of TIMING_EXTRA. GISR is one 32-bit word (R73),
so NBUS is at most 32. DESIGN CHOICE (log 43): the bases are multiples of 4; R8 and R102 leave them open. -/
def Params.wf (p : Params) : Bool :=
  decide (1 ≤ p.nbus) && decide (p.nbus ≤ 32)
    && (p.busBase.length == p.nbus) && (p.poolBase.length == p.nbus)
    && p.ranges.all (fun r => r.1 % 4 == 0) && allApart p.ranges
    && decide (1 ≤ p.bufSize) && decide (p.bufSize ≤ 255)
    && decide (1 ≤ p.dmaMax) && decide (p.dmaMax ≤ 4096)
    && decide (1 ≤ p.slaveDmaCap) && decide (p.slaveDmaCap ≤ p.dmaMax)
    && legacyTableWf p.legacyTable
    && (p.timingExtra &&& 0x000FF00F#32 == 0)
    && p.errCodes.wf

end Sys2Proof
end

