-- ==== Sys2Proof/Decode.lean ====
section
/-! DEFINITION. Decoding a write to CMD (30_encoding.md R150, R152, R154, R155), total on any word, and the encoder. -/

namespace Sys2Proof

/-- R152's commands with M_START and no data read, and CMD_NOP of R154: word and command. -/
def startTxRows : List (Nat × Instr) :=
  [(0x000, .cmdNop), (0x003, .mstart), (0x023, .mstartStop), (0x043, .mstartTxBuf), (0x103, .mstartTxDma),
   (0x063, .mstartTxStopBuf), (0x123, .mstartTxStopDma)]

/-- R152's commands with M_START and a receive phase. -/
def startRxRows : List (Nat × Instr) :=
  [(0x00B, .mstartRxB), (0x08B, .mstartRxBuf), (0x20B, .mstartRxDma),
   (0x01B, .mstartRxlB), (0x09B, .mstartRxlBuf), (0x21B, .mstartRxlDma),
   (0x02B, .mstartRxStopB), (0x0AB, .mstartRxStopBuf), (0x22B, .mstartRxStopDma),
   (0x03B, .mstartRxlStopB), (0x0BB, .mstartRxlStopBuf), (0x23B, .mstartRxlStopDma)]

/-- R152's transmit commands on an owned bus. -/
def txRows : List (Nat × Instr) :=
  [(0x002, .mtxB), (0x042, .mtxBuf), (0x102, .mtxDma), (0x022, .mtxStopB), (0x062, .mtxStopBuf), (0x122, .mtxStopDma)]

/-- R152's receive commands on an owned bus. -/
def rxRows : List (Nat × Instr) :=
  [(0x008, .mrxB), (0x088, .mrxBuf), (0x208, .mrxDma), (0x018, .mrxlB), (0x098, .mrxlBuf), (0x218, .mrxlDma),
   (0x028, .mrxStopB), (0x0A8, .mrxStopBuf), (0x228, .mrxStopDma),
   (0x038, .mrxlStopB), (0x0B8, .mrxlStopBuf), (0x238, .mrxlStopDma)]

/-- R152's MSTOP, RECOVER and slave commands. -/
def controlRows : List (Nat × Instr) :=
  [(0x020, .mstop), (0x004, .stxB), (0x044, .stxBuf), (0x104, .stxDma), (0x080, .srxarmBuf), (0x200, .srxarmDma),
   (0x800, .recover)]

/-- The opcode map of R152 with CMD_NOP of R154. -/
def opcodeMap : List (Nat × Instr) :=
  startTxRows ++ startRxRows ++ txRows ++ rxRows ++ controlRows

/-- The command of a word in a list of rows. -/
def lookupCode (w : Nat) : List (Nat × Instr) → Option Instr
  | [] => none
  | r :: rest => if r.1 == w then some r.2 else lookupCode w rest

/-- The command that the twelve command bits name; none for the illegal words of R155. -/
def decodeCmd (c : BitVec 12) : Option Instr := lookupCode c.toNat opcodeMap

/-- R150: a write of `v` to CMD takes `c = v[11:0]`; bits [31:12] are ignored. -/
def decode (v : Word) : Option Instr := decodeCmd (v.extractLsb' 0 12)

/-! ## The encoder, from the bit fields of R140 and the suffixes of R152 -/

/-- The path bit of a transmit phase: none, TX_BUF_EN or TX_DMA_EN (R152, R153). -/
def txPathBits : Path → BitVec 12
  | .byte => 0
  | .buf => 1#12 <<< 6
  | .dma => 1#12 <<< 8

/-- The path bit of a receive phase: none, RX_BUF_EN or RX_DMA_EN (R152, R153). -/
def rxPathBits : Path → BitVec 12
  | .byte => 0
  | .buf => 1#12 <<< 7
  | .dma => 1#12 <<< 9

/-- M_START with the M_TX that sends the address byte (R140, R151). -/
def bitsStart : BitVec 12 := (1#12 <<< 0) ||| (1#12 <<< 1)

/-- M_TX with a transmit path. -/
def bitsTx (p : Path) : BitVec 12 := (1#12 <<< 1) ||| txPathBits p

/-- M_RX with a receive path, and RX_LAST. -/
def bitsRx (p : Path) (last : Bool) : BitVec 12 :=
  (1#12 <<< 3) ||| (if last then 1#12 <<< 4 else 0) ||| rxPathBits p

/-- M_STOP. -/
def bitsStop : BitVec 12 := 1#12 <<< 5

/-- S_TX with a transmit path. -/
def bitsStx (p : Path) : BitVec 12 := (1#12 <<< 2) ||| txPathBits p

/-- BUS_RECOVER. -/
def bitsRecover : BitVec 12 := 1#12 <<< 11

/-- The command bits of each mnemonic: its base command's bits and its path suffix (R152). -/
def code : Instr → BitVec 12
  | .cmdNop => 0
  | .mstart => bitsStart
  | .mstartStop => bitsStart ||| bitsStop
  | .mstartTxBuf => bitsStart ||| bitsTx .buf
  | .mstartTxDma => bitsStart ||| bitsTx .dma
  | .mstartTxStopBuf => bitsStart ||| bitsTx .buf ||| bitsStop
  | .mstartTxStopDma => bitsStart ||| bitsTx .dma ||| bitsStop
  | .mstartRxB => bitsStart ||| bitsRx .byte false
  | .mstartRxBuf => bitsStart ||| bitsRx .buf false
  | .mstartRxDma => bitsStart ||| bitsRx .dma false
  | .mstartRxlB => bitsStart ||| bitsRx .byte true
  | .mstartRxlBuf => bitsStart ||| bitsRx .buf true
  | .mstartRxlDma => bitsStart ||| bitsRx .dma true
  | .mstartRxStopB => bitsStart ||| bitsRx .byte false ||| bitsStop
  | .mstartRxStopBuf => bitsStart ||| bitsRx .buf false ||| bitsStop
  | .mstartRxStopDma => bitsStart ||| bitsRx .dma false ||| bitsStop
  | .mstartRxlStopB => bitsStart ||| bitsRx .byte true ||| bitsStop
  | .mstartRxlStopBuf => bitsStart ||| bitsRx .buf true ||| bitsStop
  | .mstartRxlStopDma => bitsStart ||| bitsRx .dma true ||| bitsStop
  | .mtxB => bitsTx .byte
  | .mtxBuf => bitsTx .buf
  | .mtxDma => bitsTx .dma
  | .mtxStopB => bitsTx .byte ||| bitsStop
  | .mtxStopBuf => bitsTx .buf ||| bitsStop
  | .mtxStopDma => bitsTx .dma ||| bitsStop
  | .mrxB => bitsRx .byte false
  | .mrxBuf => bitsRx .buf false
  | .mrxDma => bitsRx .dma false
  | .mrxlB => bitsRx .byte true
  | .mrxlBuf => bitsRx .buf true
  | .mrxlDma => bitsRx .dma true
  | .mrxStopB => bitsRx .byte false ||| bitsStop
  | .mrxStopBuf => bitsRx .buf false ||| bitsStop
  | .mrxStopDma => bitsRx .dma false ||| bitsStop
  | .mrxlStopB => bitsRx .byte true ||| bitsStop
  | .mrxlStopBuf => bitsRx .buf true ||| bitsStop
  | .mrxlStopDma => bitsRx .dma true ||| bitsStop
  | .mstop => bitsStop
  | .stxB => bitsStx .byte
  | .stxBuf => bitsStx .buf
  | .stxDma => bitsStx .dma
  | .srxarmBuf => rxPathBits .buf
  | .srxarmDma => rxPathBits .dma
  | .recover => bitsRecover

/-- The command word of a command, with zeros in the ignored bits (R140, R161's `enc`). -/
def encode (i : Instr) : Word := (code i).setWidth 32

/-- What the decoder reads from the low `nbits` bits of `w`, the bits above them being 0. A command is one 32-bit word (R157),
and a register word has no byte order (20_memory.md R103). -/
def decodeTableWord (nbits w : Nat) : Option Instr := decode (BitVec.ofNat 32 (w % 2 ^ nbits))

end Sys2Proof
end

