-- ==== Sys2Proof/Machine/HostTypes.lean ====
section
/-! DEFINITION. The plain data of the status decoder and of the host agent (44_status_decoder.md R403 to R417,
45_host_sequencer.md R443 to R460). -/

namespace Sys2Proof

/-- Error classes of a master outcome (R406). -/
inductive ErrClass where
  | retryable
  | busCondition
  | protocol
  | addressing
  deriving DecidableEq, Repr, Inhabited

/-- Outcomes of the master decoder (R405, R408). -/
inductive MOutcome where
  | error (e : ErrClass)
  | chunkDone
  | notYet
  | none
  | unrecognized
  | recoverDone
  deriving DecidableEq, Repr, Inhabited

/-- The master context states (R403), with the submitter's claim (R460). -/
inductive MCtx where
  | idle
  | claimed
  | cmdIssued
  | recovering
  | complete
  | error
  deriving DecidableEq, Repr, Inhabited

/-- The slave session states (R415). -/
inductive SCtx where
  | idle
  | write
  | read
  | stop
  deriving DecidableEq, Repr, Inhabited

/-- The events delivered to a slave handler (R417). -/
inductive SlaveEvent where
  | writeRequested
  | writeReceived (b : Byte)
  | readRequested
  | readProcessed
  | stop
  deriving DecidableEq, Repr, Inhabited

/-- The negative results of the entry points (R449). -/
inductive HostErr where
  | retryable
  | bus
  | protocol
  | addressing
  | timeout
  | busy
  | invalid
  deriving DecidableEq, Repr, Inhabited

/-- What an entry point returned (R440, R454, R460). -/
inductive HostResult where
  | ok
  | count (n : Nat)
  | err (e : HostErr)
  deriving DecidableEq, Repr, Inhabited

/-- The transaction context T (R443), with the word of the last command issued (R459). `err = none` with `done` is OK. -/
structure Txn where
  msgs : List Msg := []
  idx : Nat := 0
  xfer : Nat := 0
  lenEff : Nat := 0
  started : Bool := false
  varlenPending : Bool := false
  terminating : Bool := false
  err : Option ErrClass := none
  done : Bool := false
  cmd : BitVec 12 := 0
  deriving DecidableEq, Repr, Inhabited

/-- The recovery record (R452): `ok` is what recover_bus returned, `expired` that `host_timeout` has ended its wait. -/
structure RecRec where
  done : Bool := false
  outcome : Option MOutcome := none
  prev : MCtx := .idle
  ok : Bool := false
  expired : Bool := false
  deriving DecidableEq, Repr, Inhabited

/-- One operation of a host context, at most one MMIO access each (R456: between two of them any other agent may move). The
operations of a context still to run are its list; an operation that decides puts the operations of its branch in front. -/
inductive HOp where
  /-- `wr` of a register of the bus block (R160) -/
  | wr (off : Nat) (v : Word)
  /-- `fun_shadow <- v; wr FUN_CTRL, v` (R440, R454) -/
  | wrFun (v : Word)
  /-- `pw` of one pool word from up to four bytes (R160, R446) -/
  | pw (w : Nat) (bytes : List Byte)
  /-- `T.cmd <- c; cmd c` (R460) -/
  | issue (c : BitVec 12)
  /-- `cmd c` (R161) -/
  | cmd (c : BitVec 12)
  /-- enter or leave a critical block (R456) -/
  | crit (on : Bool)
  /-- an assignment to ctx -/
  | setCtx (c : MCtx)
  /-- attach's calculator call (R440) -/
  | attachCalc (f : Nat) (mode : Path) (mmShared : Bool)
  /-- attach's last line (R440) -/
  | attached (mode : Path) (mmShared : Bool)
  /-- submit's first critical block (R460) -/
  | claim (msgs : List Msg)
  /-- the pre-transaction check (R451) -/
  | precheck (msgs : List Msg)
  /-- what submit does with recover_bus's result (R451, R460) -/
  | afterRecover (msgs : List Msg)
  /-- submit's second critical block (R460) -/
  | begin (msgs : List Msg)
  /-- the submitter's wait for T.done (R460) -/
  | waitDone
  /-- on_expiry's CMD read (R450) -/
  | expiryLook
  /-- recover_bus (R452) -/
  | recover
  /-- recover_bus's CMD read (R452) -/
  | recLook (base saved : Word)
  /-- `R.done <- false; prev <- ctx; ctx <- MH_RECOVERING` (R452) -/
  | recArm
  /-- recover_bus's wait (R452) -/
  | recWait
  /-- return a result to the caller -/
  | finish (r : HostResult)
  /-- unregister_slave's critical block (R454) -/
  | slaveGone
  /-- dispatch's ISR read (R459) -/
  | rdIsr
  /-- read BYTE_BUF (R419 step 1) -/
  | rdByte
  /-- read BUF_CTRL or DMA_LEN (R419 step 1, R446) -/
  | rdCount
  /-- read the pool words of the count just read (R419 step 1) -/
  | rdData
  /-- read one pool word (`pr`, R160) -/
  | rdPool (w : Nat)
  /-- read the slave's receive region in memory (R455) -/
  | rdMem
  /-- decode the word read and line up the actions (R459) -/
  | decide
  /-- call the handler for one event and line up its action (R455) -/
  | slaveEv (e : SlaveEvent)
  /-- arm the slave's receive path (R455) -/
  | arm
  /-- `sh <- sh'` (R459) -/
  | setSh (c : SCtx)
  /-- the master action for an outcome of the bits m (R459) -/
  | master (o : MOutcome) (m : Word)
  /-- log bits that no path recognizes (R409) -/
  | logBits (v : Word)
  /-- the dispatcher is done with this bus (R511) -/
  | busDone
  deriving DecidableEq, Repr, Inhabited

/-- The host's state for one bus. -/
structure HostBus where
  funShadow : Word := 0
  mode : Path := .byte
  mmShared : Bool := false
  ctx : MCtx := .idle
  sh : SCtx := .idle
  handler : Option Handler := none
  txn : Txn := {}
  recov : RecRec := {}
  sub : List HOp := []
  crit : Bool := false
  result : Option HostResult := none
  slaveLog : List SlaveEvent := []
  unrecLog : List Word := []
  deriving DecidableEq, Repr, Inhabited

/-- A running interrupt entry (R511): the GISR word read, the bus looked at, and one dispatch's remaining operations and reads. -/
structure Disp where
  g : Option Word := none
  n : Nat := 0
  todo : List HOp := []
  st : Word := 0
  rxByte : Byte := 0
  count : Nat := 0
  data : List Byte := []
  deriving DecidableEq, Repr, Inhabited

end Sys2Proof
end

