-- ==== Sys2Proof/Machine/State.lean ====
section
/-! DEFINITION. The state of the machine (10_state.md R30 to R59, R70 to R75), of its environment and of the host agent, the reasons a
step can stop, and the state after reset (70_reset_and_hazards.md R551 to R553). -/

namespace Sys2Proof

/-- One phase of a master command (42_master_commands.md R301). -/
inductive Phase where
  | addr
  | tx (p : Path)
  | rx (p : Path) (last : Bool)
  | stop
  deriving DecidableEq, Repr, Inhabited

/-- How far the first phase of the list has come, between two bus steps. -/
inductive Progress where
  /-- no step of the phase has been taken -/
  | fresh
  /-- an address phase whose START waits for a busy bus (R305, WAIT) -/
  | waitBus
  /-- an address phase whose START or repeated START is on the bus (R306) -/
  | started
  /-- a data phase that has moved `i` of `n` bytes (R330 to R335) -/
  | moving (i n : Nat)
  deriving DecidableEq, Repr, Inhabited

/-- The master state (R48). -/
inductive MState where
  | off
  | idle
  | exec (phases : List Phase) (at' : Progress)
  | hold
  | recover (pulses : Nat)
  deriving DecidableEq, Repr, Inhabited

/-- What 41_line_driver.md R248 needs to know of the master's last slot: `read` is an `rx_slot(A)`; `address` is an address slot with
`rw = 1` that was answered A, with no START or STOP of this engine and no recovery pulse after it; `other` is every other case. -/
inductive LastSlot where
  | other
  | address
  | read
  deriving DecidableEq, Repr, Inhabited

/-- After a START, a repeated START, a STOP or a recovery pulse nothing directly follows an address slot (R248). -/
def LastSlot.afterCond : LastSlot → LastSlot
  | .read => .read
  | _ => .other

/-- The slave state (R50). `tx` carries the path of the STX that runs (43_slave.md R369). -/
inductive SState where
  | off
  | idle
  | addr
  | rxWait
  | rx
  | txWait
  | tx (p : Path)
  | waitStop
  | ignore
  deriving DecidableEq, Repr, Inhabited

/-- An open-drain output (R55, R56). -/
inductive Drive where
  | low
  | rel
  deriving DecidableEq, Repr, Inhabited

/-- One driver's outputs on the two wires. -/
structure Wires where
  scl : Drive := .rel
  sda : Drive := .rel
  deriving DecidableEq, Repr, Inhabited

/-- What this engine puts on the wires or takes from them, whole: its START, repeated START and STOP, a recovery pulse, and a byte
of a slot of its master or its slave with the ninth bit (00_scope.md R13). -/
inductive WireItem where
  | s
  | sr
  | p
  | pulse
  | byte (d : Byte) (a : Ack)
  deriving DecidableEq, Repr, Inhabited

/-- The values each command source held before host writes made since CMD was written, newest first (20_memory.md R118). -/
structure Stale where
  txByte : List Byte := []
  bufCtrl : List (BitVec 8 × BitVec 8) := []
  dmaAddr : List Word := []
  dmaLen : List (BitVec 13) := []
  pool : List (Nat × Byte) := []
  mem : List (Nat × Byte) := []
  deriving DecidableEq, Repr, Inhabited

/-- One bus instance (R30): register block, pooled buffer, state machines, wires. `wire` is the model's own record of the bus trace
(R13), newest first; no step reads it (log 39). -/
structure Bus where
  masterEn : Bool := false
  slaveEn : Bool := false
  multiMasterDis : Bool := false
  timing : Word := 0
  sclTiming : Word := 0
  timeout : Word := 0
  ier : Word := 0
  isr : Word := 0
  cmd : BitVec 12 := 0
  devAddr : BitVec 7 := 0
  txEnd : BitVec 8 := 0
  rxEnd : BitVec 8 := 0
  bufCount : BitVec 8 := 0
  txByte : Byte := 0
  rxByte : Byte := 0
  dmaAddr : Word := 0
  dmaLenProg : BitVec 13 := 0
  dmaMoved : BitVec 13 := 0
  pool : List Byte := []
  mstate : MState := .off
  own : Bool := false
  lastSlot : LastSlot := .other
  sstate : SState := .off
  sPath : Path := .byte
  sCount : Nat := 0
  sCap : Nat := 0
  sBase : Word := 0
  dmaPtr : Word := 0
  refused : Bool := false
  stuck : Bool := false
  mDrv : Wires := {}
  sDrv : Wires := {}
  env : Wires := {}
  busBusy : Bool := false
  stale : Stale := {}
  rxOldPool : List (Nat × Byte) := []
  rxOldMem : List (Nat × Byte) := []
  wire : List WireItem := []
  deriving DecidableEq, Repr, Inhabited

/-- System memory (20_memory.md R100, R116): the bytes that differ from `Memory.unlisted`, addresses rising. -/
abbrev Memory := List Host.Cell

/-- What a byte of system memory that nothing has written reads as. DESIGN CHOICE (log 10, unsafe): the spec gives none. -/
def Memory.unlisted : Byte := 0

namespace Machine

/-- The state: the part's parameters, NBUS buses, the global bank, system memory, the host agent, and the inputs still to come
(R7, R30). -/
structure State where
  params : Params
  buses : List Bus
  clkDiv : Word
  mem : Memory
  hosts : List HostBus
  disp : Option Disp
  inputs : List Event
  fresh : Nat
  sel : Nat
  rdata : Word
  deriving DecidableEq, Repr, Inhabited

/-- Why a step stops with a fault. -/
inductive Fault where
  /-- a host access whose address lies in none of the block's three MMIO spaces (20_memory.md R102: "outside this block and
  unsaid by this spec"); raised by the host access operations of Mmio.lean; safe: the run stops where hardware goes on -/
  | outsideMap
  /-- a command for a bus number that the part does not have; raised by the command operations of Ops.lean when `sel` is no bus,
  which no step brings about; safe -/
  | noSuchBus
  deriving DecidableEq, Repr

/-- Why a step is refused. -/
inductive Refusal where
  /-- a command that has no meaning yet; raised by exec's refused arms only; safe -/
  | notModelled (mnemonic : String)
  /-- a host access to a reserved offset of the global bank, or one there that is not an aligned 32-bit access (10_state.md R70,
  20_memory.md R101): refused, and there is no bus to mark; raised by Mmio.lean; safe -/
  | globalAccess
  /-- a host access to a bus that carries the refusal mark (10_state.md R54: "no further step of that bus or its bus environment
  is given"); raised by Mmio.lean; safe -/
  | busRefused
  deriving DecidableEq, Repr

/-- The outcome of one step. -/
abbrev Result := Host.Outcome State Fault Refusal

end Machine

/-- One bus after reset (R551, R552), with the unspecified values of `u`; the environment's lines stay as they are (R555). -/
def Bus.afterReset (p : Params) (env : Wires) (u : ResetDraw) : Bus :=
  { txByte := u.txByte, rxByte := u.rxByte, dmaAddr := u.dmaAddr, sBase := u.sBase, dmaPtr := u.dmaPtr,
    pool := (u.pool ++ List.replicate p.bufSize 0).take p.bufSize, env := env }

namespace Machine

/-- The state after reset for a part with parameters `p`, with nothing to come: R551 to R553, the lines released, every value the
spec leaves unspecified at 0. DESIGN CHOICE (logs 1, 4, 9, 10, 23, unsafe). -/
def State.resetFor (p : Params) : State :=
  { params := p, buses := List.replicate p.nbus (Bus.afterReset p {} {}), clkDiv := p.clkDivReset, mem := [],
    hosts := List.replicate p.nbus {}, disp := none, inputs := [], fresh := 0, sel := 0, rdata := 0 }

/-- The machine right after reset, for the illustrative parameters (log 3). -/
def State.reset : State := State.resetFor Params.illustrative

end Machine

end Sys2Proof
end

