-- ==== Sys2Proof/Machine/Clock.lean ====
section
/-! DEFINITION. The clock divisor calculator (40_clock_timing.md R200 to R217), the base clocks (10_state.md R74), and the durations that
a timing word stands for (R220 to R222), as exact fractions. -/

namespace Sys2Proof

/-! ## Base clocks -/

/-- The divisor byte of base clock `k` in CLK_DIV (R72); 1 ≤ k ≤ 4. -/
def divByte (clkDiv : Word) (k : Nat) : Nat := (clkDiv.extractLsb' (8 * (k - 1)) 8).toNat

/-- `BaseClk(k)`, the default formula of R74. -/
def baseClk (inputClk : Nat) (clkDiv : Word) (k : Nat) : Nat := 2 * inputClk / (divByte clkDiv k + 2)

/-- `BaseClk` of the part (R74: "a function parameter, with this formula as its default"). -/
def Params.baseClk (p : Params) (clkDiv : Word) (k : Nat) : Nat :=
  match p.baseClkFn with
  | .standard => Sys2Proof.baseClk p.inputClk clkDiv k
  | .other id => Config.otherBaseClk id p.inputClk clkDiv k

/-! ## The calculator -/

/-- The band of a target frequency (R208). -/
def band (f : Nat) : Nat :=
  if 1000000 < f then 1 else if 400000 < f then 2 else if 100000 < f then 3 else 4

/-- The correction loop (R211), by the number of selectors left: (sel, ratio). -/
def correctionLoop : Nat → Nat → Nat → Nat × Nat
  | 0, sel, ratio => (sel, ratio)
  | k + 1, sel, ratio => if ratioMax < ratio then correctionLoop k (sel + 1) (ceilDiv ratio 2) else (sel, ratio)

/-- What the calculator answers (R200). -/
structure Timing where
  word : Word
  sel : Nat
  high : Nat
  low : Nat
  ratio : Nat
  deriving DecidableEq, Repr, Inhabited

/-- The selector and the ratio before the guard (R207 to R212). -/
def selectRatio (inputClk : Nat) (base : Nat → Nat) (f : Nat) : Nat × Nat :=
  if inputClk / f ≤ ratioMax then (0, ceilDiv inputClk f)
  else
    let r := correctionLoop (15 - band f) (band f) (ceilDiv (base (band f)) f)
    (r.1, min r.2 ratioMax)

/-- The low count of a ratio (R213, R214). -/
def lowOf (ratio : Nat) : Nat := min (ratio / 2 - 1) phaseMax

/-- The high count of a ratio (R213, R214). -/
def highOf (ratio : Nat) : Nat := min (ratio - (ratio / 2 - 1) - 2) phaseMax

/-- The timing word of R144 and R216. -/
def timingWord (extra : Word) (high low sel : Nat) : Word :=
  extra ||| (BitVec.ofNat 32 high <<< 16) ||| (BitVec.ofNat 32 low <<< 12) ||| BitVec.ofNat 32 sel

/-- `calc_new` (R217). -/
def calcNew (inputClk : Nat) (base : Nat → Nat) (extra : Word) (f : Nat) : Option Timing :=
  if f = 0 ∨ inputClk = 0 then none
  else
    let r := selectRatio inputClk base f
    if r.2 < 2 then none
    else
      some { word := timingWord extra (highOf r.2) (lowOf r.2) r.1, sel := r.1, high := highOf r.2, low := lowOf r.2,
             ratio := r.2 }

/-- The legacy scan (R203, R204): the first entry not faster than `f`, else the last one. -/
def calcLegacy (inputClk f : Nat) : List (Nat × Word) → Option Word
  | [] => none
  | [e] => some e.2
  | e :: rest => if inputClk / e.1 ≤ f then some e.2 else calcLegacy inputClk f rest

/-- `calc` (R200 to R202). -/
def calcTiming (p : Params) (clkDiv : Word) (f : Nat) : Option Word :=
  match p.clkDivMode with
  | .new => (calcNew p.inputClk (p.baseClk clkDiv) p.timingExtra f).map Timing.word
  | .legacy => if f = 0 ∨ p.inputClk = 0 then none else calcLegacy p.inputClk f p.legacyTable

/-! ## The timing engine (R220 to R222) -/

/-- A non-negative fraction. -/
structure Fraction where
  num : Nat
  den : Nat
  deriving DecidableEq, Repr, Inhabited

/-- Two fractions stand for the same number. -/
def Fraction.same (a b : Fraction) : Bool := a.num * b.den == b.num * a.den

/-- `a ≤ b`. -/
def Fraction.le (a b : Fraction) : Bool := decide (a.num * b.den ≤ b.num * a.den)

/-- BASE_SEL of a timing word (R36). -/
def baseSel (w : Word) : Nat := (w.extractLsb' 0 4).toNat

/-- SCL_LOW. -/
def sclLow (w : Word) : Nat := (w.extractLsb' 12 4).toNat

/-- SCL_HIGH. -/
def sclHigh (w : Word) : Nat := (w.extractLsb' 16 4).toNat

/-- `Tick(b)` in Hz (R220). -/
def tick (mode : ClkDivMode) (inputClk : Nat) (base : Nat → Nat) (b : Nat) : Fraction :=
  match mode with
  | .legacy => { num := inputClk, den := 2 ^ b }
  | .new =>
    if b = 0 then { num := inputClk, den := 1 }
    else if b ≤ 4 then { num := base b, den := 1 }
    else { num := base 4, den := 2 ^ (b - 4) }

/-- Ticks of the low phase of a clock pulse (R221). -/
def lowTicks (w : Word) : Nat := sclLow w + 1

/-- Ticks of the high phase of a clock pulse (R221). -/
def highTicks (w : Word) : Nat := sclHigh w + 1

/-- The SCL frequency of a timing word with no stretching (R222). -/
def sclFrequency (mode : ClkDivMode) (inputClk : Nat) (base : Nat → Nat) (w : Word) : Fraction :=
  let t := tick mode inputClk base (baseSel w)
  { num := t.num, den := t.den * (sclHigh w + sclLow w + 2) }

/-- The SCL frequency of bus `b` of a part, by the timing word its SCL generator uses (R225). -/
def Bus.sclFreq (p : Params) (clkDiv : Word) (b : Bus) : Fraction :=
  sclFrequency p.clkDivMode p.inputClk (p.baseClk clkDiv) b.sclTiming

end Sys2Proof
end

