-- ==== Sys2Proof/Machine/Flags.lean ====
section
/-! DEFINITION. Status bits: masks, setting, clearing, the interrupt lines and the multiplexer (10_state.md R60, R61, R73; 30_encoding.md R145;
60_exceptions.md R500 to R510), and the completion and intermediate bits of a command (44_status_decoder.md R404). -/

namespace Sys2Proof

/-! ## Masks (R60, R145, R402) -/

def maskTxAck : Word := 0x0001
def maskTxNak : Word := 0x0002
def maskRxDone : Word := 0x0004
def maskArbLoss : Word := 0x0008
def maskNormalStop : Word := 0x0010
def maskAbnormal : Word := 0x0020
def maskSclTimeout : Word := 0x0040
def maskSlaveMatch : Word := 0x0080
def maskRecoverDone : Word := 0x2000
def maskSdaTimeout : Word := 0x4000

/-- ERR_MASK (R145). -/
def errMask : Word := 0x4068

/-- ISR_IMPL (R60). -/
def isrImpl : Word := 0x60FF

/-- MASTER_BITS (R402). -/
def masterBits : Word := 0x607F

/-- SLAVE_BITS (R402). -/
def slaveBits : Word := 0x40F7

/-- Whether the word holds any bit of the mask. -/
def hasAny (v m : Word) : Bool := v &&& m != 0

/-- The status bit of a fault (41_line_driver.md R257). -/
def SlotFault.bit : SlotFault → Word
  | .arb => maskArbLoss
  | .sclTo => maskSclTimeout
  | .sdaTo => maskSdaTimeout
  | .abn _ => maskAbnormal

/-- `set_status(M)` (R505): taking an exception sets its bits, whatever IER holds. -/
def Bus.setStatus (m : Word) (b : Bus) : Bus := { b with isr := b.isr ||| m }

/-- A host write of `v` to ISR (R61): write one to clear, the return from an exception (R515). -/
def Bus.clearStatus (v : Word) (b : Bus) : Bus := { b with isr := b.isr &&& ~~~(v &&& isrImpl) }

/-- The bus interrupt line (R506). -/
def Bus.irq (b : Bus) : Bool := hasAny b.isr b.ier

/-- The GISR word of a list of buses, the first one at bit `i` (R73). -/
def gisrFrom (i : Nat) : List Bus → Word
  | [] => 0
  | b :: rest => (if b.irq then 1#32 <<< i else 0) ||| gisrFrom (i + 1) rest

/-- GISR (R73, R510). -/
def Machine.State.gisr (s : Machine.State) : Word := gisrFrom 0 s.buses

/-- The one line to the host processor (R510). -/
def Machine.State.irq (s : Machine.State) : Bool := s.buses.any Bus.irq

/-! ## The bits a command sets (R404) -/

/-- `E(c)`: the completion bit. -/
def completionBit (c : BitVec 12) : Word :=
  let w := CmdBits.of c
  if w.p then maskNormalStop else if w.r then maskRxDone else maskTxAck

/-- `I(c)`: the intermediate bits. -/
def intermediateBits (c : BitVec 12) : Word :=
  let w := CmdBits.of c
  (if w.t && completionBit c != maskTxAck then maskTxAck else 0)
    ||| (if w.r && completionBit c == maskNormalStop then maskRxDone else 0)

end Sys2Proof
end

