-- ==== Sys2Proof/Machine/StatusDecoder.lean ====
section
/-! DEFINITION. The interrupt status decoder (44_status_decoder.md R400 to R420): routing, the master decoder and the slave decoder, as
total functions. -/

namespace Sys2Proof

/-- The bits of `v` in `m`. -/
def bitsIn (v m : Word) : Word := v &&& m

/-- `m` when the condition holds. -/
def maskIf (c : Bool) (m : Word) : Word := if c then m else 0

/-- Error bits that end a slave session (R416, R417). -/
def sessionErr : Word := maskAbnormal ||| maskSclTimeout ||| maskSdaTimeout

/-- `slave_claim(sh, st)` (R416). -/
def slaveClaim (sh : SCtx) (st : Word) : Word :=
  let m := hasAny st maskSlaveMatch
  let p := hasAny st maskNormalStop
  match sh with
  | .idle => maskIf m (maskSlaveMatch ||| maskRxDone)
  | .write => maskSlaveMatch ||| maskRxDone ||| maskNormalStop ||| sessionErr
  | .read =>
    maskSlaveMatch ||| maskTxNak ||| maskNormalStop ||| sessionErr ||| maskIf (!p) maskTxAck ||| maskIf m maskRxDone
  | .stop => maskSlaveMatch ||| maskNormalStop ||| sessionErr ||| maskIf m maskRxDone

/-- The master path takes bits: the decoder handles these two states only (R403; log 25). -/
def MCtx.takesBits : MCtx → Bool
  | .cmdIssued => true
  | .recovering => true
  | _ => false

/-- The partition of a status word (R401). -/
structure Routed where
  slave : Word
  master : Word
  unclaimed : Word
  deriving DecidableEq, Repr, Inhabited

/-- `route(sh, ctx, st)` (R401). -/
def route (sh : SCtx) (ctx : MCtx) (st : Word) : Routed :=
  let ss := st &&& slaveClaim sh st
  let rest := st &&& ~~~ss
  let sm := maskIf ctx.takesBits (rest &&& masterBits)
  { slave := ss, master := sm, unclaimed := rest &&& ~~~sm }

/-- The slave path runs first (R401). -/
def slaveFirst (sh : SCtx) (st : Word) : Bool := hasAny st maskSlaveMatch || sh != .idle

/-- `decode_master(MH_CMD_ISSUED, c, m)` (R405). -/
def decodeIssued (c : BitVec 12) (m : Word) : MOutcome :=
  if hasAny m maskArbLoss then .error .retryable
  else if hasAny m (maskSclTimeout ||| maskSdaTimeout) then .error .busCondition
  else if hasAny m maskAbnormal then .error .protocol
  else if hasAny m maskTxNak then .error .addressing
  else if hasAny m (completionBit c) then .chunkDone
  else if hasAny m (intermediateBits c) then .notYet
  else if m = 0 then .none
  else .unrecognized

/-- `decode_master(MH_RECOVERING, c, m)` (R408). -/
def decodeRecovering (m : Word) : MOutcome :=
  if hasAny m maskRecoverDone then .recoverDone
  else if hasAny m (maskSclTimeout ||| maskSdaTimeout) then .error .busCondition
  else if m = 0 then .none
  else .unrecognized

/-- `decode_master(ctx, c, m)`; in every other state `route` gives the master nothing (R403). -/
def decodeMaster (ctx : MCtx) (c : BitVec 12) (m : Word) : MOutcome :=
  match ctx with
  | .cmdIssued => decodeIssued c m
  | .recovering => decodeRecovering m
  | _ => if m = 0 then .none else .unrecognized

/-- What a slave decode gives (R417). -/
structure SlaveDecoded where
  events : List SlaveEvent
  next : SCtx
  deriving DecidableEq, Repr, Inhabited

/-- R417's first part: data received. `data` holds the bytes of a buffer or DMA batch. -/
def decodeData (path : Path) (rxByte : Byte) (data : List Byte) (sh : SCtx) (s : Word) : List SlaveEvent :=
  if sh == .write && hasAny s maskRxDone && !(hasAny s maskSlaveMatch && path == .byte) then
    if path == .byte then [.writeReceived rxByte] else data.map .writeReceived
  else []

/-- R417's second part: the transmit outcome. -/
def decodeTx (sh : SCtx) (s : Word) : List SlaveEvent × SCtx :=
  if sh == .read && hasAny s maskTxNak then ([], .stop)
  else if sh == .read && hasAny s maskTxAck then ([.readProcessed], sh)
  else ([], sh)

/-- R417's third and fourth parts: an error or a STOP ends the session. -/
def decodeEnd (m : Word) (sh : SCtx) (s : Word) : List SlaveEvent × SCtx :=
  if sh != .idle && hasAny s m then ([.stop], .idle) else ([], sh)

/-- R417's fifth part: a new address match. -/
def decodeMatch (rxByte : Byte) (sh : SCtx) (s : Word) : List SlaveEvent × SCtx :=
  if hasAny s maskSlaveMatch then
    if rxByte.getLsbD 0 then ([.readRequested], .read) else ([.writeRequested], .write)
  else ([], sh)

/-- `decode_slave(sh, s)` (R417). -/
def decodeSlave (path : Path) (rxByte : Byte) (data : List Byte) (sh : SCtx) (s : Word) : SlaveDecoded :=
  let e1 := decodeData path rxByte data sh s
  let (e2, sh2) := decodeTx sh s
  let (e3, sh3) := decodeEnd sessionErr sh2 s
  let (e4, sh4) := decodeEnd maskNormalStop sh3 s
  let (e5, sh5) := decodeMatch rxByte sh4 s
  { events := e1 ++ e2 ++ e3 ++ e4 ++ e5, next := sh5 }

/-- Claimed bits that produce no event: the host logs them as unrecognized (R417, last sentence). TX_NAK moves the session and
produces none. DESIGN CHOICE (log 52): a RX_DONE claimed together with SLAVE_MATCH is the match's own (43_slave.md R362), whose event is
the request, so it is not logged where it gives no WRITE_RECEIVED. -/
def slaveUnused (path : Path) (rxByte : Byte) (data : List Byte) (sh : SCtx) (s : Word) : Word :=
  let m := hasAny s maskSlaveMatch
  let sh2 := (decodeTx sh s).2
  let sh3 := (decodeEnd sessionErr sh2 s).2
  s &&& ~~~(maskSlaveMatch
    ||| maskIf (m || decodeData path rxByte data sh s != []) maskRxDone
    ||| maskIf (sh == .read && !hasAny s maskTxNak) maskTxAck
    ||| maskIf (sh2 != .idle) sessionErr
    ||| maskIf (sh3 != .idle) maskNormalStop)

end Sys2Proof
end

