-- ==== Sys2Proof/Machine/HostPlan.lean ====
section
/-! DEFINITION. What the host sequencer decides, as pure functions (45_host_sequencer.md R440 to R463): command selection, chunk and error
accounting, and the operations each decision lines up. -/

namespace Sys2Proof

/-! ## Register offsets and words (10_state.md R33) -/

def offFunCtrl : Nat := 0x00
def offTiming : Nat := 0x04
def offTimeout : Nat := 0x08
def offIer : Nat := 0x0C
def offIsr : Nat := 0x10
def offCmd : Nat := 0x14
def offDevAddr : Nat := 0x18
def offBufCtrl : Nat := 0x1C
def offByteBuf : Nat := 0x20
def offDmaAddr : Nat := 0x24
def offDmaLen : Nat := 0x28

def funMasterEn : Word := 0x1
def funSlaveEn : Word := 0x2
def funMmDis : Word := 0x8000

/-- The address byte of R142. -/
def addrByte (a : BitVec 7) (rw : Bool) : Byte := (a.setWidth 8 <<< 1) ||| (if rw then 1 else 0)

/-! ## Staging (R446) -/

/-- CHUNK(P) of R442. -/
def Params.chunk (p : Params) : Path → Nat
  | .byte => 1
  | .buf => p.bufSize
  | .dma => p.dmaMax

/-- Pool words from word `w` on, four bytes each; `fuel` is at least the number of words. -/
def poolWrites : Nat → Nat → List Byte → List HOp
  | 0, _, _ => []
  | fuel + 1, w, bytes => if bytes = [] then [] else HOp.pw w (bytes.take 4) :: poolWrites fuel (w + 1) (bytes.drop 4)

/-- Byte `i` of a message; a free value where its buffer holds fewer (log 44). -/
def Msg.byteAt (m : Msg) (i : Nat) : Byte := m.buf.getD i (Config.missingByte i)

/-- `m.buf[x .. x+k-1]`. -/
def Msg.bytes (m : Msg) (x k : Nat) : List Byte := (List.range k).map (fun i => m.byteAt (x + i))

/-- DMA_ADDR and DMA_LEN of a chunk. DESIGN CHOICE (log 42): where `m.phys + x` reaches 2^32 the low 32 bits are written. -/
def stageDma (m : Msg) (x k : Nat) : List HOp :=
  [HOp.wr offDmaAddr (m.phys + BitVec.ofNat 32 x), HOp.wr offDmaLen (BitVec.ofNat 32 k)]

/-- `stage_tx(P, m, x, k)` (R446). DESIGN CHOICE (log 45): `k - 1` is 0 for `k = 0`. -/
def stageTx (path : Path) (m : Msg) (x k : Nat) : List HOp :=
  match path with
  | .byte => []
  | .buf => poolWrites k 0 (m.bytes x k) ++ [HOp.wr offBufCtrl (BitVec.ofNat 32 (k - 1) <<< 8)]
  | .dma => stageDma m x k

/-- `stage_rx(P, m, x, k)` (R446). DESIGN CHOICE (log 45): `k - 1` is 0 for `k = 0`. -/
def stageRx (path : Path) (m : Msg) (x k : Nat) : List HOp :=
  match path with
  | .byte => []
  | .buf => [HOp.wr offBufCtrl (BitVec.ofNat 32 (k - 1) <<< 16)]
  | .dma => stageDma m x k

/-! ## Command selection (R444) -/

/-- `addr a7, rw` (30_encoding.md R161). -/
def stageAddr (a : BitVec 7) (rw : Bool) : HOp := HOp.wr offByteBuf ((addrByte a rw).setWidth 32)

/-- M_STOP when the condition holds. -/
def stopIf (c : Bool) : BitVec 12 := if c then bitsStop else 0

/-- The staging operations and the word of the next command of a write. DESIGN CHOICE (log 45): `rem` is 0 where a count sampled late moved
more than the chunk, so `xfer` is beyond `len_eff`. -/
def nextWrite (p : Params) (path : Path) (t : Txn) (m : Msg) (last : Bool) : List HOp × BitVec 12 :=
  let rem := t.lenEff - t.xfer
  if m.len = 0 then ([stageAddr m.addr7 false], bitsStart ||| stopIf last)
  else
    match path with
    | .byte =>
      if t.started then
        ([HOp.wr offByteBuf ((m.byteAt t.xfer).setWidth 32)], bitsTx .byte ||| stopIf (last && rem == 1))
      else ([stageAddr m.addr7 false], bitsStart)
    | path =>
      let k := min rem (p.chunk path)
      let stop := stopIf (last && k == rem)
      if t.started then (stageTx path m t.xfer k, bitsTx path ||| stop)
      else (stageTx path m t.xfer k ++ [stageAddr m.addr7 false], bitsStart ||| bitsTx path ||| stop)

/-- The staging operations and the word of the next command of a read; RX_LAST by R448. DESIGN CHOICE (log 45): `rem` as in `nextWrite`. -/
def nextRead (p : Params) (path : Path) (t : Txn) (m : Msg) (last : Bool) : List HOp × BitVec 12 :=
  let rem := t.lenEff - t.xfer
  let k := if t.varlenPending then 1 else min rem (p.chunk path)
  let fin := !t.varlenPending && k == rem
  let word := bitsRx path fin ||| stopIf (fin && last)
  if t.started then (stageRx path m t.xfer k, word)
  else (stageRx path m t.xfer k ++ [stageAddr m.addr7 true], bitsStart ||| word)

/-- `next_cmd(T)` (R444): the staging operations, the word, and T with `started` set. -/
def nextCmd (p : Params) (path : Path) (t : Txn) : List HOp × BitVec 12 × Txn :=
  match t.msgs[t.idx]? with
  | none => ([], 0, t)
  | some m =>
    let last := t.idx + 1 == t.msgs.length
    let r := match m.dir with
      | .write => nextWrite p path t m last
      | .read => nextRead p path t m last
    (r.1, r.2, { t with started := true })

/-- `issue(next_cmd(T))`: the host with T updated, and the operations that stage and issue the command. -/
def HostBus.issueNext (p : Params) (h : HostBus) : HostBus × List HOp :=
  let r := nextCmd p h.mode h.txn
  ({ h with txn := r.2.2 }, r.1 ++ [HOp.issue r.2.1])

/-! ## The transaction's start and end (R446, R460) -/

/-- T at a new submission (R460). -/
def Txn.start (msgs : List Msg) : Txn :=
  { msgs := msgs, idx := 0, xfer := 0, lenEff := (msgs.head?.map Msg.len).getD 0, started := false,
    varlenPending := (msgs.head?.map Msg.varlen).getD false, terminating := false, err := none, done := false, cmd := 0 }

/-- `finish(T, r)` (R446). -/
def HostBus.finish (r : Option ErrClass) (h : HostBus) : HostBus :=
  { h with ctx := if r = none then .complete else .error, txn := { h.txn with err := r, done := true } }

/-- The result of an error class (R449). -/
def ErrClass.result : ErrClass → HostErr
  | .retryable => .retryable
  | .busCondition => .bus
  | .protocol => .protocol
  | .addressing => .addressing

/-- What `submit` returns when T is done (R460). -/
def Txn.result (t : Txn) : HostResult :=
  match t.err with
  | none => .count t.msgs.length
  | some e => .err e.result

/-- The number an entry point returns for a result (R449); OK is 0. -/
def HostResult.value (e : ErrCodes) : HostResult → Int
  | .ok => 0
  | .count n => n
  | .err .retryable => e.retryable
  | .err .bus => e.bus
  | .err .protocol => e.protocol
  | .err .addressing => e.addressing
  | .err .timeout => e.timeout
  | .err .busy => e.busy
  | .err .invalid => e.invalid

/-! ## Chunk completion (R446, R447) -/

/-- The command has no data phase (R446): MSTART or MSTART.STOP. -/
def noData (c : BitVec 12) : Bool := c == 0x003 || c == 0x023

/-- Bytes moved by the command (R446); `count` is the length register read. -/
def movedBytes (path : Path) (c : BitVec 12) (count : Nat) : Nat :=
  if noData c then 0
  else
    match path with
    | .byte => 1
    | _ => count

/-- The caller's buffer with `bytes` put at `x`; a place before `x` that it does not have holds a free value (log 44). -/
def putBytes (buf : List Byte) (x : Nat) (bytes : List Byte) : List Byte :=
  (List.range x).map (fun i => buf.getD i (Config.missingByte i)) ++ bytes ++ buf.drop (x + bytes.length)

/-- The message list with the buffer of message `i` replaced. -/
def setBuf (msgs : List Msg) (i : Nat) (buf : List Byte) : List Msg :=
  match msgs[i]? with
  | none => msgs
  | some m => msgs.set i { m with buf := buf }

/-- `varlen_resolve(T)` with first byte `b0` (R447). -/
def HostBus.varlenResolve (p : Params) (m : Msg) (b0 : Nat) (h : HostBus) : HostBus × List HOp :=
  let pec := if p.pec then 1 else 0
  if 1 ≤ b0 && b0 ≤ p.varlenMax && b0 + 1 + pec ≤ m.len then
    { h with txn := { h.txn with varlenPending := false, lenEff := b0 + 1 + pec } }.issueNext p
  else
    ({ h with txn := { h.txn with varlenPending := false, err := some .protocol, terminating := true } },
      stageRx h.mode m h.txn.xfer 1 ++ [HOp.issue (bitsRx h.mode true ||| bitsStop)])

/-- `on_chunk_done(T, c)` (R446). `count`, `rxByte` and `data` are the registers read in step (1) of 44_status_decoder.md R419;
`memByte` is the first byte of the message's buffer in memory (DMA mode). -/
def HostBus.onChunkDone (p : Params) (count : Nat) (rxByte : Byte) (data : List Byte) (memByte : Byte) (h : HostBus) :
    HostBus × List HOp :=
  if h.txn.terminating then (h.finish h.txn.err, [])
  else
    match h.txn.msgs[h.txn.idx]? with
    | none => (h, [])
    | some m =>
      let moved := movedBytes h.mode h.txn.cmd count
      let bytes : List Byte :=
        match m.dir, h.mode with
        | .read, .byte => [rxByte]
        | .read, .buf => data.take moved
        | _, _ => []
      let buf := putBytes m.buf h.txn.xfer bytes
      let t := { h.txn with msgs := setBuf h.txn.msgs h.txn.idx buf, xfer := h.txn.xfer + moved }
      if t.varlenPending then
        let b0 := if h.mode == .dma then memByte else buf.getD 0 (Config.missingByte 0)
        { h with txn := t }.varlenResolve p m b0.toNat
      else if t.xfer = t.lenEff then
        let t2 := { t with idx := t.idx + 1, xfer := 0, started := false }
        match t2.msgs[t2.idx]? with
        | none => ({ h with txn := t2 }.finish none, [])
        | some m2 => { h with txn := { t2 with lenEff := m2.len, varlenPending := m2.varlen } }.issueNext p
      else { h with txn := t }.issueNext p

/-! ## Errors (R449) -/

/-- `on_error(T, c, e, m_bits)` (R449). -/
def HostBus.onError (e : ErrClass) (m : Word) (h : HostBus) : HostBus × List HOp :=
  let c := h.txn.cmd
  let h1 := { h with txn := { h.txn with err := some (h.txn.err.getD e) } }
  if h1.txn.terminating then (h1.finish h1.txn.err, [])
  else if e == .addressing && (CmdBits.of c).p && !hasAny m maskNormalStop then
    ({ h1 with txn := { h1.txn with terminating := true } }, [])
  else if e == .addressing && !(CmdBits.of c).p then
    ({ h1 with txn := { h1.txn with terminating := true } }, [HOp.issue bitsStop])
  else (h1.finish h1.txn.err, [])

/-! ## The master action of an outcome (R459) -/

/-- What the dispatcher does for outcome `o` of master bits `m`. -/
def HostBus.onOutcome (p : Params) (o : MOutcome) (m : Word) (count : Nat) (rxByte : Byte) (data : List Byte) (memByte : Byte)
    (h : HostBus) : HostBus × List HOp :=
  if h.ctx == .recovering then
    match o with
    | .recoverDone => ({ h with recov := { h.recov with done := true, outcome := some o } }, [])
    | .error _ => ({ h with recov := { h.recov with done := true, outcome := some o } }, [])
    | _ => (h, [])
  else
    match o with
    | .chunkDone => h.onChunkDone p count rxByte data memByte
    | .error e => h.onError e m
    | _ => (h, [])

/-! ## Slave actions (R455) -/

/-- The armed capacity of the instance's slave receive path (R455). -/
def Params.slaveCap (p : Params) : Path → Nat
  | .byte => 0
  | .buf => p.bufSize
  | .dma => p.slaveDmaCap

/-- Arm the slave's receive path (R455). -/
def armOps (p : Params) : Path → List HOp
  | .byte => []
  | .buf => [HOp.wr offBufCtrl (BitVec.ofNat 32 (p.bufSize - 1) <<< 16), HOp.cmd 0x080]
  | .dma => [HOp.wr offDmaAddr p.slaveDmaPhys, HOp.wr offDmaLen (BitVec.ofNat 32 p.slaveDmaCap), HOp.cmd 0x200]

/-- Whether the handler's log takes an event: the echo handler's log holds no read request (R462); the log of a drawn handler is the
model's record of its calls. -/
def Handler.logs (e : SlaveEvent) : Handler → Bool
  | .drawn => true
  | .echo _ => e != .readRequested && e != .readProcessed

/-- The byte a handler returns: a draw, or the echo handler's fixed byte (R462). -/
def Handler.answer (draw : Byte) : Handler → Byte
  | .drawn => draw
  | .echo b => b

/-- The handler call for an event, then the action (R455). With no handler there is neither (log 37). -/
def HostBus.onSlaveEvent (e : SlaveEvent) (draw : Byte) (h : HostBus) : HostBus × List HOp :=
  match h.handler with
  | none => (h, [])
  | some k =>
    let h1 := if k.logs e then { h with slaveLog := h.slaveLog ++ [e] } else h
    match e with
    | .writeRequested => (h1, [HOp.arm])
    | .readRequested => (h1, [HOp.wr offByteBuf ((k.answer draw).setWidth 32), HOp.cmd 0x004])
    | .readProcessed => (h1, [HOp.wr offByteBuf ((k.answer draw).setWidth 32), HOp.cmd 0x004])
    | _ => (h1, [])

/-! ## One dispatch (R459, R419) -/

/-- The slave path needs the bytes of a batch. -/
def batchNeeded (h : HostBus) (ss : Word) : Bool :=
  h.sh == .write && hasAny ss maskRxDone && h.mode != .byte

/-- The slave path needs RX_BYTE: an address, or a byte-mode data byte. -/
def slaveByteNeeded (h : HostBus) (ss : Word) : Bool :=
  hasAny ss maskSlaveMatch || (h.sh == .write && hasAny ss maskRxDone && h.mode == .byte)

/-- The master path accounts for a chunk. -/
def chunkNeeded (h : HostBus) (o : MOutcome) : Bool := h.ctx == .cmdIssued && o == .chunkDone && !h.txn.terminating

/-- The message in hand is a read. -/
def Txn.reading (t : Txn) : Bool :=
  match t.msgs[t.idx]? with
  | some m => m.dir == .read
  | none => false

/-- Step (1) of R419: the data registers that the outcomes need. -/
def readOps (h : HostBus) (st : Word) : List HOp :=
  let r := route h.sh h.ctx st
  let chunk := chunkNeeded h (decodeMaster h.ctx h.txn.cmd r.master)
  let batch := batchNeeded h r.slave
  (if slaveByteNeeded h r.slave || (chunk && h.mode == .byte && h.txn.reading) then [HOp.rdByte] else [])
    ++ (if batch || (chunk && h.mode != .byte && !noData h.txn.cmd) then [HOp.rdCount] else [])
    ++ (if h.mode == .buf && (batch || (chunk && !noData h.txn.cmd && h.txn.reading)) then [HOp.rdData] else [])
    ++ (if h.mode == .dma && batch then [HOp.rdMem] else [])

/-- The re-arm at the end of a full batch (R455): the count read is the armed capacity and the decode leaves the session in SH_WRITE,
a new WRITE_REQUESTED, which arms as well, or not. With no handler there is none (log 37). -/
def rearmOps (p : Params) (h : HostBus) (ss : Word) (count : Nat) (next : SCtx) : List HOp :=
  if batchNeeded h ss && count == p.slaveCap h.mode && next == .write && h.handler != none then [HOp.arm] else []

/-- The slave's part of step (3): the events in their order, the re-arm where the batch ends (log 36). -/
def slaveOps (p : Params) (h : HostBus) (ss : Word) (rxByte : Byte) (count : Nat) (data : List Byte) : List HOp :=
  if ss = 0 then []
  else
    let d := decodeSlave h.mode rxByte (data.take count) h.sh ss
    let batch := (decodeData h.mode rxByte (data.take count) h.sh ss).length
    (d.events.take batch).map .slaveEv ++ rearmOps p h ss count d.next ++ (d.events.drop batch).map .slaveEv
      ++ [HOp.setSh d.next]

/-- The master's part of step (3). -/
def masterOps (h : HostBus) (sm : Word) : List HOp :=
  if h.ctx.takesBits then [HOp.master (decodeMaster h.ctx h.txn.cmd sm) sm] else []

/-- The bits that the dispatcher logs (R409, R459). -/
def unrecognizedBits (h : HostBus) (r : Routed) (rxByte : Byte) (count : Nat) (data : List Byte) : Word :=
  r.unclaimed ||| slaveUnused h.mode rxByte (data.take count) h.sh r.slave
    ||| maskIf (decodeMaster h.ctx h.txn.cmd r.master == .unrecognized) r.master

/-- Steps (2) to (4) of R419 for the word `st`, with the data read. -/
def decideOps (p : Params) (h : HostBus) (st : Word) (rxByte : Byte) (count : Nat) (data : List Byte) : List HOp :=
  let r := route h.sh h.ctx st
  let sl := slaveOps p h r.slave rxByte count data
  let ma := masterOps h r.master
  [HOp.wr offIsr (st &&& ~~~(r.slave &&& maskRxDone))]
    ++ (if slaveFirst h.sh st then sl ++ ma else ma ++ sl)
    ++ (if hasAny r.slave maskRxDone then [HOp.wr offIsr maskRxDone] else [])
    ++ [HOp.logBits (unrecognizedBits h r rxByte count data), HOp.busDone]

/-! ## The submitter's programs (R440, R450, R452, R454, R460) -/

/-- The writes of attach (R440), once the calculator has given `w`. -/
def attachOps (p : Params) (w : Word) (mode : Path) (mmShared : Bool) : List HOp :=
  [HOp.wrFun 0, HOp.wr offIer 0, HOp.wr offIsr isrImpl, HOp.wr offTiming w, HOp.wr offTimeout p.hostTimeoutCfg,
   HOp.wrFun (funMasterEn ||| maskIf (!mmShared) funMmDis), HOp.wr offIer isrImpl, HOp.attached mode mmShared, HOp.finish .ok]

/-- attach's first step (R440): the caller check of 40_clock_timing.md R201, and the calculator. -/
def attachPlan (p : Params) (clkDiv : Word) (f : Nat) (mode : Path) (mmShared : Bool) : List HOp :=
  if 1 ≤ f && f ≤ p.inputClk / 2 then
    match calcTiming p clkDiv f with
    | some w => attachOps p w mode mmShared
    | none => [HOp.finish (.err .invalid)]
  else [HOp.finish (.err .invalid)]

/-- recover_bus (R452), up to its CMD read. -/
def recoverOps (saved : Word) : List HOp :=
  let base := saved &&& ~~~(funMasterEn ||| funSlaveEn)
  [HOp.wr offFunCtrl base, HOp.wr offFunCtrl (base ||| funMasterEn), HOp.recLook base saved]

/-- recover_bus after the CMD read `t` (R452). -/
def recoverPlan (base saved t : Word) : List HOp :=
  (if !t.getLsbD 17 && t.getLsbD 18 then
    [HOp.crit true, HOp.wr offIsr (maskRecoverDone ||| maskSclTimeout ||| maskSdaTimeout), HOp.recArm, HOp.cmd 0x800, HOp.crit false,
     HOp.recWait]
   else []) ++ [HOp.wr offFunCtrl base, HOp.wr offFunCtrl saved]

/-- on_expiry after the CMD read `t` (R450). -/
def expiryPlan (funShadow t : Word) : List HOp :=
  if t.getLsbD 16 then [HOp.recover] else [HOp.wr offFunCtrl (funShadow &&& ~~~funMasterEn), HOp.wr offFunCtrl funShadow]

/-- submit's second critical block (R460), entered in the step that lines it up. -/
def beginPlan (p : Params) (msgs : List Msg) (h : HostBus) : HostBus × List HOp :=
  let r := { h with txn := Txn.start msgs, crit := true }.issueNext p
  (r.1, r.2 ++ [HOp.setCtx .cmdIssued, HOp.crit false, HOp.waitDone])

end Sys2Proof
end

