-- ==== Sys2Proof/Machine/Operands.lean ====
section
/-! DEFINITION. The operands of commands: the registers they are read from (30_encoding.md R141), when (20_memory.md R118), and the
counts of data phases (30_encoding.md R143, 42_master_commands.md R331 to R335). -/

namespace Sys2Proof

/-! ## Late sampling (R118) -/

/-- A late sample: the current value, or the `k`-th older one; with no older value it is the current one. -/
def pickOld {α : Type} (cur : α) : List α → Nat → α
  | [], _ => cur
  | _ :: _, 0 => cur
  | x :: _, 1 => x
  | _ :: rest, k + 2 => pickOld cur rest (k + 1)

/-- The older values of index `i` in a list of index and value. -/
def olderAt (i : Nat) (l : List (Nat × Byte)) : List Byte :=
  (l.filter (fun e => e.1 == i)).map Prod.snd

/-- TX_BYTE as a command samples it. -/
def Bus.sampleTxByte (b : Bus) (pk : SrcPick) : Byte := pickOld b.txByte b.stale.txByte pk.txByte

/-- (TX_END, RX_END) as a phase samples BUF_CTRL. -/
def Bus.sampleEnds (b : Bus) (pk : SrcPick) : BitVec 8 × BitVec 8 :=
  pickOld (b.txEnd, b.rxEnd) b.stale.bufCtrl pk.bufCtrl

/-- DMA_ADDR as a phase samples it. -/
def Bus.sampleDmaAddr (b : Bus) (pk : SrcPick) : Word := pickOld b.dmaAddr b.stale.dmaAddr pk.dmaAddr

/-- `dma_len_prog` as a phase samples it. -/
def Bus.sampleDmaLen (b : Bus) (pk : SrcPick) : BitVec 13 := pickOld b.dmaLenProg b.stale.dmaLen pk.dmaLen

/-- `Pool[i]` as a transmit slot samples it. -/
def Bus.samplePool (b : Bus) (i : Nat) (pk : SrcPick) : Byte :=
  pickOld (b.pool.getD i 0) (olderAt i b.stale.pool) pk.pool

/-- An STX that runs (43_slave.md R368). -/
def SState.isTx : SState → Bool
  | .tx _ => true
  | _ => false

/-- Whether a command is pending, so that the older value of a source the host writes must be kept (R118). An STX goes on when a
write that clears MASTER_EN has put CMD to 0 (log 13). -/
def Bus.cmdPending (b : Bus) : Bool := b.cmd != 0 || b.sstate.isTx

/-! ## DMA addresses (20_memory.md R105, R110) -/

/-- `DMA_OK(a)`. -/
def Params.dmaAllowed (p : Params) (a : Nat) : Bool :=
  p.dmaOk.any (fun r => decide (r.1 ≤ a) && decide (a < r.1 + r.2))

/-- The check of a DMA phase of `n` bytes at `a0` (R332, R335, R367, R368). -/
def Params.dmaRangeOk (p : Params) (n : Nat) (a0 : Word) : Bool :=
  decide (1 ≤ n) && decide (n ≤ p.dmaMax) && decide (a0.toNat + n ≤ 2 ^ 32)

/-! ## The counts of data phases -/

/-- The byte count of a transmit phase at its start, and the bus with `dma_ptr` set; none where the phase is refused
(R330 to R332). -/
def Bus.beginTx (p : Params) (path : Path) (pk : SrcPick) (b : Bus) : Option (Nat × Bus) :=
  match path with
  | .byte => some (1, b)
  | .buf =>
    let n := (b.sampleEnds pk).1.toNat + 1
    if n ≤ p.bufSize then some (n, b) else none
  | .dma =>
    let n := (b.sampleDmaLen pk).toNat
    let a0 := b.sampleDmaAddr pk
    if p.dmaRangeOk n a0 then some (n, { b with dmaPtr := a0 }) else none

/-- The byte count of a receive phase at its start (R333 to R335). The record of overwritten bytes starts anew. -/
def Bus.beginRx (p : Params) (path : Path) (pk : SrcPick) (b : Bus) : Option (Nat × Bus) :=
  match path with
  | .byte => some (1, b)
  | .buf =>
    let n := (b.sampleEnds pk).2.toNat + 1
    if n ≤ p.bufSize then some (n, { b with rxOldPool := [] }) else none
  | .dma =>
    let n := (b.sampleDmaLen pk).toNat
    let a0 := b.sampleDmaAddr pk
    if p.dmaRangeOk n a0 then some (n, { b with dmaPtr := a0, rxOldMem := [] }) else none

/-- The capacity of a slave receive path, none where SRXARM is refused (R367), and the base address of the DMA path. -/
def Bus.armCap (p : Params) (path : Path) (b : Bus) : Option Nat :=
  match path with
  | .byte => none
  | .buf => if b.rxEnd.toNat + 1 ≤ p.bufSize then some (b.rxEnd.toNat + 1) else none
  | .dma => if p.dmaRangeOk b.dmaLenProg.toNat b.dmaAddr then some b.dmaLenProg.toNat else none

/-- The length of a slave transmit phase, none where STX is refused (R368). -/
def Bus.stxCap (p : Params) (path : Path) (b : Bus) : Option Nat :=
  match path with
  | .byte => some 1
  | .buf => if b.txEnd.toNat + 1 ≤ p.bufSize then some (b.txEnd.toNat + 1) else none
  | .dma => if p.dmaRangeOk b.dmaLenProg.toNat b.dmaAddr then some b.dmaLenProg.toNat else none

/-- The register that reports the bytes moved gets `k` (R42, R45, R46): none on the byte path. -/
def Bus.setMoved (path : Path) (k : Nat) (b : Bus) : Bus :=
  match path with
  | .byte => b
  | .buf => { b with bufCount := BitVec.ofNat 8 k }
  | .dma => { b with dmaMoved := BitVec.ofNat 13 k }

end Sys2Proof
end

