-- ==== Sys2Proof/Machine/Ops.lean ====
section
/-! DEFINITION. The shared operations: system memory, the wires, refusal, the master abort (taking an exception, 41_line_driver.md R257)
and the end of a command (42_master_commands.md R303), the FUN_CTRL write (10_state.md R35), and the acceptance of commands
(42_master_commands.md R300, R304, R338; 43_slave.md R367, R368). -/

namespace Sys2Proof

/-! ## System memory (20_memory.md R100, R116) -/

/-- The byte at an address. -/
def Memory.read : Memory → Nat → Byte
  | [], _ => Memory.unlisted
  | c :: rest, a => if a < c.1 then Memory.unlisted else if c.1 = a then c.2 else Memory.read rest a

/-- The memory with `v` at address `a`, in canonical form again. -/
def Memory.write : Memory → Nat → Byte → Memory
  | [], a, v => if v = Memory.unlisted then [] else [(a, v)]
  | c :: rest, a, v =>
    if a < c.1 then (if v = Memory.unlisted then c :: rest else (a, v) :: c :: rest)
    else if c.1 = a then (if v = Memory.unlisted then rest else (a, v) :: rest)
    else c :: Memory.write rest a v

/-- Every listed address is above `lo`, rising, below 2^32, and no listed byte is what an unlisted one reads as. -/
def Memory.wfFrom : Int → Memory → Bool
  | _, [] => true
  | lo, c :: rest =>
    decide (lo < c.1) && decide (c.1 < 2 ^ 32) && decide (c.2 ≠ Memory.unlisted) && Memory.wfFrom c.1 rest

/-- The canonical form of system memory. -/
def Memory.wf (m : Memory) : Bool := Memory.wfFrom (-1) m

/-! ## The wires (10_state.md R55 to R58) -/

/-- Two open-drain drivers on one line. -/
def Drive.and : Drive → Drive → Drive
  | .rel, .rel => .rel
  | _, _ => .low

/-- `drv_scl` (R55): LOW when the master or the slave function pulls it low. -/
def Bus.drvScl (b : Bus) : Drive := Drive.and b.mDrv.scl b.sDrv.scl

/-- `drv_sda` (R55). -/
def Bus.drvSda (b : Bus) : Drive := Drive.and b.mDrv.sda b.sDrv.sda

/-- The level of SCL (R57). -/
def Bus.scl (b : Bus) : Bool := b.drvScl == .rel && b.env.scl == .rel

/-- The level of SDA (R57). -/
def Bus.sda (b : Bus) : Bool := b.drvSda == .rel && b.env.sda == .rel

/-- The engine monitors the bus while either function is enabled (41_line_driver.md R260). -/
def Bus.monitoring (b : Bus) : Bool := b.masterEn || b.slaveEn

/-- Both timeouts are enabled (R37). -/
def Bus.timeoutsOn (b : Bus) : Bool := b.timeout != 0

/-! ## Refusal (10_state.md R54) -/

/-- Set the refusal mark. -/
def Bus.refuse (b : Bus) : Bus := { b with refused := true }

/-! ## The end of commands -/

/-- `m_abort(M)` (R257). The partial count is recorded by the phase before it. DESIGN CHOICE (log 12): the two lines are released by
the master function; where this bus's own slave stretches (a START on a busy bus drawn ARB_LOSS, R305) its hold of SCL stays, by
43_slave.md R364 and R373. -/
def Bus.mAbort (m : Word) (b : Bus) : Bus :=
  Bus.setStatus m { b with mDrv := {}, own := false, cmd := 0, mstate := .idle }

/-- The TIMING word in use after a slot that a fault ended, by the draw of 40_clock_timing.md R225. -/
def Bus.faultTiming (pk : SrcPick) (b : Bus) : Word := if pk.timing = 0 then b.timing else b.sclTiming

/-- A slot's fault (R245, R246): an abnormal START or STOP on the wires moves `bus_busy` (R262), then the abort. -/
def Bus.slotFault (f : SlotFault) (pk : SrcPick) (b : Bus) : Bus :=
  match f with
  | .abn .stop => Bus.mAbort f.bit { b with busBusy := false, sclTiming := b.faultTiming pk }
  | .abn .start => Bus.mAbort f.bit { b with busBusy := true, sclTiming := b.faultTiming pk }
  | _ => Bus.mAbort f.bit { b with sclTiming := b.faultTiming pk }

/-- `end_command()` (R303). -/
def Bus.endCommand (b : Bus) : Bus :=
  if b.own then { b with cmd := 0, mstate := .hold, mDrv := { b.mDrv with scl := .low } }
  else { b with cmd := 0, mstate := .idle }

/-- The command bits that a phase of the list still holds pending (R39, R302). -/
def Phase.bits : Phase → BitVec 12
  | .addr => bitsStart
  | .tx p => bitsTx p
  | .rx p l => bitsRx p l
  | .stop => bitsStop

/-- The command bits of a list of phases. -/
def pendingBits : List Phase → BitVec 12
  | [] => 0
  | ph :: rest => ph.bits ||| pendingBits rest

/-- Go on to the phases `rest`, in the step that ends the one before: each phase's own bits of CMD read 0 after it (R302), and
after the last one the command ends (R303, 20_memory.md R113). -/
def Bus.nextPhase (rest : List Phase) (b : Bus) : Bus :=
  match rest with
  | [] => b.endCommand
  | ph :: more => { b with cmd := b.cmd &&& pendingBits (ph :: more), mstate := .exec (ph :: more) .fresh }

/-- The phases that an N leaves (R309): the STOP alone. -/
def afterNak (rest : List Phase) : List Phase := rest.filter (fun ph => ph == .stop)

/-- The phase list of a command word (R301). -/
def phaseList (c : BitVec 12) : List Phase :=
  let w := CmdBits.of c
  let txPath : Path := if w.b then .buf else if w.d then .dma else .byte
  let rxPath : Path := if w.c then .buf else if w.e then .dma else .byte
  (if w.s then [.addr] else []) ++ (if w.td then [.tx txPath] else []) ++ (if w.r then [.rx rxPath w.l] else [])
    ++ (if w.p then [.stop] else [])

/-! ## The slave session's ends -/

/-- A pending STX's bits of CMD clear (R368, R380). -/
def Bus.clearStx (b : Bus) : Bus := if b.sstate.isTx then { b with cmd := 0 } else b

/-- A pending STX ends on the wires (R360, R368, R376 to R378): its bits of CMD clear, and the register that reports its path's
bytes takes `s_count` (10_state.md R42, R45; 60_exceptions.md R501; log 40). -/
def Bus.dropStx (b : Bus) : Bus :=
  match b.sstate with
  | .tx path => Bus.setMoved path b.sCount { b with cmd := 0 }
  | _ => b

/-- The slave function releases both lines. -/
def Bus.slaveRelease (b : Bus) : Bus := { b with sDrv := {} }

/-! ## FUN_CTRL (10_state.md R34, R35) -/

/-- R35's first bullet: MASTER_EN goes from 1 to 0. The lines released are the master function's (log 12). -/
def Bus.masterOff (b : Bus) : Bus :=
  { b with mDrv := {}, own := false, cmd := 0, mstate := .off }

/-- R35's second bullet: SLAVE_EN goes from 1 to 0 (43_slave.md R380). -/
def Bus.slaveOff (b : Bus) : Bus := { b.clearStx.slaveRelease with sstate := .off }

/-- The effect of a FUN_CTRL write whose enables are `m` and `sl` and whose bit 15 is `d` (R35). DESIGN CHOICE (log 48): SLAVE_EN set while
`own = 1` gives S_IDLE, by R35's last bullet, where 43_slave.md R363 has S_IGNORE. -/
def Bus.writeFunCtrl (m sl d : Bool) (b : Bus) : Bus :=
  let b1 := if b.masterEn && !m then b.masterOff else b
  let b2 := if b.slaveEn && !sl then b1.slaveOff else b1
  let b3 := if !m && !sl then { b2 with busBusy := false } else b2
  let b4 := if !b.masterEn && m then { b3 with mstate := .idle } else b3
  let b5 := if !b.slaveEn && sl then { b4 with sstate := .idle } else b4
  { b5 with masterEn := m, slaveEn := sl, multiMasterDis := d }

/-! ## The buses of the state -/

namespace Machine

/-- The state with bus `n` replaced. -/
def State.setBus (s : State) (n : Nat) (b : Bus) : State := { s with buses := s.buses.set n b }

/-- A command's effect on the bus whose CMD register is written. -/
def State.onSel (f : Bus → Bus) (s : State) : Result :=
  match s.buses[s.sel]? with
  | none => .fault .noSuchBus
  | some b => .next (s.setBus s.sel (f b))

end Machine

/-! ## Acceptance (42_master_commands.md R300, R304, R338) -/

/-- The master is in the middle of a command (R338). -/
def MState.busy : MState → Bool
  | .exec _ _ => true
  | .recover _ => true
  | _ => false

/-- A command becomes CMD's pending bits (R150, R300); the record of older source values starts anew (R118). -/
def Bus.accept (c : BitVec 12) (m : MState) (b : Bus) : Bus := { b with cmd := c, mstate := m, stale := {} }

/-- A command with M_START is accepted in M_IDLE and M_HOLD (R304), and not while STX runs (R338). -/
def Bus.takesStart (b : Bus) : Bool := (b.mstate == .idle || b.mstate == .hold) && !b.sstate.isTx

/-- MTX and MRX forms are accepted in M_HOLD only (R304). -/
def Bus.takesData (b : Bus) : Bool := b.mstate == .hold && !b.sstate.isTx

/-- MSTOP is accepted in M_HOLD, and in M_IDLE by R339 (R304). -/
def Bus.takesStop (b : Bus) : Bool := (b.mstate == .idle || b.mstate == .hold) && !b.sstate.isTx

/-- RECOVER is accepted in M_IDLE only (R304, R337). -/
def Bus.takesRecover (b : Bus) : Bool := b.mstate == .idle && !b.sstate.isTx

/-- A master command of word `c` and phases `ph`, accepted where `ok` holds and refused elsewhere. -/
def Bus.command (ok : Bus → Bool) (c : BitVec 12) (m : MState) (b : Bus) : Bus :=
  if ok b then b.accept c m else b.refuse

/-- Slave commands need SLAVE_EN and no master command in progress (43_slave.md R367, R368). DEDUCED (log 50): a START that waits for a busy
bus is one in progress, so they are refused beside it, whatever 70_reset_and_hazards.md R569 says of the race. -/
def Bus.takesSlaveCmd (b : Bus) : Bool := b.slaveEn && !b.mstate.busy

/-- SRXARM (R367). -/
def Bus.srxarm (p : Params) (path : Path) (b : Bus) : Bus :=
  if b.takesSlaveCmd && b.sstate == .rxWait then
    match b.armCap p path with
    | none => b.refuse
    | some cap =>
      Bus.setMoved path 0
        { b with sCap := cap, sBase := if path == .dma then b.dmaAddr else b.sBase, sPath := path, sCount := 0, cmd := 0,
                 rxOldPool := [], rxOldMem := [] }
  else b.refuse

/-- STX (R368). -/
def Bus.stx (p : Params) (path : Path) (c : BitVec 12) (b : Bus) : Bus :=
  if b.takesSlaveCmd && b.sstate == .txWait then
    match b.stxCap p path with
    | none => b.refuse
    | some cap =>
      { b with sCap := cap, sBase := if path == .dma then b.dmaAddr else b.sBase, cmd := c, sCount := 0, sstate := .tx path,
               sDrv := { b.sDrv with scl := .rel }, stale := {} }
  else b.refuse

namespace Machine

/-- The acceptance of a master command with M_START (R304). -/
def acceptStart (c : BitVec 12) (ph : List Phase) (s : State) : Result :=
  s.onSel (Bus.command Bus.takesStart c (.exec ph .fresh))

/-- The acceptance of a master command on an owned bus (R304). -/
def acceptData (c : BitVec 12) (ph : List Phase) (s : State) : Result :=
  s.onSel (Bus.command Bus.takesData c (.exec ph .fresh))

end Machine

end Sys2Proof
end

