-- ==== Sys2Proof/Machine/Control.lean ====
section
/-! DEFINITION. CMD_NOP, MSTOP and RECOVER (30_encoding.md R154; 42_master_commands.md R329, R337, R339). -/

namespace Sys2Proof.Machine

/-- CMD_NOP (30_encoding.md R154): accepted in every state, changes nothing. -/
def execCmdNop (s : State) : Result := .next s

/-- MSTOP (R329; R339 in M_IDLE). -/
def execMstop (s : State) : Result := s.onSel (Bus.command Bus.takesStop 0x020 (.exec [.stop] .fresh))

/-- RECOVER (R337); its pulses are engine steps (41_line_driver.md R270). -/
def execRecover (s : State) : Result := s.onSel (Bus.command Bus.takesRecover 0x800 (.recover 0))

end Sys2Proof.Machine
end

