-- ==== Sys2Proof/Machine/MasterData.lean ====
section
/-! DEFINITION. Master commands on an owned bus (42_master_commands.md R319, R324 to R328): their acceptance (R300, R304). Engine.lean
runs the phases. -/

namespace Sys2Proof.Machine

/-- MTX.B (R319). -/
def execMtxB (s : State) : Result := acceptData 0x002 [.tx .byte] s

/-- MTX.BUF (R319). -/
def execMtxBuf (s : State) : Result := acceptData 0x042 [.tx .buf] s

/-- MTX.DMA (R319). -/
def execMtxDma (s : State) : Result := acceptData 0x102 [.tx .dma] s

/-- MTX.STOP.B (R324). -/
def execMtxStopB (s : State) : Result := acceptData 0x022 [.tx .byte, .stop] s

/-- MTX.STOP.BUF (R324). -/
def execMtxStopBuf (s : State) : Result := acceptData 0x062 [.tx .buf, .stop] s

/-- MTX.STOP.DMA (R324). -/
def execMtxStopDma (s : State) : Result := acceptData 0x122 [.tx .dma, .stop] s

/-- MRX.B (R325). -/
def execMrxB (s : State) : Result := acceptData 0x008 [.rx .byte false] s

/-- MRX.BUF (R325). -/
def execMrxBuf (s : State) : Result := acceptData 0x088 [.rx .buf false] s

/-- MRX.DMA (R325). -/
def execMrxDma (s : State) : Result := acceptData 0x208 [.rx .dma false] s

/-- MRXL.B (R326). -/
def execMrxlB (s : State) : Result := acceptData 0x018 [.rx .byte true] s

/-- MRXL.BUF (R326). -/
def execMrxlBuf (s : State) : Result := acceptData 0x098 [.rx .buf true] s

/-- MRXL.DMA (R326). -/
def execMrxlDma (s : State) : Result := acceptData 0x218 [.rx .dma true] s

/-- MRX.STOP.B (R327). -/
def execMrxStopB (s : State) : Result := acceptData 0x028 [.rx .byte false, .stop] s

/-- MRX.STOP.BUF (R327). -/
def execMrxStopBuf (s : State) : Result := acceptData 0x0A8 [.rx .buf false, .stop] s

/-- MRX.STOP.DMA (R327). -/
def execMrxStopDma (s : State) : Result := acceptData 0x228 [.rx .dma false, .stop] s

/-- MRXL.STOP.B (R328). -/
def execMrxlStopB (s : State) : Result := acceptData 0x038 [.rx .byte true, .stop] s

/-- MRXL.STOP.BUF (R328). -/
def execMrxlStopBuf (s : State) : Result := acceptData 0x0B8 [.rx .buf true, .stop] s

/-- MRXL.STOP.DMA (R328). -/
def execMrxlStopDma (s : State) : Result := acceptData 0x238 [.rx .dma true, .stop] s

end Sys2Proof.Machine
end

