-- ==== Sys2Proof/Machine/MasterStart.lean ====
section
/-! DEFINITION. Master commands with M_START (42_master_commands.md R311 to R318). What a command does at its write is its
acceptance (R300, R304): its word becomes CMD's pending bits and its phase list (R301) the master state. Engine.lean runs the
phases, one bus step each. -/

namespace Sys2Proof.Machine

/-- MSTART (R311): START, the address byte, and the bus is held. -/
def execMstart (s : State) : Result := acceptStart 0x003 [.addr] s

/-- MSTART.STOP (R312), the zero-length write. -/
def execMstartStop (s : State) : Result := acceptStart 0x023 [.addr, .stop] s

/-- MSTART.TX.BUF (R313). -/
def execMstartTxBuf (s : State) : Result := acceptStart 0x043 [.addr, .tx .buf] s

/-- MSTART.TX.DMA (R313). -/
def execMstartTxDma (s : State) : Result := acceptStart 0x103 [.addr, .tx .dma] s

/-- MSTART.TX.STOP.BUF (R314). -/
def execMstartTxStopBuf (s : State) : Result := acceptStart 0x063 [.addr, .tx .buf, .stop] s

/-- MSTART.TX.STOP.DMA (R314). -/
def execMstartTxStopDma (s : State) : Result := acceptStart 0x123 [.addr, .tx .dma, .stop] s

/-- MSTART.RX.B (R315). -/
def execMstartRxB (s : State) : Result := acceptStart 0x00B [.addr, .rx .byte false] s

/-- MSTART.RX.BUF (R315). -/
def execMstartRxBuf (s : State) : Result := acceptStart 0x08B [.addr, .rx .buf false] s

/-- MSTART.RX.DMA (R315). -/
def execMstartRxDma (s : State) : Result := acceptStart 0x20B [.addr, .rx .dma false] s

/-- MSTART.RXL.B (R316). -/
def execMstartRxlB (s : State) : Result := acceptStart 0x01B [.addr, .rx .byte true] s

/-- MSTART.RXL.BUF (R316). -/
def execMstartRxlBuf (s : State) : Result := acceptStart 0x09B [.addr, .rx .buf true] s

/-- MSTART.RXL.DMA (R316). -/
def execMstartRxlDma (s : State) : Result := acceptStart 0x21B [.addr, .rx .dma true] s

/-- MSTART.RX.STOP.B (R317). -/
def execMstartRxStopB (s : State) : Result := acceptStart 0x02B [.addr, .rx .byte false, .stop] s

/-- MSTART.RX.STOP.BUF (R317). -/
def execMstartRxStopBuf (s : State) : Result := acceptStart 0x0AB [.addr, .rx .buf false, .stop] s

/-- MSTART.RX.STOP.DMA (R317). -/
def execMstartRxStopDma (s : State) : Result := acceptStart 0x22B [.addr, .rx .dma false, .stop] s

/-- MSTART.RXL.STOP.B (R318). -/
def execMstartRxlStopB (s : State) : Result := acceptStart 0x03B [.addr, .rx .byte true, .stop] s

/-- MSTART.RXL.STOP.BUF (R318). -/
def execMstartRxlStopBuf (s : State) : Result := acceptStart 0x0BB [.addr, .rx .buf true, .stop] s

/-- MSTART.RXL.STOP.DMA (R318). -/
def execMstartRxlStopDma (s : State) : Result := acceptStart 0x23B [.addr, .rx .dma true, .stop] s

end Sys2Proof.Machine
end

