-- ==== Sys2Proof/Machine/SlaveCommands.lean ====
section
/-! DEFINITION. The slave commands STX and SRXARM (43_slave.md R367, R368). -/

namespace Sys2Proof.Machine

/-- STX.B (R368); its bytes go out in environment steps (R369). -/
def execStxB (s : State) : Result := s.onSel (Bus.stx s.params .byte 0x004)

/-- STX.BUF (R368); its bytes go out in environment steps (R369). -/
def execStxBuf (s : State) : Result := s.onSel (Bus.stx s.params .buf 0x044)

/-- STX.DMA (R368); its bytes go out in environment steps (R369). -/
def execStxDma (s : State) : Result := s.onSel (Bus.stx s.params .dma 0x104)

/-- SRXARM.BUF (R367). -/
def execSrxarmBuf (s : State) : Result := s.onSel (Bus.srxarm s.params .buf)

/-- SRXARM.DMA (R367). -/
def execSrxarmDma (s : State) : Result := s.onSel (Bus.srxarm s.params .dma)

end Sys2Proof.Machine
end

