-- ==== Sys2Proof/Machine/Dispatch.lean ====
section
/-! DEFINITION. One arm per command: its meaning on the bus `sel`, at the write to CMD. -/

namespace Sys2Proof.Machine

def exec (i : Instr) (s : State) : Host.Outcome State Fault Refusal :=
  match i with
  | .cmdNop => Sys2Proof.Machine.execCmdNop s
  | .mtxB => Sys2Proof.Machine.execMtxB s
  | .mstart => Sys2Proof.Machine.execMstart s
  | .stxB => Sys2Proof.Machine.execStxB s
  | .mrxB => Sys2Proof.Machine.execMrxB s
  | .mstartRxB => Sys2Proof.Machine.execMstartRxB s
  | .mrxlB => Sys2Proof.Machine.execMrxlB s
  | .mstartRxlB => Sys2Proof.Machine.execMstartRxlB s
  | .mstop => Sys2Proof.Machine.execMstop s
  | .mtxStopB => Sys2Proof.Machine.execMtxStopB s
  | .mstartStop => Sys2Proof.Machine.execMstartStop s
  | .mrxStopB => Sys2Proof.Machine.execMrxStopB s
  | .mstartRxStopB => Sys2Proof.Machine.execMstartRxStopB s
  | .mrxlStopB => Sys2Proof.Machine.execMrxlStopB s
  | .mstartRxlStopB => Sys2Proof.Machine.execMstartRxlStopB s
  | .mtxBuf => Sys2Proof.Machine.execMtxBuf s
  | .mstartTxBuf => Sys2Proof.Machine.execMstartTxBuf s
  | .stxBuf => Sys2Proof.Machine.execStxBuf s
  | .mtxStopBuf => Sys2Proof.Machine.execMtxStopBuf s
  | .mstartTxStopBuf => Sys2Proof.Machine.execMstartTxStopBuf s
  | .srxarmBuf => Sys2Proof.Machine.execSrxarmBuf s
  | .mrxBuf => Sys2Proof.Machine.execMrxBuf s
  | .mstartRxBuf => Sys2Proof.Machine.execMstartRxBuf s
  | .mrxlBuf => Sys2Proof.Machine.execMrxlBuf s
  | .mstartRxlBuf => Sys2Proof.Machine.execMstartRxlBuf s
  | .mrxStopBuf => Sys2Proof.Machine.execMrxStopBuf s
  | .mstartRxStopBuf => Sys2Proof.Machine.execMstartRxStopBuf s
  | .mrxlStopBuf => Sys2Proof.Machine.execMrxlStopBuf s
  | .mstartRxlStopBuf => Sys2Proof.Machine.execMstartRxlStopBuf s
  | .mtxDma => Sys2Proof.Machine.execMtxDma s
  | .mstartTxDma => Sys2Proof.Machine.execMstartTxDma s
  | .stxDma => Sys2Proof.Machine.execStxDma s
  | .mtxStopDma => Sys2Proof.Machine.execMtxStopDma s
  | .mstartTxStopDma => Sys2Proof.Machine.execMstartTxStopDma s
  | .srxarmDma => Sys2Proof.Machine.execSrxarmDma s
  | .mrxDma => Sys2Proof.Machine.execMrxDma s
  | .mstartRxDma => Sys2Proof.Machine.execMstartRxDma s
  | .mrxlDma => Sys2Proof.Machine.execMrxlDma s
  | .mstartRxlDma => Sys2Proof.Machine.execMstartRxlDma s
  | .mrxStopDma => Sys2Proof.Machine.execMrxStopDma s
  | .mstartRxStopDma => Sys2Proof.Machine.execMstartRxStopDma s
  | .mrxlStopDma => Sys2Proof.Machine.execMrxlStopDma s
  | .mstartRxlStopDma => Sys2Proof.Machine.execMstartRxlStopDma s
  | .recover => Sys2Proof.Machine.execRecover s

end Sys2Proof.Machine
end

