-- ==== Sys2Proof/Machine/Engine.lean ====
section
/-! DEFINITION. The master engine's steps: the phases of 42_master_commands.md R302 to R335 and the recovery command, over the line
driver's primitives (41_line_driver.md R240 to R273). Each function answers none where the engine has no step with that draw. -/

namespace Sys2Proof

/-! ## What the lines allow -/

/-- SCL rises when the master releases it: no stretch, by the environment or by this bus's own slave (R250). -/
def Bus.sclFree (b : Bus) : Bool := b.sDrv.scl == .rel && b.env.scl == .rel

/-- SDA rises when the master releases it. -/
def Bus.sdaFree (b : Bus) : Bool := b.sDrv.sda == .rel && b.env.sda == .rel

/-- A line's timeout may end a step that is no slot only while the environment holds that line (R255, R265, R266); the slave's own
stretch is never a timeout (R273). -/
def Bus.lineTimeout (l : Line) (b : Bus) : Bool :=
  match l with
  | .scl => b.timeoutsOn && b.env.scl == .low
  | .sda => b.timeoutsOn && b.env.sda == .low

/-- The faults that a slot admits (R245, R246); `arb` says whether the engine releases SDA for a bit that it samples. -/
def Bus.slotFaultOk (arb : Bool) (f : SlotFault) (b : Bus) : Bool :=
  match f with
  | .arb => arb && b.sclFree
  | .abn _ => b.sclFree
  | .sclTo => b.timeoutsOn
  | .sdaTo => b.timeoutsOn

/-- The results that a transmit slot of byte `v` admits (R245). -/
def Bus.txAdmits (v : Byte) (r : TxResult) (b : Bus) : Bool :=
  match r with
  | .ack => b.sclFree
  | .nak => b.sclFree
  | .fault f => b.slotFaultOk (v != 0) f

/-- The results that a receive slot answered `a` admits (R246). -/
def Bus.rxAdmits (a : Ack) (r : RxResult) (b : Bus) : Bool :=
  match r with
  | .data _ => b.sclFree
  | .fault f => b.slotFaultOk (a == .nak) f

/-- A slot may run: the engine owns the clock and holds SCL low (R245, R246). -/
def Bus.slotReady (b : Bus) : Bool := b.own && b.mDrv.scl == .low

/-- The slot just run, as R248 needs it; no other step than a slot makes one of these (log 47). -/
def Bus.ranSlot (l : LastSlot) (b : Bus) : Bus := { b with lastSlot := l }

/-- An address slot of byte `v` that was answered A (R248). -/
def addrSlot (v : Byte) : LastSlot := if v.getLsbD 0 then .address else .other

/-- A receive slot answered `a`, whatever its result (R246, R248). -/
def Ack.rxSlot : Ack → LastSlot
  | .ack => .read
  | .nak => .other

/-- A STOP or a repeated START may lose arbitration to a target that still sends (R248). -/
def Bus.mayLoseCond (b : Bus) : Bool := b.lastSlot != .other

/-- The lines after a slot (R245): SCL low, SDA released. The TIMING word counts from the next SCL low phase on (40_clock_timing.md
R225). -/
def Bus.slotDone (l : LastSlot) (b : Bus) : Bus :=
  { b with mDrv := { scl := .low, sda := .rel }, sclTiming := b.timing, lastSlot := l }

/-- Add an item to the record of the bus trace. -/
def Bus.onWire (w : WireItem) (b : Bus) : Bus := { b with wire := w :: b.wire }

/-! ## START (R242, R243, R305) -/

/-- The slave while this engine's own START is on the bus (43_slave.md R360). -/
def Bus.slaveSeesOwnStart (b : Bus) : Bus :=
  if b.slaveEn then { b with sstate := .ignore, sDrv := {} } else b

/-- The slave when this engine's master produces a STOP (43_slave.md R376): S_IDLE, no status. -/
def Bus.slaveSeesOwnStop (b : Bus) : Bus :=
  if b.slaveEn then { b with sstate := .idle, sDrv := {} } else b

/-- The bus after `wire_S` or `wire_Sr` (R242, R243). -/
def Bus.started (rest : List Phase) (b : Bus) : Bus :=
  Bus.slaveSeesOwnStart
    { b with mDrv := { scl := .low, sda := .low }, own := true, busBusy := true, sclTiming := b.timing,
             lastSlot := b.lastSlot.afterCond, mstate := .exec (.addr :: rest) .started, wire := (if b.own then .sr else .s) :: b.wire }

/-- `wire_Sr` (R243) with the draw of R248. -/
def Bus.stepSr (rest : List Phase) (r : LineResult) (b : Bus) : Option Bus :=
  match r with
  | .ok => if b.sclFree && b.sdaFree then some (b.started rest) else none
  | .arb => if b.mayLoseCond && b.sclFree then some (b.mAbort maskArbLoss) else none
  | .sclTo => if b.lineTimeout .scl then some (b.mAbort maskSclTimeout) else none
  | .sdaTo => if b.lineTimeout .sda then some (b.mAbort maskSdaTimeout) else none

/-- `wire_S` (R242): it waits for both lines, or a timeout fires while the environment holds one (R265, R266). -/
def Bus.stepS (rest : List Phase) (r : LineResult) (b : Bus) : Option Bus :=
  match r with
  | .ok => if b.scl && b.sda then some (b.started rest) else none
  | .arb => none
  | .sclTo => if b.lineTimeout .scl then some (b.mAbort maskSclTimeout) else none
  | .sdaTo => if b.lineTimeout .sda then some (b.mAbort maskSdaTimeout) else none

/-- `wire_S` may be tried (R305): the bus is free, or MULTI_MASTER_DIS makes a START that has not been told to wait ignore the latch
(R259); after the draw WAIT only a free bus lets it go on. -/
def Bus.mayStart (p : Params) (pr : Progress) (b : Bus) : Bool :=
  !b.busBusy || (pr == .fresh && b.multiMasterDis && p.mmDisEffect == .noBusyWait)

/-- START_WHEN_BUSY (R8): the part's choice, or the draw where the part has none. -/
def Params.whenBusy (p : Params) (w : BusyChoice) : BusyChoice := p.startWhenBusy.getD w

/-- A step of `do_start` (R305) at progress `pr`. -/
def Bus.startStep (p : Params) (pr : Progress) (rest : List Phase) (d : Draw) (b : Bus) : Option Bus :=
  if b.own then
    match d with
    | .line r => b.stepSr rest r
    | _ => none
  else if b.mayStart p pr then
    match d with
    | .line r => b.stepS rest r
    | _ => none
  else
    match pr, d with
    | .fresh, .busy w =>
      match p.whenBusy w with
      | .wait => some { b with mstate := .exec (.addr :: rest) .waitBus }
      | .arbLoss => some (b.mAbort maskArbLoss)
    | _, _ => none

/-! ## The address phase (R306) -/

/-- The next phase is a transmit phase, the `td` of R301. -/
def nextIsTx : List Phase → Bool
  | .tx _ :: _ => true
  | _ => false

/-- An address answered A sets TX_ACK (R306, R320). -/
def Bus.addrAckStatus (p : Params) (rest : List Phase) (b : Bus) : Word :=
  if !nextIsTx rest && !(b.cmd == 0x023 && !p.zlAddrAck) then maskTxAck else 0

/-- The address slot. -/
def Bus.addrStep (p : Params) (rest : List Phase) (r : TxResult) (pk : SrcPick) (b : Bus) : Option Bus :=
  let v := b.sampleTxByte pk
  if b.slotReady && b.txAdmits v r then
    some <|
      match r with
      | .ack =>
        (((b.slotDone (addrSlot v)).onWire (.byte v .ack)).setStatus (b.addrAckStatus p rest)).nextPhase rest
      | .nak => (((b.slotDone .other).onWire (.byte v .nak)).setStatus maskTxNak).nextPhase (afterNak rest)
      | .fault f => (b.ranSlot .other).slotFault f pk
  else none

/-! ## Transmit phases (R330 to R332) -/

/-- The byte a transmit slot sends, just before its first bit (20_memory.md R118); none at a DMA address that is not mapped. -/
def Bus.txSource (p : Params) (mem : Memory) (path : Path) (i : Nat) (pk : SrcPick) (b : Bus) : Option Byte :=
  match path with
  | .byte => some (b.sampleTxByte pk)
  | .buf => some (b.samplePool i pk)
  | .dma =>
    if p.dmaAllowed b.dmaPtr.toNat then
      some (pickOld (mem.read b.dmaPtr.toNat) (olderAt b.dmaPtr.toNat b.stale.mem) pk.mem)
    else none

/-- `dma_ptr <- dma_ptr + 1` on the DMA path. DESIGN CHOICE (log 42): after the last byte of a phase that ends at 2^32 it is 0; no
step reads it there. -/
def Bus.advanceDma (path : Path) (b : Bus) : Bus :=
  match path with
  | .dma => { b with dmaPtr := b.dmaPtr + 1 }
  | _ => b

/-- The slot of byte `v`, number `i` of `n`. -/
def Bus.txSlot (path : Path) (i n : Nat) (v : Byte) (rest : List Phase) (r : TxResult) (pk : SrcPick)
    (b : Bus) : Option Bus :=
  if b.txAdmits v r then
    some <|
      match r with
      | .ack =>
        let b1 := (b.slotDone .other).onWire (.byte v .ack)
        if i + 1 = n then ((b1.setMoved path n).setStatus maskTxAck).nextPhase rest
        else { b1 with mstate := .exec (.tx path :: rest) (.moving (i + 1) n) }
      | .nak =>
        let b1 := (b.slotDone .other).onWire (.byte v .nak)
        ((b1.setMoved path (i + 1)).setStatus maskTxNak).nextPhase (afterNak rest)
      | .fault f => ((b.setMoved path i).ranSlot .other).slotFault f pk
  else none

/-- Byte `i` of `n` of a transmit phase: its source, then its slot. -/
def Bus.txMove (p : Params) (mem : Memory) (path : Path) (i n : Nat) (rest : List Phase) (r : TxResult) (pk : SrcPick)
    (b : Bus) : Option Bus :=
  match b.txSource p mem path i pk with
  | none => some { b with stuck := true }
  | some v => (b.advanceDma path).txSlot path i n v rest r pk

/-- A step of a transmit phase: at its start it samples its counts (R118), and may be refused there (R304). -/
def Bus.txStep (p : Params) (mem : Memory) (path : Path) (pr : Progress) (rest : List Phase) (r : TxResult) (pk : SrcPick)
    (b : Bus) : Option Bus :=
  match pr with
  | .fresh =>
    match b.beginTx p path pk with
    | none => some b.refuse
    | some (n, b1) => b1.txMove p mem path 0 n rest r pk
  | .moving i n => b.txMove p mem path i n rest r pk
  | _ => none

/-! ## Receive phases (R333 to R335) -/

/-- The ninth bit of byte `i` of `n` (R336). -/
def rxAnswer (last : Bool) (i n : Nat) : Ack := if last && i + 1 == n then .nak else .ack

/-- Put a received byte away: RX_BYTE, `Pool[i]` or memory; none at a DMA address that is not mapped. What it overwrites stays
readable while the phase runs (70_reset_and_hazards.md R568). -/
def Bus.rxStore (p : Params) (mem : Memory) (path : Path) (i : Nat) (d : Byte) (b : Bus) : Option (Bus × Memory) :=
  match path with
  | .byte => some ({ b with rxByte := d }, mem)
  | .buf => some ({ b with pool := b.pool.set i d, rxOldPool := (i, b.pool.getD i 0) :: b.rxOldPool }, mem)
  | .dma =>
    let a := b.dmaPtr.toNat
    if p.dmaAllowed a then
      some ({ b with dmaPtr := b.dmaPtr + 1, rxOldMem := (a, mem.read a) :: b.rxOldMem }, mem.write a d)
    else none

/-- After byte `i` of `n` is stored. -/
def Bus.rxNext (path : Path) (last : Bool) (i n : Nat) (rest : List Phase) (b : Bus) : Bus :=
  if i + 1 = n then ((b.setMoved path n).setStatus maskRxDone).nextPhase rest
  else { b with mstate := .exec (.rx path last :: rest) (.moving (i + 1) n) }

/-- Byte `i` of `n` of a receive phase. -/
def Bus.rxMove (p : Params) (mem : Memory) (path : Path) (last : Bool) (i n : Nat) (rest : List Phase) (r : RxResult)
    (pk : SrcPick) (b : Bus) : Option (Bus × Memory) :=
  let a := rxAnswer last i n
  if b.rxAdmits a r then
    match r with
    | .fault f => some (((b.setMoved path i).ranSlot a.rxSlot).slotFault f pk, mem)
    | .data d =>
      let b1 := (b.slotDone a.rxSlot).onWire (.byte d a)
      match b1.rxStore p mem path i d with
      | none => some ({ b1 with stuck := true }, mem)
      | some (b2, mem2) => some (b2.rxNext path last i n rest, mem2)
  else none

/-- A step of a receive phase. -/
def Bus.rxStep (p : Params) (mem : Memory) (path : Path) (last : Bool) (pr : Progress) (rest : List Phase) (r : RxResult)
    (pk : SrcPick) (b : Bus) : Option (Bus × Memory) :=
  match pr with
  | .fresh =>
    match b.beginRx p path pk with
    | none => some (b.refuse, mem)
    | some (n, b1) => b1.rxMove p mem path last 0 n rest r pk
  | .moving i n => b.rxMove p mem path last i n rest r pk
  | _ => none

/-! ## STOP (R244, R323, R339) -/

/-- The TIMING word in use at a STOP: an MSTOP in M_IDLE pulls SCL low anew before it waits for a line (R339), so TIMING counts from
there (40_clock_timing.md R225), whatever then ends the step; on an owned bus SCL is low already. -/
def Bus.stopTiming (b : Bus) : Word := if b.own then b.sclTiming else b.timing

/-- The wires and the latch after a STOP of this engine. -/
def Bus.stopped (b : Bus) : Bus :=
  Bus.slaveSeesOwnStop
    { b with mDrv := {}, own := false, busBusy := false, lastSlot := b.lastSlot.afterCond,
             sclTiming := b.stopTiming, wire := .p :: b.wire }

/-- The abort of a STOP step. -/
def Bus.stopAbort (m : Word) (b : Bus) : Bus := Bus.mAbort m { b with sclTiming := b.stopTiming }

/-- `stop_phase` with the draw of R248. An MSTOP accepted in M_IDLE runs the same step with `own = 0` (R339). DESIGN
CHOICE (log 51): while the step waits for a line the engine's outputs are as before it, SCL and SDA not pulled low by it. -/
def Bus.stopStep (rest : List Phase) (r : LineResult) (b : Bus) : Option Bus :=
  match r with
  | .ok =>
    if b.sclFree && b.sdaFree then some ((b.stopped.setStatus maskNormalStop).nextPhase rest) else none
  | .arb => if b.mayLoseCond && b.sclFree then some (b.stopAbort maskArbLoss) else none
  | .sclTo => if b.lineTimeout .scl then some (b.stopAbort maskSclTimeout) else none
  | .sdaTo => if b.lineTimeout .sda then some (b.stopAbort maskSdaTimeout) else none

/-! ## RECOVER (R270 to R272) -/

/-- The last three lines of R270. DESIGN CHOICE (log 12): the lines released are the master function's, so a stretch of this bus's own
slave stays, by 43_slave.md R364 and R373. -/
def Bus.recoverEnd (b : Bus) : Bus := { b with mDrv := {}, cmd := 0, mstate := .idle }

/-- The end of a recovery whose SDA stayed low (R271). -/
def Bus.recoverFailed (r : RecoverFail) (b : Bus) : Bus :=
  match r with
  | .done => b.recoverEnd.setStatus maskRecoverDone
  | .silent => b.recoverEnd

/-- A timeout of SCL in a recovery: the pulse that it ends has driven SCL low (41_line_driver.md R251, R272), so TIMING counts from there
(40_clock_timing.md R225); with SDA high only the STOP is left, and no pulse is driven (R270). -/
def Bus.recoverTimeout (b : Bus) : Bus :=
  { b.recoverEnd with sclTiming := if b.sda then b.sclTiming else b.timing }.setStatus maskSclTimeout

/-- A step of `recover()` after `k` pulses. SCL_TIMEOUT ends it while the environment holds SCL (R272; where, log 19), never for the own
slave's stretch (R273). -/
def Bus.recoverStep (p : Params) (k : Nat) (d : Draw) (b : Bus) : Option Bus :=
  match d with
  | .line .ok =>
    if b.sda && b.sclFree then
      some ((Bus.slaveSeesOwnStop { b with busBusy := false, lastSlot := b.lastSlot.afterCond, wire := .p :: b.wire }).recoverEnd.setStatus
        maskRecoverDone)
    else none
  | .line .sclTo =>
    if b.lineTimeout .scl && (b.sda || decide (k < p.recoverPulses)) then
      some b.recoverTimeout
    else none
  | .pulse release =>
    if !b.sda && decide (k < p.recoverPulses) && b.sclFree then
      some { b with mDrv := { scl := .low, sda := .rel }, sclTiming := b.timing, mstate := .recover (k + 1), lastSlot := b.lastSlot.afterCond,
                    env := { b.env with sda := if release then .rel else b.env.sda }, wire := .pulse :: b.wire }
    else none
  | .failed r =>
    if !b.sda && decide (p.recoverPulses ≤ k) then some (b.recoverFailed (p.recoverFail.getD r)) else none
  | _ => none

/-! ## The master engine -/

/-- The step of the first phase of a command. -/
def Bus.phaseStep (p : Params) (mem : Memory) (ph : Phase) (pr : Progress) (rest : List Phase) (d : Draw) (pk : SrcPick)
    (b : Bus) : Option (Bus × Memory) :=
  match ph, pr, d with
  | .addr, .started, .tx r => (b.addrStep p rest r pk).map (·, mem)
  | .addr, .started, _ => none
  | .addr, .moving _ _, _ => none
  | .addr, pr, d => (b.startStep p pr rest d).map (·, mem)
  | .tx path, pr, .tx r => if b.slotReady then (b.txStep p mem path pr rest r pk).map (·, mem) else none
  | .rx path last, pr, .rx r => if b.slotReady then b.rxStep p mem path last pr rest r pk else none
  | .stop, _, .line r => (b.stopStep rest r).map (·, mem)
  | _, _, _ => none

/-- One step of bus's master engine (R302); none where it has none. A refused bus has no step (10_state.md R54), nor has a stuck one
(20_memory.md R110). -/
def Bus.masterStep (p : Params) (mem : Memory) (d : Draw) (pk : SrcPick) (b : Bus) : Option (Bus × Memory) :=
  if b.refused || b.stuck then none
  else
    match b.mstate with
    | .exec (ph :: rest) pr => b.phaseStep p mem ph pr rest d pk
    | .recover k => (b.recoverStep p k d).map (·, mem)
    | _ => none

end Sys2Proof
end

