-- ==== Sys2Proof/Machine/Slave.lean ====
section
/-! DEFINITION. The slave's responses and the bus environment's steps (43_slave.md R360 to R380; 41_line_driver.md R253, R254, R262).
Each function answers none where the step is not enabled. -/

namespace Sys2Proof

/-! ## When the environment may act (R253) -/

/-- A master command that runs keeps the remote side to the draws of its own steps; one whose START waits for a busy bus does not
(R253, R305; log 21). -/
def MState.holdsRemote : MState → Bool
  | .exec (.addr :: _) .waitBus => false
  | .exec _ _ => true
  | .recover _ => true
  | _ => false

/-- "Lines free" (R253), and the remote side may act. -/
def Bus.remoteMay (b : Bus) : Bool := b.drvScl == .rel && !b.mstate.holdsRemote

/-- The remote side's transfer is on the bus. -/
def Bus.remoteOwns (b : Bus) : Bool := b.remoteMay && b.busBusy

/-! ## START and STOP (R360, R376, R377, R379) -/

/-- The receive path counts bytes of a batch. -/
def Bus.batchOpen (b : Bus) : Bool := b.sstate == .rx && b.sPath != .byte && decide (0 < b.sCount)

/-- Delivery of a partial batch (R379). -/
def Bus.deliverBatch (b : Bus) : Bus :=
  if b.batchOpen then (b.setMoved b.sPath b.sCount).setStatus maskRxDone else b

/-- The slave is addressed and not stretching (R376, R378). -/
def SState.listening : SState → Bool
  | .rx => true
  | .tx _ => true
  | .waitStop => true
  | _ => false

/-- The slave is in the middle of a transfer's bytes (R377). -/
def SState.inByte : SState → Bool
  | .rx => true
  | .tx _ => true
  | _ => false

/-- A remote START or repeated START (R360). -/
def Bus.slaveStart (b : Bus) : Bus :=
  if b.slaveEn then { b.deliverBatch.dropStx with sstate := .addr, sDrv := {} } else b

/-- A remote STOP (R376). -/
def Bus.slaveStop (b : Bus) : Bus :=
  if b.slaveEn then
    if b.sstate.listening then { (b.deliverBatch.setStatus maskNormalStop).dropStx with sstate := .idle, sDrv := {} }
    else { b with sstate := .idle, sDrv := {} }
  else b

/-- A START or STOP inside a byte (R377). -/
def Bus.slaveMid (k : Cond) (b : Bus) : Bus :=
  if b.slaveEn && b.sstate.inByte then
    let b1 := (b.deliverBatch.setStatus maskAbnormal).dropStx
    match k with
    | .start => { b1 with sstate := .addr, sDrv := {} }
    | .stop => { b1.setStatus maskNormalStop with sstate := .idle, sDrv := {} }
  else
    match k with
    | .start => b.slaveStart
    | .stop => b.slaveStop

/-! ## Bytes the remote side writes (R361 to R366) -/

/-- The stretch: SCL held low until the host acts. -/
def Bus.stretch (st : SState) (b : Bus) : Bus := { b with sstate := st, sDrv := { b.sDrv with scl := .low } }

/-- The address byte matches (R361). -/
def Bus.matchesAddr (d : Byte) (b : Bus) : Bool := d.extractLsb' 1 7 == b.devAddr

/-- An address match (R362), which resets `s_cap` too (R380; log 41). -/
def Bus.slaveMatch (d : Byte) (b : Bus) : Bus :=
  (({ b with rxByte := d, sPath := .byte, sCount := 0, sCap := 0 }.onWire (.byte d .ack)).setStatus
    (maskSlaveMatch ||| maskRxDone)).stretch (if d.getLsbD 0 then .txWait else .rxWait)

/-- After a byte of a batch is stored (R366). -/
def Bus.batchNext (b : Bus) : Bus :=
  let b1 := { b with sCount := b.sCount + 1 }
  if b1.sCount = b1.sCap then ((b1.setMoved b1.sPath b1.sCount).setStatus maskRxDone).stretch .rxWait else b1

/-- A byte into the armed buffer or memory (R366); the bus is stuck at a DMA address that is not mapped (20_memory.md R110). -/
def Bus.slaveStore (p : Params) (mem : Memory) (d : Byte) (b : Bus) : Bus × Memory :=
  let b0 := b.onWire (.byte d .ack)
  match b.sPath with
  | .byte => (({ b0 with rxByte := d }.setStatus maskRxDone).stretch .rxWait, mem)
  | .buf =>
    ({ b0 with pool := b.pool.set b.sCount d, rxOldPool := (b.sCount, b.pool.getD b.sCount 0) :: b.rxOldPool }.batchNext, mem)
  | .dma =>
    let a := b.sBase.toNat + b.sCount
    if p.dmaAllowed a then ({ b0 with rxOldMem := (a, mem.read a) :: b.rxOldMem }.batchNext, mem.write a d)
    else ({ b0 with stuck := true }, mem)

/-- `env wbyte(d)`. -/
def Bus.slaveWrite (p : Params) (mem : Memory) (d : Byte) (b : Bus) : Bus × Memory :=
  match b.sstate with
  | .addr => (if b.matchesAddr d then b.slaveMatch d else { b with sstate := .ignore }, mem)
  | .rx => b.slaveStore p mem d
  | _ => (b, mem)

/-! ## Bytes the remote side reads (R369 to R371, R374) -/

/-- The byte STX sends next (R369), sampled when the remote side reads it (20_memory.md R118). -/
def Bus.stxSource (p : Params) (mem : Memory) (path : Path) (pk : SrcPick) (b : Bus) : Option Byte :=
  match path with
  | .byte => some (b.sampleTxByte pk)
  | .buf => some (b.samplePool b.sCount pk)
  | .dma =>
    let a := b.sBase.toNat + b.sCount
    if p.dmaAllowed a then some (pickOld (mem.read a) (olderAt a b.stale.mem) pk.mem) else none

/-- After byte `v` went out and was answered `a` (R370, R371). -/
def Bus.stxAnswered (path : Path) (v : Byte) (a : Ack) (b : Bus) : Bus :=
  let b1 := { b with sCount := b.sCount + 1 }.onWire (.byte v a)
  match a with
  | .ack =>
    if b1.sCount = b1.sCap then
      (({ b1 with cmd := 0 }.setMoved path b1.sCount).setStatus maskTxAck).stretch .txWait
    else b1
  | .nak => { ({ b1 with cmd := 0 }.setMoved path b1.sCount).setStatus maskTxNak with sstate := .waitStop, sDrv := {} }

/-- `env rbyte(a)`. -/
def Bus.slaveRead (p : Params) (mem : Memory) (a : Ack) (pk : SrcPick) (b : Bus) : Bus :=
  match b.sstate with
  | .tx path =>
    match b.stxSource p mem path pk with
    | none => { b with stuck := true }
    | some v => b.stxAnswered path v a
  | _ => b

/-! ## Timeouts and the receive stretch (R378, R364) -/

/-- The status bit of a line's timeout (R378). -/
def Line.timeoutBit : Line → Word
  | .scl => maskSclTimeout
  | .sda => maskSdaTimeout

/-- A receive batch that a timeout ends: its length register takes the partial count, with no RX_DONE (10_state.md R42, R45;
60_exceptions.md R501; log 40). -/
def Bus.recordBatch (b : Bus) : Bus := if b.batchOpen then b.setMoved b.sPath b.sCount else b

/-- `env timeout(k)`. -/
def Bus.slaveTimeout (l : Line) (b : Bus) : Bus :=
  { (b.recordBatch.setStatus l.timeoutBit).dropStx with sstate := .idle, sDrv := {} }

/-- A slave timeout is admitted (R378). -/
def Bus.timeoutMay (b : Bus) : Bool := b.timeoutsOn && b.sstate.listening && !b.mstate.holdsRemote

/-- The slave's internal step out of S_RX_WAIT (R364). -/
def Bus.slaveStep (b : Bus) : Option Bus :=
  if !b.refused && !b.stuck && b.sstate == .rxWait && !hasAny b.isr maskRxDone
      && (b.sPath == .byte || decide (b.sCount < b.sCap)) then
    some { b with sstate := .rx, sDrv := { b.sDrv with scl := .rel } }
  else none

/-! ## The environment -/

/-- `env hold(L)` and `env release(L)` (R254). -/
def Wires.put (l : Line) (v : Drive) (w : Wires) : Wires :=
  match l with
  | .scl => { w with scl := v }
  | .sda => { w with sda := v }

/-- An environment step other than a line hold (R253, R262). -/
def Bus.remoteStep (p : Params) (mem : Memory) (e : EnvEvent) (pk : SrcPick) (b : Bus) : Option (Bus × Memory) :=
  match e with
  | .s =>
    if b.remoteMay && !b.busBusy && b.scl && b.sda then some ({ b with busBusy := b.monitoring }.slaveStart, mem) else none
  | .sr => if b.remoteOwns then some (b.slaveStart, mem) else none
  | .p => if b.remoteOwns then some ({ b with busBusy := false }.slaveStop, mem) else none
  | .wbyte d => if b.remoteOwns then some (b.slaveWrite p mem d) else none
  | .rbyte a => if b.remoteOwns then some (b.slaveRead p mem a pk, mem) else none
  | .mid k => if b.remoteOwns then some ({ b with busBusy := decide (k = Cond.start) }.slaveMid k, mem) else none
  | .timeout l => if b.timeoutMay then some (b.slaveTimeout l, mem) else none
  | .hold _ => none
  | .release _ => none

/-- A step of the bus environment; none where it is not enabled. A refused bus's environment has no step (10_state.md R54); on a stuck
bus only the raw line holds act (log 16). -/
def Bus.envStep (p : Params) (mem : Memory) (e : EnvEvent) (pk : SrcPick) (b : Bus) : Option (Bus × Memory) :=
  if b.refused then none
  else
    match e with
    | .hold l => some ({ b with env := b.env.put l .low }, mem)
    | .release l => some ({ b with env := b.env.put l .rel }, mem)
    | e => if b.stuck then none else b.remoteStep p mem e pk

end Sys2Proof
end

