-- ==== Sys2Proof/Machine/Mmio.lean ====
section
/-! DEFINITION. Host accesses: the registers of a bus (10_state.md R33 to R46, R58, R60 to R63), the pooled-buffer window
(20_memory.md R104), the global bank (10_state.md R70 to R73), the address map (20_memory.md R100 to R102), and system memory. -/

namespace Sys2Proof

/-! ## Reads of a bus's registers -/

/-- Reserved FUN_CTRL bits read as draws (R34, R63). -/
def funCtrlMask : Word := 0x8003

/-- TIMING without its reserved bits [11:4] (R36, R63). -/
def timingMask : Word := 0xFFFFF00F

/-- One bit at a place. -/
def bitAt (i : Nat) (v : Bool) : Word := if v then 1#32 <<< i else 0

/-- CMD as read (R39, R58, R59). -/
def Bus.cmdWord (b : Bus) : Word :=
  b.cmd.setWidth 32 ||| bitAt 16 b.busBusy ||| bitAt 17 b.sda ||| bitAt 18 b.scl

/-- BUF_CTRL's implemented fields (R41). -/
def Bus.bufCtrlWord (b : Bus) : Word :=
  (b.txEnd.setWidth 32 <<< 8) ||| (b.rxEnd.setWidth 32 <<< 16) ||| (b.bufCount.setWidth 32 <<< 24)

/-- BYTE_BUF's implemented fields (R43). -/
def Bus.byteBufWord (b : Bus) : Word := b.txByte.setWidth 32 ||| (b.rxByte.setWidth 32 <<< 8)

/-- FUN_CTRL's implemented fields (R34). -/
def Bus.funCtrlWord (b : Bus) : Word := bitAt 0 b.masterEn ||| bitAt 1 b.slaveEn ||| bitAt 15 b.multiMasterDis

/-- The word that a read of the register at `off` returns, with draws `r` in reserved bits; none at a reserved offset (R33). -/
def Bus.regWord (off : Nat) (r : Word) (b : Bus) : Option Word :=
  match off with
  | 0x00 => some (mixBits funCtrlMask b.funCtrlWord r)
  | 0x04 => some (mixBits timingMask b.timing r)
  | 0x08 => some b.timeout
  | 0x0C => some b.ier
  | 0x10 => some b.isr
  | 0x14 => some b.cmdWord
  | 0x18 => some (mixBits 0x7F (b.devAddr.setWidth 32) r)
  | 0x1C => some (mixBits 0xFFFFFF00 b.bufCtrlWord r)
  | 0x20 => some (mixBits 0xFFFF b.byteBufWord r)
  | 0x24 => some b.dmaAddr
  | 0x28 => some (b.dmaMoved.setWidth 32)
  | _ => none

/-- What a read of the register at `off` leaves (20_memory.md R108): ISR is cleared when STATUS_CLEAR_ON_READ is true (R61). -/
def Bus.afterRead (p : Params) (off : Nat) (b : Bus) : Bus :=
  if off = 0x10 && p.statusClearOnRead then { b with isr := 0 } else b

/-! ## Writes of a bus's registers (20_memory.md R109) -/

/-- A write of TX_BYTE (R43); while a command is pending the old value stays drawable (R118). -/
def Bus.writeByteBuf (v : Word) (b : Bus) : Bus :=
  { b with txByte := v.extractLsb' 0 8,
           stale := if b.cmdPending then { b.stale with txByte := b.txByte :: b.stale.txByte } else b.stale }

/-- A write of BUF_CTRL leaves BUF_COUNT (R42). -/
def Bus.writeBufCtrl (v : Word) (b : Bus) : Bus :=
  { b with txEnd := v.extractLsb' 8 8, rxEnd := v.extractLsb' 16 8,
           stale := if b.cmdPending then { b.stale with bufCtrl := (b.txEnd, b.rxEnd) :: b.stale.bufCtrl } else b.stale }

/-- A write of DMA_ADDR (R44). -/
def Bus.writeDmaAddr (v : Word) (b : Bus) : Bus :=
  { b with dmaAddr := v,
           stale := if b.cmdPending then { b.stale with dmaAddr := b.dmaAddr :: b.stale.dmaAddr } else b.stale }

/-- A write of DMA_LEN sets `dma_len_prog` (R45). -/
def Bus.writeDmaLen (v : Word) (b : Bus) : Bus :=
  { b with dmaLenProg := v.extractLsb' 0 13,
           stale := if b.cmdPending then { b.stale with dmaLen := b.dmaLenProg :: b.stale.dmaLen } else b.stale }

/-- A write of IER: bits outside ISR_IMPL are refused (R38). -/
def Bus.writeIer (v : Word) (b : Bus) : Bus := if hasAny v (~~~isrImpl) then b.refuse else { b with ier := v }

/-- A write of `v` to the register at `off`, CMD apart; a reserved offset is refused (R33, R62). -/
def Bus.writeReg (off : Nat) (v : Word) (b : Bus) : Bus :=
  match off with
  | 0x00 => b.writeFunCtrl (v.getLsbD 0) (v.getLsbD 1) (v.getLsbD 15)
  | 0x04 => { b with timing := v &&& timingMask }
  | 0x08 => { b with timeout := v }
  | 0x0C => b.writeIer v
  | 0x10 => b.clearStatus v
  | 0x18 => { b with devAddr := v.extractLsb' 0 7 }
  | 0x1C => b.writeBufCtrl v
  | 0x20 => b.writeByteBuf v
  | 0x24 => b.writeDmaAddr v
  | 0x28 => b.writeDmaLen v
  | _ => b.refuse

/-! ## The pooled-buffer window (20_memory.md R104) -/

/-- A receive phase of path `path` is moving bytes, by the master or by the slave (70_reset_and_hazards.md R568). -/
def Bus.receiving (path : Path) (b : Bus) : Bool :=
  match b.mstate with
  | .exec (.rx q _ :: _) (.moving _ _) => q == path
  | _ => b.sstate == .rx && b.sPath == path

/-- Byte `i` of the pool as the host reads it: `old` takes the byte that the running receive phase overwrote, if any. -/
def Bus.poolByte (i : Nat) (old : Bool) (b : Bus) : Byte :=
  if old && b.receiving .buf then (olderAt i b.rxOldPool).headD (b.pool.getD i 0) else b.pool.getD i 0

/-- Lane `j` of word `w` of the window: a draw at or beyond BUF_SIZE. -/
def Bus.poolLane (p : Params) (w j : Nat) (d : ReadDraw) (b : Bus) : Byte :=
  if 4 * w + j < p.bufSize then b.poolByte (4 * w + j) (d.old.getLsbD j) else d.bits.extractLsb' (8 * j) 8

/-- A word of the window. -/
def Bus.poolWord (p : Params) (w : Nat) (d : ReadDraw) (b : Bus) : Word :=
  b.poolLane p w 3 d ++ b.poolLane p w 2 d ++ b.poolLane p w 1 d ++ b.poolLane p w 0 d

/-- A host write of one pool byte; the old value stays drawable while a command is pending (R118). -/
def Bus.writePoolByte (i : Nat) (v : Byte) (b : Bus) : Bus :=
  { b with pool := b.pool.set i v,
           stale := if b.cmdPending then { b.stale with pool := (i, b.pool.getD i 0) :: b.stale.pool } else b.stale }

/-- Lane `j` of a write to word `w`: ignored at or beyond BUF_SIZE. -/
def Bus.writePoolLane (p : Params) (w j : Nat) (v : Word) (b : Bus) : Bus :=
  if 4 * w + j < p.bufSize then b.writePoolByte (4 * w + j) (v.extractLsb' (8 * j) 8) else b

/-- A write to word `w` of the window. -/
def Bus.writePool (p : Params) (w : Nat) (v : Word) (b : Bus) : Bus :=
  (((b.writePoolLane p w 0 v).writePoolLane p w 1 v).writePoolLane p w 2 v).writePoolLane p w 3 v

/-- The window's words. -/
def Params.poolWords (p : Params) : Nat := ceilDiv p.bufSize 4

namespace Machine

/-! ## The address map -/

/-- Continue with the state of a next outcome. -/
def andThen {α β : Type} (r : Host.Outcome α Fault Refusal) (f : α → Host.Outcome β Fault Refusal) : Host.Outcome β Fault Refusal :=
  match r with
  | .next a => f a
  | .fault e => .fault e
  | .refused e => .refused e

/-- The first of the ranges of size `len` at `bases` that holds `a`: its number and the offset in it. -/
def findRange (a len : Nat) : Nat → List Nat → Option (Nat × Nat)
  | _, [] => none
  | n, base :: rest => if base ≤ a ∧ a < base + len then some (n, a - base) else findRange a len (n + 1) rest

/-- The space and offset of an absolute address (R100, R102). -/
def locateAddr (p : Params) (a : Nat) : Option (Space × Nat) :=
  if p.globalBase ≤ a ∧ a < p.globalBase + 0x14 then some (.global, a - p.globalBase)
  else
    match findRange a 0x40 0 p.busBase with
    | some (n, off) => some (.bus n, off)
    | none => (findRange a (4 * p.poolWords) 0 p.poolBase).map (fun r => (.pool r.1, r.2))

/-- The space and offset of an access. -/
def Loc.find (p : Params) : Loc → Option (Space × Nat)
  | .addr a => locateAddr p a
  | .space sp off => some (sp, off)

/-- A 32-bit access at a multiple of 4 (R101). -/
def accessOk (width off : Nat) : Bool := width == 32 && off % 4 == 0

/-! ## Accesses to one bus -/

/-- The bus a host access goes to, when it may be accessed (10_state.md R54). -/
def State.busFor (s : State) (n : Nat) : Host.Outcome Bus Fault Refusal :=
  match s.buses[n]? with
  | none => .fault .outsideMap
  | some b => if b.refused then .refused .busRefused else .next b

/-- Mark bus `n` refused. -/
def State.refuseBus (s : State) (n : Nat) (b : Bus) : State := s.setBus n b.refuse

/-- A write of `v` to CMD of bus `n` (30_encoding.md R150): the command decoded is executed there; an illegal word is refused. -/
def State.writeCmd (s : State) (n : Nat) (b : Bus) (v : Word) : Result :=
  match decode v with
  | none => .next (s.refuseBus n b)
  | some i => Sys2Proof.Machine.exec i { s with sel := n }

/-- A write to a register of bus `n`. -/
def State.writeBusReg (s : State) (n width off : Nat) (v : Word) : Result :=
  andThen (s.busFor n) fun b =>
    if !accessOk width off then .next (s.refuseBus n b)
    else if 0x40 ≤ off then .fault .outsideMap
    else if off = 0x14 then s.writeCmd n b v
    else .next (s.setBus n (b.writeReg off v))

/-- A read of a register of bus `n`: the word, none where it is refused, and the state after. -/
def State.readBusReg (s : State) (n width off : Nat) (d : ReadDraw) : Host.Outcome (Option Word × State) Fault Refusal :=
  andThen (s.busFor n) fun b =>
    if !accessOk width off then .next (none, s.refuseBus n b)
    else if 0x40 ≤ off then .fault .outsideMap
    else
      match b.regWord off d.bits with
      | none => .next (none, s.refuseBus n b)
      | some v => .next (some v, s.setBus n (b.afterRead s.params off))

/-- A write to the pooled-buffer window of bus `n` (R104). -/
def State.writePool (s : State) (n width off : Nat) (v : Word) : Result :=
  andThen (s.busFor n) fun b =>
    if !accessOk width off || decide (s.params.poolWords ≤ off / 4) then .next (s.refuseBus n b)
    else .next (s.setBus n (b.writePool s.params (off / 4) v))

/-- A read of the pooled-buffer window of bus `n` (R104). -/
def State.readPool (s : State) (n width off : Nat) (d : ReadDraw) : Host.Outcome (Option Word × State) Fault Refusal :=
  andThen (s.busFor n) fun b =>
    if !accessOk width off || decide (s.params.poolWords ≤ off / 4) then .next (none, s.refuseBus n b)
    else .next (some (b.poolWord s.params (off / 4) d), s)

/-! ## The global bank (10_state.md R70 to R73) -/

/-- A write to the global bank. -/
def State.writeGlobal (s : State) (width off : Nat) (v : Word) : Result :=
  if !accessOk width off then .refused .globalAccess
  else
    match off with
    | 0x00 => .next s
    | 0x10 => .next { s with clkDiv := v }
    | _ => .refused .globalAccess

/-- A read of the global bank. -/
def State.readGlobal (s : State) (width off : Nat) : Host.Outcome (Option Word × State) Fault Refusal :=
  if !accessOk width off then .refused .globalAccess
  else
    match off with
    | 0x00 => .next (some s.gisr, s)
    | 0x10 => .next (some s.clkDiv, s)
    | _ => .refused .globalAccess

/-! ## Host accesses -/

/-- `MMIOWrite` (R100). -/
def State.hostWrite (s : State) (loc : Loc) (width : Nat) (v : Word) : Result :=
  match Loc.find s.params loc with
  | none => .fault .outsideMap
  | some (.bus n, off) => s.writeBusReg n width off v
  | some (.pool n, off) => s.writePool n width off v
  | some (.global, off) => s.writeGlobal width off v

/-- `MMIORead` (R100). -/
def State.mmioRead (s : State) (loc : Loc) (width : Nat) (d : ReadDraw) : Host.Outcome (Option Word × State) Fault Refusal :=
  match Loc.find s.params loc with
  | none => .fault .outsideMap
  | some (.bus n, off) => s.readBusReg n width off d
  | some (.pool n, off) => s.readPool n width off d
  | some (.global, off) => s.readGlobal width off

/-- A raw read by a host program: the word goes to `rdata`, the `tK` of 30_encoding.md R160. A refused read leaves `rdata` (log 46). -/
def State.hostRead (s : State) (loc : Loc) (width : Nat) (d : ReadDraw) : Result :=
  andThen (s.mmioRead loc width d) fun r =>
    match r.1 with
    | none => .next r.2
    | some v => .next { r.2 with rdata := v }

/-! ## The host's own memory accesses (20_memory.md R116) -/

/-- The byte a DMA receive phase that runs has overwritten at `a`, if any (70_reset_and_hazards.md R568). DESIGN CHOICE (log 49): where the
phases of two buses have, the one of the lower-numbered bus that still receives. -/
def oldMemByte (a : Nat) : List Bus → Option Byte
  | [] => none
  | b :: rest => if b.receiving .dma then ((olderAt a b.rxOldMem).head?).or (oldMemByte a rest) else oldMemByte a rest

/-- The host reads the byte of system memory at `a`. -/
def State.memByte (s : State) (a : Nat) (old : Bool) : Byte :=
  if old then (oldMemByte a s.buses).getD (s.mem.read a) else s.mem.read a

/-- The host writes the byte `v` at `a`; a command that is pending may still read the old one (R118). -/
def State.hostMemWrite (s : State) (a : Nat) (v : Byte) : State :=
  { s with mem := s.mem.write a v,
           buses := s.buses.map (fun b =>
             if b.cmdPending then { b with stale := { b.stale with mem := (a, s.mem.read a) :: b.stale.mem } } else b) }

end Machine

end Sys2Proof
end

