-- ==== Sys2Proof/Machine/HostAgent.lean ====
section
/-! DEFINITION. The host agent's steps (45_host_sequencer.md R440 to R460; 60_exceptions.md R511 to R516): the submitter of each bus and the
one dispatcher, at most one MMIO access a step (45_host_sequencer.md R456). -/

namespace Sys2Proof

/-! ## Data the host moves, and what it decides alone -/

/-- A pool word from up to four bytes; the lanes that no byte fills hold the host's choice `pad`. -/
def packWord (bytes : List Byte) (pad : Word) : Word :=
  bytes.getD 3 (pad.extractLsb' 24 8) ++ bytes.getD 2 (pad.extractLsb' 16 8) ++ bytes.getD 1 (pad.extractLsb' 8 8)
    ++ bytes.getD 0 (pad.extractLsb' 0 8)

/-- The bytes of a pool word, lowest first. -/
def unpackWord (v : Word) : List Byte :=
  [v.extractLsb' 0 8, v.extractLsb' 8 8, v.extractLsb' 16 8, v.extractLsb' 24 8]

/-- `pr` of the words that hold `count` bytes. -/
def poolReads (count : Nat) : List HOp := (List.range (ceilDiv count 4)).map HOp.rdPool

/-- The count in the length register of the instance's path (10_state.md R46). -/
def countOf (path : Path) (t : Word) : Nat :=
  match path with
  | .dma => (t.extractLsb' 0 13).toNat
  | _ => (t.extractLsb' 24 8).toNat

/-- The offset of that register. -/
def countOff : Path → Nat
  | .dma => offDmaLen
  | _ => offBufCtrl

/-- R460's first critical block, and what follows. -/
def claimPlan (msgs : List Msg) (h : HostBus) : HostBus × List HOp :=
  if h.ctx == .idle then
    ({ h with ctx := .claimed }, if h.mmShared then [HOp.begin msgs] else [HOp.precheck msgs])
  else (h, [HOp.finish (.err .busy)])

/-- R452's end of the wait. -/
def HostBus.recovered (h : HostBus) : HostBus :=
  { h with ctx := h.recov.prev, recov := { h.recov with ok := h.recov.done && h.recov.outcome == some .recoverDone } }

/-- The submitter may run its next operation: a wait waits (R460, R452). -/
def subReady (op : HOp) (h : HostBus) : Bool :=
  match op with
  | .waitDone => h.txn.done
  | .recWait => h.recov.done || h.recov.expired
  | _ => true

/-- A caller enters an entry point (R440, R454, R460). A call that comes while another has operations left runs before them (log 35):
an attach in the middle of a transaction is the hazard of 70_reset_and_hazards.md R559. -/
def HostBus.called (c : HostCall) (h : HostBus) : HostBus :=
  match c with
  | .submit msgs =>
    if msgs = [] || msgs.any Msg.rejected then { h with result := some (.err .invalid) }
    else { h with sub := HOp.claim msgs :: h.sub }
  | .attach f mode mm => { h with sub := HOp.attachCalc f mode mm :: h.sub }
  | .register k a =>
    if h.handler = none then
      { h with handler := some k, sh := .idle,
               sub := HOp.wr offDevAddr (a.setWidth 32) :: HOp.wrFun (h.funShadow ||| funSlaveEn) :: HOp.finish .ok :: h.sub }
    else { h with result := some (.err .busy) }
  | .unregister =>
    { h with sub := HOp.wrFun (h.funShadow &&& ~~~funSlaveEn) :: HOp.slaveGone :: HOp.finish .ok :: h.sub }

namespace Machine

/-- An outcome of an operation: the state after it, and the operations it lines up. -/
abbrev OpResult := Host.Outcome (State × List HOp) Fault Refusal

/-- The host's state for bus `n`, changed by `f`. -/
def State.onHost (n : Nat) (f : HostBus → HostBus) (s : State) : State :=
  { s with hosts := s.hosts.modify n f }

/-- An operation that makes no access and lines nothing up. -/
def quiet (s : State) : OpResult := .next (s, [])

/-- An operation that only changes the host's state for bus `n`. -/
def hostOnly (n : Nat) (f : HostBus → HostBus) (s : State) : OpResult := quiet (s.onHost n f)

/-- A change of the host's state for bus `n` that lines up operations. -/
def hostPlan (n : Nat) (r : HostBus × List HOp) (s : State) : OpResult := .next (s.onHost n (fun _ => r.1), r.2)

/-- `wr` (30_encoding.md R160) as an operation. -/
def opWrite (n off : Nat) (v : Word) (s : State) : OpResult :=
  andThen (s.writeBusReg n 32 off v) quiet

/-- `rd` (30_encoding.md R160): the word, and what to do with it. -/
def opRead (n off : Nat) (d : ReadDraw) (s : State) (k : Word → State → OpResult) : OpResult :=
  andThen (s.readBusReg n 32 off d) fun r => k (r.1.getD 0) r.2

/-! ## Operations of the submitter -/

/-- An operation of bus `n`'s submitter; an operation of the dispatcher is none of its. -/
def submitterOp (n : Nat) (hd : HostDraw) (op : HOp) (h : HostBus) (s : State) : OpResult :=
  match op with
  | .wr off v => opWrite n off v s
  | .wrFun v => opWrite n offFunCtrl v (s.onHost n (fun h => { h with funShadow := v }))
  | .pw w bytes => andThen (s.writePool n 32 (4 * w) (packWord bytes hd.pad)) quiet
  | .issue c => opWrite n offCmd (c.setWidth 32) (s.onHost n (fun h => { h with txn := { h.txn with cmd := c } }))
  | .cmd c => opWrite n offCmd (c.setWidth 32) s
  | .crit on => hostOnly n (fun h => { h with crit := on }) s
  | .setCtx c => hostOnly n (fun h => { h with ctx := c }) s
  | .attachCalc f mode mm => .next (s, attachPlan s.params s.clkDiv f mode mm)
  | .attached mode mm =>
    hostOnly n (fun h => { h with ctx := .idle, sh := .idle, handler := none, mode := mode, mmShared := mm }) s
  | .claim msgs => hostPlan n (claimPlan msgs h) s
  | .precheck msgs =>
    opRead n offCmd hd.read s fun t s2 =>
      .next (s2, if t.getLsbD 16 then [HOp.recover, HOp.afterRecover msgs] else [HOp.begin msgs])
  | .afterRecover msgs =>
    .next (s, if h.recov.ok then [HOp.begin msgs] else [HOp.setCtx .idle, HOp.finish (.err .bus)])
  | .begin msgs => hostPlan n (beginPlan s.params msgs h) s
  | .waitDone => .next (s.onHost n (fun h => { h with ctx := .idle }), [HOp.finish h.txn.result])
  | .expiryLook => opRead n offCmd hd.read s fun t s2 => .next (s2, expiryPlan h.funShadow t)
  | .recover => .next (s.onHost n (fun h => { h with recov := { h.recov with ok := false } }), recoverOps h.funShadow)
  | .recLook base saved => opRead n offCmd hd.read s fun t s2 => .next (s2, recoverPlan base saved t)
  | .recArm =>
    hostOnly n (fun h => { h with recov := { done := false, outcome := none, prev := h.ctx, ok := false, expired := false }, ctx := .recovering }) s
  | .recWait => hostOnly n HostBus.recovered s
  | .finish r => hostOnly n (fun h => { h with result := some r }) s
  | .slaveGone => hostOnly n (fun h => { h with handler := none, sh := .idle }) s
  | .rdIsr => quiet s
  | .rdByte => quiet s
  | .rdCount => quiet s
  | .rdData => quiet s
  | .rdPool _ => quiet s
  | .rdMem => quiet s
  | .decide => quiet s
  | .slaveEv _ => quiet s
  | .arm => quiet s
  | .setSh _ => quiet s
  | .master _ _ => quiet s
  | .logBits _ => quiet s
  | .busDone => quiet s

/-- The dispatcher is at bus `n` (R456: a dispatch is atomic with respect to that bus's submitter). -/
def State.dispatching (s : State) (n : Nat) : Bool :=
  match s.disp with
  | some d => d.todo != [] && d.n == n
  | none => false

/-- A call of an entry point is a step of bus `n`'s submitter: none while the dispatcher is at that bus, nor inside a critical block
(R456). -/
def State.callStep (s : State) (n : Nat) (c : HostCall) : State :=
  if s.dispatching n then s else s.onHost n (fun h => if h.crit then h else h.called c)

/-- A step of bus `n`'s submitter; nothing happens where it has none. -/
def State.submitterStep (s : State) (n : Nat) (hd : HostDraw) : Result :=
  match s.hosts[n]? with
  | none => .next s
  | some h =>
    match h.sub with
    | [] => .next s
    | op :: rest =>
      if s.dispatching n || !subReady op h then .next s
      else
        andThen (submitterOp n hd op h s) fun r =>
          .next (r.1.onHost n (fun h2 => { h2 with sub := r.2 ++ rest }))

/-- `host_timeout`: the submitter's wait (R450) or recovery's wait (R452) is over. The critical block that follows is the submitter's
next step, so a dispatch may come between (R456). -/
def State.hostTimeoutStep (s : State) (n : Nat) : State :=
  match s.hosts[n]? with
  | none => s
  | some h =>
    if s.dispatching n then s
    else
      match h.sub with
      | .waitDone :: rest =>
        if h.txn.done then s
        else s.onHost n (fun _ => { h with sub := HOp.setCtx .idle :: HOp.expiryLook :: HOp.finish (.err .timeout) :: rest })
      | .recWait :: _ => if h.recov.done then s else s.onHost n (fun _ => { h with recov := { h.recov with expired := true } })
      | _ => s

/-! ## The dispatcher -/

/-- `count` bytes of memory from `a` on as the host reads them; `old` says of each whether it reads old (70_reset_and_hazards.md
R568). -/
def State.memBytes (s : State) (a count : Nat) (old : List Bool) : List Byte :=
  (List.range count).map (fun i => s.memByte (a + i) (old.getD i false))

/-- The first byte, in memory, of the message in hand (R447 in DMA mode). -/
def State.firstByte (s : State) (t : Txn) (old : List Bool) : Byte :=
  match t.msgs[t.idx]? with
  | some m => s.memByte m.phys.toNat (old.getD 0 false)
  | none => 0

/-- The dispatcher's record changed by `f`. -/
def State.onDisp (f : Disp → Disp) (s : State) : State := { s with disp := s.disp.map f }

/-- An operation of the dispatcher at bus `n`; an operation of the submitter is none of its, but for the writes both make. -/
def dispatcherOp (n : Nat) (hd : HostDraw) (op : HOp) (d : Disp) (h : HostBus) (s : State) : OpResult :=
  match op with
  | .wr off v => opWrite n off v s
  | .pw w bytes => andThen (s.writePool n 32 (4 * w) (packWord bytes hd.pad)) quiet
  | .issue c => opWrite n offCmd (c.setWidth 32) (s.onHost n (fun h => { h with txn := { h.txn with cmd := c } }))
  | .cmd c => opWrite n offCmd (c.setWidth 32) s
  | .rdIsr =>
    opRead n offIsr hd.read s fun t s2 =>
      .next (s2.onDisp (fun d => { d with st := t, rxByte := 0, count := 0, data := [] }), readOps h t ++ [HOp.decide])
  | .rdByte => opRead n offByteBuf hd.read s fun t s2 => quiet (s2.onDisp (fun d => { d with rxByte := t.extractLsb' 8 8 }))
  | .rdCount =>
    opRead n (countOff h.mode) hd.read s fun t s2 => quiet (s2.onDisp (fun d => { d with count := countOf h.mode t }))
  | .rdData => .next (s, poolReads d.count)
  | .rdPool w =>
    andThen (s.readPool n 32 (4 * w) hd.read) fun r =>
      quiet (r.2.onDisp (fun d => { d with data := d.data ++ unpackWord (r.1.getD 0) }))
  | .rdMem => quiet (s.onDisp (fun d => { d with data := s.memBytes s.params.slaveDmaPhys.toNat d.count hd.memOld }))
  | .decide => .next (s, decideOps s.params h d.st d.rxByte d.count d.data)
  | .slaveEv e => hostPlan n (h.onSlaveEvent e hd.byte) s
  | .arm => .next (s, armOps s.params h.mode)
  | .setSh c => hostOnly n (fun h => { h with sh := c }) s
  | .master o m => hostPlan n (h.onOutcome s.params o m d.count d.rxByte d.data (s.firstByte h.txn hd.memOld)) s
  | .logBits v => hostOnly n (fun h => if v = 0 then h else { h with unrecLog := h.unrecLog ++ [v] }) s
  | .busDone => quiet (s.onDisp (fun d => { d with n := d.n + 1, st := 0, rxByte := 0, count := 0, data := [] }))
  | .wrFun _ => quiet s
  | .crit _ => quiet s
  | .setCtx _ => quiet s
  | .attachCalc _ _ _ => quiet s
  | .attached _ _ => quiet s
  | .claim _ => quiet s
  | .precheck _ => quiet s
  | .afterRecover _ => quiet s
  | .begin _ => quiet s
  | .waitDone => quiet s
  | .expiryLook => quiet s
  | .recover => quiet s
  | .recLook _ _ => quiet s
  | .recArm => quiet s
  | .recWait => quiet s
  | .finish _ => quiet s
  | .slaveGone => quiet s

/-- The dispatcher between two buses: on to the next one, into a dispatch, or back from the entry (60_exceptions.md R511, R515). A
critical block of a bus's submitter keeps the dispatcher out of that bus (R456). -/
def State.dispatcherAdvance (s : State) (d : Disp) (g : Word) : State :=
  match s.hosts[d.n]? with
  | none => { s with disp := none }
  | some h =>
    if g.getLsbD d.n then
      if h.crit then s else { s with disp := some { d with todo := [HOp.rdIsr] } }
    else { s with disp := some { d with n := d.n + 1 } }

/-- A step of the dispatcher; nothing happens where none runs. -/
def State.dispatcherStep (s : State) (hd : HostDraw) : Result :=
  match s.disp with
  | none => .next s
  | some d =>
    match d.g with
    | none => .next { s with disp := some { d with g := some s.gisr } }
    | some g =>
      match d.todo, s.hosts[d.n]? with
      | op :: rest, some h =>
        andThen (dispatcherOp d.n hd op d h s) fun r =>
          .next (r.1.onDisp (fun d2 => { d2 with todo := r.2 ++ rest }))
      | _, _ => .next (s.dispatcherAdvance d g)

/-- The host enters its interrupt entry: while IRQ is 1 and none is running (60_exceptions.md R513, R516). -/
def State.irqEntryStep (s : State) : State :=
  if s.irq && s.disp == none then { s with disp := some {} } else s

end Machine

end Sys2Proof
end

