-- ==== Sys2Proof/Machine/Inputs.lean ====
section
/-! DEFINITION. What each input does: host accesses, engine, slave and environment steps, reset and boot, and the host agent's steps
(00_scope.md R7, 70_reset_and_hazards.md R550 to R557). An input whose step is not enabled, or whose draw the step does not admit,
changes nothing (log 2). -/

namespace Sys2Proof.Machine

/-- A step of bus `n` and system memory, by a function that answers none where there is no step. -/
def State.busStep (s : State) (n : Nat) (f : Bus → Option (Bus × Memory)) : State :=
  match s.buses[n]? with
  | none => s
  | some b =>
    match f b with
    | none => s
    | some r => { s.setBus n r.1 with mem := r.2 }

/-- The buses after a block reset, bus `i` with the draws number `i` (70_reset_and_hazards.md R550 to R553, R555). -/
def resetBuses (p : Params) : List Bus → List ResetDraw → List Bus
  | [], _ => []
  | b :: rest, [] => Bus.afterReset p b.env {} :: resetBuses p rest []
  | b :: rest, u :: us => Bus.afterReset p b.env u :: resetBuses p rest us

/-- `block_reset` (R550): every bus and the global bank; the environment, memory and the host's software state stay (R555). -/
def State.blockReset (s : State) (u : List ResetDraw) : State :=
  { s with buses := resetBuses s.params s.buses u, clkDiv := s.params.clkDivReset }

/-- What an input does. -/
def State.apply (s : State) (e : Event) : Result :=
  match e with
  | .read loc width d => s.hostRead loc width d
  | .write loc width v => s.hostWrite loc width v
  | .memRead a old => .next { s with rdata := (s.memByte a.toNat old).setWidth 32 }
  | .memWrite a v => .next (s.hostMemWrite a.toNat v)
  | .engine n d pk => .next (s.busStep n (fun b => b.masterStep s.params s.mem d pk))
  | .slave n => .next (s.busStep n (fun b => b.slaveStep.map (fun b2 => (b2, s.mem))))
  | .env n ev pk => .next (s.busStep n (fun b => b.envStep s.params s.mem ev pk))
  | .blockReset u => .next (s.blockReset u)
  | .boot => s.writeGlobal 32 0x10 s.params.clkDivBoot
  | .call n c => .next (s.callStep n c)
  | .submitter n hd => s.submitterStep n hd
  | .hostTimeout n => .next (s.hostTimeoutStep n)
  | .irqEntry => .next s.irqEntryStep
  | .dispatcher hd => s.dispatcherStep hd

/-- The state without the input it takes next. -/
def State.takeInput (s : State) : State :=
  match s.inputs with
  | [] => { s with fresh := s.fresh + 1 }
  | _ :: rest => { s with inputs := rest }

/-- The input a state takes next: the first of the list, or a free one when the list is used up (log 1). -/
def State.nextInput (s : State) : Event :=
  match s.inputs with
  | [] => Config.futureInput s.fresh
  | e :: _ => e

end Sys2Proof.Machine
end

