-- ==== Sys2Proof/Machine/Step.lean ====
section
/-! DEFINITION. One step of the machine, and where a command comes from (00_scope.md R7; 30_encoding.md R150). -/

namespace Sys2Proof.Machine

/-- One step: the next input moves its agent. A step runs a command when that input is a write to a bus's CMD register. -/
def step (s : State) : Result := s.takeInput.apply s.nextInput

/-- The state whose very next step is the host's write of the word `w` to CMD of bus 0 (log 5). A command is one 32-bit write
(30_encoding.md R157); the bits above `nbits` are 0. -/
def State.withFetchWord (s : State) (nbits w : Nat) : State :=
  { s with inputs := Event.write (.space (.bus 0) 0x14) 32 (BitVec.ofNat 32 (w % 2 ^ nbits)) :: s.inputs }

end Sys2Proof.Machine
end

