-- ==== Sys2Proof/Machine/Program.lean ====
section
/-! DEFINITION. The syntax of host programs (30_encoding.md R160, R161): lines, their expansion, the accesses they stand for, and how a
program runs on bus `n`. -/

namespace Sys2Proof

/-- A register name of 10_state.md R33. -/
inductive Reg where
  | funCtrl
  | timing
  | timeout
  | ier
  | isr
  | cmd
  | devAddr
  | bufCtrl
  | byteBuf
  | dmaAddr
  | dmaLen
  deriving DecidableEq, Repr, Inhabited

/-- `off(REG)` (10_state.md R33). -/
def Reg.off : Reg → Nat
  | .funCtrl => offFunCtrl
  | .timing => offTiming
  | .timeout => offTimeout
  | .ier => offIer
  | .isr => offIsr
  | .cmd => offCmd
  | .devAddr => offDevAddr
  | .bufCtrl => offBufCtrl
  | .byteBuf => offByteBuf
  | .dmaAddr => offDmaAddr
  | .dmaLen => offDmaLen

/-- A register of the global bank (10_state.md R70). -/
inductive GlobalReg where
  | gisr
  | clkDiv
  deriving DecidableEq, Repr, Inhabited

/-- Its offset. -/
def GlobalReg.off : GlobalReg → Nat
  | .gisr => 0x00
  | .clkDiv => 0x10

/-- One line of a host program (R160), pseudo-instructions included (R161). `k` numbers the host temporary `tK` that a read sets. A
line `env …` is a draw of the bus environment (95_test_vectors.md, section Notation): an event of its own (41_line_driver.md R253), or
the draw of the engine's next step (`A`, `N`, `DATA(d)`, `OK`, `FAULT(…)`; R245 to R248, 42_master_commands.md R305). -/
inductive HostLine where
  | wr (r : Reg) (v : Word)
  | rd (r : Reg) (k : Nat)
  | pw (w : Nat) (v : Word)
  | pr (w : Nat) (k : Nat)
  | gw (r : GlobalReg) (v : Word)
  | gr (r : GlobalReg) (k : Nat)
  | waitIrq
  | env (e : EnvEvent) (pk : SrcPick)
  | draw (d : Draw) (pk : SrcPick)
  | cmd (i : Instr)
  | ack (mask : Word)
  | addr (a7 : BitVec 7) (rw : Bool)
  | poll (r : Reg) (mask v : Word)
  deriving DecidableEq, Repr, Inhabited

/-- The expansion of a pseudo-instruction (R161); `poll` expands to the read of its loop, into `t0`. -/
def HostLine.expand : HostLine → HostLine
  | .cmd i => .wr .cmd (encode i)
  | .ack mask => .wr .isr mask
  | .addr a7 rw => .wr .byteBuf ((addrByte a7 rw).setWidth 32)
  | .poll r _ _ => .rd r 0
  | l => l

/-- An access as R161 encodes it: space, offset, and the value of a write. -/
structure Access where
  space : Space
  off : Nat
  value : Option Word
  deriving DecidableEq, Repr, Inhabited

/-- The access of a line on bus `n`, none for a line that makes none. -/
def HostLine.access (n : Nat) (l : HostLine) : Option Access :=
  match l.expand with
  | .wr r v => some { space := .bus n, off := r.off, value := some v }
  | .rd r _ => some { space := .bus n, off := r.off, value := none }
  | .pw w v => some { space := .pool n, off := 4 * w, value := some v }
  | .pr w _ => some { space := .pool n, off := 4 * w, value := none }
  | .gw r v => some { space := .global, off := r.off, value := some v }
  | .gr r _ => some { space := .global, off := r.off, value := none }
  | _ => none

/-- The encoding of a program: its accesses in order (R161). -/
def encodeProgram (n : Nat) (ls : List HostLine) : List Access := ls.filterMap (HostLine.access n)

/-- The input of an access, with the draws of a read. -/
def Access.input (d : ReadDraw) (a : Access) : Event :=
  match a.value with
  | some v => .write (.space a.space a.off) 32 v
  | none => .read (.space a.space a.off) 32 d

/-- The input that a line takes on bus `n`; none for `wait_irq`. -/
def HostLine.input (n : Nat) (d : ReadDraw) (l : HostLine) : Option Event :=
  match l.expand with
  | .env e pk => some (.env n e pk)
  | .draw x pk => some (.engine n x pk)
  | _ => (l.access n).map (Access.input d)

/-- The temporary a line's read sets. -/
def HostLine.temp (l : HostLine) : Option Nat :=
  match l.expand with
  | .rd _ k => some k
  | .pr _ k => some k
  | .gr _ k => some k
  | _ => none

/-! ## Running a program -/

/-- A program in the middle of its run on one bus: the machine, the temporaries set so far (newest first), and the lines to come. -/
structure HostRun where
  st : Machine.State
  temps : List (Nat × Word) := []
  rest : List HostLine
  deriving DecidableEq, Repr

/-- The value of `tK`, none before a read has set it. -/
def HostRun.temp (k : Nat) (r : HostRun) : Option Word := (r.temps.find? (fun e => e.1 == k)).map Prod.snd

/-- The program goes on past its first line: a `poll` only when its test holds of `t0`, `wait_irq` only when the bus's line is up
(R160, R161). -/
def HostLine.goesOn (n : Nat) (l : HostLine) (r : HostRun) : Bool :=
  match l with
  | .poll _ mask v => (r.temp 0).any (fun t => (t &&& mask) == v)
  | .waitIrq => (r.st.buses[n]?.map Bus.irq).getD false
  | _ => true

/-- The run after its first line `l` has acted: the temporary takes the word read, and the program goes on or stays at the line. DESIGN
CHOICE (log 46): a read that marks the bus refused (10_state.md R54) returns no word, and the temporary takes the one of the read before. -/
def HostRun.after (n : Nat) (l : HostLine) (rest : List HostLine) (s : Machine.State) (r : HostRun) : HostRun :=
  let temps := match l.temp with
    | some k => (k, s.rdata) :: r.temps
    | none => r.temps
  let r1 := { r with st := s, temps := temps }
  if l.goesOn n r1 then { r1 with rest := rest } else r1

/-- One step of a program on bus `n`: its next line. A `wait_irq` whose line is down leaves the host no step, and a finished program
has none. -/
def HostRun.step (n : Nat) (d : ReadDraw) (r : HostRun) : Host.Outcome HostRun Machine.Fault Machine.Refusal :=
  match r.rest with
  | [] => .next r
  | l :: rest =>
    match l.input n d with
    | none => .next (r.after n l rest r.st)
    | some e => Machine.andThen (r.st.apply e) fun s => .next (r.after n l rest s)

/-- A step of another agent between two lines of the program (00_scope.md R7). -/
def HostRun.other (e : Event) (r : HostRun) : Host.Outcome HostRun Machine.Fault Machine.Refusal :=
  Machine.andThen (r.st.apply e) fun s => .next { r with st := s }

end Sys2Proof
end

