-- ==== Sys2Proof/Safety.lean ====
section
/-! DEFINITION. What counts as a sound state (the invariant of every run), and runs of one bus's engine: the terms in which claims are
stated. -/

namespace Sys2Proof

/-! ## The invariant of a bus -/

/-- What may follow a phase of a command: data phases, then at most one STOP (42_master_commands.md R301). -/
def restOk : List Phase → Bool
  | [] => true
  | [.stop] => true
  | .tx _ :: rest => restOk rest
  | .rx _ _ :: rest => restOk rest
  | _ => false

/-- The progress of a data phase: fresh, or `i` of `n` bytes with `i < n`, and `n` in the pool on the buffer path. -/
def dataProgressOk (p : Params) (path : Path) : Progress → Bool
  | .fresh => true
  | .moving i n => decide (i < n) && (path != .buf || decide (n ≤ p.bufSize))
  | _ => false

/-- The position of a running command fits `own`: an address phase that has produced its START owns the bus, one that waits for the
bus does not, and data phases run on an owned bus (R302, R305). -/
def execOk (p : Params) (own : Bool) : List Phase → Progress → Bool
  | .addr :: rest, .fresh => restOk rest
  | .addr :: rest, .waitBus => restOk rest && !own
  | .addr :: rest, .started => restOk rest && own
  | .tx path :: rest, pr => restOk rest && own && dataProgressOk p path pr
  | .rx path _ :: rest, pr => restOk rest && own && dataProgressOk p path pr
  | [.stop], .fresh => true
  | _, _ => false

/-- CMD[11:0] holds the bits of what is pending (10_state.md R39, 42_master_commands.md R302, R303; 43_slave.md R368). -/
def cmdOk (c : BitVec 12) (m : MState) (st : SState) : Bool :=
  match m with
  | .exec ph _ => c == pendingBits ph
  | .recover _ => c == bitsRecover
  | _ =>
    match st with
    | .tx path => c == 0 || c == bitsStx path
    | _ => c == 0

/-- What holds of every bus in every run. -/
structure Bus.Inv (p : Params) (b : Bus) : Prop where
  /-- only implemented status bits are set (10_state.md R60) -/
  isr : b.isr &&& ~~~isrImpl = 0
  /-- only implemented enable bits are set (10_state.md R38) -/
  ier : b.ier &&& ~~~isrImpl = 0
  /-- TIMING's reserved bits are not stored (10_state.md R36) -/
  timing : b.timing &&& ~~~timingMask = 0
  /-- M_OFF is MASTER_EN = 0 (10_state.md R48) -/
  masterOff : b.mstate = .off ↔ b.masterEn = false
  /-- S_OFF is SLAVE_EN = 0 (10_state.md R50) -/
  slaveOff : b.sstate = .off ↔ b.slaveEn = false
  /-- the engine owns the bus only in M_EXEC or M_HOLD (10_state.md R49) -/
  ownState : b.own = true → b.mstate = .hold ∨ ∃ ph pr, b.mstate = .exec ph pr
  /-- while it owns the bus it holds SCL low (41_line_driver.md R249) -/
  ownScl : b.own = true → b.mDrv.scl = .low
  /-- while it owns the bus the latch is set (41_line_driver.md R243, R262) -/
  ownBusy : b.own = true → b.busBusy = true
  /-- the slave keeps off a bus its own master owns (43_slave.md R363) -/
  ownSlave : b.own = true → b.sstate = .off ∨ b.sstate = .idle ∨ b.sstate = .ignore
  /-- M_HOLD owns the bus (42_master_commands.md R308) -/
  hold : b.mstate = .hold → b.own = true
  /-- the master function drives nothing in M_OFF and M_IDLE (10_state.md R55) -/
  released : b.mstate = .off ∨ b.mstate = .idle → b.mDrv = {}
  /-- the slave stretches exactly in S_RX_WAIT and S_TX_WAIT (43_slave.md R364, R373) -/
  stretch : b.sDrv.scl = .low ↔ b.sstate = .rxWait ∨ b.sstate = .txWait
  /-- the slave function holds SDA low in no state between two steps -/
  slaveSda : b.sDrv.sda = .rel
  /-- the latch is 0 while the engine does not monitor (10_state.md R35) -/
  busy : b.busBusy = true → b.monitoring = true
  /-- a command that runs is where it can be -/
  exec : ∀ ph pr, b.mstate = .exec ph pr → execOk p b.own ph pr = true
  /-- CMD holds the pending bits -/
  cmd : cmdOk b.cmd b.mstate b.sstate = true
  /-- no master command runs beside STX (42_master_commands.md R338) -/
  stx : b.sstate.isTx = true → b.mstate.busy = false
  /-- the pool has BUF_SIZE bytes (10_state.md R47) -/
  pool : b.pool.length = p.bufSize
  /-- an armed buffer path fits the pool (43_slave.md R367) -/
  bufCap : b.sPath = .buf → b.sCap ≤ p.bufSize
  /-- an armed DMA path does not wrap (43_slave.md R367) -/
  dmaCap : b.sPath = .dma → b.sBase.toNat + b.sCap ≤ 2 ^ 32
  /-- a batch that receives has room (43_slave.md R364, R366) -/
  room : b.sstate = .rx → b.sPath ≠ .byte → b.sCount < b.sCap
  /-- STX has a byte to send (43_slave.md R370) -/
  txRoom : b.sstate.isTx = true → b.sCount < b.sCap
  /-- the receive path is BYTE while the slave is addressed for read (10_state.md R51) -/
  readPath : b.sstate = .txWait ∨ b.sstate.isTx = true → b.sPath = .byte

namespace Machine

/-- What holds of the machine in every run. -/
structure State.Inv (s : State) : Prop where
  buses : s.buses.length = s.params.nbus
  hosts : s.hosts.length = s.params.nbus
  mem : Memory.wf s.mem = true
  bus : ∀ b ∈ s.buses, Bus.Inv s.params b

end Machine

/-! ## Runs of one bus's master engine -/

/-- The engine takes the steps with these draws, one after the other; none where one of them is no step of it. -/
def Bus.runMaster (p : Params) : List (Draw × SrcPick) → Bus × Memory → Option (Bus × Memory)
  | [], r => some r
  | d :: ds, r =>
    match r.1.masterStep p r.2 d.1 d.2 with
    | none => none
    | some r2 => Bus.runMaster p ds r2

/-- The remote side takes these steps, one after the other; none where one of them is not enabled. -/
def Bus.runEnv (p : Params) : List EnvEvent → Bus × Memory → Option (Bus × Memory)
  | [], r => some r
  | e :: es, r =>
    match r.1.envStep p r.2 e {} with
    | none => none
    | some r2 => Bus.runEnv p es r2

/-- No host write has touched a source since CMD was written: every sample is the register's own value. -/
def current : SrcPick := {}

/-! ## The words the statements use -/

/-- The command has M_START (42_master_commands.md R311 to R318). -/
def Instr.hasStart (i : Instr) : Bool := (code i).getLsbD 0

/-- An MTX or MRX form, a master command with a data phase and no M_START (R319, R324 to R328). -/
def Instr.isData (i : Instr) : Bool := !(code i).getLsbD 0 && !(code i).getLsbD 2 && ((code i).getLsbD 1 || (code i).getLsbD 3)

/-- A master command or RECOVER (R300). -/
def Instr.isMaster (i : Instr) : Bool := i.hasStart || i.isData || i == .mstop || i == .recover

/-- STX (43_slave.md R368). -/
def Instr.isStx (i : Instr) : Bool := (code i).getLsbD 2

/-- SRXARM (43_slave.md R367). -/
def Instr.isSrxarm (i : Instr) : Bool := i == .srxarmBuf || i == .srxarmDma

/-- The bus's engine may move: no refusal, not stuck. -/
def Bus.live (b : Bus) : Prop := b.refused = false ∧ b.stuck = false

/-- Nothing but this bus's master pulls a line down. -/
def Bus.alone (b : Bus) : Prop := b.env = {} ∧ b.sDrv = {}

/-- The bytes of a transmit phase, by the registers (42_master_commands.md R330 to R332). -/
def Bus.txBytes (mem : Memory) (path : Path) (b : Bus) : List Byte :=
  match path with
  | .byte => [b.txByte]
  | .buf => (List.range (b.txEnd.toNat + 1)).map (fun i => b.pool.getD i 0)
  | .dma => (List.range b.dmaLenProg.toNat).map (fun i => mem.read (b.dmaAddr.toNat + i))

/-- Every byte of the DMA phase of the registers is at a mapped address (20_memory.md R110), and the phase is not refused (R332,
R335). -/
def Bus.dmaFits (p : Params) (b : Bus) : Bool :=
  p.dmaRangeOk b.dmaLenProg.toNat b.dmaAddr &&
    (List.range b.dmaLenProg.toNat).all (fun i => p.dmaAllowed (b.dmaAddr.toNat + i))

/-- A transmit phase of `path` runs to its end by the registers. -/
def Bus.txFits (p : Params) (path : Path) (b : Bus) : Bool :=
  match path with
  | .byte => true
  | .buf => decide (b.txEnd.toNat + 1 ≤ p.bufSize)
  | .dma => b.dmaFits p

/-- A receive phase of `path` runs to its end by the registers. -/
def Bus.rxFits (p : Params) (path : Path) (b : Bus) : Bool :=
  match path with
  | .byte => true
  | .buf => decide (b.rxEnd.toNat + 1 ≤ p.bufSize)
  | .dma => b.dmaFits p

/-- The number of bytes of a receive phase, by the registers (R333 to R335). -/
def Bus.rxCount (path : Path) (b : Bus) : Nat :=
  match path with
  | .byte => 1
  | .buf => b.rxEnd.toNat + 1
  | .dma => b.dmaLenProg.toNat

/-- Memory with the bytes `ds` at addresses `a`, `a + 1`, … -/
def Memory.writeAll : Memory → Nat → List Byte → Memory
  | m, _, [] => m
  | m, a, d :: ds => Memory.writeAll (m.write a d) (a + 1) ds

/-- The list with the elements `ds` put at `i`, `i + 1`, … -/
def setAll : List Byte → Nat → List Byte → List Byte
  | l, _, [] => l
  | l, i, d :: ds => setAll (l.set i d) (i + 1) ds

/-- The slave is in a phase of path `q` whose count an end on the wires records: a batch with a byte in it, or an STX (10_state.md R42,
R45; log 40). -/
def Bus.cutPhase (q : Path) (b : Bus) : Bool := (b.sstate == .rx && b.sPath == q && decide (0 < b.sCount)) || b.sstate == .tx q

/-- The latch after a slot's fault (41_line_driver.md R257, R262). -/
def SlotFault.latch (f : SlotFault) (busy : Bool) : Bool :=
  match f with
  | .abn .start => true
  | .abn .stop => false
  | _ => busy

end Sys2Proof
end

