-- ==== Sys2Proof/Certificates/Slice0/Obligations.lean ====
section
/-! DEFINITION. The statements for the provers. `current` as the source pick says that no host write has touched a source since CMD was
written, and `stale = {}` that none is recorded. -/

section

open Sys2Proof Sys2Proof.Machine

/-! ## Encoding -/

/-- Words written out from the bit places of 30_encoding.md R140 and the rows of R152 decode to the commands they stand for; bits
[31:12] are ignored (R150); 0 is CMD_NOP (R154). -/
def Obligations.SampleWordsDecode : Prop :=
  decode 0b000000000011#32 = some .mstart ∧ decode 0b000001100011#32 = some .mstartTxStopBuf ∧
  decode 0b001000001011#32 = some .mstartRxDma ∧ decode 0b000010111011#32 = some .mstartRxlStopBuf ∧
  decode 0b000000100010#32 = some .mtxStopB ∧ decode 0b001000111000#32 = some .mrxlStopDma ∧
  decode 0b000000100000#32 = some .mstop ∧ decode 0b000001000100#32 = some .stxBuf ∧
  decode 0b001000000000#32 = some .srxarmDma ∧ decode 0b100000000000#32 = some .recover ∧
  decode 0xFFFFF01B#32 = some .mstartRxlB ∧ decode 0xFFFFF000#32 = some .cmdNop

/-- Every command's word decodes to it whatever stands in bits [31:12], its encoding does, and a word that decodes to a command holds
that command's code in its low twelve bits (R140, R150, R152). -/
def Obligations.DecodeAndEncodeAgree : Prop :=
  (∀ i : Instr, decode (encode i) = some i) ∧ (∀ (i : Instr) (hi : BitVec 20), decode (hi ++ code i) = some i) ∧
  (∀ (v : Word) (i : Instr), decode v = some i → v.extractLsb' 0 12 = code i)

/-- `legal` holds of exactly the 43 words of the opcode map (R151, R152), and these with 0 are the words that decode. -/
def Obligations.LegalWordsAreTheOpcodeMap : Prop :=
  ∀ c : BitVec 12,
    (legal c = true ↔
      c.toNat ∈
        [0x003, 0x023, 0x043, 0x103, 0x063, 0x123, 0x00B, 0x08B, 0x20B, 0x01B, 0x09B, 0x21B, 0x02B, 0x0AB, 0x22B, 0x03B, 0x0BB,
         0x23B, 0x002, 0x042, 0x102, 0x022, 0x062, 0x122, 0x008, 0x088, 0x208, 0x018, 0x098, 0x218, 0x028, 0x0A8, 0x228, 0x038,
         0x0B8, 0x238, 0x020, 0x004, 0x044, 0x104, 0x080, 0x200, 0x800]) ∧
    ((decodeCmd c).isSome = true ↔ c = 0 ∨ legal c = true)

/-- R155: a write of a nonzero illegal word to CMD sets the refusal mark of that bus and does nothing else; there are 4052 such
words (counted by rows of 64), the rule's examples among them. -/
def Obligations.IllegalWordRefused : Prop :=
  (∀ (s : State) (n : Nat) (b : Bus) (v : Word), s.buses[n]? = some b → b.refused = false → v.extractLsb' 0 12 ≠ 0 →
    legal (v.extractLsb' 0 12) = false →
    s.hostWrite (.space (.bus n) 0x14) 32 v = .next (s.setBus n { b with refused := true })) ∧
  ((List.range 64).map (fun x =>
    ((List.range 64).filter (fun y => 64 * x + y != 0 && !legal (BitVec.ofNat 12 (64 * x + y)))).length)).sum = 4052 ∧
  ∀ c ∈ [0x001#12, 0x010#12, 0x400#12, 0x142#12, 0x801#12, 0x006#12], c ≠ 0 ∧ legal c = false

/-- The command R150 runs is the one decoded: when the next input is the host's write of a word that decodes to `i` to the CMD
register of bus `n`, by its offset or by its absolute address, the step is exec of `i` at the state with that input taken and bus
`n` selected. -/
def Obligations.StepRunsDecodedCommand : Prop :=
  ∀ (s : State) (rest : List Event) (loc : Loc) (n : Nat) (b : Bus) (v : Word) (i : Instr),
    s.inputs = .write loc 32 v :: rest → Loc.find s.params loc = some (.bus n, 0x14) → s.buses[n]? = some b → b.refused = false →
    decode v = some i → step s = exec i { s with inputs := rest, sel := n }

/-! ## Acceptance: what a command does at its write -/

/-- R154: a write with bits [11:0] zero is CMD_NOP. It is accepted in every state of the bus, a running command included, and
changes nothing (`sel` is the model's own record of the bus written, log 4). -/
def Obligations.NopChangesNothing : Prop :=
  (∀ s : State, exec .cmdNop s = .next s) ∧
  ∀ (s : State) (n : Nat) (b : Bus) (v : Word), s.buses[n]? = some b → b.refused = false → v.extractLsb' 0 12 = 0 →
    s.hostWrite (.space (.bus n) 0x14) 32 v = .next { s with sel := n }

/-- Every command with M_START (MSTART, MSTART.STOP, MSTART.TX, MSTART.TX.STOP, MSTART.RX, MSTART.RXL, MSTART.RX.STOP,
MSTART.RXL.STOP, on every path: 18 words) written in M_IDLE or M_HOLD while STX does not run is accepted: CMD takes its word and
the master state its phase list (42_master_commands.md R300, R301, R304). The record of older sources starts anew (R118). -/
def Obligations.StartCommandsAccepted : Prop :=
  ∀ (i : Instr) (s : State) (b : Bus), i.hasStart = true → s.buses[s.sel]? = some b → b.mstate = .idle ∨ b.mstate = .hold →
    b.sstate.isTx = false →
    exec i s =
      .next (s.setBus s.sel { b with cmd := code i, mstate := .exec (phaseList (code i)) .fresh, stale := {} })

/-- Every MTX and MRX form (MTX, MTX.STOP, MRX, MRXL, MRX.STOP, MRXL.STOP, on every path: 18 words) is accepted in M_HOLD while STX
does not run (R300, R301, R304). -/
def Obligations.DataCommandsAccepted : Prop :=
  ∀ (i : Instr) (s : State) (b : Bus), i.isData = true → s.buses[s.sel]? = some b → b.mstate = .hold → b.sstate.isTx = false →
    exec i s =
      .next (s.setBus s.sel { b with cmd := code i, mstate := .exec (phaseList (code i)) .fresh, stale := {} })

/-- MSTOP is accepted in M_HOLD and in M_IDLE, RECOVER in M_IDLE (R300, R304, R329, R337, R339). -/
def Obligations.StopAndRecoverAccepted : Prop :=
  (∀ (s : State) (b : Bus), s.buses[s.sel]? = some b → b.mstate = .idle ∨ b.mstate = .hold → b.sstate.isTx = false →
    exec .mstop s = .next (s.setBus s.sel { b with cmd := 0x020, mstate := .exec [.stop] .fresh, stale := {} })) ∧
  ∀ (s : State) (b : Bus), s.buses[s.sel]? = some b → b.mstate = .idle → b.sstate.isTx = false →
    exec .recover s = .next (s.setBus s.sel { b with cmd := 0x800, mstate := .recover 0, stale := {} })

/-- The refused cells of R304's table, and R338: every master command and RECOVER in M_OFF, M_EXEC and M_RECOVER and while STX
runs, the MTX and MRX forms in M_IDLE, RECOVER in M_HOLD. The write sets the refusal mark and does nothing else. -/
def Obligations.MasterCommandsRefused : Prop :=
  ∀ (i : Instr) (s : State) (b : Bus), i.isMaster = true → s.buses[s.sel]? = some b →
    (b.mstate = .off ∨ b.mstate.busy = true ∨ b.sstate.isTx = true ∨ (b.mstate = .idle ∧ i.isData = true) ∨
      (b.mstate = .hold ∧ i = .recover)) →
    exec i s = .next (s.setBus s.sel { b with refused := true })

/-- SRXARM (43_slave.md R367): with SLAVE_EN set, the slave in S_RX_WAIT, no master command running and the capacity in range, the
receive path is armed and the length register cleared; everywhere else the write is refused. -/
def Obligations.SrxarmArmsOrRefuses : Prop :=
  ∀ (s : State) (b : Bus), s.buses[s.sel]? = some b →
    (b.slaveEn = true → b.sstate = .rxWait → b.mstate.busy = false →
      (b.rxEnd.toNat + 1 ≤ s.params.bufSize →
        exec .srxarmBuf s =
          .next (s.setBus s.sel
            { b with sCap := b.rxEnd.toNat + 1, sPath := .buf, sCount := 0, bufCount := 0, cmd := 0, rxOldPool := [],
                     rxOldMem := [] })) ∧
      (1 ≤ b.dmaLenProg.toNat → b.dmaLenProg.toNat ≤ s.params.dmaMax → b.dmaAddr.toNat + b.dmaLenProg.toNat ≤ 2 ^ 32 →
        exec .srxarmDma s =
          .next (s.setBus s.sel
            { b with sCap := b.dmaLenProg.toNat, sBase := b.dmaAddr, sPath := .dma, sCount := 0, dmaMoved := 0, cmd := 0,
                     rxOldPool := [], rxOldMem := [] }))) ∧
    ((b.slaveEn = false ∨ b.sstate ≠ .rxWait ∨ b.mstate.busy = true ∨ s.params.bufSize < b.rxEnd.toNat + 1) →
      exec .srxarmBuf s = .next (s.setBus s.sel { b with refused := true })) ∧
    ((b.slaveEn = false ∨ b.sstate ≠ .rxWait ∨ b.mstate.busy = true ∨ b.dmaLenProg = 0 ∨
        s.params.dmaMax < b.dmaLenProg.toNat ∨ 2 ^ 32 < b.dmaAddr.toNat + b.dmaLenProg.toNat) →
      exec .srxarmDma s = .next (s.setBus s.sel { b with refused := true }))

/-- STX (R368): with SLAVE_EN set, the slave in S_TX_WAIT, no master command running and the length in range, CMD takes its word,
the slave is in S_TX and releases SCL. -/
def Obligations.StxStarts : Prop :=
  ∀ (s : State) (b : Bus), s.buses[s.sel]? = some b → b.slaveEn = true → b.sstate = .txWait → b.mstate.busy = false →
    exec .stxB s =
      .next (s.setBus s.sel
        { b with sCap := 1, sCount := 0, cmd := 0x004, sstate := .tx .byte, sDrv := { b.sDrv with scl := .rel }, stale := {} }) ∧
    (b.txEnd.toNat + 1 ≤ s.params.bufSize →
      exec .stxBuf s =
        .next (s.setBus s.sel
          { b with sCap := b.txEnd.toNat + 1, sCount := 0, cmd := 0x044, sstate := .tx .buf,
                   sDrv := { b.sDrv with scl := .rel }, stale := {} })) ∧
    (1 ≤ b.dmaLenProg.toNat → b.dmaLenProg.toNat ≤ s.params.dmaMax → b.dmaAddr.toNat + b.dmaLenProg.toNat ≤ 2 ^ 32 →
      exec .stxDma s =
        .next (s.setBus s.sel
          { b with sCap := b.dmaLenProg.toNat, sBase := b.dmaAddr, sCount := 0, cmd := 0x104, sstate := .tx .dma,
                   sDrv := { b.sDrv with scl := .rel }, stale := {} }))

/-- STX elsewhere (R368, R338) is refused: without SLAVE_EN, in another slave state, while a master command runs, or with a length
out of range. -/
def Obligations.StxRefused : Prop :=
  ∀ (i : Instr) (s : State) (b : Bus), s.buses[s.sel]? = some b →
    ((i.isStx = true ∧ (b.slaveEn = false ∨ b.sstate ≠ .txWait ∨ b.mstate.busy = true)) ∨
      (i = .stxBuf ∧ s.params.bufSize < b.txEnd.toNat + 1) ∨
      (i = .stxDma ∧ (b.dmaLenProg = 0 ∨ s.params.dmaMax < b.dmaLenProg.toNat ∨
        2 ^ 32 < b.dmaAddr.toNat + b.dmaLenProg.toNat))) →
    exec i s = .next (s.setBus s.sel { b with refused := true })

/-- The frame of every master command and RECOVER: at its write only CMD[11:0], the master state, the record of older sources and
the refusal mark of the selected bus may change; every other register, ISR and IER, the pool, the lines, every other bus, system
memory and the host's state are unchanged. -/
def Obligations.MasterCommandFrame : Prop :=
  ∀ (i : Instr) (s t : State), i.isMaster = true → exec i s = .next t →
    ∃ b, s.buses[s.sel]? = some b ∧ ∃ c m st r,
      t = s.setBus s.sel { b with cmd := c, mstate := m, stale := st, refused := r }

/-- The frame of SRXARM and STX: SRXARM may change the armed path, its count, capacity and base, the length register of its path,
CMD, the records of older bytes and the refusal mark; STX the slave's state, its count, capacity and base, CMD, the slave's hold of
SCL, the record of older sources and the refusal mark. Nothing else changes: no other register, no pool byte, no byte of memory. -/
def Obligations.SlaveCommandFrame : Prop :=
  (∀ (i : Instr) (s t : State), i.isSrxarm = true → exec i s = .next t →
    ∃ b, s.buses[s.sel]? = some b ∧ ∃ path count cap base moved dmoved c op om r,
      t = s.setBus s.sel
            { b with sPath := path, sCount := count, sCap := cap, sBase := base, bufCount := moved, dmaMoved := dmoved, cmd := c,
                     rxOldPool := op, rxOldMem := om, refused := r } ∧
      (i = .srxarmBuf → base = b.sBase ∧ dmoved = b.dmaMoved) ∧ (i = .srxarmDma → moved = b.bufCount)) ∧
  ∀ (i : Instr) (s t : State), i.isStx = true → exec i s = .next t →
    ∃ b, s.buses[s.sel]? = some b ∧ ∃ st count cap base c hold old r,
      t = s.setBus s.sel
            { b with sstate := st, sCount := count, sCap := cap, sBase := base, cmd := c, sDrv := { b.sDrv with scl := hold },
                     stale := old, refused := r } ∧
      (i ≠ .stxDma → base = b.sBase)

/-! ## The master's phases -/

/-- `wire_S` (41_line_driver.md R242; 42_master_commands.md R305): with the bus free, or with the latch ignored (R259) by a START that
has not been told to wait (log 20), a START goes out when both lines read 1: the engine drives both low, owns the bus, sets the latch,
and its own slave ignores the transfer (43_slave.md R360). While a line reads 0 there is no START: the command waits, and a line's
timeout may end it, exactly while the environment holds that line and TIMEOUT is not 0 (R242, R255, R265, R266, R273). Arbitration is not
lost here. Three points are the model's choice, and matter only where a START that ignores the latch runs beside this bus's own addressed
slave: the abort (R257) releases the master's lines and keeps a stretch of that slave (log 12); the START delivers no open batch of it
(log 38); and the wait of a START that has been told to wait is not given up (log 20). -/
def Obligations.StartOnFreeBus : Prop :=
  ∀ (p : Params) (mem : Memory) (b : Bus) (rest : List Phase) (pr : Progress) (pk : SrcPick),
    b.live → b.mstate = .exec (.addr :: rest) pr → pr = .fresh ∨ pr = .waitBus → b.own = false →
    (b.busBusy = false ∨ (pr = .fresh ∧ b.multiMasterDis = true ∧ p.mmDisEffect = .noBusyWait)) →
    (b.scl = true → b.sda = true →
      b.masterStep p mem (.line .ok) pk =
        some ({ b with mDrv := { scl := .low, sda := .low }, own := true, busBusy := true, sclTiming := b.timing,
                       lastSlot := b.lastSlot.afterCond, mstate := .exec (.addr :: rest) .started, wire := .s :: b.wire,
                       sstate := if b.slaveEn then .ignore else b.sstate, sDrv := if b.slaveEn then {} else b.sDrv }, mem)) ∧
    (b.scl = false ∨ b.sda = false → b.masterStep p mem (.line .ok) pk = none) ∧
    b.masterStep p mem (.line .arb) pk = none ∧
    let aborted := fun m : Word =>
      { b with mDrv := {}, own := false, cmd := 0, mstate := .idle, isr := b.isr ||| m }
    b.masterStep p mem (.line .sclTo) pk =
      (if b.env.scl = .low ∧ b.timeout ≠ 0 then some (aborted 0x40, mem) else none) ∧
    b.masterStep p mem (.line .sdaTo) pk =
      (if b.env.sda = .low ∧ b.timeout ≠ 0 then some (aborted 0x4000, mem) else none)

/-- A START while another controller owns the bus (R305): by the choice WAIT the engine waits, and has no step while the latch
stays 1, whatever MULTI_MASTER_DIS is set to meanwhile (log 20); by the choice ARB_LOSS the command is aborted with ARBIT_LOSS (R257),
the master's lines are released (log 12) and the latch stays 1. -/
def Obligations.StartOnBusyBus : Prop :=
  ∀ (p : Params) (mem : Memory) (b : Bus) (rest : List Phase) (w : BusyChoice) (pk : SrcPick),
    b.live → b.own = false → b.busBusy = true →
    let sees := b.multiMasterDis = false ∨ p.mmDisEffect = .none
    (sees → b.mstate = .exec (.addr :: rest) .fresh → p.startWhenBusy.getD w = .wait →
      b.masterStep p mem (.busy w) pk = some ({ b with mstate := .exec (.addr :: rest) .waitBus }, mem)) ∧
    (sees → b.mstate = .exec (.addr :: rest) .fresh → p.startWhenBusy.getD w = .arbLoss →
      b.masterStep p mem (.busy w) pk =
        some ({ b with mDrv := {}, own := false, cmd := 0, mstate := .idle, isr := b.isr ||| 0x8 }, mem)) ∧
    (b.mstate = .exec (.addr :: rest) .waitBus → ∀ d, b.masterStep p mem d pk = none)

/-- `wire_Sr` (R243, R248): on an owned bus the START is a repeated one, when nothing else holds a line low; where the last slot was a
receive slot to be answered A, or an address with rw = 1 answered A directly before, it may lose arbitration instead, and in no other
case (which slots count: log 47). A line's timeout ends it exactly while the environment
holds that line and TIMEOUT is not 0 (R265, R266, R273). -/
def Obligations.RepeatedStart : Prop :=
  ∀ (p : Params) (mem : Memory) (b : Bus) (rest : List Phase) (pk : SrcPick),
    b.live → b.mstate = .exec (.addr :: rest) .fresh → b.own = true →
    (b.alone →
      b.masterStep p mem (.line .ok) pk =
        some ({ b with mDrv := { scl := .low, sda := .low }, own := true, busBusy := true, sclTiming := b.timing,
                       lastSlot := b.lastSlot.afterCond, mstate := .exec (.addr :: rest) .started, wire := .sr :: b.wire,
                       sstate := if b.slaveEn then .ignore else b.sstate }, mem)) ∧
    (b.alone → b.lastSlot ≠ .other →
      b.masterStep p mem (.line .arb) pk =
        some ({ b with mDrv := {}, own := false, cmd := 0, mstate := .idle, isr := b.isr ||| 0x8 }, mem)) ∧
    (b.lastSlot = .other → b.masterStep p mem (.line .arb) pk = none) ∧
    let aborted := fun m : Word =>
      { b with mDrv := {}, own := false, cmd := 0, mstate := .idle, isr := b.isr ||| m }
    b.masterStep p mem (.line .sclTo) pk =
      (if b.env.scl = .low ∧ b.timeout ≠ 0 then some (aborted 0x40, mem) else none) ∧
    b.masterStep p mem (.line .sdaTo) pk =
      (if b.env.sda = .low ∧ b.timeout ≠ 0 then some (aborted 0x4000, mem) else none)

/-- The address phase (R306, R320, R321, R309, R308): the byte sent is TX_BYTE. Answered A, TX_ACK is set unless a transmit phase
follows or the command is MSTART.STOP with ZL_ADDR_ACK false, and the next phase begins; answered N, TX_NAK is set and only a STOP
is left. With no phase left the command ends: CMD reads 0 and the engine holds the bus with SCL low. With phases left CMD keeps their
bits alone: what bits 1, 6 and 8 read in mid-command is the model's reading of R302 (log 11). -/
def Obligations.AddressPhase : Prop :=
  ∀ (p : Params) (mem : Memory) (b : Bus) (rest : List Phase),
    b.live → b.alone → b.mstate = .exec (.addr :: rest) .started → b.own = true → b.mDrv.scl = .low → b.stale = {} →
    let b1 := { b with mDrv := { scl := .low, sda := .rel }, sclTiming := b.timing }
    let sets : Bool := !nextIsTx rest && !(b.cmd == 0x023 && !p.zlAddrAck)
    let a := { b1 with lastSlot := if b.txByte.getLsbD 0 then .address else .other, isr := if sets then b.isr ||| 0x1 else b.isr,
                       wire := .byte b.txByte .ack :: b.wire }
    let n := { b1 with lastSlot := .other, isr := b.isr ||| 0x2, wire := .byte b.txByte .nak :: b.wire }
    (rest = [] →
      b.masterStep p mem (.tx .ack) current = some ({ a with cmd := 0, mstate := .hold }, mem)) ∧
    (rest ≠ [] →
      b.masterStep p mem (.tx .ack) current =
        some ({ a with cmd := b.cmd &&& pendingBits rest, mstate := .exec rest .fresh }, mem)) ∧
    (.stop ∉ rest →
      b.masterStep p mem (.tx .nak) current = some ({ n with cmd := 0, mstate := .hold }, mem)) ∧
    (rest = [.stop] ∨ (∃ q, rest = [.tx q, .stop]) ∨ (∃ q l, rest = [.rx q l, .stop]) →
      b.masterStep p mem (.tx .nak) current =
        some ({ n with cmd := b.cmd &&& 0x020, mstate := .exec [.stop] .fresh }, mem))

/-- A fault in a slot (R257, R262, R245, R246, R331 to R335): the partial count of a data phase is recorded, both lines are
released, the bus is no longer owned, the rest of the command is dropped, the master is in M_IDLE, and the fault's bit is set; the
latch follows an abnormal START or STOP and is otherwise unchanged; memory is unchanged. A receive slot that was to be answered A still
counts for a later STOP (R248; log 47). Whether a SCL low phase began in the slot, so
that TIMING counts anew (40_clock_timing.md R225), is a draw (log 26). -/
def Obligations.SlotFaultAborts : Prop :=
  ∀ (p : Params) (mem : Memory) (b : Bus) (f : SlotFault) (rest : List Phase) (pk : SrcPick),
    b.live → b.own = true → b.mDrv.scl = .low →
    let ends := fun (l : LastSlot) (c : Bus) =>
      { c with mDrv := {}, own := false, cmd := 0, mstate := .idle, lastSlot := l, isr := b.isr ||| f.bit,
               sclTiming := if pk.timing = 0 then b.timing else b.sclTiming, busBusy := f.latch b.busBusy }
    (b.mstate = .exec (.addr :: rest) .started → b.slotFaultOk (b.sampleTxByte pk != 0) f = true →
      b.masterStep p mem (.tx (.fault f)) pk = some (ends .other b, mem)) ∧
    (∀ path i n v, b.mstate = .exec (.tx path :: rest) (.moving i n) → b.txSource p mem path i pk = some v →
      b.slotFaultOk (v != 0) f = true →
      b.masterStep p mem (.tx (.fault f)) pk =
        some (ends .other (Bus.setMoved path i
          { b with dmaPtr := if path = .dma then b.dmaPtr + 1 else b.dmaPtr }), mem)) ∧
    (∀ path n v c, b.mstate = .exec (.tx path :: rest) .fresh → b.beginTx p path pk = some (n, c) →
      c.txSource p mem path 0 pk = some v → b.slotFaultOk (v != 0) f = true →
      b.masterStep p mem (.tx (.fault f)) pk =
        some (ends .other (Bus.setMoved path 0
          { c with dmaPtr := if path = .dma then c.dmaPtr + 1 else c.dmaPtr }), mem)) ∧
    (∀ path last i n, b.mstate = .exec (.rx path last :: rest) (.moving i n) →
      b.slotFaultOk (rxAnswer last i n == .nak) f = true →
      b.masterStep p mem (.rx (.fault f)) pk = some (ends (if last = true ∧ i + 1 = n then .other else .read) (Bus.setMoved path i b), mem)) ∧
    ∀ path last n c, b.mstate = .exec (.rx path last :: rest) .fresh → b.beginRx p path pk = some (n, c) →
      b.slotFaultOk (rxAnswer last 0 n == .nak) f = true →
      b.masterStep p mem (.rx (.fault f)) pk = some (ends (if last = true ∧ n = 1 then .other else .read) (Bus.setMoved path 0 c), mem)

/-- Which faults a slot admits (R245, R246, R265, R258): arbitration loss in a transmit slot of any path only if the byte is not 0, and
in a receive slot of any path only if it is answered N (R336), the first slot of a phase included; a timeout only if TIMEOUT is not
0. -/
def Obligations.SlotFaultsAdmitted : Prop :=
  ∀ (p : Params) (mem : Memory) (b : Bus) (ph : Phase) (rest : List Phase) (pr : Progress) (pk : SrcPick),
    b.mstate = .exec (ph :: rest) pr →
    (b.timeout = 0 → ∀ l ∈ [SlotFault.sclTo, SlotFault.sdaTo], ∀ d ∈ [Draw.tx (.fault l), Draw.rx (.fault l)],
      b.masterStep p mem d pk = none ∨
        ∃ c, b.masterStep p mem d pk = some (c, mem) ∧ (c.refused = true ∨ c.stuck = true) ∧ c.isr = b.isr) ∧
    (ph = .addr → b.sampleTxByte pk = 0 → b.masterStep p mem (.tx (.fault .arb)) pk = none) ∧
    (∀ path i n, ph = .tx path → pr = .moving i n → b.txSource p mem path i pk = some 0 →
      b.masterStep p mem (.tx (.fault .arb)) pk = none) ∧
    (∀ path n c, ph = .tx path → pr = .fresh → b.beginTx p path pk = some (n, c) → c.txSource p mem path 0 pk = some 0 →
      b.masterStep p mem (.tx (.fault .arb)) pk = none) ∧
    (∀ path last i n, ph = .rx path last → pr = .moving i n → rxAnswer last i n = .ack →
      b.masterStep p mem (.rx (.fault .arb)) pk = none) ∧
    (∀ path last n c, ph = .rx path last → pr = .fresh → b.beginRx p path pk = some (n, c) → rxAnswer last 0 n = .ack →
      b.masterStep p mem (.rx (.fault .arb)) pk = none) ∧
    ∀ last i n, rxAnswer last i n = .ack ↔ last = false ∨ i + 1 ≠ n

/-- A transmit phase whose every byte is answered A (R330 to R332, R320, R42, R45, R118): the bytes by the registers go out in
order, the length register of the path takes their number, TX_ACK is set, and the command goes on to the phases after it. The pool,
memory and every source register are unchanged. -/
def Obligations.TransmitPhaseAcknowledged : Prop :=
  ∀ (p : Params) (mem : Memory) (b : Bus) (path : Path) (rest : List Phase),
    b.live → b.alone → b.mstate = .exec (.tx path :: rest) .fresh → b.own = true → b.mDrv.scl = .low → b.stale = {} →
    b.txFits p path = true →
    let bytes := b.txBytes mem path
    Bus.runMaster p (List.replicate bytes.length (.tx .ack, current)) (b, mem) =
      some (Bus.nextPhase rest (Bus.setMoved path bytes.length
        { b with mDrv := { scl := .low, sda := .rel }, sclTiming := b.timing, lastSlot := .other, isr := b.isr ||| 0x1,
                 dmaPtr := if path = .dma then b.dmaAddr + BitVec.ofNat 32 bytes.length else b.dmaPtr,
                 wire := bytes.reverse.map (fun v => .byte v .ack) ++ b.wire }), mem)

/-- A transmit phase whose byte number `k` is answered N (R309, R321, R331, R332): the length register counts the bytes up to and
including that one, TX_NAK is set, TX_ACK is not, and only a STOP of the command is left. -/
def Obligations.TransmitPhaseNotAcknowledged : Prop :=
  ∀ (p : Params) (mem : Memory) (b : Bus) (path : Path) (rest : List Phase) (k : Nat),
    b.live → b.alone → b.mstate = .exec (.tx path :: rest) .fresh → b.own = true → b.mDrv.scl = .low → b.stale = {} →
    b.txFits p path = true → k < (b.txBytes mem path).length →
    let sent := (b.txBytes mem path).take (k + 1)
    Bus.runMaster p (List.replicate k (.tx .ack, current) ++ [(.tx .nak, current)]) (b, mem) =
      some (Bus.nextPhase (afterNak rest) (Bus.setMoved path (k + 1)
        { b with mDrv := { scl := .low, sda := .rel }, sclTiming := b.timing, lastSlot := .other, isr := b.isr ||| 0x2,
                 dmaPtr := if path = .dma then b.dmaAddr + BitVec.ofNat 32 (k + 1) else b.dmaPtr,
                 wire := (match sent.reverse with
                   | [] => []
                   | v :: vs => .byte v .nak :: vs.map (fun v => WireItem.byte v .ack)) ++ b.wire }), mem)

/-- A receive phase (R333 to R336, R322, R105): the bytes that arrive are put into RX_BYTE, the pool from 0 on, or memory from
DMA_ADDR on, in their order; the last one is answered N with RX_LAST and A without, every other A; the length register takes their
number and RX_DONE is set. Every byte of memory outside DMA_ADDR .. DMA_ADDR + n - 1 is unchanged, all of it on the other paths. -/
def Obligations.ReceivePhase : Prop :=
  ∀ (p : Params) (mem : Memory) (b : Bus) (path : Path) (last : Bool) (rest : List Phase) (ds : List Byte),
    b.live → b.alone → b.mstate = .exec (.rx path last :: rest) .fresh → b.own = true → b.mDrv.scl = .low → b.stale = {} →
    b.rxFits p path = true → ds.length = b.rxCount path →
    ∃ c mem2,
      Bus.runMaster p (ds.map (fun d => (.rx (.data d), current))) (b, mem) = some (Bus.nextPhase rest c, mem2) ∧
      (∃ old oldMem, c = Bus.setMoved path ds.length
        { b with mDrv := { scl := .low, sda := .rel }, sclTiming := b.timing, lastSlot := if last then .other else .read, isr := b.isr ||| 0x4,
                 rxByte := if path = .byte then ds.headD 0 else b.rxByte,
                 pool := if path = .buf then setAll b.pool 0 ds else b.pool,
                 dmaPtr := if path = .dma then b.dmaAddr + BitVec.ofNat 32 ds.length else b.dmaPtr,
                 rxOldPool := old, rxOldMem := oldMem,
                 wire := (match ds.reverse with
                   | [] => []
                   | d :: dr => .byte d (if last then .nak else .ack) :: dr.map (fun d => WireItem.byte d .ack)) ++ b.wire }) ∧
      mem2 = (if path = .dma then Memory.writeAll mem b.dmaAddr.toNat ds else mem)

/-- The STOP phase (R244, R323, R339, R248): when nothing else holds a line low a STOP goes out, for MSTOP in M_IDLE too: both
lines are released, the bus is no longer owned, the latch is cleared, NORMAL_STOP is set, CMD reads 0 and the master is in M_IDLE;
the slave is back in S_IDLE with no status (43_slave.md R376). Where the last slot was a receive slot to be answered A, or an address
with rw = 1 answered A directly before, it may lose arbitration instead, and in no other case. While the environment holds a line low
there is no STOP, and that line's timeout may end the command, only then and only with TIMEOUT not 0 (R265, R266, R273). TIMING counts anew where the bus is not owned, since an MSTOP in M_IDLE pulls SCL low before it
waits (40_clock_timing.md R225). The model's choices are: that last point (log 26); MSTOP in M_IDLE runs the one STOP step of an owned bus
(log 30); which slots count, that an abort and a FUN_CTRL write do not end their record among it (log 47); and the abort of an MSTOP in
M_IDLE beside this bus's own stretching slave keeps that slave's hold (log 12). -/
def Obligations.StopPhase : Prop :=
  ∀ (p : Params) (mem : Memory) (b : Bus) (pk : SrcPick),
    b.live → b.mstate = .exec [.stop] .fresh →
    let timing := if b.own then b.sclTiming else b.timing
    let aborted := fun m : Word =>
      { b with mDrv := {}, own := false, cmd := 0, mstate := .idle, sclTiming := timing, isr := b.isr ||| m }
    (b.alone →
      b.masterStep p mem (.line .ok) pk =
        some ({ b with mDrv := {}, own := false, busBusy := false, lastSlot := b.lastSlot.afterCond, isr := b.isr ||| 0x10, cmd := 0,
                       mstate := .idle, sclTiming := timing, wire := .p :: b.wire,
                       sstate := if b.slaveEn then .idle else b.sstate }, mem)) ∧
    (b.alone → b.lastSlot ≠ .other →
      b.masterStep p mem (.line .arb) pk = some (aborted 0x8, mem)) ∧
    (b.lastSlot = .other → b.masterStep p mem (.line .arb) pk = none) ∧
    (b.env.scl = .low ∨ b.env.sda = .low → b.masterStep p mem (.line .ok) pk = none) ∧
    b.masterStep p mem (.line .sclTo) pk =
      (if b.env.scl = .low ∧ b.timeout ≠ 0 then some (aborted 0x40, mem) else none) ∧
    b.masterStep p mem (.line .sdaTo) pk =
      (if b.env.sda = .low ∧ b.timeout ≠ 0 then some (aborted 0x4000, mem) else none)

/-- Every master command runs to its end (R302, R303, R307, R308, R311 to R329, R340): from its acceptance on a sound bus whose
lines nothing else holds, with its counts in range, there are draws of the environment (every byte answered A) with which the engine
ends it: CMD reads 0, the master is in M_IDLE off the bus if the command has M_STOP and in M_HOLD otherwise, and it has set its
completion bit and its intermediate bits, and no other; the address of MSTART.STOP sets TX_ACK only with ZL_ADDR_ACK. -/
def Obligations.MasterCommandsComplete : Prop :=
  ∀ (p : Params) (mem : Memory) (b : Bus) (i : Instr),
    b.Inv p → Memory.wf mem = true → b.live → b.alone → b.sstate.isTx = false →
    (i.hasStart = true ∧ (b.mstate = .hold ∨ (b.mstate = .idle ∧ b.busBusy = false)) ∨ i.isData = true ∧ b.mstate = .hold ∨
      i = .mstop ∧ (b.mstate = .hold ∨ b.mstate = .idle)) →
    (∀ path, (.tx path) ∈ phaseList (code i) → b.txFits p path = true) →
    (∀ path last, (.rx path last) ∈ phaseList (code i) → b.rxFits p path = true) →
    ∃ (ds : List Draw) (b2 : Bus) (mem2 : Memory),
      Bus.runMaster p (ds.map (fun d => (d, current)))
        ({ b with cmd := code i, mstate := .exec (phaseList (code i)) .fresh, stale := {} }, mem) = some (b2, mem2) ∧
      b2.cmd = 0 ∧ b2.live ∧
      (if (code i).getLsbD 5 then b2.mstate = .idle ∧ b2.own = false ∧ b2.busBusy = false ∧ b2.mDrv = {}
        else b2.mstate = .hold ∧ b2.own = true ∧ b2.mDrv.scl = .low) ∧
      b2.isr = b.isr ||| completionBit (code i) |||
        (if i = .mstartStop ∧ p.zlAddrAck = false then 0 else intermediateBits (code i))

/-- M_OFF, M_IDLE and M_HOLD wait for the host (R308, R266, R273): the engine has no step there, timeouts included, and no step of
the environment or of the slave changes the master state, the ownership of the bus or what the master drives. -/
def Obligations.MasterWaitsForTheHost : Prop :=
  (∀ (p : Params) (mem : Memory) (b : Bus) (d : Draw) (pk : SrcPick), b.mstate = .off ∨ b.mstate = .idle ∨ b.mstate = .hold →
    b.masterStep p mem d pk = none) ∧
  (∀ (p : Params) (mem : Memory) (b : Bus) (e : EnvEvent) (pk : SrcPick) (r : Bus × Memory), b.envStep p mem e pk = some r →
    r.1.mstate = b.mstate ∧ r.1.own = b.own ∧ r.1.mDrv = b.mDrv) ∧
  ∀ b c : Bus, b.slaveStep = some c → c.mstate = b.mstate ∧ c.own = b.own ∧ c.mDrv = b.mDrv

/-- `recover()` (R270, R271): with SDA high a STOP and BUS_RECOVER_DONE follow at once; with SDA held low pulses go out until the
environment releases it, then the STOP; each pulse is one step and there are at most RECOVER_PULSES. The latch is cleared, CMD reads 0
and the master is in M_IDLE. -/
def Obligations.RecoverFreesBus : Prop :=
  ∀ (p : Params) (mem : Memory) (b : Bus), b.live → b.mstate = .recover 0 → b.mDrv = {} → b.sDrv = {} → b.env.scl = .rel →
    let done := { b with busBusy := false, cmd := 0, mstate := .idle, isr := b.isr ||| 0x2000, env := {},
                         lastSlot := b.lastSlot.afterCond, sstate := if b.slaveEn then .idle else b.sstate }
    (b.env.sda = .rel →
      b.masterStep p mem (.line .ok) current = some ({ done with wire := .p :: b.wire }, mem)) ∧
    (b.env.sda = .low → ∀ k, k + 1 ≤ p.recoverPulses →
      Bus.runMaster p (List.replicate k (.pulse false, current) ++ [(.pulse true, current), (.line .ok, current)]) (b, mem) =
        some ({ done with sclTiming := b.timing, wire := .p :: (List.replicate (k + 1) .pulse ++ b.wire) }, mem)) ∧
    (b.env.sda = .low → ∀ k, p.recoverPulses ≤ k → ∀ r, ({ b with mstate := .recover k }).masterStep p mem (.pulse r) current = none)

/-- A recovery that fails (R271, R272): with SDA still low after RECOVER_PULSES pulses, RECOVER_FAIL = DONE sets BUS_RECOVER_DONE with
no STOP and the latch unchanged, SILENT sets nothing; SCL held low ends it with SCL_TIMEOUT alone when TIMEOUT is not 0, and
otherwise blocks it; while the environment does not hold SCL there is no SCL_TIMEOUT, a stretch of this bus's own slave or not (R273).
In every case that ends it, the master's lines are released (log 12), CMD reads 0 and the master is in M_IDLE; the pulse that a timeout
ends has driven SCL low, so TIMING counts from it (40_clock_timing.md R225). -/
def Obligations.RecoverFails : Prop :=
  ∀ (p : Params) (mem : Memory) (b : Bus) (k : Nat) (r : RecoverFail) (pk : SrcPick),
    b.live → b.mstate = .recover k →
    let ended := { b with mDrv := {}, cmd := 0, mstate := .idle }
    (b.env.sda = .low → p.recoverPulses ≤ k →
      b.masterStep p mem (.failed r) pk =
        some ({ ended with isr := b.isr ||| (if p.recoverFail.getD r = .done then 0x2000 else 0) }, mem)) ∧
    (b.env.scl = .low → b.env.sda = .low → k < p.recoverPulses → b.timeout ≠ 0 →
      b.masterStep p mem (.line .sclTo) pk = some ({ ended with isr := b.isr ||| 0x40, sclTiming := b.timing }, mem)) ∧
    (b.env.scl = .low → b.env.sda = .low → k < p.recoverPulses → b.timeout = 0 → ∀ d, b.masterStep p mem d pk = none) ∧
    (b.env.scl = .rel → b.masterStep p mem (.line .sclTo) pk = none) ∧
    (b.env.sda = .low → k < p.recoverPulses → ∀ r2, b.masterStep p mem (.failed r2) pk = none)

/-- A DMA byte at an address that is not mapped has no step (20_memory.md R110): the bus is stuck, with SCL, status and memory as they
were; the first byte of a phase of the master, at DMA_ADDR as sampled, is no exception. The mark itself, and that from then on neither
the engine nor the slave nor a remote transfer moves, are the model's reading of R110 (log 16). -/
def Obligations.UnmappedDmaSticks : Prop :=
  ∀ (p : Params) (mem : Memory) (b : Bus) (pk : SrcPick),
    (∀ rest i n r, b.live → b.own = true → b.mDrv.scl = .low → b.mstate = .exec (.tx .dma :: rest) (.moving i n) →
      p.dmaAllowed b.dmaPtr.toNat = false → b.masterStep p mem (.tx r) pk = some ({ b with stuck := true }, mem)) ∧
    (∀ rest r, b.live → b.own = true → b.mDrv.scl = .low → b.mstate = .exec (.tx .dma :: rest) .fresh →
      p.dmaRangeOk (b.sampleDmaLen pk).toNat (b.sampleDmaAddr pk) = true → p.dmaAllowed (b.sampleDmaAddr pk).toNat = false →
      b.masterStep p mem (.tx r) pk = some ({ b with dmaPtr := b.sampleDmaAddr pk, stuck := true }, mem)) ∧
    (∀ rest last d, b.live → b.own = true → b.mDrv.scl = .low → b.alone → b.mstate = .exec (.rx .dma last :: rest) .fresh →
      p.dmaRangeOk (b.sampleDmaLen pk).toNat (b.sampleDmaAddr pk) = true → p.dmaAllowed (b.sampleDmaAddr pk).toNat = false →
      ∃ c, b.masterStep p mem (.rx (.data d)) pk = some (c, mem) ∧ c.stuck = true ∧ c.isr = b.isr ∧ c.mDrv.scl = .low) ∧
    (b.live → b.remoteOwns = true → b.sstate = .tx .dma → p.dmaAllowed (b.sBase.toNat + b.sCount) = false → ∀ a,
      b.envStep p mem (.rbyte a) pk = some ({ b with stuck := true }, mem)) ∧
    (∀ rest last i n d, b.live → b.own = true → b.mDrv.scl = .low → b.alone →
      b.mstate = .exec (.rx .dma last :: rest) (.moving i n) → p.dmaAllowed b.dmaPtr.toNat = false →
      ∃ c, b.masterStep p mem (.rx (.data d)) pk = some (c, mem) ∧ c.stuck = true ∧ c.isr = b.isr ∧ c.mDrv.scl = .low) ∧
    (b.live → b.remoteOwns = true → b.sstate = .rx → b.sPath = .dma → p.dmaAllowed (b.sBase.toNat + b.sCount) = false → ∀ d,
      ∃ c, b.envStep p mem (.wbyte d) pk = some (c, mem) ∧ c.stuck = true ∧ c.isr = b.isr ∧ c.sDrv = b.sDrv) ∧
    (b.stuck = true →
      (∀ d, b.masterStep p mem d pk = none) ∧ b.slaveStep = none ∧
      ∀ e, (∀ l, e ≠ .hold l ∧ e ≠ .release l) → b.envStep p mem e pk = none)

/-! ## Status bits -/

/-- The bits one step can set (R504, R505): a step of the engine, of the slave or of the environment leaves every status bit that is
set, and sets no bit, one bit, or one of the combinations of R504. -/
def Obligations.StatusBitsSetTogether : Prop :=
  ∀ (p : Params) (mem : Memory) (b c : Bus) (mem2 : Memory),
    ((∃ d pk, b.masterStep p mem d pk = some (c, mem2)) ∨ (∃ e pk, b.envStep p mem e pk = some (c, mem2)) ∨
      b.slaveStep = some c) →
    ∃ w ∈ [0x0#32, 0x1#32, 0x2#32, 0x4#32, 0x8#32, 0x10#32, 0x20#32, 0x40#32, 0x2000#32, 0x4000#32, 0x84#32, 0x14#32, 0x30#32,
            0x24#32, 0x34#32],
      c.isr = b.isr ||| w

/-- TIMEOUT_CFG = 0 disables both timeouts (R37, R265): no step of the machine sets SCL_TIMEOUT or SDA_DL_TIMEOUT of a bus whose
TIMEOUT register is 0 before the step. -/
def Obligations.TimeoutsOffNeverSet : Prop :=
  ∀ (s t : State) (n : Nat) (b c : Bus), step s = .next t → s.buses[n]? = some b → t.buses[n]? = some c → b.timeout = 0 →
    c.isr &&& ~~~b.isr &&& 0x4040 = 0

/-- Only the host clears a status bit (R505, R61): in a step that is no block reset, a status bit of a bus that was set and is not any
more was cleared by a write of 1 to it at ISR of that bus, or by a read of that ISR where STATUS_CLEAR_ON_READ holds: by a host program,
by the bus's submitter in an operation that is that write, or by the dispatcher in one that is that write or that read. -/
def Obligations.StatusBitsStaySet : Prop :=
  ∀ (s : State) (e : Event) (t : State) (n : Nat) (b c : Bus),
    s.apply e = .next t → s.buses[n]? = some b → t.buses[n]? = some c → (∀ u, e ≠ .blockReset u) →
    let gone := b.isr &&& ~~~c.isr
    gone ≠ 0 →
      (∃ loc w v, e = .write loc w v ∧ Loc.find s.params loc = some (.bus n, 0x10) ∧ gone &&& ~~~v = 0) ∨
      (∃ loc w d, e = .read loc w d ∧ Loc.find s.params loc = some (.bus n, 0x10) ∧ s.params.statusClearOnRead = true) ∨
      (∃ hd h v rest, e = .submitter n hd ∧ s.hosts[n]? = some h ∧ h.sub = HOp.wr 0x10 v :: rest ∧ gone &&& ~~~v = 0) ∨
      ∃ hd d op rest, e = .dispatcher hd ∧ s.disp = some d ∧ d.n = n ∧ d.todo = op :: rest ∧
        ((∃ v, op = HOp.wr 0x10 v ∧ gone &&& ~~~v = 0) ∨ (op = HOp.rdIsr ∧ s.params.statusClearOnRead = true))

/-! ## What the engine and the slave leave alone -/

/-- The frame of an engine step: the enables, TIMING, TIMEOUT, IER, DEV_ADDR, TX_END, RX_END, TX_BYTE, DMA_ADDR, the programmed DMA
length, the slave's receive path, count, capacity and base, and the environment's SCL are unchanged; RX_BYTE changes only in a
byte-path receive, a pool byte only in a buffer receive, and there the byte whose turn it is; the environment's SDA only in a
recovery pulse. -/
def Obligations.EngineFrame : Prop :=
  ∀ (p : Params) (mem : Memory) (b c : Bus) (d : Draw) (pk : SrcPick) (mem2 : Memory), b.masterStep p mem d pk = some (c, mem2) →
    (c.masterEn = b.masterEn ∧ c.slaveEn = b.slaveEn ∧ c.multiMasterDis = b.multiMasterDis ∧ c.timing = b.timing ∧
      c.timeout = b.timeout ∧ c.ier = b.ier ∧ c.devAddr = b.devAddr ∧ c.txEnd = b.txEnd ∧ c.rxEnd = b.rxEnd ∧
      c.txByte = b.txByte ∧ c.dmaAddr = b.dmaAddr ∧ c.dmaLenProg = b.dmaLenProg ∧ c.sPath = b.sPath ∧ c.sCount = b.sCount ∧
      c.sCap = b.sCap ∧ c.sBase = b.sBase ∧ c.env.scl = b.env.scl ∧ c.stale = b.stale) ∧
    ((∀ last rest pr, b.mstate ≠ .exec (.rx .byte last :: rest) pr) → c.rxByte = b.rxByte) ∧
    ((∀ last rest pr, b.mstate ≠ .exec (.rx .buf last :: rest) pr) → c.pool = b.pool) ∧
    (∀ last rest i n, b.mstate = .exec (.rx .buf last :: rest) (.moving i n) → ∀ j, j ≠ i → c.pool[j]? = b.pool[j]?) ∧
    (∀ last rest, b.mstate = .exec (.rx .buf last :: rest) .fresh → ∀ j, j ≠ 0 → c.pool[j]? = b.pool[j]?) ∧
    ((∀ r, d ≠ .pulse r) → c.env = b.env)

/-- The memory frame of an engine step (R105, R335): only a DMA receive phase writes memory, one byte, at the address of the byte whose
turn it is (DMA_ADDR as sampled for the first one); every other address reads as before. -/
def Obligations.EngineMemoryFrame : Prop :=
  ∀ (p : Params) (mem : Memory) (b c : Bus) (d : Draw) (pk : SrcPick) (mem2 : Memory),
    Memory.wf mem = true → b.masterStep p mem d pk = some (c, mem2) →
    ((∀ last rest pr, b.mstate ≠ .exec (.rx .dma last :: rest) pr) → mem2 = mem) ∧
    (∀ last rest i n, b.mstate = .exec (.rx .dma last :: rest) (.moving i n) →
      ∀ a, a ≠ b.dmaPtr.toNat → mem2.read a = mem.read a) ∧
    ∀ last rest, b.mstate = .exec (.rx .dma last :: rest) .fresh →
      ∀ a, a ≠ (b.sampleDmaAddr pk).toNat → mem2.read a = mem.read a

/-- The frame of an environment step and of the slave's internal step: every register but RX_BYTE, BUF_COUNT, the DMA count, CMD and
ISR, the master's state and what it drives are unchanged; RX_BYTE changes only at a byte the remote side writes; a pool byte only at
such a byte on the armed buffer path, the byte number s_count; memory only at such a byte on the armed DMA path, at s_base + s_count. -/
def Obligations.SlaveFrame : Prop :=
  ∀ (p : Params) (mem : Memory) (b c : Bus) (mem2 : Memory),
    (∀ (e : EnvEvent) (pk : SrcPick), b.envStep p mem e pk = some (c, mem2) →
      (c.masterEn = b.masterEn ∧ c.slaveEn = b.slaveEn ∧ c.multiMasterDis = b.multiMasterDis ∧ c.timing = b.timing ∧
        c.sclTiming = b.sclTiming ∧ c.timeout = b.timeout ∧ c.ier = b.ier ∧ c.devAddr = b.devAddr ∧ c.txEnd = b.txEnd ∧
        c.rxEnd = b.rxEnd ∧ c.txByte = b.txByte ∧ c.dmaAddr = b.dmaAddr ∧ c.dmaLenProg = b.dmaLenProg ∧ c.dmaPtr = b.dmaPtr ∧
        c.refused = b.refused ∧ c.mstate = b.mstate ∧ c.own = b.own ∧ c.lastSlot = b.lastSlot ∧ c.mDrv = b.mDrv) ∧
      ((∀ d, e ≠ .wbyte d) → c.rxByte = b.rxByte ∧ c.pool = b.pool ∧ mem2 = mem) ∧
      (b.sPath ≠ .buf ∨ b.sstate ≠ .rx → c.pool = b.pool) ∧ (∀ j, j ≠ b.sCount → c.pool[j]? = b.pool[j]?) ∧
      (b.sPath ≠ .dma ∨ b.sstate ≠ .rx → mem2 = mem) ∧
      (Memory.wf mem = true → ∀ a, a ≠ b.sBase.toNat + b.sCount → mem2.read a = mem.read a)) ∧
    (b.slaveStep = some c → c = { b with sstate := .rx, sDrv := { b.sDrv with scl := .rel } })

/-! ## The slave -/

/-- An address match (R361, R362): in S_ADDR a byte whose bits [7:1] are SLAVE_ADDR is answered A, goes to RX_BYTE, resets the receive
path, its count and its capacity (R380; log 41), sets SLAVE_MATCH and RX_DONE, and leaves the slave in S_RX_WAIT or S_TX_WAIT by its
bit 0, with SCL held low. -/
def Obligations.SlaveAddressMatch : Prop :=
  ∀ (p : Params) (mem : Memory) (b : Bus) (d : Byte) (pk : SrcPick),
    b.live → b.remoteOwns = true → b.sstate = .addr → d.extractLsb' 1 7 = b.devAddr →
    b.envStep p mem (.wbyte d) pk =
      some ({ b with rxByte := d, sPath := .byte, sCount := 0, sCap := 0, isr := b.isr ||| 0x84,
                     sstate := if d.getLsbD 0 then .txWait else .rxWait, sDrv := { b.sDrv with scl := .low },
                     wire := .byte d .ack :: b.wire }, mem)

/-- Traffic that is not for this slave (R363, R374): a byte that does not match SLAVE_ADDR is answered by nothing and the slave is in
S_IGNORE; in S_IDLE, S_IGNORE, S_WAIT_STOP and S_OFF (the last by log 22) no byte of either direction changes anything. -/
def Obligations.SlaveIgnoresOthers : Prop :=
  ∀ (p : Params) (mem : Memory) (b : Bus) (pk : SrcPick), b.live → b.remoteOwns = true →
    (b.sstate = .addr → ∀ d, d.extractLsb' 1 7 ≠ b.devAddr →
      b.envStep p mem (.wbyte d) pk = some ({ b with sstate := .ignore }, mem)) ∧
    (b.sstate = .idle ∨ b.sstate = .ignore ∨ b.sstate = .waitStop ∨ b.sstate = .off →
      (∀ d, b.envStep p mem (.wbyte d) pk = some (b, mem)) ∧ ∀ a, b.envStep p mem (.rbyte a) pk = some (b, mem))

/-- The stretches (R364, R373): in S_RX_WAIT and S_TX_WAIT SCL is held low, no timeout is admitted and the remote side has no step but
a hold or release of a line; out of S_RX_WAIT the slave steps exactly when RX_DONE is clear and the path is BYTE or has room, and then
it releases SCL and is in S_RX. -/
def Obligations.SlaveStretches : Prop :=
  ∀ (p : Params) (mem : Memory) (b : Bus), b.Inv p → b.live →
    (b.sstate = .rxWait ∨ b.sstate = .txWait →
      b.drvScl = .low ∧ b.scl = false ∧
      ∀ e pk, (∀ l, e ≠ .hold l ∧ e ≠ .release l) → b.envStep p mem e pk = none) ∧
    (b.sstate = .rxWait → b.isr.getLsbD 2 = false → b.sPath = .byte ∨ b.sCount < b.sCap →
      b.slaveStep = some { b with sstate := .rx, sDrv := { b.sDrv with scl := .rel } }) ∧
    (b.sstate ≠ .rxWait ∨ b.isr.getLsbD 2 = true ∨ (b.sPath ≠ .byte ∧ b.sCap ≤ b.sCount) → b.slaveStep = none)

/-- A byte received in S_RX (R365, R366). On the BYTE path it goes to RX_BYTE, RX_DONE is set and the slave stretches. On the armed
buffer or DMA path it goes to Pool[s_count] or to memory at s_base + s_count and the count rises; when the capacity is reached, the
length register takes the count, RX_DONE is set and the slave stretches. At an address that is not mapped the slave is stuck. -/
def Obligations.SlaveStoresBytes : Prop :=
  ∀ (p : Params) (mem : Memory) (b : Bus) (d : Byte) (pk : SrcPick), b.live → b.remoteOwns = true → b.sstate = .rx →
    let a := b.sBase.toNat + b.sCount
    let wire := WireItem.byte d .ack :: b.wire
    (b.sPath = .byte →
      b.envStep p mem (.wbyte d) pk =
        some ({ b with rxByte := d, isr := b.isr ||| 0x4, sstate := .rxWait, sDrv := { b.sDrv with scl := .low }, wire := wire },
          mem)) ∧
    (b.sPath = .buf → ∃ old,
      let c := { b with pool := b.pool.set b.sCount d, sCount := b.sCount + 1, rxOldPool := old, wire := wire }
      b.envStep p mem (.wbyte d) pk =
        some (if b.sCount + 1 = b.sCap then
                { c with bufCount := BitVec.ofNat 8 (b.sCount + 1), isr := b.isr ||| 0x4, sstate := .rxWait,
                         sDrv := { b.sDrv with scl := .low } }
              else c, mem)) ∧
    (b.sPath = .dma → p.dmaAllowed a = true → ∃ old,
      let c := { b with sCount := b.sCount + 1, rxOldMem := old, wire := wire }
      b.envStep p mem (.wbyte d) pk =
        some (if b.sCount + 1 = b.sCap then
                { c with dmaMoved := BitVec.ofNat 13 (b.sCount + 1), isr := b.isr ||| 0x4, sstate := .rxWait,
                         sDrv := { b.sDrv with scl := .low } }
              else c, mem.write a d)) ∧
    (b.sPath = .dma → p.dmaAllowed a = false →
      b.envStep p mem (.wbyte d) pk = some ({ b with stuck := true, wire := wire }, mem))

/-- A byte the remote side reads in S_TX (R369 to R371): it is TX_BYTE, Pool[s_count] or the byte of memory at s_base + s_count. After
A the slave goes on, or at the last byte reports TX_ACK and stretches; after N it reports TX_NAK, releases both lines and is in
S_WAIT_STOP. The length register takes the count, and CMD reads 0, when the phase ends. At an unmapped address the slave is stuck. -/
def Obligations.StxSendsBytes : Prop :=
  ∀ (p : Params) (mem : Memory) (b : Bus) (path : Path) (pk : SrcPick),
    b.live → b.remoteOwns = true → b.sstate = .tx path → b.stale = {} →
    let a := b.sBase.toNat + b.sCount
    let v := match path with
      | .byte => b.txByte
      | .buf => b.pool.getD b.sCount 0
      | .dma => mem.read a
    let ended := fun (m : Word) (r : Ack) =>
      { b with sCount := b.sCount + 1, cmd := 0, isr := b.isr ||| m, wire := .byte v r :: b.wire,
               bufCount := if path = Path.buf then BitVec.ofNat 8 (b.sCount + 1) else b.bufCount,
               dmaMoved := if path = Path.dma then BitVec.ofNat 13 (b.sCount + 1) else b.dmaMoved }
    ((path = .dma → p.dmaAllowed a = true) →
      (b.sCount + 1 ≠ b.sCap →
        b.envStep p mem (.rbyte .ack) pk = some ({ b with sCount := b.sCount + 1, wire := .byte v .ack :: b.wire }, mem)) ∧
      (b.sCount + 1 = b.sCap →
        b.envStep p mem (.rbyte .ack) pk =
          some ({ ended 0x1 .ack with sstate := .txWait, sDrv := { b.sDrv with scl := .low } }, mem)) ∧
      b.envStep p mem (.rbyte .nak) pk = some ({ ended 0x2 .nak with sstate := .waitStop, sDrv := {} }, mem)) ∧
    (path = .dma → p.dmaAllowed a = false → ∀ r, b.envStep p mem (.rbyte r) pk = some ({ b with stuck := true }, mem))

/-- A START, repeated START or STOP of the remote side (R360, R376, R379, R262): a partial batch is delivered first; a START leaves the
slave in S_ADDR, a STOP in S_IDLE, with NORMAL_STOP only when it was addressed; a pending STX ends, the length register of its path
taking the bytes it sent (log 40). The latch follows the condition. With SLAVE_EN clear only the latch moves. -/
def Obligations.SlaveSeesStartAndStop : Prop :=
  ∀ (p : Params) (mem : Memory) (b : Bus) (pk : SrcPick), b.live →
    let batch := b.sstate = .rx ∧ b.sPath ≠ .byte ∧ 0 < b.sCount
    let heard := b.sstate = .rx ∨ b.sstate = .waitStop ∨ b.sstate.isTx = true
    let after := fun (busy : Bool) (st : SState) (m : Word) =>
      { b with busBusy := busy, sstate := st, sDrv := {}, cmd := if b.sstate.isTx then 0 else b.cmd,
               isr := b.isr ||| (if batch then 0x4 else 0) ||| m,
               bufCount := if b.cutPhase .buf then BitVec.ofNat 8 b.sCount else b.bufCount,
               dmaMoved := if b.cutPhase .dma then BitVec.ofNat 13 b.sCount else b.dmaMoved }
    (b.slaveEn = true → b.remoteMay = true → b.busBusy = false → b.scl = true → b.sda = true →
      b.envStep p mem .s pk = some (after true .addr 0, mem)) ∧
    (b.slaveEn = true → b.remoteOwns = true →
      b.envStep p mem .sr pk = some (after true .addr 0, mem) ∧
      b.envStep p mem .p pk = some (after false .idle (if heard then 0x10 else 0), mem)) ∧
    (b.slaveEn = false → b.remoteMay = true →
      (b.busBusy = false → b.scl = true → b.sda = true →
        b.envStep p mem .s pk = some ({ b with busBusy := b.masterEn }, mem)) ∧
      (b.busBusy = true →
        b.envStep p mem .sr pk = some (b, mem) ∧ b.envStep p mem .p pk = some ({ b with busBusy := false }, mem)))

/-- A START or STOP inside a byte of a slave transfer (R377): after a partial batch, ABNORMAL is set, both lines are released, a pending
STX ends, its path's length register taking the bytes sent (log 40), and the slave is in S_ADDR, or in S_IDLE with NORMAL_STOP too. In
other states it is a plain repeated START or STOP. -/
def Obligations.SlaveMidByteCondition : Prop :=
  ∀ (p : Params) (mem : Memory) (b : Bus) (pk : SrcPick), b.live → b.remoteOwns = true →
    let batch := b.sstate = .rx ∧ b.sPath ≠ .byte ∧ 0 < b.sCount
    let after := fun (busy : Bool) (st : SState) (m : Word) =>
      { b with busBusy := busy, sstate := st, sDrv := {}, cmd := if b.sstate.isTx then 0 else b.cmd,
               isr := b.isr ||| (if batch then 0x4 else 0) ||| m,
               bufCount := if b.cutPhase .buf then BitVec.ofNat 8 b.sCount else b.bufCount,
               dmaMoved := if b.cutPhase .dma then BitVec.ofNat 13 b.sCount else b.dmaMoved }
    (b.slaveEn = true → b.sstate = .rx ∨ b.sstate.isTx = true →
      b.envStep p mem (.mid .start) pk = some (after true .addr 0x20, mem) ∧
      b.envStep p mem (.mid .stop) pk = some (after false .idle 0x30, mem)) ∧
    (b.sstate ≠ .rx → b.sstate.isTx = false →
      b.envStep p mem (.mid .start) pk = b.envStep p mem .sr pk ∧ b.envStep p mem (.mid .stop) pk = b.envStep p mem .p pk)

/-- A slave timeout (R378): with TIMEOUT not 0, in S_RX, S_TX and S_WAIT_STOP and no master step that keeps the remote side out (log
21), it sets the line's timeout bit, releases both lines, ends a pending STX and leaves the slave in S_IDLE, the latch unchanged; the
partial count of an STX or of a batch is recorded, with no RX_DONE (60_exceptions.md R501; log 40). Elsewhere, beside a master step that
keeps the remote side out, and with TIMEOUT 0, there is none. -/
def Obligations.SlaveTimeouts : Prop :=
  ∀ (p : Params) (mem : Memory) (b : Bus) (l : Line) (pk : SrcPick), b.live →
    let heard := b.sstate = .rx ∨ b.sstate = .waitStop ∨ b.sstate.isTx = true
    (b.timeout ≠ 0 → heard → b.mstate.holdsRemote = false →
      b.envStep p mem (.timeout l) pk =
        some ({ b with isr := b.isr ||| (match l with
                         | .scl => 0x40
                         | .sda => 0x4000),
                       sstate := .idle, sDrv := {}, cmd := if b.sstate.isTx then 0 else b.cmd,
                       bufCount := if b.cutPhase .buf then BitVec.ofNat 8 b.sCount else b.bufCount,
                       dmaMoved := if b.cutPhase .dma then BitVec.ofNat 13 b.sCount else b.dmaMoved }, mem)) ∧
    (b.timeout = 0 ∨ ¬heard ∨ b.mstate.holdsRemote = true → b.envStep p mem (.timeout l) pk = none)

/-! ## Host accesses -/

/-- A FUN_CTRL write (R35), whole. MASTER_EN from 1 to 0: the master function's lines are released (log 12), the bus is not owned, CMD is
0, the master is in M_OFF; from 0 to 1: M_IDLE. SLAVE_EN from 1 to 0: the slave's lines are released, the bits of a pending STX clear,
the slave is in S_OFF; from 0 to 1: S_IDLE. With neither function on, the latch is 0. Where an enable keeps its value its function's
state stays, and everything that the bullets of R35 do not name is unchanged; with both functions switched off both outputs are
released. The model's choices are: a stretch of the slave outlives MASTER_EN cleared (log 12); CMD is 0 then beside a pending STX too
(log 13); and SLAVE_EN set while own = 1 gives S_IDLE, not S_IGNORE (log 48). -/
def Obligations.FunCtrlWrite : Prop :=
  ∀ (s : State) (loc : Loc) (n : Nat) (b : Bus) (v : Word), Loc.find s.params loc = some (.bus n, 0x00) → s.buses[n]? = some b →
    b.refused = false →
    let m := v.getLsbD 0
    let sl := v.getLsbD 1
    let mOff := b.masterEn = true ∧ m = false
    let sOff := b.slaveEn = true ∧ sl = false
    let c :=
      { b with masterEn := m, slaveEn := sl, multiMasterDis := v.getLsbD 15,
               cmd := if mOff ∨ (sOff ∧ b.sstate.isTx = true) then 0 else b.cmd,
               mstate := if mOff then .off else if b.masterEn = false ∧ m = true then .idle else b.mstate,
               own := if mOff then false else b.own,
               mDrv := if mOff then {} else b.mDrv,
               sstate := if sOff then .off else if b.slaveEn = false ∧ sl = true then .idle else b.sstate,
               sDrv := if sOff then {} else b.sDrv, busBusy := if m = false ∧ sl = false then false else b.busBusy }
    s.hostWrite loc 32 v = .next (s.setBus n c) ∧ (mOff → sOff → c.drvScl = .rel ∧ c.drvSda = .rel)

/-- ISR (R61): a write clears exactly the implemented bits it names and changes nothing else; a read returns ISR, and clears it only
with STATUS_CLEAR_ON_READ. -/
def Obligations.IsrWriteAndRead : Prop :=
  ∀ (s : State) (loc : Loc) (n : Nat) (b : Bus), Loc.find s.params loc = some (.bus n, 0x10) → s.buses[n]? = some b →
    b.refused = false →
    (∀ v, s.hostWrite loc 32 v = .next (s.setBus n { b with isr := b.isr &&& ~~~(v &&& 0x60FF) })) ∧
    ∀ d, s.hostRead loc 32 d =
      .next { s.setBus n { b with isr := if s.params.statusClearOnRead then 0 else b.isr } with rdata := b.isr }

/-- The registers that only store (R36, R37, R38, R40 to R45, R109): each write puts its fields and nothing else; BUF_COUNT, RX_BYTE and
the DMA count are not writable. The record of older sources (R118) changes only while CMD is not 0 or an STX runs. CLK_DIV, in the
global bank, takes the whole word (R72). -/
def Obligations.RegisterWritesStore : Prop :=
  ∀ (s : State) (n : Nat) (b : Bus) (v : Word), s.buses[n]? = some b → b.refused = false →
    let put := fun (off : Nat) (c : Bus) => s.hostWrite (.space (.bus n) off) 32 v = .next (s.setBus n c)
    put 0x04 { b with timing := v &&& 0xFFFFF00F } ∧ put 0x08 { b with timeout := v } ∧
    (v &&& ~~~0x60FF = 0 → put 0x0C { b with ier := v }) ∧ put 0x18 { b with devAddr := v.extractLsb' 0 7 } ∧
    (∃ old, put 0x1C { b with txEnd := v.extractLsb' 8 8, rxEnd := v.extractLsb' 16 8, stale := old } ∧
      (b.cmd = 0 → b.sstate.isTx = false → old = b.stale)) ∧
    (∃ old, put 0x20 { b with txByte := v.extractLsb' 0 8, stale := old } ∧ (b.cmd = 0 → b.sstate.isTx = false → old = b.stale)) ∧
    (∃ old, put 0x24 { b with dmaAddr := v, stale := old } ∧ (b.cmd = 0 → b.sstate.isTx = false → old = b.stale)) ∧
    (∃ old, put 0x28 { b with dmaLenProg := v.extractLsb' 0 13, stale := old } ∧
      (b.cmd = 0 → b.sstate.isTx = false → old = b.stale)) ∧
    s.hostWrite (.space .global 0x10) 32 v = .next { s with clkDiv := v }

/-- What a register reads as (R34, R36 to R45, R58, R59, R108, R63): each implemented field its value, every reserved bit that R63 names a
draw, so nothing is said of it; CMD shows the pending bits, the latch and the lines, and zeros; CLK_DIV, in the global bank, reads as it
was written (R72). No read but ISR's changes the machine. -/
def Obligations.RegisterReadsReport : Prop :=
  ∀ (s : State) (n : Nat) (b : Bus) (d : ReadDraw), s.buses[n]? = some b → b.refused = false →
    let reads := fun (off : Nat) (ok : Word → Prop) =>
      ∃ w, s.hostRead (.space (.bus n) off) 32 d = .next { s with rdata := w } ∧ ok w
    reads 0x00 (fun w => w.getLsbD 0 = b.masterEn ∧ w.getLsbD 1 = b.slaveEn ∧ w.getLsbD 15 = b.multiMasterDis) ∧
    reads 0x04 (fun w => w &&& 0xFFFFF00F = b.timing &&& 0xFFFFF00F) ∧ reads 0x08 (fun w => w = b.timeout) ∧
    reads 0x0C (fun w => w = b.ier) ∧
    reads 0x14 (fun w => w.extractLsb' 0 12 = b.cmd ∧ w.getLsbD 16 = b.busBusy ∧ w.getLsbD 17 = b.sda ∧ w.getLsbD 18 = b.scl ∧
      w &&& 0xFFF8F000 = 0) ∧
    reads 0x18 (fun w => w.extractLsb' 0 7 = b.devAddr) ∧
    reads 0x1C (fun w => w.extractLsb' 8 8 = b.txEnd ∧ w.extractLsb' 16 8 = b.rxEnd ∧ w.extractLsb' 24 8 = b.bufCount) ∧
    reads 0x20 (fun w => w.extractLsb' 0 8 = b.txByte ∧ w.extractLsb' 8 8 = b.rxByte) ∧ reads 0x24 (fun w => w = b.dmaAddr) ∧
    reads 0x28 (fun w => w = b.dmaMoved.setWidth 32) ∧
    s.hostRead (.space .global 0x10) 32 d = .next { s with rdata := s.clkDiv }

/-- The pooled-buffer window (R104): word w holds Pool[4w] to Pool[4w+3], the first in bits [7:0]. A write puts the bytes below BUF_SIZE
and no others; a read returns them, with a draw in each byte at or beyond BUF_SIZE, and while a receive phase runs a byte that the draw
asks for is the one that the phase overwrote (70_reset_and_hazards.md R568; log 15). An access at w ≥ ceil_div(BUF_SIZE, 4) is refused. -/
def Obligations.PoolWindow : Prop :=
  ∀ (s : State) (n w : Nat) (b : Bus), s.buses[n]? = some b → b.refused = false → b.pool.length = s.params.bufSize →
    (w < ceilDiv s.params.bufSize 4 →
      (∀ v, ∃ c, s.hostWrite (.space (.pool n) (4 * w)) 32 v = .next (s.setBus n c) ∧
        c = { b with pool := c.pool, stale := c.stale } ∧ c.pool.length = b.pool.length ∧
        (∀ i < 4, 4 * w + i < s.params.bufSize → c.pool[4 * w + i]? = some (v.extractLsb' (8 * i) 8)) ∧
        ∀ j, j < 4 * w ∨ 4 * w + 4 ≤ j → c.pool[j]? = b.pool[j]?) ∧
      ∀ d, ∃ x, s.hostRead (.space (.pool n) (4 * w)) 32 d = .next { s with rdata := x } ∧
        ∀ i < 4, (s.params.bufSize ≤ 4 * w + i → x.extractLsb' (8 * i) 8 = d.bits.extractLsb' (8 * i) 8) ∧
          (4 * w + i < s.params.bufSize → d.old.getLsbD i = false ∨ b.receiving .buf = false →
            b.pool[4 * w + i]? = some (x.extractLsb' (8 * i) 8)) ∧
          (4 * w + i < s.params.bufSize → d.old.getLsbD i = true → b.receiving .buf = true →
            x.extractLsb' (8 * i) 8 = (olderAt (4 * w + i) b.rxOldPool).headD (b.pool.getD (4 * w + i) 0))) ∧
    (ceilDiv s.params.bufSize 4 ≤ w →
      (∀ v, s.hostWrite (.space (.pool n) (4 * w)) 32 v = .next (s.setBus n { b with refused := true })) ∧
      ∀ d, s.hostRead (.space (.pool n) (4 * w)) 32 d = .next (s.setBus n { b with refused := true }))

/-- Refused accesses (R33, R38, R62, R101): another width than 32 bits, an offset that is no multiple of 4, a reserved offset up to 0x3C,
and an IER value outside ISR_IMPL set the refusal mark of the bus and do nothing else. -/
def Obligations.RefusedAccesses : Prop :=
  ∀ (s : State) (n : Nat) (b : Bus) (v : Word) (d : ReadDraw), s.buses[n]? = some b → b.refused = false →
    let mark := Host.Outcome.next (s.setBus n { b with refused := true })
    (∀ width off, width ≠ 32 ∨ off % 4 ≠ 0 →
      s.hostWrite (.space (.bus n) off) width v = mark ∧ s.hostRead (.space (.bus n) off) width d = mark ∧
      s.hostWrite (.space (.pool n) off) width v = mark ∧ s.hostRead (.space (.pool n) off) width d = mark) ∧
    (∀ off ∈ [0x2C, 0x30, 0x34, 0x38, 0x3C],
      s.hostWrite (.space (.bus n) off) 32 v = mark ∧ s.hostRead (.space (.bus n) off) 32 d = mark) ∧
    (v &&& ~~~0x60FF ≠ 0 → s.hostWrite (.space (.bus n) 0x0C) 32 v = mark)

/-- A refused bus stays as it is (R54): no step but a block reset (log 6) changes anything of a bus that carries the refusal mark, its
lines and its status included, but for the model's own record of older sources (log 14). A host access to it is refused (log 6). -/
def Obligations.RefusedBusStays : Prop :=
  ∀ (s : State) (n : Nat) (b : Bus), s.buses[n]? = some b → b.refused = true →
    (∀ (e : Event) (t : State), s.apply e = .next t → (∀ u, e ≠ .blockReset u) →
      ∃ old, t.buses[n]? = some { b with stale := old }) ∧
    (∀ off width v, s.hostWrite (.space (.bus n) off) width v = .refused .busRefused ∧
      s.hostWrite (.space (.pool n) off) width v = .refused .busRefused) ∧
    ∀ off width d, s.hostRead (.space (.bus n) off) width d = .refused .busRefused ∧
      s.hostRead (.space (.pool n) off) width d = .refused .busRefused

/-- The interrupt lines (R73, R506, R510): bit n of GISR is 1 exactly when an enabled bit is set in ISR of bus n, bits at or above the
number of buses are 0, and the one line is up exactly when some bus's line is, which is when GISR is not 0. A read of GISR returns it
and a write is ignored. -/
def Obligations.InterruptLines : Prop :=
  ∀ s : State, s.buses.length ≤ 32 →
    (∀ n < 32, s.gisr.getLsbD n = true ↔ ∃ b, s.buses[n]? = some b ∧ b.isr &&& b.ier ≠ 0) ∧
    (s.irq = true ↔ ∃ b ∈ s.buses, b.isr &&& b.ier ≠ 0) ∧ (s.irq = true ↔ s.gisr ≠ 0) ∧
    (∀ d, s.hostRead (.space .global 0x00) 32 d = .next { s with rdata := s.gisr }) ∧
    ∀ v, s.hostWrite (.space .global 0x00) 32 v = .next s

/-! ## Reset and the whole machine -/

/-- Reset values (R551, R552, R553): after a block reset every bus has the values of the two tables, whatever it was doing; the fields
the tables call unspecified take the values the reset draws, whichever they are; CLK_DIV holds CLK_DIV_RESET and no line is up. The
environment's holds stay (R555; log 27), a bus stuck at an unmapped DMA address is free again (log 16), and the model's own records
start anew (log 27). In the state after reset the environment holds no line, so both lines read 1. -/
def Obligations.ResetValues : Prop :=
  (∀ (s : State) (u : List ResetDraw), ∃ t, s.apply (.blockReset u) = .next t ∧ t.clkDiv = s.params.clkDivReset ∧
    t.buses.length = s.buses.length ∧ t.gisr = 0 ∧ t.irq = false ∧
    t = { s with buses := t.buses, clkDiv := t.clkDiv } ∧
    ∀ (n : Nat) (b : Bus), s.buses[n]? = some b → ∃ pool : List Byte,
      let w := u.getD n {}
      t.buses[n]? = some (
        { txByte := w.txByte, rxByte := w.rxByte, dmaAddr := w.dmaAddr, sBase := w.sBase, dmaPtr := w.dmaPtr, pool := pool, env := b.env,
          masterEn := false, slaveEn := false, multiMasterDis := false, timing := 0, timeout := 0, ier := 0, isr := 0, cmd := 0,
          busBusy := false, devAddr := 0, txEnd := 0, rxEnd := 0, bufCount := 0, dmaLenProg := 0, dmaMoved := 0,
          mstate := .off, own := false, sstate := .off, sPath := .byte, sCount := 0, sCap := 0, refused := false, mDrv := {},
          sDrv := {}, stuck := false, lastSlot := .other, sclTiming := 0, stale := {}, rxOldPool := [], rxOldMem := [],
          wire := [] } : Bus) ∧
      pool.length = s.params.bufSize ∧ (w.pool.length = s.params.bufSize → pool = w.pool)) ∧
  ∀ (p : Params) (b : Bus), b ∈ (State.resetFor p).buses → b.scl = true ∧ b.sda = true

/-- What every step keeps: the machine's invariant (Safety.lean), from every state that meets it: memory in canonical form, the enables and
the states in step, SCL low and the latch set while the bus is owned, CMD the pending bits, the slave's stretch, the counts in range. Which
bits of CMD are pending in mid-command is the model's reading of R302 and R303 (log 11), and so is CMD 0 beside an STX that goes on when
MASTER_EN is cleared (log 13). -/
def Obligations.StepKeepsInvariant : Prop := ∀ s t : State, s.Inv → step s = .next t → t.Inv

/-- The state after reset meets the invariant, for the illustrative parameters and for all others (log 3). -/
def Obligations.ResetHasInvariant : Prop := State.reset.Inv ∧ ∀ p : Params, (State.resetFor p).Inv

/-! ## The calculator, the decoder and the host sequencer -/

/-- The calculator's fields (R218): they fit four bits, and high + low + 2 is the ratio, except 32 for the ratio 33 of the fast path. The
word holds them where R144 puts them, when TIMING_EXTRA leaves their places 0. -/
def Obligations.CalculatorFieldBounds : Prop :=
  ∀ (inputClk : Nat) (base : Nat → Nat) (extra : Word) (f : Nat) (t : Timing), calcNew inputClk base extra f = some t →
    t.low ≤ 15 ∧ t.high ≤ 15 ∧ t.sel ≤ 15 ∧ 2 ≤ t.ratio ∧ (t.ratio ≤ 32 → t.high + t.low + 2 = t.ratio) ∧
    (32 < t.ratio → t.ratio = 33 ∧ inputClk / f ≤ 32 ∧ t.high + t.low + 2 = 32) ∧
    (extra &&& 0x000FF00F = 0 →
      baseSel t.word = t.sel ∧ sclLow t.word = t.low ∧ sclHigh t.word = t.high ∧ t.word &&& 0xFFF00FF0 = extra)

/-- The routing is a partition (R401, R402, R416): the three parts are disjoint and make up the word; the slave's part lies in
SLAVE_BITS and the master's in MASTER_BITS; the master gets nothing in the states its decoder does not handle (R403, log 25); with no session and
no SLAVE_MATCH the slave gets nothing, and SLAVE_MATCH is always the slave's. -/
def Obligations.RouteIsPartition : Prop :=
  ∀ (sh : SCtx) (ctx : MCtx) (st : Word),
    let r := route sh ctx st
    r.slave ||| r.master ||| r.unclaimed = st ∧ r.slave &&& r.master = 0 ∧ r.slave &&& r.unclaimed = 0 ∧
    r.master &&& r.unclaimed = 0 ∧ r.slave &&& ~~~0x40F7 = 0 ∧ r.master &&& ~~~0x607F = 0 ∧
    (ctx ≠ .cmdIssued → ctx ≠ .recovering → r.master = 0) ∧ (sh = .idle → st &&& 0x80 = 0 → r.slave = 0) ∧
    r.slave &&& 0x80 = st &&& 0x80

/-- The master decoder (R404 to R408) on what a command can set: a fault bit or TX_NAK is an error by the order arbitration, timeout,
abnormal, no acknowledgment; without them the completion bit is CHUNK_DONE, an intermediate bit alone NOT_YET; BUS_RECOVER_DONE belongs
to a recovery only. -/
def Obligations.MasterDecoderOutcomes : Prop :=
  ∀ (i : Instr) (m : Word), i.isMaster = true →
    (m &&& 0x8 ≠ 0 → decodeIssued (code i) m = .error .retryable) ∧
    (m &&& 0x8 = 0 → m &&& 0x4040 ≠ 0 → decodeIssued (code i) m = .error .busCondition) ∧
    (m &&& 0x4048 = 0 → m &&& 0x20 ≠ 0 → decodeIssued (code i) m = .error .protocol) ∧
    (m &&& 0x4068 = 0 → m &&& 0x2 ≠ 0 → decodeIssued (code i) m = .error .addressing) ∧
    (i ≠ .recover → m &&& 0x406A = 0 → m &&& completionBit (code i) ≠ 0 → decodeIssued (code i) m = .chunkDone) ∧
    (i ≠ .recover → m ≠ 0 → m &&& ~~~intermediateBits (code i) = 0 → decodeIssued (code i) m = .notYet) ∧
    decodeIssued (code i) 0 = .none ∧ decodeIssued (code i) 0x2000 = .unrecognized ∧
    (m &&& 0x2000 ≠ 0 → decodeRecovering m = .recoverDone) ∧
    (m &&& 0x2000 = 0 → m &&& 0x4040 ≠ 0 → decodeRecovering m = .error .busCondition)

/-- What the dispatcher clears (R419, R409): its first write to ISR is every bit read except a RX_DONE that the slave claims, the only other
one is that RX_DONE, and it comes after every action; every bit cleared was read. No other operation of the dispatcher lines up a write to
ISR: not the reads, not the arming of the slave, no handler call and no master action. Bits that no path recognizes are logged (which of the
slave's own count is in part the model's choice, log 52), and the outcome UNRECOGNIZED leaves the host's state as it was and lines nothing
up. -/
def Obligations.DispatcherClearsWhatItRead : Prop :=
  ∀ (p : Params) (h : HostBus) (st : Word) (rx : Byte) (count : Nat) (data : List Byte),
    let r := route h.sh h.ctx st
    (∃ acts, decideOps p h st rx count data =
        HOp.wr 0x10 (st &&& ~~~(r.slave &&& 0x4)) :: acts ++
          (if r.slave &&& 0x4 ≠ 0 then [HOp.wr 0x10 0x4] else []) ++
          [HOp.logBits (unrecognizedBits h r rx count data), HOp.busDone] ∧
      ∀ off v, HOp.wr off v ∉ acts) ∧
    (∀ v, HOp.wr 0x10 v ∈ decideOps p h st rx count data → v &&& ~~~st = 0) ∧
    (∀ (n : Nat) (hd : HostDraw) (op : HOp) (d : Disp) (s t : State) (ops : List HOp),
      dispatcherOp n hd op d h s = .next (t, ops) → op ≠ .decide → ∀ v, HOp.wr 0x10 v ∉ ops) ∧
    (r.unclaimed &&& ~~~unrecognizedBits h r rx count data = 0) ∧
    ∀ m byte, h.onOutcome p .unrecognized m count rx data byte = (h, [])

/-- The command the host issues next (R444, R448, R442): its word is legal; it carries M_START exactly
when no command of the message has been issued (a zero-length write always), RX_LAST exactly on the final chunk of a read, and M_STOP
exactly on the last message's final chunk: of a read once its length is known, of a write by the pool or by DMA, of a BYTE-mode write with
its last byte and never with its address, and of a zero-length write. Where a
count sampled late has moved the transaction beyond its length, what is left of the message is 0, by the model's choice (log 45). -/
def Obligations.NextCommandWord : Prop :=
  ∀ (p : Params) (path : Path) (t : Txn) (m : Msg), t.msgs[t.idx]? = some m →
    let c := (nextCmd p path t).2.1
    let final := min (t.lenEff - t.xfer) (p.chunk path) = t.lenEff - t.xfer
    let last := t.idx + 1 = t.msgs.length
    legal c = true ∧
    c.getLsbD 0 = (!t.started || (m.dir == .write && m.len == 0)) ∧
    (m.dir = .read → (c.getLsbD 4 = true ↔ t.varlenPending = false ∧ final)) ∧ (m.dir = .write → c.getLsbD 4 = false) ∧
    (m.dir = .read → (c.getLsbD 5 = true ↔ last ∧ t.varlenPending = false ∧ final)) ∧
    (m.dir = .write → m.len = 0 → (c.getLsbD 5 = true ↔ last)) ∧
    (m.dir = .write → m.len ≠ 0 → path ≠ .byte → (c.getLsbD 5 = true ↔ last ∧ final)) ∧
    (m.dir = .write → m.len ≠ 0 → path = .byte →
      (c.getLsbD 5 = true ↔ last ∧ t.started = true ∧ t.lenEff - t.xfer = 1)) ∧
    (nextCmd p path t).2.2 = { t with started := true }

end
end

