-- ==== Sys2Proof/Laws/Memory.lean ====
section
/-! SUPPORT. System memory: the basic laws of reading and writing one byte, and that a write keeps the canonical form. -/

namespace Sys2Proof

/-- Every listed address of a canonical memory is above the bound. -/
theorem Memory.wfFrom_cons {lo : Int} {c : Host.Cell} {rest : Memory} (h : Memory.wfFrom lo (c :: rest) = true) :
    lo < c.1 ∧ c.1 < 2 ^ 32 ∧ c.2 ≠ Memory.unlisted ∧ Memory.wfFrom c.1 rest = true := by
  simpa [Memory.wfFrom, and_assoc] using h

/-- A lower bound may be lowered. -/
theorem Memory.wfFrom_mono {lo lo' : Int} (hle : lo' ≤ lo) : {m : Memory} → Memory.wfFrom lo m = true →
    Memory.wfFrom lo' m = true
  | [], _ => rfl
  | c :: rest, h => by
    obtain ⟨h1, h2, h3, h4⟩ := Memory.wfFrom_cons h
    simp only [Memory.wfFrom, Bool.and_eq_true, decide_eq_true_eq]
    exact ⟨⟨⟨by omega, h2⟩, h3⟩, h4⟩

/-- An address at or below the bound of a canonical memory reads as unlisted. -/
theorem Memory.read_below {lo : Int} {a : Nat} (ha : (a : Int) ≤ lo) : {m : Memory} → Memory.wfFrom lo m = true →
    Memory.read m a = Memory.unlisted
  | [], _ => rfl
  | c :: rest, h => by
    obtain ⟨h1, -, -, -⟩ := Memory.wfFrom_cons h
    have : a < c.1 := by omega
    simp [Memory.read, this]

/-- A write keeps the canonical form. -/
theorem Memory.wfFrom_write {a : Nat} {v : Byte} (ha : a < 2 ^ 32) : {lo : Int} → {m : Memory} → lo < a →
    Memory.wfFrom lo m = true → Memory.wfFrom lo (Memory.write m a v) = true
  | lo, [], hlo, _ => by
    by_cases hv : v = Memory.unlisted
    · simp [Memory.write, hv, Memory.wfFrom]
    · simp [Memory.write, hv, Memory.wfFrom, hlo]; exact_mod_cast ha
  | lo, c :: rest, hlo, h => by
    obtain ⟨h1, h2, h3, h4⟩ := Memory.wfFrom_cons h
    have ha' : (a : Int) < 4294967296 := by exact_mod_cast ha
    by_cases hlt : a < c.1
    · by_cases hv : v = Memory.unlisted
      · simp [Memory.write, hlt, hv, h]
      · simp only [Memory.write, hlt, if_true, hv, if_false, Memory.wfFrom, Bool.and_eq_true, decide_eq_true_eq]
        exact ⟨⟨⟨hlo, by omega⟩, hv⟩, ⟨⟨by omega, h2⟩, h3⟩, h4⟩
    · by_cases heq : c.1 = a
      · subst heq
        by_cases hv : v = Memory.unlisted
        · simp only [Memory.write, lt_irrefl, if_false, if_true, hv]
          exact Memory.wfFrom_mono (le_of_lt h1) h4
        · simp only [Memory.write, lt_irrefl, if_false, if_true, hv, Memory.wfFrom, Bool.and_eq_true, decide_eq_true_eq]
          exact ⟨⟨⟨h1, h2⟩, hv⟩, h4⟩
      · simp only [Memory.write, hlt, if_false, heq, Memory.wfFrom, Bool.and_eq_true, decide_eq_true_eq]
        exact ⟨⟨⟨h1, h2⟩, h3⟩, Memory.wfFrom_write ha (by omega) h4⟩

/-- A write keeps the canonical form of the whole memory. -/
theorem Memory.wf_write {m : Memory} {a : Nat} {v : Byte} (ha : a < 2 ^ 32) (h : Memory.wf m = true) :
    Memory.wf (Memory.write m a v) = true :=
  Memory.wfFrom_write ha (by omega) h

/-- Reading the address just written gives the value written. -/
theorem Memory.read_write_same {a : Nat} {v : Byte} : {lo : Int} → {m : Memory} → Memory.wfFrom lo m = true →
    Memory.read (Memory.write m a v) a = v
  | _, [], _ => by
    by_cases hv : v = Memory.unlisted <;> simp [Memory.write, Memory.read, hv]
  | lo, c :: rest, h => by
    obtain ⟨h1, h2, h3, h4⟩ := Memory.wfFrom_cons h
    by_cases hlt : a < c.1
    · by_cases hv : v = Memory.unlisted
      · simp [Memory.write, hlt, hv, Memory.read]
      · simp [Memory.write, hlt, hv, Memory.read]
    · by_cases heq : c.1 = a
      · subst heq
        by_cases hv : v = Memory.unlisted
        · simp only [Memory.write, lt_irrefl, if_false, if_true, hv]
          exact Memory.read_below (le_refl _) h4
        · simp [Memory.write, hv, Memory.read]
      · simp only [Memory.write, hlt, if_false, heq, Memory.read]
        exact Memory.read_write_same h4

/-- A write leaves every other address alone. -/
theorem Memory.read_write_other {a a' : Nat} {v : Byte} (hne : a' ≠ a) : {lo : Int} → {m : Memory} →
    Memory.wfFrom lo m = true → Memory.read (Memory.write m a v) a' = Memory.read m a'
  | _, [], _ => by
    by_cases hv : v = Memory.unlisted
    · simp [Memory.write, hv]
    · simp only [Memory.write, hv, if_false, Memory.read]
      split
      · rfl
      · rw [if_neg (by omega)]
  | lo, c :: rest, h => by
    obtain ⟨h1, h2, h3, h4⟩ := Memory.wfFrom_cons h
    by_cases hlt : a < c.1
    · by_cases hv : v = Memory.unlisted
      · simp [Memory.write, hlt, hv]
      · simp only [Memory.write, hlt, if_true, hv, if_false, Memory.read]
        by_cases h5 : a' < a
        · rw [if_pos h5, if_pos (by omega)]
        · rw [if_neg h5, if_neg (by omega)]
    · by_cases heq : c.1 = a
      · subst heq
        by_cases hv : v = Memory.unlisted
        · simp only [Memory.write, lt_irrefl, if_false, if_true, hv, Memory.read]
          by_cases h5 : a' < c.1
          · rw [if_pos h5]; exact Memory.read_below (by omega) h4
          · rw [if_neg h5, if_neg (by omega)]
        · simp only [Memory.write, lt_irrefl, if_false, if_true, hv, Memory.read]
          by_cases h5 : a' < c.1
          · rw [if_pos h5, if_pos h5]
          · rw [if_neg h5, if_neg h5, if_neg (by omega), if_neg (by omega)]
      · simp only [Memory.write, hlt, if_false, heq, Memory.read, Memory.read_write_other hne h4]

/-- The master's receive store writes memory only on the DMA path, at `dma_ptr`. -/
theorem rxStore_mem {p : Params} {mem : Memory} {path : Path} {i : Nat} {d : Byte} {b : Bus} {r : Bus × Memory}
    (h : b.rxStore p mem path i d = some r) :
    r.2 = mem ∨ (path = .dma ∧ r.2 = mem.write b.dmaPtr.toNat d) := by
  cases path <;> simp only [Bus.rxStore] at h
  · cases h; exact .inl rfl
  · cases h; exact .inl rfl
  · split at h
    · cases h; exact .inr ⟨rfl, rfl⟩
    · cases h

/-- The slave's store writes memory only on the DMA path, at `s_base + s_count`. -/
theorem slaveStore_mem (p : Params) (mem : Memory) (d : Byte) (b : Bus) :
    (b.slaveStore p mem d).2 = mem ∨
      (b.sPath = .dma ∧ (b.slaveStore p mem d).2 = mem.write (b.sBase.toNat + b.sCount) d) := by
  unfold Bus.slaveStore
  cases hp : b.sPath
  · exact .inl rfl
  · exact .inl rfl
  · dsimp only
    split
    · exact .inr ⟨rfl, rfl⟩
    · exact .inl rfl

end Sys2Proof
end

