-- ==== Sys2Proof/Laws/State.lean ====
section
/-! SUPPORT. One lemma per field per update of a bus and of the state, so that no proof unfolds a record update. -/

namespace Sys2Proof

/-! ## setStatus -/

@[simp] theorem setStatus_masterEn (m : Word) (b : Bus) : (Bus.setStatus m b).masterEn = b.masterEn := rfl
@[simp] theorem setStatus_slaveEn (m : Word) (b : Bus) : (Bus.setStatus m b).slaveEn = b.slaveEn := rfl
@[simp] theorem setStatus_multiMasterDis (m : Word) (b : Bus) : (Bus.setStatus m b).multiMasterDis = b.multiMasterDis := rfl
@[simp] theorem setStatus_timing (m : Word) (b : Bus) : (Bus.setStatus m b).timing = b.timing := rfl
@[simp] theorem setStatus_sclTiming (m : Word) (b : Bus) : (Bus.setStatus m b).sclTiming = b.sclTiming := rfl
@[simp] theorem setStatus_timeout (m : Word) (b : Bus) : (Bus.setStatus m b).timeout = b.timeout := rfl
@[simp] theorem setStatus_ier (m : Word) (b : Bus) : (Bus.setStatus m b).ier = b.ier := rfl
@[simp] theorem setStatus_isr (m : Word) (b : Bus) : (Bus.setStatus m b).isr = b.isr ||| m := rfl
@[simp] theorem setStatus_cmd (m : Word) (b : Bus) : (Bus.setStatus m b).cmd = b.cmd := rfl
@[simp] theorem setStatus_devAddr (m : Word) (b : Bus) : (Bus.setStatus m b).devAddr = b.devAddr := rfl
@[simp] theorem setStatus_txEnd (m : Word) (b : Bus) : (Bus.setStatus m b).txEnd = b.txEnd := rfl
@[simp] theorem setStatus_rxEnd (m : Word) (b : Bus) : (Bus.setStatus m b).rxEnd = b.rxEnd := rfl
@[simp] theorem setStatus_bufCount (m : Word) (b : Bus) : (Bus.setStatus m b).bufCount = b.bufCount := rfl
@[simp] theorem setStatus_txByte (m : Word) (b : Bus) : (Bus.setStatus m b).txByte = b.txByte := rfl
@[simp] theorem setStatus_rxByte (m : Word) (b : Bus) : (Bus.setStatus m b).rxByte = b.rxByte := rfl
@[simp] theorem setStatus_dmaAddr (m : Word) (b : Bus) : (Bus.setStatus m b).dmaAddr = b.dmaAddr := rfl
@[simp] theorem setStatus_dmaLenProg (m : Word) (b : Bus) : (Bus.setStatus m b).dmaLenProg = b.dmaLenProg := rfl
@[simp] theorem setStatus_dmaMoved (m : Word) (b : Bus) : (Bus.setStatus m b).dmaMoved = b.dmaMoved := rfl
@[simp] theorem setStatus_pool (m : Word) (b : Bus) : (Bus.setStatus m b).pool = b.pool := rfl
@[simp] theorem setStatus_mstate (m : Word) (b : Bus) : (Bus.setStatus m b).mstate = b.mstate := rfl
@[simp] theorem setStatus_own (m : Word) (b : Bus) : (Bus.setStatus m b).own = b.own := rfl
@[simp] theorem setStatus_lastSlot (m : Word) (b : Bus) : (Bus.setStatus m b).lastSlot = b.lastSlot := rfl
@[simp] theorem setStatus_sstate (m : Word) (b : Bus) : (Bus.setStatus m b).sstate = b.sstate := rfl
@[simp] theorem setStatus_sPath (m : Word) (b : Bus) : (Bus.setStatus m b).sPath = b.sPath := rfl
@[simp] theorem setStatus_sCount (m : Word) (b : Bus) : (Bus.setStatus m b).sCount = b.sCount := rfl
@[simp] theorem setStatus_sCap (m : Word) (b : Bus) : (Bus.setStatus m b).sCap = b.sCap := rfl
@[simp] theorem setStatus_sBase (m : Word) (b : Bus) : (Bus.setStatus m b).sBase = b.sBase := rfl
@[simp] theorem setStatus_dmaPtr (m : Word) (b : Bus) : (Bus.setStatus m b).dmaPtr = b.dmaPtr := rfl
@[simp] theorem setStatus_refused (m : Word) (b : Bus) : (Bus.setStatus m b).refused = b.refused := rfl
@[simp] theorem setStatus_stuck (m : Word) (b : Bus) : (Bus.setStatus m b).stuck = b.stuck := rfl
@[simp] theorem setStatus_mDrv (m : Word) (b : Bus) : (Bus.setStatus m b).mDrv = b.mDrv := rfl
@[simp] theorem setStatus_sDrv (m : Word) (b : Bus) : (Bus.setStatus m b).sDrv = b.sDrv := rfl
@[simp] theorem setStatus_env (m : Word) (b : Bus) : (Bus.setStatus m b).env = b.env := rfl
@[simp] theorem setStatus_busBusy (m : Word) (b : Bus) : (Bus.setStatus m b).busBusy = b.busBusy := rfl
@[simp] theorem setStatus_stale (m : Word) (b : Bus) : (Bus.setStatus m b).stale = b.stale := rfl
@[simp] theorem setStatus_rxOldPool (m : Word) (b : Bus) : (Bus.setStatus m b).rxOldPool = b.rxOldPool := rfl
@[simp] theorem setStatus_rxOldMem (m : Word) (b : Bus) : (Bus.setStatus m b).rxOldMem = b.rxOldMem := rfl
@[simp] theorem setStatus_wire (m : Word) (b : Bus) : (Bus.setStatus m b).wire = b.wire := rfl

/-! ## clearStatus -/

@[simp] theorem clearStatus_masterEn (v : Word) (b : Bus) : (Bus.clearStatus v b).masterEn = b.masterEn := rfl
@[simp] theorem clearStatus_slaveEn (v : Word) (b : Bus) : (Bus.clearStatus v b).slaveEn = b.slaveEn := rfl
@[simp] theorem clearStatus_multiMasterDis (v : Word) (b : Bus) : (Bus.clearStatus v b).multiMasterDis = b.multiMasterDis := rfl
@[simp] theorem clearStatus_timing (v : Word) (b : Bus) : (Bus.clearStatus v b).timing = b.timing := rfl
@[simp] theorem clearStatus_sclTiming (v : Word) (b : Bus) : (Bus.clearStatus v b).sclTiming = b.sclTiming := rfl
@[simp] theorem clearStatus_timeout (v : Word) (b : Bus) : (Bus.clearStatus v b).timeout = b.timeout := rfl
@[simp] theorem clearStatus_ier (v : Word) (b : Bus) : (Bus.clearStatus v b).ier = b.ier := rfl
@[simp] theorem clearStatus_isr (v : Word) (b : Bus) : (Bus.clearStatus v b).isr = b.isr &&& ~~~(v &&& isrImpl) := rfl
@[simp] theorem clearStatus_cmd (v : Word) (b : Bus) : (Bus.clearStatus v b).cmd = b.cmd := rfl
@[simp] theorem clearStatus_devAddr (v : Word) (b : Bus) : (Bus.clearStatus v b).devAddr = b.devAddr := rfl
@[simp] theorem clearStatus_txEnd (v : Word) (b : Bus) : (Bus.clearStatus v b).txEnd = b.txEnd := rfl
@[simp] theorem clearStatus_rxEnd (v : Word) (b : Bus) : (Bus.clearStatus v b).rxEnd = b.rxEnd := rfl
@[simp] theorem clearStatus_bufCount (v : Word) (b : Bus) : (Bus.clearStatus v b).bufCount = b.bufCount := rfl
@[simp] theorem clearStatus_txByte (v : Word) (b : Bus) : (Bus.clearStatus v b).txByte = b.txByte := rfl
@[simp] theorem clearStatus_rxByte (v : Word) (b : Bus) : (Bus.clearStatus v b).rxByte = b.rxByte := rfl
@[simp] theorem clearStatus_dmaAddr (v : Word) (b : Bus) : (Bus.clearStatus v b).dmaAddr = b.dmaAddr := rfl
@[simp] theorem clearStatus_dmaLenProg (v : Word) (b : Bus) : (Bus.clearStatus v b).dmaLenProg = b.dmaLenProg := rfl
@[simp] theorem clearStatus_dmaMoved (v : Word) (b : Bus) : (Bus.clearStatus v b).dmaMoved = b.dmaMoved := rfl
@[simp] theorem clearStatus_pool (v : Word) (b : Bus) : (Bus.clearStatus v b).pool = b.pool := rfl
@[simp] theorem clearStatus_mstate (v : Word) (b : Bus) : (Bus.clearStatus v b).mstate = b.mstate := rfl
@[simp] theorem clearStatus_own (v : Word) (b : Bus) : (Bus.clearStatus v b).own = b.own := rfl
@[simp] theorem clearStatus_lastSlot (v : Word) (b : Bus) : (Bus.clearStatus v b).lastSlot = b.lastSlot := rfl
@[simp] theorem clearStatus_sstate (v : Word) (b : Bus) : (Bus.clearStatus v b).sstate = b.sstate := rfl
@[simp] theorem clearStatus_sPath (v : Word) (b : Bus) : (Bus.clearStatus v b).sPath = b.sPath := rfl
@[simp] theorem clearStatus_sCount (v : Word) (b : Bus) : (Bus.clearStatus v b).sCount = b.sCount := rfl
@[simp] theorem clearStatus_sCap (v : Word) (b : Bus) : (Bus.clearStatus v b).sCap = b.sCap := rfl
@[simp] theorem clearStatus_sBase (v : Word) (b : Bus) : (Bus.clearStatus v b).sBase = b.sBase := rfl
@[simp] theorem clearStatus_dmaPtr (v : Word) (b : Bus) : (Bus.clearStatus v b).dmaPtr = b.dmaPtr := rfl
@[simp] theorem clearStatus_refused (v : Word) (b : Bus) : (Bus.clearStatus v b).refused = b.refused := rfl
@[simp] theorem clearStatus_stuck (v : Word) (b : Bus) : (Bus.clearStatus v b).stuck = b.stuck := rfl
@[simp] theorem clearStatus_mDrv (v : Word) (b : Bus) : (Bus.clearStatus v b).mDrv = b.mDrv := rfl
@[simp] theorem clearStatus_sDrv (v : Word) (b : Bus) : (Bus.clearStatus v b).sDrv = b.sDrv := rfl
@[simp] theorem clearStatus_env (v : Word) (b : Bus) : (Bus.clearStatus v b).env = b.env := rfl
@[simp] theorem clearStatus_busBusy (v : Word) (b : Bus) : (Bus.clearStatus v b).busBusy = b.busBusy := rfl
@[simp] theorem clearStatus_stale (v : Word) (b : Bus) : (Bus.clearStatus v b).stale = b.stale := rfl
@[simp] theorem clearStatus_rxOldPool (v : Word) (b : Bus) : (Bus.clearStatus v b).rxOldPool = b.rxOldPool := rfl
@[simp] theorem clearStatus_rxOldMem (v : Word) (b : Bus) : (Bus.clearStatus v b).rxOldMem = b.rxOldMem := rfl
@[simp] theorem clearStatus_wire (v : Word) (b : Bus) : (Bus.clearStatus v b).wire = b.wire := rfl

/-! ## refuse -/

@[simp] theorem refuse_masterEn (b : Bus) : (Bus.refuse b).masterEn = b.masterEn := rfl
@[simp] theorem refuse_slaveEn (b : Bus) : (Bus.refuse b).slaveEn = b.slaveEn := rfl
@[simp] theorem refuse_multiMasterDis (b : Bus) : (Bus.refuse b).multiMasterDis = b.multiMasterDis := rfl
@[simp] theorem refuse_timing (b : Bus) : (Bus.refuse b).timing = b.timing := rfl
@[simp] theorem refuse_sclTiming (b : Bus) : (Bus.refuse b).sclTiming = b.sclTiming := rfl
@[simp] theorem refuse_timeout (b : Bus) : (Bus.refuse b).timeout = b.timeout := rfl
@[simp] theorem refuse_ier (b : Bus) : (Bus.refuse b).ier = b.ier := rfl
@[simp] theorem refuse_isr (b : Bus) : (Bus.refuse b).isr = b.isr := rfl
@[simp] theorem refuse_cmd (b : Bus) : (Bus.refuse b).cmd = b.cmd := rfl
@[simp] theorem refuse_devAddr (b : Bus) : (Bus.refuse b).devAddr = b.devAddr := rfl
@[simp] theorem refuse_txEnd (b : Bus) : (Bus.refuse b).txEnd = b.txEnd := rfl
@[simp] theorem refuse_rxEnd (b : Bus) : (Bus.refuse b).rxEnd = b.rxEnd := rfl
@[simp] theorem refuse_bufCount (b : Bus) : (Bus.refuse b).bufCount = b.bufCount := rfl
@[simp] theorem refuse_txByte (b : Bus) : (Bus.refuse b).txByte = b.txByte := rfl
@[simp] theorem refuse_rxByte (b : Bus) : (Bus.refuse b).rxByte = b.rxByte := rfl
@[simp] theorem refuse_dmaAddr (b : Bus) : (Bus.refuse b).dmaAddr = b.dmaAddr := rfl
@[simp] theorem refuse_dmaLenProg (b : Bus) : (Bus.refuse b).dmaLenProg = b.dmaLenProg := rfl
@[simp] theorem refuse_dmaMoved (b : Bus) : (Bus.refuse b).dmaMoved = b.dmaMoved := rfl
@[simp] theorem refuse_pool (b : Bus) : (Bus.refuse b).pool = b.pool := rfl
@[simp] theorem refuse_mstate (b : Bus) : (Bus.refuse b).mstate = b.mstate := rfl
@[simp] theorem refuse_own (b : Bus) : (Bus.refuse b).own = b.own := rfl
@[simp] theorem refuse_lastSlot (b : Bus) : (Bus.refuse b).lastSlot = b.lastSlot := rfl
@[simp] theorem refuse_sstate (b : Bus) : (Bus.refuse b).sstate = b.sstate := rfl
@[simp] theorem refuse_sPath (b : Bus) : (Bus.refuse b).sPath = b.sPath := rfl
@[simp] theorem refuse_sCount (b : Bus) : (Bus.refuse b).sCount = b.sCount := rfl
@[simp] theorem refuse_sCap (b : Bus) : (Bus.refuse b).sCap = b.sCap := rfl
@[simp] theorem refuse_sBase (b : Bus) : (Bus.refuse b).sBase = b.sBase := rfl
@[simp] theorem refuse_dmaPtr (b : Bus) : (Bus.refuse b).dmaPtr = b.dmaPtr := rfl
@[simp] theorem refuse_refused (b : Bus) : (Bus.refuse b).refused = true := rfl
@[simp] theorem refuse_stuck (b : Bus) : (Bus.refuse b).stuck = b.stuck := rfl
@[simp] theorem refuse_mDrv (b : Bus) : (Bus.refuse b).mDrv = b.mDrv := rfl
@[simp] theorem refuse_sDrv (b : Bus) : (Bus.refuse b).sDrv = b.sDrv := rfl
@[simp] theorem refuse_env (b : Bus) : (Bus.refuse b).env = b.env := rfl
@[simp] theorem refuse_busBusy (b : Bus) : (Bus.refuse b).busBusy = b.busBusy := rfl
@[simp] theorem refuse_stale (b : Bus) : (Bus.refuse b).stale = b.stale := rfl
@[simp] theorem refuse_rxOldPool (b : Bus) : (Bus.refuse b).rxOldPool = b.rxOldPool := rfl
@[simp] theorem refuse_rxOldMem (b : Bus) : (Bus.refuse b).rxOldMem = b.rxOldMem := rfl
@[simp] theorem refuse_wire (b : Bus) : (Bus.refuse b).wire = b.wire := rfl

/-! ## mAbort -/

@[simp] theorem mAbort_masterEn (m : Word) (b : Bus) : (Bus.mAbort m b).masterEn = b.masterEn := rfl
@[simp] theorem mAbort_slaveEn (m : Word) (b : Bus) : (Bus.mAbort m b).slaveEn = b.slaveEn := rfl
@[simp] theorem mAbort_multiMasterDis (m : Word) (b : Bus) : (Bus.mAbort m b).multiMasterDis = b.multiMasterDis := rfl
@[simp] theorem mAbort_timing (m : Word) (b : Bus) : (Bus.mAbort m b).timing = b.timing := rfl
@[simp] theorem mAbort_sclTiming (m : Word) (b : Bus) : (Bus.mAbort m b).sclTiming = b.sclTiming := rfl
@[simp] theorem mAbort_timeout (m : Word) (b : Bus) : (Bus.mAbort m b).timeout = b.timeout := rfl
@[simp] theorem mAbort_ier (m : Word) (b : Bus) : (Bus.mAbort m b).ier = b.ier := rfl
@[simp] theorem mAbort_isr (m : Word) (b : Bus) : (Bus.mAbort m b).isr = b.isr ||| m := rfl
@[simp] theorem mAbort_cmd (m : Word) (b : Bus) : (Bus.mAbort m b).cmd = 0 := rfl
@[simp] theorem mAbort_devAddr (m : Word) (b : Bus) : (Bus.mAbort m b).devAddr = b.devAddr := rfl
@[simp] theorem mAbort_txEnd (m : Word) (b : Bus) : (Bus.mAbort m b).txEnd = b.txEnd := rfl
@[simp] theorem mAbort_rxEnd (m : Word) (b : Bus) : (Bus.mAbort m b).rxEnd = b.rxEnd := rfl
@[simp] theorem mAbort_bufCount (m : Word) (b : Bus) : (Bus.mAbort m b).bufCount = b.bufCount := rfl
@[simp] theorem mAbort_txByte (m : Word) (b : Bus) : (Bus.mAbort m b).txByte = b.txByte := rfl
@[simp] theorem mAbort_rxByte (m : Word) (b : Bus) : (Bus.mAbort m b).rxByte = b.rxByte := rfl
@[simp] theorem mAbort_dmaAddr (m : Word) (b : Bus) : (Bus.mAbort m b).dmaAddr = b.dmaAddr := rfl
@[simp] theorem mAbort_dmaLenProg (m : Word) (b : Bus) : (Bus.mAbort m b).dmaLenProg = b.dmaLenProg := rfl
@[simp] theorem mAbort_dmaMoved (m : Word) (b : Bus) : (Bus.mAbort m b).dmaMoved = b.dmaMoved := rfl
@[simp] theorem mAbort_pool (m : Word) (b : Bus) : (Bus.mAbort m b).pool = b.pool := rfl
@[simp] theorem mAbort_mstate (m : Word) (b : Bus) : (Bus.mAbort m b).mstate = .idle := rfl
@[simp] theorem mAbort_own (m : Word) (b : Bus) : (Bus.mAbort m b).own = false := rfl
@[simp] theorem mAbort_lastSlot (m : Word) (b : Bus) : (Bus.mAbort m b).lastSlot = b.lastSlot := rfl
@[simp] theorem mAbort_sstate (m : Word) (b : Bus) : (Bus.mAbort m b).sstate = b.sstate := rfl
@[simp] theorem mAbort_sPath (m : Word) (b : Bus) : (Bus.mAbort m b).sPath = b.sPath := rfl
@[simp] theorem mAbort_sCount (m : Word) (b : Bus) : (Bus.mAbort m b).sCount = b.sCount := rfl
@[simp] theorem mAbort_sCap (m : Word) (b : Bus) : (Bus.mAbort m b).sCap = b.sCap := rfl
@[simp] theorem mAbort_sBase (m : Word) (b : Bus) : (Bus.mAbort m b).sBase = b.sBase := rfl
@[simp] theorem mAbort_dmaPtr (m : Word) (b : Bus) : (Bus.mAbort m b).dmaPtr = b.dmaPtr := rfl
@[simp] theorem mAbort_refused (m : Word) (b : Bus) : (Bus.mAbort m b).refused = b.refused := rfl
@[simp] theorem mAbort_stuck (m : Word) (b : Bus) : (Bus.mAbort m b).stuck = b.stuck := rfl
@[simp] theorem mAbort_mDrv (m : Word) (b : Bus) : (Bus.mAbort m b).mDrv = {} := rfl
@[simp] theorem mAbort_sDrv (m : Word) (b : Bus) : (Bus.mAbort m b).sDrv = b.sDrv := rfl
@[simp] theorem mAbort_env (m : Word) (b : Bus) : (Bus.mAbort m b).env = b.env := rfl
@[simp] theorem mAbort_busBusy (m : Word) (b : Bus) : (Bus.mAbort m b).busBusy = b.busBusy := rfl
@[simp] theorem mAbort_stale (m : Word) (b : Bus) : (Bus.mAbort m b).stale = b.stale := rfl
@[simp] theorem mAbort_rxOldPool (m : Word) (b : Bus) : (Bus.mAbort m b).rxOldPool = b.rxOldPool := rfl
@[simp] theorem mAbort_rxOldMem (m : Word) (b : Bus) : (Bus.mAbort m b).rxOldMem = b.rxOldMem := rfl
@[simp] theorem mAbort_wire (m : Word) (b : Bus) : (Bus.mAbort m b).wire = b.wire := rfl

/-! ## accept -/

@[simp] theorem accept_masterEn (c : BitVec 12) (m : MState) (b : Bus) : (Bus.accept c m b).masterEn = b.masterEn := rfl
@[simp] theorem accept_slaveEn (c : BitVec 12) (m : MState) (b : Bus) : (Bus.accept c m b).slaveEn = b.slaveEn := rfl
@[simp] theorem accept_multiMasterDis (c : BitVec 12) (m : MState) (b : Bus) : (Bus.accept c m b).multiMasterDis = b.multiMasterDis := rfl
@[simp] theorem accept_timing (c : BitVec 12) (m : MState) (b : Bus) : (Bus.accept c m b).timing = b.timing := rfl
@[simp] theorem accept_sclTiming (c : BitVec 12) (m : MState) (b : Bus) : (Bus.accept c m b).sclTiming = b.sclTiming := rfl
@[simp] theorem accept_timeout (c : BitVec 12) (m : MState) (b : Bus) : (Bus.accept c m b).timeout = b.timeout := rfl
@[simp] theorem accept_ier (c : BitVec 12) (m : MState) (b : Bus) : (Bus.accept c m b).ier = b.ier := rfl
@[simp] theorem accept_isr (c : BitVec 12) (m : MState) (b : Bus) : (Bus.accept c m b).isr = b.isr := rfl
@[simp] theorem accept_cmd (c : BitVec 12) (m : MState) (b : Bus) : (Bus.accept c m b).cmd = c := rfl
@[simp] theorem accept_devAddr (c : BitVec 12) (m : MState) (b : Bus) : (Bus.accept c m b).devAddr = b.devAddr := rfl
@[simp] theorem accept_txEnd (c : BitVec 12) (m : MState) (b : Bus) : (Bus.accept c m b).txEnd = b.txEnd := rfl
@[simp] theorem accept_rxEnd (c : BitVec 12) (m : MState) (b : Bus) : (Bus.accept c m b).rxEnd = b.rxEnd := rfl
@[simp] theorem accept_bufCount (c : BitVec 12) (m : MState) (b : Bus) : (Bus.accept c m b).bufCount = b.bufCount := rfl
@[simp] theorem accept_txByte (c : BitVec 12) (m : MState) (b : Bus) : (Bus.accept c m b).txByte = b.txByte := rfl
@[simp] theorem accept_rxByte (c : BitVec 12) (m : MState) (b : Bus) : (Bus.accept c m b).rxByte = b.rxByte := rfl
@[simp] theorem accept_dmaAddr (c : BitVec 12) (m : MState) (b : Bus) : (Bus.accept c m b).dmaAddr = b.dmaAddr := rfl
@[simp] theorem accept_dmaLenProg (c : BitVec 12) (m : MState) (b : Bus) : (Bus.accept c m b).dmaLenProg = b.dmaLenProg := rfl
@[simp] theorem accept_dmaMoved (c : BitVec 12) (m : MState) (b : Bus) : (Bus.accept c m b).dmaMoved = b.dmaMoved := rfl
@[simp] theorem accept_pool (c : BitVec 12) (m : MState) (b : Bus) : (Bus.accept c m b).pool = b.pool := rfl
@[simp] theorem accept_mstate (c : BitVec 12) (m : MState) (b : Bus) : (Bus.accept c m b).mstate = m := rfl
@[simp] theorem accept_own (c : BitVec 12) (m : MState) (b : Bus) : (Bus.accept c m b).own = b.own := rfl
@[simp] theorem accept_lastSlot (c : BitVec 12) (m : MState) (b : Bus) : (Bus.accept c m b).lastSlot = b.lastSlot := rfl
@[simp] theorem accept_sstate (c : BitVec 12) (m : MState) (b : Bus) : (Bus.accept c m b).sstate = b.sstate := rfl
@[simp] theorem accept_sPath (c : BitVec 12) (m : MState) (b : Bus) : (Bus.accept c m b).sPath = b.sPath := rfl
@[simp] theorem accept_sCount (c : BitVec 12) (m : MState) (b : Bus) : (Bus.accept c m b).sCount = b.sCount := rfl
@[simp] theorem accept_sCap (c : BitVec 12) (m : MState) (b : Bus) : (Bus.accept c m b).sCap = b.sCap := rfl
@[simp] theorem accept_sBase (c : BitVec 12) (m : MState) (b : Bus) : (Bus.accept c m b).sBase = b.sBase := rfl
@[simp] theorem accept_dmaPtr (c : BitVec 12) (m : MState) (b : Bus) : (Bus.accept c m b).dmaPtr = b.dmaPtr := rfl
@[simp] theorem accept_refused (c : BitVec 12) (m : MState) (b : Bus) : (Bus.accept c m b).refused = b.refused := rfl
@[simp] theorem accept_stuck (c : BitVec 12) (m : MState) (b : Bus) : (Bus.accept c m b).stuck = b.stuck := rfl
@[simp] theorem accept_mDrv (c : BitVec 12) (m : MState) (b : Bus) : (Bus.accept c m b).mDrv = b.mDrv := rfl
@[simp] theorem accept_sDrv (c : BitVec 12) (m : MState) (b : Bus) : (Bus.accept c m b).sDrv = b.sDrv := rfl
@[simp] theorem accept_env (c : BitVec 12) (m : MState) (b : Bus) : (Bus.accept c m b).env = b.env := rfl
@[simp] theorem accept_busBusy (c : BitVec 12) (m : MState) (b : Bus) : (Bus.accept c m b).busBusy = b.busBusy := rfl
@[simp] theorem accept_stale (c : BitVec 12) (m : MState) (b : Bus) : (Bus.accept c m b).stale = {} := rfl
@[simp] theorem accept_rxOldPool (c : BitVec 12) (m : MState) (b : Bus) : (Bus.accept c m b).rxOldPool = b.rxOldPool := rfl
@[simp] theorem accept_rxOldMem (c : BitVec 12) (m : MState) (b : Bus) : (Bus.accept c m b).rxOldMem = b.rxOldMem := rfl
@[simp] theorem accept_wire (c : BitVec 12) (m : MState) (b : Bus) : (Bus.accept c m b).wire = b.wire := rfl

/-! ## slotDone -/

@[simp] theorem slotDone_masterEn (l : LastSlot) (b : Bus) : (Bus.slotDone l b).masterEn = b.masterEn := rfl
@[simp] theorem slotDone_slaveEn (l : LastSlot) (b : Bus) : (Bus.slotDone l b).slaveEn = b.slaveEn := rfl
@[simp] theorem slotDone_multiMasterDis (l : LastSlot) (b : Bus) : (Bus.slotDone l b).multiMasterDis = b.multiMasterDis := rfl
@[simp] theorem slotDone_timing (l : LastSlot) (b : Bus) : (Bus.slotDone l b).timing = b.timing := rfl
@[simp] theorem slotDone_sclTiming (l : LastSlot) (b : Bus) : (Bus.slotDone l b).sclTiming = b.timing := rfl
@[simp] theorem slotDone_timeout (l : LastSlot) (b : Bus) : (Bus.slotDone l b).timeout = b.timeout := rfl
@[simp] theorem slotDone_ier (l : LastSlot) (b : Bus) : (Bus.slotDone l b).ier = b.ier := rfl
@[simp] theorem slotDone_isr (l : LastSlot) (b : Bus) : (Bus.slotDone l b).isr = b.isr := rfl
@[simp] theorem slotDone_cmd (l : LastSlot) (b : Bus) : (Bus.slotDone l b).cmd = b.cmd := rfl
@[simp] theorem slotDone_devAddr (l : LastSlot) (b : Bus) : (Bus.slotDone l b).devAddr = b.devAddr := rfl
@[simp] theorem slotDone_txEnd (l : LastSlot) (b : Bus) : (Bus.slotDone l b).txEnd = b.txEnd := rfl
@[simp] theorem slotDone_rxEnd (l : LastSlot) (b : Bus) : (Bus.slotDone l b).rxEnd = b.rxEnd := rfl
@[simp] theorem slotDone_bufCount (l : LastSlot) (b : Bus) : (Bus.slotDone l b).bufCount = b.bufCount := rfl
@[simp] theorem slotDone_txByte (l : LastSlot) (b : Bus) : (Bus.slotDone l b).txByte = b.txByte := rfl
@[simp] theorem slotDone_rxByte (l : LastSlot) (b : Bus) : (Bus.slotDone l b).rxByte = b.rxByte := rfl
@[simp] theorem slotDone_dmaAddr (l : LastSlot) (b : Bus) : (Bus.slotDone l b).dmaAddr = b.dmaAddr := rfl
@[simp] theorem slotDone_dmaLenProg (l : LastSlot) (b : Bus) : (Bus.slotDone l b).dmaLenProg = b.dmaLenProg := rfl
@[simp] theorem slotDone_dmaMoved (l : LastSlot) (b : Bus) : (Bus.slotDone l b).dmaMoved = b.dmaMoved := rfl
@[simp] theorem slotDone_pool (l : LastSlot) (b : Bus) : (Bus.slotDone l b).pool = b.pool := rfl
@[simp] theorem slotDone_mstate (l : LastSlot) (b : Bus) : (Bus.slotDone l b).mstate = b.mstate := rfl
@[simp] theorem slotDone_own (l : LastSlot) (b : Bus) : (Bus.slotDone l b).own = b.own := rfl
@[simp] theorem slotDone_lastSlot (l : LastSlot) (b : Bus) : (Bus.slotDone l b).lastSlot = l := rfl
@[simp] theorem slotDone_sstate (l : LastSlot) (b : Bus) : (Bus.slotDone l b).sstate = b.sstate := rfl
@[simp] theorem slotDone_sPath (l : LastSlot) (b : Bus) : (Bus.slotDone l b).sPath = b.sPath := rfl
@[simp] theorem slotDone_sCount (l : LastSlot) (b : Bus) : (Bus.slotDone l b).sCount = b.sCount := rfl
@[simp] theorem slotDone_sCap (l : LastSlot) (b : Bus) : (Bus.slotDone l b).sCap = b.sCap := rfl
@[simp] theorem slotDone_sBase (l : LastSlot) (b : Bus) : (Bus.slotDone l b).sBase = b.sBase := rfl
@[simp] theorem slotDone_dmaPtr (l : LastSlot) (b : Bus) : (Bus.slotDone l b).dmaPtr = b.dmaPtr := rfl
@[simp] theorem slotDone_refused (l : LastSlot) (b : Bus) : (Bus.slotDone l b).refused = b.refused := rfl
@[simp] theorem slotDone_stuck (l : LastSlot) (b : Bus) : (Bus.slotDone l b).stuck = b.stuck := rfl
@[simp] theorem slotDone_mDrv (l : LastSlot) (b : Bus) : (Bus.slotDone l b).mDrv = { scl := .low, sda := .rel } := rfl
@[simp] theorem slotDone_sDrv (l : LastSlot) (b : Bus) : (Bus.slotDone l b).sDrv = b.sDrv := rfl
@[simp] theorem slotDone_env (l : LastSlot) (b : Bus) : (Bus.slotDone l b).env = b.env := rfl
@[simp] theorem slotDone_busBusy (l : LastSlot) (b : Bus) : (Bus.slotDone l b).busBusy = b.busBusy := rfl
@[simp] theorem slotDone_stale (l : LastSlot) (b : Bus) : (Bus.slotDone l b).stale = b.stale := rfl
@[simp] theorem slotDone_rxOldPool (l : LastSlot) (b : Bus) : (Bus.slotDone l b).rxOldPool = b.rxOldPool := rfl
@[simp] theorem slotDone_rxOldMem (l : LastSlot) (b : Bus) : (Bus.slotDone l b).rxOldMem = b.rxOldMem := rfl
@[simp] theorem slotDone_wire (l : LastSlot) (b : Bus) : (Bus.slotDone l b).wire = b.wire := rfl

/-! ## ranSlot -/

@[simp] theorem ranSlot_masterEn (l : LastSlot) (b : Bus) : (Bus.ranSlot l b).masterEn = b.masterEn := rfl
@[simp] theorem ranSlot_slaveEn (l : LastSlot) (b : Bus) : (Bus.ranSlot l b).slaveEn = b.slaveEn := rfl
@[simp] theorem ranSlot_multiMasterDis (l : LastSlot) (b : Bus) : (Bus.ranSlot l b).multiMasterDis = b.multiMasterDis := rfl
@[simp] theorem ranSlot_timing (l : LastSlot) (b : Bus) : (Bus.ranSlot l b).timing = b.timing := rfl
@[simp] theorem ranSlot_sclTiming (l : LastSlot) (b : Bus) : (Bus.ranSlot l b).sclTiming = b.sclTiming := rfl
@[simp] theorem ranSlot_timeout (l : LastSlot) (b : Bus) : (Bus.ranSlot l b).timeout = b.timeout := rfl
@[simp] theorem ranSlot_ier (l : LastSlot) (b : Bus) : (Bus.ranSlot l b).ier = b.ier := rfl
@[simp] theorem ranSlot_isr (l : LastSlot) (b : Bus) : (Bus.ranSlot l b).isr = b.isr := rfl
@[simp] theorem ranSlot_cmd (l : LastSlot) (b : Bus) : (Bus.ranSlot l b).cmd = b.cmd := rfl
@[simp] theorem ranSlot_devAddr (l : LastSlot) (b : Bus) : (Bus.ranSlot l b).devAddr = b.devAddr := rfl
@[simp] theorem ranSlot_txEnd (l : LastSlot) (b : Bus) : (Bus.ranSlot l b).txEnd = b.txEnd := rfl
@[simp] theorem ranSlot_rxEnd (l : LastSlot) (b : Bus) : (Bus.ranSlot l b).rxEnd = b.rxEnd := rfl
@[simp] theorem ranSlot_bufCount (l : LastSlot) (b : Bus) : (Bus.ranSlot l b).bufCount = b.bufCount := rfl
@[simp] theorem ranSlot_txByte (l : LastSlot) (b : Bus) : (Bus.ranSlot l b).txByte = b.txByte := rfl
@[simp] theorem ranSlot_rxByte (l : LastSlot) (b : Bus) : (Bus.ranSlot l b).rxByte = b.rxByte := rfl
@[simp] theorem ranSlot_dmaAddr (l : LastSlot) (b : Bus) : (Bus.ranSlot l b).dmaAddr = b.dmaAddr := rfl
@[simp] theorem ranSlot_dmaLenProg (l : LastSlot) (b : Bus) : (Bus.ranSlot l b).dmaLenProg = b.dmaLenProg := rfl
@[simp] theorem ranSlot_dmaMoved (l : LastSlot) (b : Bus) : (Bus.ranSlot l b).dmaMoved = b.dmaMoved := rfl
@[simp] theorem ranSlot_pool (l : LastSlot) (b : Bus) : (Bus.ranSlot l b).pool = b.pool := rfl
@[simp] theorem ranSlot_mstate (l : LastSlot) (b : Bus) : (Bus.ranSlot l b).mstate = b.mstate := rfl
@[simp] theorem ranSlot_own (l : LastSlot) (b : Bus) : (Bus.ranSlot l b).own = b.own := rfl
@[simp] theorem ranSlot_lastSlot (l : LastSlot) (b : Bus) : (Bus.ranSlot l b).lastSlot = l := rfl
@[simp] theorem ranSlot_sstate (l : LastSlot) (b : Bus) : (Bus.ranSlot l b).sstate = b.sstate := rfl
@[simp] theorem ranSlot_sPath (l : LastSlot) (b : Bus) : (Bus.ranSlot l b).sPath = b.sPath := rfl
@[simp] theorem ranSlot_sCount (l : LastSlot) (b : Bus) : (Bus.ranSlot l b).sCount = b.sCount := rfl
@[simp] theorem ranSlot_sCap (l : LastSlot) (b : Bus) : (Bus.ranSlot l b).sCap = b.sCap := rfl
@[simp] theorem ranSlot_sBase (l : LastSlot) (b : Bus) : (Bus.ranSlot l b).sBase = b.sBase := rfl
@[simp] theorem ranSlot_dmaPtr (l : LastSlot) (b : Bus) : (Bus.ranSlot l b).dmaPtr = b.dmaPtr := rfl
@[simp] theorem ranSlot_refused (l : LastSlot) (b : Bus) : (Bus.ranSlot l b).refused = b.refused := rfl
@[simp] theorem ranSlot_stuck (l : LastSlot) (b : Bus) : (Bus.ranSlot l b).stuck = b.stuck := rfl
@[simp] theorem ranSlot_mDrv (l : LastSlot) (b : Bus) : (Bus.ranSlot l b).mDrv = b.mDrv := rfl
@[simp] theorem ranSlot_sDrv (l : LastSlot) (b : Bus) : (Bus.ranSlot l b).sDrv = b.sDrv := rfl
@[simp] theorem ranSlot_env (l : LastSlot) (b : Bus) : (Bus.ranSlot l b).env = b.env := rfl
@[simp] theorem ranSlot_busBusy (l : LastSlot) (b : Bus) : (Bus.ranSlot l b).busBusy = b.busBusy := rfl
@[simp] theorem ranSlot_stale (l : LastSlot) (b : Bus) : (Bus.ranSlot l b).stale = b.stale := rfl
@[simp] theorem ranSlot_rxOldPool (l : LastSlot) (b : Bus) : (Bus.ranSlot l b).rxOldPool = b.rxOldPool := rfl
@[simp] theorem ranSlot_rxOldMem (l : LastSlot) (b : Bus) : (Bus.ranSlot l b).rxOldMem = b.rxOldMem := rfl
@[simp] theorem ranSlot_wire (l : LastSlot) (b : Bus) : (Bus.ranSlot l b).wire = b.wire := rfl

/-! ## onWire -/

@[simp] theorem onWire_masterEn (w : WireItem) (b : Bus) : (Bus.onWire w b).masterEn = b.masterEn := rfl
@[simp] theorem onWire_slaveEn (w : WireItem) (b : Bus) : (Bus.onWire w b).slaveEn = b.slaveEn := rfl
@[simp] theorem onWire_multiMasterDis (w : WireItem) (b : Bus) : (Bus.onWire w b).multiMasterDis = b.multiMasterDis := rfl
@[simp] theorem onWire_timing (w : WireItem) (b : Bus) : (Bus.onWire w b).timing = b.timing := rfl
@[simp] theorem onWire_sclTiming (w : WireItem) (b : Bus) : (Bus.onWire w b).sclTiming = b.sclTiming := rfl
@[simp] theorem onWire_timeout (w : WireItem) (b : Bus) : (Bus.onWire w b).timeout = b.timeout := rfl
@[simp] theorem onWire_ier (w : WireItem) (b : Bus) : (Bus.onWire w b).ier = b.ier := rfl
@[simp] theorem onWire_isr (w : WireItem) (b : Bus) : (Bus.onWire w b).isr = b.isr := rfl
@[simp] theorem onWire_cmd (w : WireItem) (b : Bus) : (Bus.onWire w b).cmd = b.cmd := rfl
@[simp] theorem onWire_devAddr (w : WireItem) (b : Bus) : (Bus.onWire w b).devAddr = b.devAddr := rfl
@[simp] theorem onWire_txEnd (w : WireItem) (b : Bus) : (Bus.onWire w b).txEnd = b.txEnd := rfl
@[simp] theorem onWire_rxEnd (w : WireItem) (b : Bus) : (Bus.onWire w b).rxEnd = b.rxEnd := rfl
@[simp] theorem onWire_bufCount (w : WireItem) (b : Bus) : (Bus.onWire w b).bufCount = b.bufCount := rfl
@[simp] theorem onWire_txByte (w : WireItem) (b : Bus) : (Bus.onWire w b).txByte = b.txByte := rfl
@[simp] theorem onWire_rxByte (w : WireItem) (b : Bus) : (Bus.onWire w b).rxByte = b.rxByte := rfl
@[simp] theorem onWire_dmaAddr (w : WireItem) (b : Bus) : (Bus.onWire w b).dmaAddr = b.dmaAddr := rfl
@[simp] theorem onWire_dmaLenProg (w : WireItem) (b : Bus) : (Bus.onWire w b).dmaLenProg = b.dmaLenProg := rfl
@[simp] theorem onWire_dmaMoved (w : WireItem) (b : Bus) : (Bus.onWire w b).dmaMoved = b.dmaMoved := rfl
@[simp] theorem onWire_pool (w : WireItem) (b : Bus) : (Bus.onWire w b).pool = b.pool := rfl
@[simp] theorem onWire_mstate (w : WireItem) (b : Bus) : (Bus.onWire w b).mstate = b.mstate := rfl
@[simp] theorem onWire_own (w : WireItem) (b : Bus) : (Bus.onWire w b).own = b.own := rfl
@[simp] theorem onWire_lastSlot (w : WireItem) (b : Bus) : (Bus.onWire w b).lastSlot = b.lastSlot := rfl
@[simp] theorem onWire_sstate (w : WireItem) (b : Bus) : (Bus.onWire w b).sstate = b.sstate := rfl
@[simp] theorem onWire_sPath (w : WireItem) (b : Bus) : (Bus.onWire w b).sPath = b.sPath := rfl
@[simp] theorem onWire_sCount (w : WireItem) (b : Bus) : (Bus.onWire w b).sCount = b.sCount := rfl
@[simp] theorem onWire_sCap (w : WireItem) (b : Bus) : (Bus.onWire w b).sCap = b.sCap := rfl
@[simp] theorem onWire_sBase (w : WireItem) (b : Bus) : (Bus.onWire w b).sBase = b.sBase := rfl
@[simp] theorem onWire_dmaPtr (w : WireItem) (b : Bus) : (Bus.onWire w b).dmaPtr = b.dmaPtr := rfl
@[simp] theorem onWire_refused (w : WireItem) (b : Bus) : (Bus.onWire w b).refused = b.refused := rfl
@[simp] theorem onWire_stuck (w : WireItem) (b : Bus) : (Bus.onWire w b).stuck = b.stuck := rfl
@[simp] theorem onWire_mDrv (w : WireItem) (b : Bus) : (Bus.onWire w b).mDrv = b.mDrv := rfl
@[simp] theorem onWire_sDrv (w : WireItem) (b : Bus) : (Bus.onWire w b).sDrv = b.sDrv := rfl
@[simp] theorem onWire_env (w : WireItem) (b : Bus) : (Bus.onWire w b).env = b.env := rfl
@[simp] theorem onWire_busBusy (w : WireItem) (b : Bus) : (Bus.onWire w b).busBusy = b.busBusy := rfl
@[simp] theorem onWire_stale (w : WireItem) (b : Bus) : (Bus.onWire w b).stale = b.stale := rfl
@[simp] theorem onWire_rxOldPool (w : WireItem) (b : Bus) : (Bus.onWire w b).rxOldPool = b.rxOldPool := rfl
@[simp] theorem onWire_rxOldMem (w : WireItem) (b : Bus) : (Bus.onWire w b).rxOldMem = b.rxOldMem := rfl
@[simp] theorem onWire_wire (w : WireItem) (b : Bus) : (Bus.onWire w b).wire = w :: b.wire := rfl

/-! ## stretch -/

@[simp] theorem stretch_masterEn (st : SState) (b : Bus) : (Bus.stretch st b).masterEn = b.masterEn := rfl
@[simp] theorem stretch_slaveEn (st : SState) (b : Bus) : (Bus.stretch st b).slaveEn = b.slaveEn := rfl
@[simp] theorem stretch_multiMasterDis (st : SState) (b : Bus) : (Bus.stretch st b).multiMasterDis = b.multiMasterDis := rfl
@[simp] theorem stretch_timing (st : SState) (b : Bus) : (Bus.stretch st b).timing = b.timing := rfl
@[simp] theorem stretch_sclTiming (st : SState) (b : Bus) : (Bus.stretch st b).sclTiming = b.sclTiming := rfl
@[simp] theorem stretch_timeout (st : SState) (b : Bus) : (Bus.stretch st b).timeout = b.timeout := rfl
@[simp] theorem stretch_ier (st : SState) (b : Bus) : (Bus.stretch st b).ier = b.ier := rfl
@[simp] theorem stretch_isr (st : SState) (b : Bus) : (Bus.stretch st b).isr = b.isr := rfl
@[simp] theorem stretch_cmd (st : SState) (b : Bus) : (Bus.stretch st b).cmd = b.cmd := rfl
@[simp] theorem stretch_devAddr (st : SState) (b : Bus) : (Bus.stretch st b).devAddr = b.devAddr := rfl
@[simp] theorem stretch_txEnd (st : SState) (b : Bus) : (Bus.stretch st b).txEnd = b.txEnd := rfl
@[simp] theorem stretch_rxEnd (st : SState) (b : Bus) : (Bus.stretch st b).rxEnd = b.rxEnd := rfl
@[simp] theorem stretch_bufCount (st : SState) (b : Bus) : (Bus.stretch st b).bufCount = b.bufCount := rfl
@[simp] theorem stretch_txByte (st : SState) (b : Bus) : (Bus.stretch st b).txByte = b.txByte := rfl
@[simp] theorem stretch_rxByte (st : SState) (b : Bus) : (Bus.stretch st b).rxByte = b.rxByte := rfl
@[simp] theorem stretch_dmaAddr (st : SState) (b : Bus) : (Bus.stretch st b).dmaAddr = b.dmaAddr := rfl
@[simp] theorem stretch_dmaLenProg (st : SState) (b : Bus) : (Bus.stretch st b).dmaLenProg = b.dmaLenProg := rfl
@[simp] theorem stretch_dmaMoved (st : SState) (b : Bus) : (Bus.stretch st b).dmaMoved = b.dmaMoved := rfl
@[simp] theorem stretch_pool (st : SState) (b : Bus) : (Bus.stretch st b).pool = b.pool := rfl
@[simp] theorem stretch_mstate (st : SState) (b : Bus) : (Bus.stretch st b).mstate = b.mstate := rfl
@[simp] theorem stretch_own (st : SState) (b : Bus) : (Bus.stretch st b).own = b.own := rfl
@[simp] theorem stretch_lastSlot (st : SState) (b : Bus) : (Bus.stretch st b).lastSlot = b.lastSlot := rfl
@[simp] theorem stretch_sstate (st : SState) (b : Bus) : (Bus.stretch st b).sstate = st := rfl
@[simp] theorem stretch_sPath (st : SState) (b : Bus) : (Bus.stretch st b).sPath = b.sPath := rfl
@[simp] theorem stretch_sCount (st : SState) (b : Bus) : (Bus.stretch st b).sCount = b.sCount := rfl
@[simp] theorem stretch_sCap (st : SState) (b : Bus) : (Bus.stretch st b).sCap = b.sCap := rfl
@[simp] theorem stretch_sBase (st : SState) (b : Bus) : (Bus.stretch st b).sBase = b.sBase := rfl
@[simp] theorem stretch_dmaPtr (st : SState) (b : Bus) : (Bus.stretch st b).dmaPtr = b.dmaPtr := rfl
@[simp] theorem stretch_refused (st : SState) (b : Bus) : (Bus.stretch st b).refused = b.refused := rfl
@[simp] theorem stretch_stuck (st : SState) (b : Bus) : (Bus.stretch st b).stuck = b.stuck := rfl
@[simp] theorem stretch_mDrv (st : SState) (b : Bus) : (Bus.stretch st b).mDrv = b.mDrv := rfl
@[simp] theorem stretch_sDrv (st : SState) (b : Bus) : (Bus.stretch st b).sDrv = { b.sDrv with scl := .low } := rfl
@[simp] theorem stretch_env (st : SState) (b : Bus) : (Bus.stretch st b).env = b.env := rfl
@[simp] theorem stretch_busBusy (st : SState) (b : Bus) : (Bus.stretch st b).busBusy = b.busBusy := rfl
@[simp] theorem stretch_stale (st : SState) (b : Bus) : (Bus.stretch st b).stale = b.stale := rfl
@[simp] theorem stretch_rxOldPool (st : SState) (b : Bus) : (Bus.stretch st b).rxOldPool = b.rxOldPool := rfl
@[simp] theorem stretch_rxOldMem (st : SState) (b : Bus) : (Bus.stretch st b).rxOldMem = b.rxOldMem := rfl
@[simp] theorem stretch_wire (st : SState) (b : Bus) : (Bus.stretch st b).wire = b.wire := rfl

/-! ## recoverEnd -/

@[simp] theorem recoverEnd_masterEn (b : Bus) : (Bus.recoverEnd b).masterEn = b.masterEn := rfl
@[simp] theorem recoverEnd_slaveEn (b : Bus) : (Bus.recoverEnd b).slaveEn = b.slaveEn := rfl
@[simp] theorem recoverEnd_multiMasterDis (b : Bus) : (Bus.recoverEnd b).multiMasterDis = b.multiMasterDis := rfl
@[simp] theorem recoverEnd_timing (b : Bus) : (Bus.recoverEnd b).timing = b.timing := rfl
@[simp] theorem recoverEnd_sclTiming (b : Bus) : (Bus.recoverEnd b).sclTiming = b.sclTiming := rfl
@[simp] theorem recoverEnd_timeout (b : Bus) : (Bus.recoverEnd b).timeout = b.timeout := rfl
@[simp] theorem recoverEnd_ier (b : Bus) : (Bus.recoverEnd b).ier = b.ier := rfl
@[simp] theorem recoverEnd_isr (b : Bus) : (Bus.recoverEnd b).isr = b.isr := rfl
@[simp] theorem recoverEnd_cmd (b : Bus) : (Bus.recoverEnd b).cmd = 0 := rfl
@[simp] theorem recoverEnd_devAddr (b : Bus) : (Bus.recoverEnd b).devAddr = b.devAddr := rfl
@[simp] theorem recoverEnd_txEnd (b : Bus) : (Bus.recoverEnd b).txEnd = b.txEnd := rfl
@[simp] theorem recoverEnd_rxEnd (b : Bus) : (Bus.recoverEnd b).rxEnd = b.rxEnd := rfl
@[simp] theorem recoverEnd_bufCount (b : Bus) : (Bus.recoverEnd b).bufCount = b.bufCount := rfl
@[simp] theorem recoverEnd_txByte (b : Bus) : (Bus.recoverEnd b).txByte = b.txByte := rfl
@[simp] theorem recoverEnd_rxByte (b : Bus) : (Bus.recoverEnd b).rxByte = b.rxByte := rfl
@[simp] theorem recoverEnd_dmaAddr (b : Bus) : (Bus.recoverEnd b).dmaAddr = b.dmaAddr := rfl
@[simp] theorem recoverEnd_dmaLenProg (b : Bus) : (Bus.recoverEnd b).dmaLenProg = b.dmaLenProg := rfl
@[simp] theorem recoverEnd_dmaMoved (b : Bus) : (Bus.recoverEnd b).dmaMoved = b.dmaMoved := rfl
@[simp] theorem recoverEnd_pool (b : Bus) : (Bus.recoverEnd b).pool = b.pool := rfl
@[simp] theorem recoverEnd_mstate (b : Bus) : (Bus.recoverEnd b).mstate = .idle := rfl
@[simp] theorem recoverEnd_own (b : Bus) : (Bus.recoverEnd b).own = b.own := rfl
@[simp] theorem recoverEnd_lastSlot (b : Bus) : (Bus.recoverEnd b).lastSlot = b.lastSlot := rfl
@[simp] theorem recoverEnd_sstate (b : Bus) : (Bus.recoverEnd b).sstate = b.sstate := rfl
@[simp] theorem recoverEnd_sPath (b : Bus) : (Bus.recoverEnd b).sPath = b.sPath := rfl
@[simp] theorem recoverEnd_sCount (b : Bus) : (Bus.recoverEnd b).sCount = b.sCount := rfl
@[simp] theorem recoverEnd_sCap (b : Bus) : (Bus.recoverEnd b).sCap = b.sCap := rfl
@[simp] theorem recoverEnd_sBase (b : Bus) : (Bus.recoverEnd b).sBase = b.sBase := rfl
@[simp] theorem recoverEnd_dmaPtr (b : Bus) : (Bus.recoverEnd b).dmaPtr = b.dmaPtr := rfl
@[simp] theorem recoverEnd_refused (b : Bus) : (Bus.recoverEnd b).refused = b.refused := rfl
@[simp] theorem recoverEnd_stuck (b : Bus) : (Bus.recoverEnd b).stuck = b.stuck := rfl
@[simp] theorem recoverEnd_mDrv (b : Bus) : (Bus.recoverEnd b).mDrv = {} := rfl
@[simp] theorem recoverEnd_sDrv (b : Bus) : (Bus.recoverEnd b).sDrv = b.sDrv := rfl
@[simp] theorem recoverEnd_env (b : Bus) : (Bus.recoverEnd b).env = b.env := rfl
@[simp] theorem recoverEnd_busBusy (b : Bus) : (Bus.recoverEnd b).busBusy = b.busBusy := rfl
@[simp] theorem recoverEnd_stale (b : Bus) : (Bus.recoverEnd b).stale = b.stale := rfl
@[simp] theorem recoverEnd_rxOldPool (b : Bus) : (Bus.recoverEnd b).rxOldPool = b.rxOldPool := rfl
@[simp] theorem recoverEnd_rxOldMem (b : Bus) : (Bus.recoverEnd b).rxOldMem = b.rxOldMem := rfl
@[simp] theorem recoverEnd_wire (b : Bus) : (Bus.recoverEnd b).wire = b.wire := rfl

/-! ## stopAbort -/

@[simp] theorem stopAbort_masterEn (m : Word) (b : Bus) : (Bus.stopAbort m b).masterEn = b.masterEn := rfl
@[simp] theorem stopAbort_slaveEn (m : Word) (b : Bus) : (Bus.stopAbort m b).slaveEn = b.slaveEn := rfl
@[simp] theorem stopAbort_multiMasterDis (m : Word) (b : Bus) : (Bus.stopAbort m b).multiMasterDis = b.multiMasterDis := rfl
@[simp] theorem stopAbort_timing (m : Word) (b : Bus) : (Bus.stopAbort m b).timing = b.timing := rfl
@[simp] theorem stopAbort_sclTiming (m : Word) (b : Bus) : (Bus.stopAbort m b).sclTiming = b.stopTiming := rfl
@[simp] theorem stopAbort_timeout (m : Word) (b : Bus) : (Bus.stopAbort m b).timeout = b.timeout := rfl
@[simp] theorem stopAbort_ier (m : Word) (b : Bus) : (Bus.stopAbort m b).ier = b.ier := rfl
@[simp] theorem stopAbort_isr (m : Word) (b : Bus) : (Bus.stopAbort m b).isr = b.isr ||| m := rfl
@[simp] theorem stopAbort_cmd (m : Word) (b : Bus) : (Bus.stopAbort m b).cmd = 0 := rfl
@[simp] theorem stopAbort_devAddr (m : Word) (b : Bus) : (Bus.stopAbort m b).devAddr = b.devAddr := rfl
@[simp] theorem stopAbort_txEnd (m : Word) (b : Bus) : (Bus.stopAbort m b).txEnd = b.txEnd := rfl
@[simp] theorem stopAbort_rxEnd (m : Word) (b : Bus) : (Bus.stopAbort m b).rxEnd = b.rxEnd := rfl
@[simp] theorem stopAbort_bufCount (m : Word) (b : Bus) : (Bus.stopAbort m b).bufCount = b.bufCount := rfl
@[simp] theorem stopAbort_txByte (m : Word) (b : Bus) : (Bus.stopAbort m b).txByte = b.txByte := rfl
@[simp] theorem stopAbort_rxByte (m : Word) (b : Bus) : (Bus.stopAbort m b).rxByte = b.rxByte := rfl
@[simp] theorem stopAbort_dmaAddr (m : Word) (b : Bus) : (Bus.stopAbort m b).dmaAddr = b.dmaAddr := rfl
@[simp] theorem stopAbort_dmaLenProg (m : Word) (b : Bus) : (Bus.stopAbort m b).dmaLenProg = b.dmaLenProg := rfl
@[simp] theorem stopAbort_dmaMoved (m : Word) (b : Bus) : (Bus.stopAbort m b).dmaMoved = b.dmaMoved := rfl
@[simp] theorem stopAbort_pool (m : Word) (b : Bus) : (Bus.stopAbort m b).pool = b.pool := rfl
@[simp] theorem stopAbort_mstate (m : Word) (b : Bus) : (Bus.stopAbort m b).mstate = .idle := rfl
@[simp] theorem stopAbort_own (m : Word) (b : Bus) : (Bus.stopAbort m b).own = false := rfl
@[simp] theorem stopAbort_lastSlot (m : Word) (b : Bus) : (Bus.stopAbort m b).lastSlot = b.lastSlot := rfl
@[simp] theorem stopAbort_sstate (m : Word) (b : Bus) : (Bus.stopAbort m b).sstate = b.sstate := rfl
@[simp] theorem stopAbort_sPath (m : Word) (b : Bus) : (Bus.stopAbort m b).sPath = b.sPath := rfl
@[simp] theorem stopAbort_sCount (m : Word) (b : Bus) : (Bus.stopAbort m b).sCount = b.sCount := rfl
@[simp] theorem stopAbort_sCap (m : Word) (b : Bus) : (Bus.stopAbort m b).sCap = b.sCap := rfl
@[simp] theorem stopAbort_sBase (m : Word) (b : Bus) : (Bus.stopAbort m b).sBase = b.sBase := rfl
@[simp] theorem stopAbort_dmaPtr (m : Word) (b : Bus) : (Bus.stopAbort m b).dmaPtr = b.dmaPtr := rfl
@[simp] theorem stopAbort_refused (m : Word) (b : Bus) : (Bus.stopAbort m b).refused = b.refused := rfl
@[simp] theorem stopAbort_stuck (m : Word) (b : Bus) : (Bus.stopAbort m b).stuck = b.stuck := rfl
@[simp] theorem stopAbort_mDrv (m : Word) (b : Bus) : (Bus.stopAbort m b).mDrv = {} := rfl
@[simp] theorem stopAbort_sDrv (m : Word) (b : Bus) : (Bus.stopAbort m b).sDrv = b.sDrv := rfl
@[simp] theorem stopAbort_env (m : Word) (b : Bus) : (Bus.stopAbort m b).env = b.env := rfl
@[simp] theorem stopAbort_busBusy (m : Word) (b : Bus) : (Bus.stopAbort m b).busBusy = b.busBusy := rfl
@[simp] theorem stopAbort_stale (m : Word) (b : Bus) : (Bus.stopAbort m b).stale = b.stale := rfl
@[simp] theorem stopAbort_rxOldPool (m : Word) (b : Bus) : (Bus.stopAbort m b).rxOldPool = b.rxOldPool := rfl
@[simp] theorem stopAbort_rxOldMem (m : Word) (b : Bus) : (Bus.stopAbort m b).rxOldMem = b.rxOldMem := rfl
@[simp] theorem stopAbort_wire (m : Word) (b : Bus) : (Bus.stopAbort m b).wire = b.wire := rfl

/-! ## recoverTimeout -/

@[simp] theorem recoverTimeout_masterEn (b : Bus) : (Bus.recoverTimeout b).masterEn = b.masterEn := rfl
@[simp] theorem recoverTimeout_slaveEn (b : Bus) : (Bus.recoverTimeout b).slaveEn = b.slaveEn := rfl
@[simp] theorem recoverTimeout_multiMasterDis (b : Bus) : (Bus.recoverTimeout b).multiMasterDis = b.multiMasterDis := rfl
@[simp] theorem recoverTimeout_timing (b : Bus) : (Bus.recoverTimeout b).timing = b.timing := rfl
@[simp] theorem recoverTimeout_sclTiming (b : Bus) : (Bus.recoverTimeout b).sclTiming = if b.sda then b.sclTiming else b.timing := rfl
@[simp] theorem recoverTimeout_timeout (b : Bus) : (Bus.recoverTimeout b).timeout = b.timeout := rfl
@[simp] theorem recoverTimeout_ier (b : Bus) : (Bus.recoverTimeout b).ier = b.ier := rfl
@[simp] theorem recoverTimeout_isr (b : Bus) : (Bus.recoverTimeout b).isr = b.isr ||| maskSclTimeout := rfl
@[simp] theorem recoverTimeout_cmd (b : Bus) : (Bus.recoverTimeout b).cmd = 0 := rfl
@[simp] theorem recoverTimeout_devAddr (b : Bus) : (Bus.recoverTimeout b).devAddr = b.devAddr := rfl
@[simp] theorem recoverTimeout_txEnd (b : Bus) : (Bus.recoverTimeout b).txEnd = b.txEnd := rfl
@[simp] theorem recoverTimeout_rxEnd (b : Bus) : (Bus.recoverTimeout b).rxEnd = b.rxEnd := rfl
@[simp] theorem recoverTimeout_bufCount (b : Bus) : (Bus.recoverTimeout b).bufCount = b.bufCount := rfl
@[simp] theorem recoverTimeout_txByte (b : Bus) : (Bus.recoverTimeout b).txByte = b.txByte := rfl
@[simp] theorem recoverTimeout_rxByte (b : Bus) : (Bus.recoverTimeout b).rxByte = b.rxByte := rfl
@[simp] theorem recoverTimeout_dmaAddr (b : Bus) : (Bus.recoverTimeout b).dmaAddr = b.dmaAddr := rfl
@[simp] theorem recoverTimeout_dmaLenProg (b : Bus) : (Bus.recoverTimeout b).dmaLenProg = b.dmaLenProg := rfl
@[simp] theorem recoverTimeout_dmaMoved (b : Bus) : (Bus.recoverTimeout b).dmaMoved = b.dmaMoved := rfl
@[simp] theorem recoverTimeout_pool (b : Bus) : (Bus.recoverTimeout b).pool = b.pool := rfl
@[simp] theorem recoverTimeout_mstate (b : Bus) : (Bus.recoverTimeout b).mstate = .idle := rfl
@[simp] theorem recoverTimeout_own (b : Bus) : (Bus.recoverTimeout b).own = b.own := rfl
@[simp] theorem recoverTimeout_lastSlot (b : Bus) : (Bus.recoverTimeout b).lastSlot = b.lastSlot := rfl
@[simp] theorem recoverTimeout_sstate (b : Bus) : (Bus.recoverTimeout b).sstate = b.sstate := rfl
@[simp] theorem recoverTimeout_sPath (b : Bus) : (Bus.recoverTimeout b).sPath = b.sPath := rfl
@[simp] theorem recoverTimeout_sCount (b : Bus) : (Bus.recoverTimeout b).sCount = b.sCount := rfl
@[simp] theorem recoverTimeout_sCap (b : Bus) : (Bus.recoverTimeout b).sCap = b.sCap := rfl
@[simp] theorem recoverTimeout_sBase (b : Bus) : (Bus.recoverTimeout b).sBase = b.sBase := rfl
@[simp] theorem recoverTimeout_dmaPtr (b : Bus) : (Bus.recoverTimeout b).dmaPtr = b.dmaPtr := rfl
@[simp] theorem recoverTimeout_refused (b : Bus) : (Bus.recoverTimeout b).refused = b.refused := rfl
@[simp] theorem recoverTimeout_stuck (b : Bus) : (Bus.recoverTimeout b).stuck = b.stuck := rfl
@[simp] theorem recoverTimeout_mDrv (b : Bus) : (Bus.recoverTimeout b).mDrv = {} := rfl
@[simp] theorem recoverTimeout_sDrv (b : Bus) : (Bus.recoverTimeout b).sDrv = b.sDrv := rfl
@[simp] theorem recoverTimeout_env (b : Bus) : (Bus.recoverTimeout b).env = b.env := rfl
@[simp] theorem recoverTimeout_busBusy (b : Bus) : (Bus.recoverTimeout b).busBusy = b.busBusy := rfl
@[simp] theorem recoverTimeout_stale (b : Bus) : (Bus.recoverTimeout b).stale = b.stale := rfl
@[simp] theorem recoverTimeout_rxOldPool (b : Bus) : (Bus.recoverTimeout b).rxOldPool = b.rxOldPool := rfl
@[simp] theorem recoverTimeout_rxOldMem (b : Bus) : (Bus.recoverTimeout b).rxOldMem = b.rxOldMem := rfl
@[simp] theorem recoverTimeout_wire (b : Bus) : (Bus.recoverTimeout b).wire = b.wire := rfl

/-! ## setMoved -/

@[simp] theorem setMoved_masterEn (path : Path) (k : Nat) (b : Bus) : (Bus.setMoved path k b).masterEn = b.masterEn := by cases path <;> rfl
@[simp] theorem setMoved_slaveEn (path : Path) (k : Nat) (b : Bus) : (Bus.setMoved path k b).slaveEn = b.slaveEn := by cases path <;> rfl
@[simp] theorem setMoved_multiMasterDis (path : Path) (k : Nat) (b : Bus) : (Bus.setMoved path k b).multiMasterDis = b.multiMasterDis := by cases path <;> rfl
@[simp] theorem setMoved_timing (path : Path) (k : Nat) (b : Bus) : (Bus.setMoved path k b).timing = b.timing := by cases path <;> rfl
@[simp] theorem setMoved_sclTiming (path : Path) (k : Nat) (b : Bus) : (Bus.setMoved path k b).sclTiming = b.sclTiming := by cases path <;> rfl
@[simp] theorem setMoved_timeout (path : Path) (k : Nat) (b : Bus) : (Bus.setMoved path k b).timeout = b.timeout := by cases path <;> rfl
@[simp] theorem setMoved_ier (path : Path) (k : Nat) (b : Bus) : (Bus.setMoved path k b).ier = b.ier := by cases path <;> rfl
@[simp] theorem setMoved_isr (path : Path) (k : Nat) (b : Bus) : (Bus.setMoved path k b).isr = b.isr := by cases path <;> rfl
@[simp] theorem setMoved_cmd (path : Path) (k : Nat) (b : Bus) : (Bus.setMoved path k b).cmd = b.cmd := by cases path <;> rfl
@[simp] theorem setMoved_devAddr (path : Path) (k : Nat) (b : Bus) : (Bus.setMoved path k b).devAddr = b.devAddr := by cases path <;> rfl
@[simp] theorem setMoved_txEnd (path : Path) (k : Nat) (b : Bus) : (Bus.setMoved path k b).txEnd = b.txEnd := by cases path <;> rfl
@[simp] theorem setMoved_rxEnd (path : Path) (k : Nat) (b : Bus) : (Bus.setMoved path k b).rxEnd = b.rxEnd := by cases path <;> rfl
@[simp] theorem setMoved_txByte (path : Path) (k : Nat) (b : Bus) : (Bus.setMoved path k b).txByte = b.txByte := by cases path <;> rfl
@[simp] theorem setMoved_rxByte (path : Path) (k : Nat) (b : Bus) : (Bus.setMoved path k b).rxByte = b.rxByte := by cases path <;> rfl
@[simp] theorem setMoved_dmaAddr (path : Path) (k : Nat) (b : Bus) : (Bus.setMoved path k b).dmaAddr = b.dmaAddr := by cases path <;> rfl
@[simp] theorem setMoved_dmaLenProg (path : Path) (k : Nat) (b : Bus) : (Bus.setMoved path k b).dmaLenProg = b.dmaLenProg := by cases path <;> rfl
@[simp] theorem setMoved_pool (path : Path) (k : Nat) (b : Bus) : (Bus.setMoved path k b).pool = b.pool := by cases path <;> rfl
@[simp] theorem setMoved_mstate (path : Path) (k : Nat) (b : Bus) : (Bus.setMoved path k b).mstate = b.mstate := by cases path <;> rfl
@[simp] theorem setMoved_own (path : Path) (k : Nat) (b : Bus) : (Bus.setMoved path k b).own = b.own := by cases path <;> rfl
@[simp] theorem setMoved_lastSlot (path : Path) (k : Nat) (b : Bus) : (Bus.setMoved path k b).lastSlot = b.lastSlot := by cases path <;> rfl
@[simp] theorem setMoved_sstate (path : Path) (k : Nat) (b : Bus) : (Bus.setMoved path k b).sstate = b.sstate := by cases path <;> rfl
@[simp] theorem setMoved_sPath (path : Path) (k : Nat) (b : Bus) : (Bus.setMoved path k b).sPath = b.sPath := by cases path <;> rfl
@[simp] theorem setMoved_sCount (path : Path) (k : Nat) (b : Bus) : (Bus.setMoved path k b).sCount = b.sCount := by cases path <;> rfl
@[simp] theorem setMoved_sCap (path : Path) (k : Nat) (b : Bus) : (Bus.setMoved path k b).sCap = b.sCap := by cases path <;> rfl
@[simp] theorem setMoved_sBase (path : Path) (k : Nat) (b : Bus) : (Bus.setMoved path k b).sBase = b.sBase := by cases path <;> rfl
@[simp] theorem setMoved_dmaPtr (path : Path) (k : Nat) (b : Bus) : (Bus.setMoved path k b).dmaPtr = b.dmaPtr := by cases path <;> rfl
@[simp] theorem setMoved_refused (path : Path) (k : Nat) (b : Bus) : (Bus.setMoved path k b).refused = b.refused := by cases path <;> rfl
@[simp] theorem setMoved_stuck (path : Path) (k : Nat) (b : Bus) : (Bus.setMoved path k b).stuck = b.stuck := by cases path <;> rfl
@[simp] theorem setMoved_mDrv (path : Path) (k : Nat) (b : Bus) : (Bus.setMoved path k b).mDrv = b.mDrv := by cases path <;> rfl
@[simp] theorem setMoved_sDrv (path : Path) (k : Nat) (b : Bus) : (Bus.setMoved path k b).sDrv = b.sDrv := by cases path <;> rfl
@[simp] theorem setMoved_env (path : Path) (k : Nat) (b : Bus) : (Bus.setMoved path k b).env = b.env := by cases path <;> rfl
@[simp] theorem setMoved_busBusy (path : Path) (k : Nat) (b : Bus) : (Bus.setMoved path k b).busBusy = b.busBusy := by cases path <;> rfl
@[simp] theorem setMoved_stale (path : Path) (k : Nat) (b : Bus) : (Bus.setMoved path k b).stale = b.stale := by cases path <;> rfl
@[simp] theorem setMoved_rxOldPool (path : Path) (k : Nat) (b : Bus) : (Bus.setMoved path k b).rxOldPool = b.rxOldPool := by cases path <;> rfl
@[simp] theorem setMoved_rxOldMem (path : Path) (k : Nat) (b : Bus) : (Bus.setMoved path k b).rxOldMem = b.rxOldMem := by cases path <;> rfl
@[simp] theorem setMoved_wire (path : Path) (k : Nat) (b : Bus) : (Bus.setMoved path k b).wire = b.wire := by cases path <;> rfl

/-! ## endCommand -/

@[simp] theorem endCommand_masterEn (b : Bus) : (Bus.endCommand b).masterEn = b.masterEn := by unfold Bus.endCommand; split <;> rfl
@[simp] theorem endCommand_slaveEn (b : Bus) : (Bus.endCommand b).slaveEn = b.slaveEn := by unfold Bus.endCommand; split <;> rfl
@[simp] theorem endCommand_multiMasterDis (b : Bus) : (Bus.endCommand b).multiMasterDis = b.multiMasterDis := by unfold Bus.endCommand; split <;> rfl
@[simp] theorem endCommand_timing (b : Bus) : (Bus.endCommand b).timing = b.timing := by unfold Bus.endCommand; split <;> rfl
@[simp] theorem endCommand_sclTiming (b : Bus) : (Bus.endCommand b).sclTiming = b.sclTiming := by unfold Bus.endCommand; split <;> rfl
@[simp] theorem endCommand_timeout (b : Bus) : (Bus.endCommand b).timeout = b.timeout := by unfold Bus.endCommand; split <;> rfl
@[simp] theorem endCommand_ier (b : Bus) : (Bus.endCommand b).ier = b.ier := by unfold Bus.endCommand; split <;> rfl
@[simp] theorem endCommand_isr (b : Bus) : (Bus.endCommand b).isr = b.isr := by unfold Bus.endCommand; split <;> rfl
@[simp] theorem endCommand_devAddr (b : Bus) : (Bus.endCommand b).devAddr = b.devAddr := by unfold Bus.endCommand; split <;> rfl
@[simp] theorem endCommand_txEnd (b : Bus) : (Bus.endCommand b).txEnd = b.txEnd := by unfold Bus.endCommand; split <;> rfl
@[simp] theorem endCommand_rxEnd (b : Bus) : (Bus.endCommand b).rxEnd = b.rxEnd := by unfold Bus.endCommand; split <;> rfl
@[simp] theorem endCommand_bufCount (b : Bus) : (Bus.endCommand b).bufCount = b.bufCount := by unfold Bus.endCommand; split <;> rfl
@[simp] theorem endCommand_txByte (b : Bus) : (Bus.endCommand b).txByte = b.txByte := by unfold Bus.endCommand; split <;> rfl
@[simp] theorem endCommand_rxByte (b : Bus) : (Bus.endCommand b).rxByte = b.rxByte := by unfold Bus.endCommand; split <;> rfl
@[simp] theorem endCommand_dmaAddr (b : Bus) : (Bus.endCommand b).dmaAddr = b.dmaAddr := by unfold Bus.endCommand; split <;> rfl
@[simp] theorem endCommand_dmaLenProg (b : Bus) : (Bus.endCommand b).dmaLenProg = b.dmaLenProg := by unfold Bus.endCommand; split <;> rfl
@[simp] theorem endCommand_dmaMoved (b : Bus) : (Bus.endCommand b).dmaMoved = b.dmaMoved := by unfold Bus.endCommand; split <;> rfl
@[simp] theorem endCommand_pool (b : Bus) : (Bus.endCommand b).pool = b.pool := by unfold Bus.endCommand; split <;> rfl
@[simp] theorem endCommand_own (b : Bus) : (Bus.endCommand b).own = b.own := by unfold Bus.endCommand; split <;> rfl
@[simp] theorem endCommand_lastSlot (b : Bus) : (Bus.endCommand b).lastSlot = b.lastSlot := by unfold Bus.endCommand; split <;> rfl
@[simp] theorem endCommand_sstate (b : Bus) : (Bus.endCommand b).sstate = b.sstate := by unfold Bus.endCommand; split <;> rfl
@[simp] theorem endCommand_sPath (b : Bus) : (Bus.endCommand b).sPath = b.sPath := by unfold Bus.endCommand; split <;> rfl
@[simp] theorem endCommand_sCount (b : Bus) : (Bus.endCommand b).sCount = b.sCount := by unfold Bus.endCommand; split <;> rfl
@[simp] theorem endCommand_sCap (b : Bus) : (Bus.endCommand b).sCap = b.sCap := by unfold Bus.endCommand; split <;> rfl
@[simp] theorem endCommand_sBase (b : Bus) : (Bus.endCommand b).sBase = b.sBase := by unfold Bus.endCommand; split <;> rfl
@[simp] theorem endCommand_dmaPtr (b : Bus) : (Bus.endCommand b).dmaPtr = b.dmaPtr := by unfold Bus.endCommand; split <;> rfl
@[simp] theorem endCommand_refused (b : Bus) : (Bus.endCommand b).refused = b.refused := by unfold Bus.endCommand; split <;> rfl
@[simp] theorem endCommand_stuck (b : Bus) : (Bus.endCommand b).stuck = b.stuck := by unfold Bus.endCommand; split <;> rfl
@[simp] theorem endCommand_sDrv (b : Bus) : (Bus.endCommand b).sDrv = b.sDrv := by unfold Bus.endCommand; split <;> rfl
@[simp] theorem endCommand_env (b : Bus) : (Bus.endCommand b).env = b.env := by unfold Bus.endCommand; split <;> rfl
@[simp] theorem endCommand_busBusy (b : Bus) : (Bus.endCommand b).busBusy = b.busBusy := by unfold Bus.endCommand; split <;> rfl
@[simp] theorem endCommand_stale (b : Bus) : (Bus.endCommand b).stale = b.stale := by unfold Bus.endCommand; split <;> rfl
@[simp] theorem endCommand_rxOldPool (b : Bus) : (Bus.endCommand b).rxOldPool = b.rxOldPool := by unfold Bus.endCommand; split <;> rfl
@[simp] theorem endCommand_rxOldMem (b : Bus) : (Bus.endCommand b).rxOldMem = b.rxOldMem := by unfold Bus.endCommand; split <;> rfl
@[simp] theorem endCommand_wire (b : Bus) : (Bus.endCommand b).wire = b.wire := by unfold Bus.endCommand; split <;> rfl

/-! ## nextPhase -/

@[simp] theorem nextPhase_masterEn (rest : List Phase) (b : Bus) : (Bus.nextPhase rest b).masterEn = b.masterEn := by cases rest <;> simp [Bus.nextPhase]
@[simp] theorem nextPhase_slaveEn (rest : List Phase) (b : Bus) : (Bus.nextPhase rest b).slaveEn = b.slaveEn := by cases rest <;> simp [Bus.nextPhase]
@[simp] theorem nextPhase_multiMasterDis (rest : List Phase) (b : Bus) : (Bus.nextPhase rest b).multiMasterDis = b.multiMasterDis := by cases rest <;> simp [Bus.nextPhase]
@[simp] theorem nextPhase_timing (rest : List Phase) (b : Bus) : (Bus.nextPhase rest b).timing = b.timing := by cases rest <;> simp [Bus.nextPhase]
@[simp] theorem nextPhase_sclTiming (rest : List Phase) (b : Bus) : (Bus.nextPhase rest b).sclTiming = b.sclTiming := by cases rest <;> simp [Bus.nextPhase]
@[simp] theorem nextPhase_timeout (rest : List Phase) (b : Bus) : (Bus.nextPhase rest b).timeout = b.timeout := by cases rest <;> simp [Bus.nextPhase]
@[simp] theorem nextPhase_ier (rest : List Phase) (b : Bus) : (Bus.nextPhase rest b).ier = b.ier := by cases rest <;> simp [Bus.nextPhase]
@[simp] theorem nextPhase_isr (rest : List Phase) (b : Bus) : (Bus.nextPhase rest b).isr = b.isr := by cases rest <;> simp [Bus.nextPhase]
@[simp] theorem nextPhase_devAddr (rest : List Phase) (b : Bus) : (Bus.nextPhase rest b).devAddr = b.devAddr := by cases rest <;> simp [Bus.nextPhase]
@[simp] theorem nextPhase_txEnd (rest : List Phase) (b : Bus) : (Bus.nextPhase rest b).txEnd = b.txEnd := by cases rest <;> simp [Bus.nextPhase]
@[simp] theorem nextPhase_rxEnd (rest : List Phase) (b : Bus) : (Bus.nextPhase rest b).rxEnd = b.rxEnd := by cases rest <;> simp [Bus.nextPhase]
@[simp] theorem nextPhase_bufCount (rest : List Phase) (b : Bus) : (Bus.nextPhase rest b).bufCount = b.bufCount := by cases rest <;> simp [Bus.nextPhase]
@[simp] theorem nextPhase_txByte (rest : List Phase) (b : Bus) : (Bus.nextPhase rest b).txByte = b.txByte := by cases rest <;> simp [Bus.nextPhase]
@[simp] theorem nextPhase_rxByte (rest : List Phase) (b : Bus) : (Bus.nextPhase rest b).rxByte = b.rxByte := by cases rest <;> simp [Bus.nextPhase]
@[simp] theorem nextPhase_dmaAddr (rest : List Phase) (b : Bus) : (Bus.nextPhase rest b).dmaAddr = b.dmaAddr := by cases rest <;> simp [Bus.nextPhase]
@[simp] theorem nextPhase_dmaLenProg (rest : List Phase) (b : Bus) : (Bus.nextPhase rest b).dmaLenProg = b.dmaLenProg := by cases rest <;> simp [Bus.nextPhase]
@[simp] theorem nextPhase_dmaMoved (rest : List Phase) (b : Bus) : (Bus.nextPhase rest b).dmaMoved = b.dmaMoved := by cases rest <;> simp [Bus.nextPhase]
@[simp] theorem nextPhase_pool (rest : List Phase) (b : Bus) : (Bus.nextPhase rest b).pool = b.pool := by cases rest <;> simp [Bus.nextPhase]
@[simp] theorem nextPhase_own (rest : List Phase) (b : Bus) : (Bus.nextPhase rest b).own = b.own := by cases rest <;> simp [Bus.nextPhase]
@[simp] theorem nextPhase_lastSlot (rest : List Phase) (b : Bus) : (Bus.nextPhase rest b).lastSlot = b.lastSlot := by cases rest <;> simp [Bus.nextPhase]
@[simp] theorem nextPhase_sstate (rest : List Phase) (b : Bus) : (Bus.nextPhase rest b).sstate = b.sstate := by cases rest <;> simp [Bus.nextPhase]
@[simp] theorem nextPhase_sPath (rest : List Phase) (b : Bus) : (Bus.nextPhase rest b).sPath = b.sPath := by cases rest <;> simp [Bus.nextPhase]
@[simp] theorem nextPhase_sCount (rest : List Phase) (b : Bus) : (Bus.nextPhase rest b).sCount = b.sCount := by cases rest <;> simp [Bus.nextPhase]
@[simp] theorem nextPhase_sCap (rest : List Phase) (b : Bus) : (Bus.nextPhase rest b).sCap = b.sCap := by cases rest <;> simp [Bus.nextPhase]
@[simp] theorem nextPhase_sBase (rest : List Phase) (b : Bus) : (Bus.nextPhase rest b).sBase = b.sBase := by cases rest <;> simp [Bus.nextPhase]
@[simp] theorem nextPhase_dmaPtr (rest : List Phase) (b : Bus) : (Bus.nextPhase rest b).dmaPtr = b.dmaPtr := by cases rest <;> simp [Bus.nextPhase]
@[simp] theorem nextPhase_refused (rest : List Phase) (b : Bus) : (Bus.nextPhase rest b).refused = b.refused := by cases rest <;> simp [Bus.nextPhase]
@[simp] theorem nextPhase_stuck (rest : List Phase) (b : Bus) : (Bus.nextPhase rest b).stuck = b.stuck := by cases rest <;> simp [Bus.nextPhase]
@[simp] theorem nextPhase_sDrv (rest : List Phase) (b : Bus) : (Bus.nextPhase rest b).sDrv = b.sDrv := by cases rest <;> simp [Bus.nextPhase]
@[simp] theorem nextPhase_env (rest : List Phase) (b : Bus) : (Bus.nextPhase rest b).env = b.env := by cases rest <;> simp [Bus.nextPhase]
@[simp] theorem nextPhase_busBusy (rest : List Phase) (b : Bus) : (Bus.nextPhase rest b).busBusy = b.busBusy := by cases rest <;> simp [Bus.nextPhase]
@[simp] theorem nextPhase_stale (rest : List Phase) (b : Bus) : (Bus.nextPhase rest b).stale = b.stale := by cases rest <;> simp [Bus.nextPhase]
@[simp] theorem nextPhase_rxOldPool (rest : List Phase) (b : Bus) : (Bus.nextPhase rest b).rxOldPool = b.rxOldPool := by cases rest <;> simp [Bus.nextPhase]
@[simp] theorem nextPhase_rxOldMem (rest : List Phase) (b : Bus) : (Bus.nextPhase rest b).rxOldMem = b.rxOldMem := by cases rest <;> simp [Bus.nextPhase]
@[simp] theorem nextPhase_wire (rest : List Phase) (b : Bus) : (Bus.nextPhase rest b).wire = b.wire := by cases rest <;> simp [Bus.nextPhase]

/-! ## slotFault -/

@[simp] theorem slotFault_masterEn (f : SlotFault) (pk : SrcPick) (b : Bus) : (Bus.slotFault f pk b).masterEn = b.masterEn := by cases f <;> first | rfl | (rename_i k; cases k <;> rfl)
@[simp] theorem slotFault_slaveEn (f : SlotFault) (pk : SrcPick) (b : Bus) : (Bus.slotFault f pk b).slaveEn = b.slaveEn := by cases f <;> first | rfl | (rename_i k; cases k <;> rfl)
@[simp] theorem slotFault_multiMasterDis (f : SlotFault) (pk : SrcPick) (b : Bus) : (Bus.slotFault f pk b).multiMasterDis = b.multiMasterDis := by cases f <;> first | rfl | (rename_i k; cases k <;> rfl)
@[simp] theorem slotFault_timing (f : SlotFault) (pk : SrcPick) (b : Bus) : (Bus.slotFault f pk b).timing = b.timing := by cases f <;> first | rfl | (rename_i k; cases k <;> rfl)
@[simp] theorem slotFault_timeout (f : SlotFault) (pk : SrcPick) (b : Bus) : (Bus.slotFault f pk b).timeout = b.timeout := by cases f <;> first | rfl | (rename_i k; cases k <;> rfl)
@[simp] theorem slotFault_ier (f : SlotFault) (pk : SrcPick) (b : Bus) : (Bus.slotFault f pk b).ier = b.ier := by cases f <;> first | rfl | (rename_i k; cases k <;> rfl)
@[simp] theorem slotFault_devAddr (f : SlotFault) (pk : SrcPick) (b : Bus) : (Bus.slotFault f pk b).devAddr = b.devAddr := by cases f <;> first | rfl | (rename_i k; cases k <;> rfl)
@[simp] theorem slotFault_txEnd (f : SlotFault) (pk : SrcPick) (b : Bus) : (Bus.slotFault f pk b).txEnd = b.txEnd := by cases f <;> first | rfl | (rename_i k; cases k <;> rfl)
@[simp] theorem slotFault_rxEnd (f : SlotFault) (pk : SrcPick) (b : Bus) : (Bus.slotFault f pk b).rxEnd = b.rxEnd := by cases f <;> first | rfl | (rename_i k; cases k <;> rfl)
@[simp] theorem slotFault_bufCount (f : SlotFault) (pk : SrcPick) (b : Bus) : (Bus.slotFault f pk b).bufCount = b.bufCount := by cases f <;> first | rfl | (rename_i k; cases k <;> rfl)
@[simp] theorem slotFault_txByte (f : SlotFault) (pk : SrcPick) (b : Bus) : (Bus.slotFault f pk b).txByte = b.txByte := by cases f <;> first | rfl | (rename_i k; cases k <;> rfl)
@[simp] theorem slotFault_rxByte (f : SlotFault) (pk : SrcPick) (b : Bus) : (Bus.slotFault f pk b).rxByte = b.rxByte := by cases f <;> first | rfl | (rename_i k; cases k <;> rfl)
@[simp] theorem slotFault_dmaAddr (f : SlotFault) (pk : SrcPick) (b : Bus) : (Bus.slotFault f pk b).dmaAddr = b.dmaAddr := by cases f <;> first | rfl | (rename_i k; cases k <;> rfl)
@[simp] theorem slotFault_dmaLenProg (f : SlotFault) (pk : SrcPick) (b : Bus) : (Bus.slotFault f pk b).dmaLenProg = b.dmaLenProg := by cases f <;> first | rfl | (rename_i k; cases k <;> rfl)
@[simp] theorem slotFault_dmaMoved (f : SlotFault) (pk : SrcPick) (b : Bus) : (Bus.slotFault f pk b).dmaMoved = b.dmaMoved := by cases f <;> first | rfl | (rename_i k; cases k <;> rfl)
@[simp] theorem slotFault_pool (f : SlotFault) (pk : SrcPick) (b : Bus) : (Bus.slotFault f pk b).pool = b.pool := by cases f <;> first | rfl | (rename_i k; cases k <;> rfl)
@[simp] theorem slotFault_lastSlot (f : SlotFault) (pk : SrcPick) (b : Bus) : (Bus.slotFault f pk b).lastSlot = b.lastSlot := by cases f <;> first | rfl | (rename_i k; cases k <;> rfl)
@[simp] theorem slotFault_sstate (f : SlotFault) (pk : SrcPick) (b : Bus) : (Bus.slotFault f pk b).sstate = b.sstate := by cases f <;> first | rfl | (rename_i k; cases k <;> rfl)
@[simp] theorem slotFault_sPath (f : SlotFault) (pk : SrcPick) (b : Bus) : (Bus.slotFault f pk b).sPath = b.sPath := by cases f <;> first | rfl | (rename_i k; cases k <;> rfl)
@[simp] theorem slotFault_sCount (f : SlotFault) (pk : SrcPick) (b : Bus) : (Bus.slotFault f pk b).sCount = b.sCount := by cases f <;> first | rfl | (rename_i k; cases k <;> rfl)
@[simp] theorem slotFault_sCap (f : SlotFault) (pk : SrcPick) (b : Bus) : (Bus.slotFault f pk b).sCap = b.sCap := by cases f <;> first | rfl | (rename_i k; cases k <;> rfl)
@[simp] theorem slotFault_sBase (f : SlotFault) (pk : SrcPick) (b : Bus) : (Bus.slotFault f pk b).sBase = b.sBase := by cases f <;> first | rfl | (rename_i k; cases k <;> rfl)
@[simp] theorem slotFault_dmaPtr (f : SlotFault) (pk : SrcPick) (b : Bus) : (Bus.slotFault f pk b).dmaPtr = b.dmaPtr := by cases f <;> first | rfl | (rename_i k; cases k <;> rfl)
@[simp] theorem slotFault_refused (f : SlotFault) (pk : SrcPick) (b : Bus) : (Bus.slotFault f pk b).refused = b.refused := by cases f <;> first | rfl | (rename_i k; cases k <;> rfl)
@[simp] theorem slotFault_stuck (f : SlotFault) (pk : SrcPick) (b : Bus) : (Bus.slotFault f pk b).stuck = b.stuck := by cases f <;> first | rfl | (rename_i k; cases k <;> rfl)
@[simp] theorem slotFault_sDrv (f : SlotFault) (pk : SrcPick) (b : Bus) : (Bus.slotFault f pk b).sDrv = b.sDrv := by cases f <;> first | rfl | (rename_i k; cases k <;> rfl)
@[simp] theorem slotFault_env (f : SlotFault) (pk : SrcPick) (b : Bus) : (Bus.slotFault f pk b).env = b.env := by cases f <;> first | rfl | (rename_i k; cases k <;> rfl)
@[simp] theorem slotFault_stale (f : SlotFault) (pk : SrcPick) (b : Bus) : (Bus.slotFault f pk b).stale = b.stale := by cases f <;> first | rfl | (rename_i k; cases k <;> rfl)
@[simp] theorem slotFault_rxOldPool (f : SlotFault) (pk : SrcPick) (b : Bus) : (Bus.slotFault f pk b).rxOldPool = b.rxOldPool := by cases f <;> first | rfl | (rename_i k; cases k <;> rfl)
@[simp] theorem slotFault_rxOldMem (f : SlotFault) (pk : SrcPick) (b : Bus) : (Bus.slotFault f pk b).rxOldMem = b.rxOldMem := by cases f <;> first | rfl | (rename_i k; cases k <;> rfl)
@[simp] theorem slotFault_wire (f : SlotFault) (pk : SrcPick) (b : Bus) : (Bus.slotFault f pk b).wire = b.wire := by cases f <;> first | rfl | (rename_i k; cases k <;> rfl)

/-! ## clearStx -/

@[simp] theorem clearStx_masterEn (b : Bus) : (Bus.clearStx b).masterEn = b.masterEn := by unfold Bus.clearStx; split <;> rfl
@[simp] theorem clearStx_slaveEn (b : Bus) : (Bus.clearStx b).slaveEn = b.slaveEn := by unfold Bus.clearStx; split <;> rfl
@[simp] theorem clearStx_multiMasterDis (b : Bus) : (Bus.clearStx b).multiMasterDis = b.multiMasterDis := by unfold Bus.clearStx; split <;> rfl
@[simp] theorem clearStx_timing (b : Bus) : (Bus.clearStx b).timing = b.timing := by unfold Bus.clearStx; split <;> rfl
@[simp] theorem clearStx_sclTiming (b : Bus) : (Bus.clearStx b).sclTiming = b.sclTiming := by unfold Bus.clearStx; split <;> rfl
@[simp] theorem clearStx_timeout (b : Bus) : (Bus.clearStx b).timeout = b.timeout := by unfold Bus.clearStx; split <;> rfl
@[simp] theorem clearStx_ier (b : Bus) : (Bus.clearStx b).ier = b.ier := by unfold Bus.clearStx; split <;> rfl
@[simp] theorem clearStx_isr (b : Bus) : (Bus.clearStx b).isr = b.isr := by unfold Bus.clearStx; split <;> rfl
@[simp] theorem clearStx_devAddr (b : Bus) : (Bus.clearStx b).devAddr = b.devAddr := by unfold Bus.clearStx; split <;> rfl
@[simp] theorem clearStx_txEnd (b : Bus) : (Bus.clearStx b).txEnd = b.txEnd := by unfold Bus.clearStx; split <;> rfl
@[simp] theorem clearStx_rxEnd (b : Bus) : (Bus.clearStx b).rxEnd = b.rxEnd := by unfold Bus.clearStx; split <;> rfl
@[simp] theorem clearStx_bufCount (b : Bus) : (Bus.clearStx b).bufCount = b.bufCount := by unfold Bus.clearStx; split <;> rfl
@[simp] theorem clearStx_txByte (b : Bus) : (Bus.clearStx b).txByte = b.txByte := by unfold Bus.clearStx; split <;> rfl
@[simp] theorem clearStx_rxByte (b : Bus) : (Bus.clearStx b).rxByte = b.rxByte := by unfold Bus.clearStx; split <;> rfl
@[simp] theorem clearStx_dmaAddr (b : Bus) : (Bus.clearStx b).dmaAddr = b.dmaAddr := by unfold Bus.clearStx; split <;> rfl
@[simp] theorem clearStx_dmaLenProg (b : Bus) : (Bus.clearStx b).dmaLenProg = b.dmaLenProg := by unfold Bus.clearStx; split <;> rfl
@[simp] theorem clearStx_dmaMoved (b : Bus) : (Bus.clearStx b).dmaMoved = b.dmaMoved := by unfold Bus.clearStx; split <;> rfl
@[simp] theorem clearStx_pool (b : Bus) : (Bus.clearStx b).pool = b.pool := by unfold Bus.clearStx; split <;> rfl
@[simp] theorem clearStx_mstate (b : Bus) : (Bus.clearStx b).mstate = b.mstate := by unfold Bus.clearStx; split <;> rfl
@[simp] theorem clearStx_own (b : Bus) : (Bus.clearStx b).own = b.own := by unfold Bus.clearStx; split <;> rfl
@[simp] theorem clearStx_lastSlot (b : Bus) : (Bus.clearStx b).lastSlot = b.lastSlot := by unfold Bus.clearStx; split <;> rfl
@[simp] theorem clearStx_sstate (b : Bus) : (Bus.clearStx b).sstate = b.sstate := by unfold Bus.clearStx; split <;> rfl
@[simp] theorem clearStx_sPath (b : Bus) : (Bus.clearStx b).sPath = b.sPath := by unfold Bus.clearStx; split <;> rfl
@[simp] theorem clearStx_sCount (b : Bus) : (Bus.clearStx b).sCount = b.sCount := by unfold Bus.clearStx; split <;> rfl
@[simp] theorem clearStx_sCap (b : Bus) : (Bus.clearStx b).sCap = b.sCap := by unfold Bus.clearStx; split <;> rfl
@[simp] theorem clearStx_sBase (b : Bus) : (Bus.clearStx b).sBase = b.sBase := by unfold Bus.clearStx; split <;> rfl
@[simp] theorem clearStx_dmaPtr (b : Bus) : (Bus.clearStx b).dmaPtr = b.dmaPtr := by unfold Bus.clearStx; split <;> rfl
@[simp] theorem clearStx_refused (b : Bus) : (Bus.clearStx b).refused = b.refused := by unfold Bus.clearStx; split <;> rfl
@[simp] theorem clearStx_stuck (b : Bus) : (Bus.clearStx b).stuck = b.stuck := by unfold Bus.clearStx; split <;> rfl
@[simp] theorem clearStx_mDrv (b : Bus) : (Bus.clearStx b).mDrv = b.mDrv := by unfold Bus.clearStx; split <;> rfl
@[simp] theorem clearStx_sDrv (b : Bus) : (Bus.clearStx b).sDrv = b.sDrv := by unfold Bus.clearStx; split <;> rfl
@[simp] theorem clearStx_env (b : Bus) : (Bus.clearStx b).env = b.env := by unfold Bus.clearStx; split <;> rfl
@[simp] theorem clearStx_busBusy (b : Bus) : (Bus.clearStx b).busBusy = b.busBusy := by unfold Bus.clearStx; split <;> rfl
@[simp] theorem clearStx_stale (b : Bus) : (Bus.clearStx b).stale = b.stale := by unfold Bus.clearStx; split <;> rfl
@[simp] theorem clearStx_rxOldPool (b : Bus) : (Bus.clearStx b).rxOldPool = b.rxOldPool := by unfold Bus.clearStx; split <;> rfl
@[simp] theorem clearStx_rxOldMem (b : Bus) : (Bus.clearStx b).rxOldMem = b.rxOldMem := by unfold Bus.clearStx; split <;> rfl
@[simp] theorem clearStx_wire (b : Bus) : (Bus.clearStx b).wire = b.wire := by unfold Bus.clearStx; split <;> rfl

/-! ## dropStx -/

@[simp] theorem dropStx_masterEn (b : Bus) : (Bus.dropStx b).masterEn = b.masterEn := by unfold Bus.dropStx; split <;> simp
@[simp] theorem dropStx_slaveEn (b : Bus) : (Bus.dropStx b).slaveEn = b.slaveEn := by unfold Bus.dropStx; split <;> simp
@[simp] theorem dropStx_multiMasterDis (b : Bus) : (Bus.dropStx b).multiMasterDis = b.multiMasterDis := by unfold Bus.dropStx; split <;> simp
@[simp] theorem dropStx_timing (b : Bus) : (Bus.dropStx b).timing = b.timing := by unfold Bus.dropStx; split <;> simp
@[simp] theorem dropStx_sclTiming (b : Bus) : (Bus.dropStx b).sclTiming = b.sclTiming := by unfold Bus.dropStx; split <;> simp
@[simp] theorem dropStx_timeout (b : Bus) : (Bus.dropStx b).timeout = b.timeout := by unfold Bus.dropStx; split <;> simp
@[simp] theorem dropStx_ier (b : Bus) : (Bus.dropStx b).ier = b.ier := by unfold Bus.dropStx; split <;> simp
@[simp] theorem dropStx_isr (b : Bus) : (Bus.dropStx b).isr = b.isr := by unfold Bus.dropStx; split <;> simp
@[simp] theorem dropStx_devAddr (b : Bus) : (Bus.dropStx b).devAddr = b.devAddr := by unfold Bus.dropStx; split <;> simp
@[simp] theorem dropStx_txEnd (b : Bus) : (Bus.dropStx b).txEnd = b.txEnd := by unfold Bus.dropStx; split <;> simp
@[simp] theorem dropStx_rxEnd (b : Bus) : (Bus.dropStx b).rxEnd = b.rxEnd := by unfold Bus.dropStx; split <;> simp
@[simp] theorem dropStx_txByte (b : Bus) : (Bus.dropStx b).txByte = b.txByte := by unfold Bus.dropStx; split <;> simp
@[simp] theorem dropStx_rxByte (b : Bus) : (Bus.dropStx b).rxByte = b.rxByte := by unfold Bus.dropStx; split <;> simp
@[simp] theorem dropStx_dmaAddr (b : Bus) : (Bus.dropStx b).dmaAddr = b.dmaAddr := by unfold Bus.dropStx; split <;> simp
@[simp] theorem dropStx_dmaLenProg (b : Bus) : (Bus.dropStx b).dmaLenProg = b.dmaLenProg := by unfold Bus.dropStx; split <;> simp
@[simp] theorem dropStx_pool (b : Bus) : (Bus.dropStx b).pool = b.pool := by unfold Bus.dropStx; split <;> simp
@[simp] theorem dropStx_mstate (b : Bus) : (Bus.dropStx b).mstate = b.mstate := by unfold Bus.dropStx; split <;> simp
@[simp] theorem dropStx_own (b : Bus) : (Bus.dropStx b).own = b.own := by unfold Bus.dropStx; split <;> simp
@[simp] theorem dropStx_lastSlot (b : Bus) : (Bus.dropStx b).lastSlot = b.lastSlot := by unfold Bus.dropStx; split <;> simp
@[simp] theorem dropStx_sstate (b : Bus) : (Bus.dropStx b).sstate = b.sstate := by unfold Bus.dropStx; split <;> simp
@[simp] theorem dropStx_sPath (b : Bus) : (Bus.dropStx b).sPath = b.sPath := by unfold Bus.dropStx; split <;> simp
@[simp] theorem dropStx_sCount (b : Bus) : (Bus.dropStx b).sCount = b.sCount := by unfold Bus.dropStx; split <;> simp
@[simp] theorem dropStx_sCap (b : Bus) : (Bus.dropStx b).sCap = b.sCap := by unfold Bus.dropStx; split <;> simp
@[simp] theorem dropStx_sBase (b : Bus) : (Bus.dropStx b).sBase = b.sBase := by unfold Bus.dropStx; split <;> simp
@[simp] theorem dropStx_dmaPtr (b : Bus) : (Bus.dropStx b).dmaPtr = b.dmaPtr := by unfold Bus.dropStx; split <;> simp
@[simp] theorem dropStx_refused (b : Bus) : (Bus.dropStx b).refused = b.refused := by unfold Bus.dropStx; split <;> simp
@[simp] theorem dropStx_stuck (b : Bus) : (Bus.dropStx b).stuck = b.stuck := by unfold Bus.dropStx; split <;> simp
@[simp] theorem dropStx_mDrv (b : Bus) : (Bus.dropStx b).mDrv = b.mDrv := by unfold Bus.dropStx; split <;> simp
@[simp] theorem dropStx_sDrv (b : Bus) : (Bus.dropStx b).sDrv = b.sDrv := by unfold Bus.dropStx; split <;> simp
@[simp] theorem dropStx_env (b : Bus) : (Bus.dropStx b).env = b.env := by unfold Bus.dropStx; split <;> simp
@[simp] theorem dropStx_busBusy (b : Bus) : (Bus.dropStx b).busBusy = b.busBusy := by unfold Bus.dropStx; split <;> simp
@[simp] theorem dropStx_stale (b : Bus) : (Bus.dropStx b).stale = b.stale := by unfold Bus.dropStx; split <;> simp
@[simp] theorem dropStx_rxOldPool (b : Bus) : (Bus.dropStx b).rxOldPool = b.rxOldPool := by unfold Bus.dropStx; split <;> simp
@[simp] theorem dropStx_rxOldMem (b : Bus) : (Bus.dropStx b).rxOldMem = b.rxOldMem := by unfold Bus.dropStx; split <;> simp
@[simp] theorem dropStx_wire (b : Bus) : (Bus.dropStx b).wire = b.wire := by unfold Bus.dropStx; split <;> simp

/-! ## recordBatch -/

@[simp] theorem recordBatch_masterEn (b : Bus) : (Bus.recordBatch b).masterEn = b.masterEn := by unfold Bus.recordBatch; split <;> simp
@[simp] theorem recordBatch_slaveEn (b : Bus) : (Bus.recordBatch b).slaveEn = b.slaveEn := by unfold Bus.recordBatch; split <;> simp
@[simp] theorem recordBatch_multiMasterDis (b : Bus) : (Bus.recordBatch b).multiMasterDis = b.multiMasterDis := by unfold Bus.recordBatch; split <;> simp
@[simp] theorem recordBatch_timing (b : Bus) : (Bus.recordBatch b).timing = b.timing := by unfold Bus.recordBatch; split <;> simp
@[simp] theorem recordBatch_sclTiming (b : Bus) : (Bus.recordBatch b).sclTiming = b.sclTiming := by unfold Bus.recordBatch; split <;> simp
@[simp] theorem recordBatch_timeout (b : Bus) : (Bus.recordBatch b).timeout = b.timeout := by unfold Bus.recordBatch; split <;> simp
@[simp] theorem recordBatch_ier (b : Bus) : (Bus.recordBatch b).ier = b.ier := by unfold Bus.recordBatch; split <;> simp
@[simp] theorem recordBatch_isr (b : Bus) : (Bus.recordBatch b).isr = b.isr := by unfold Bus.recordBatch; split <;> simp
@[simp] theorem recordBatch_cmd (b : Bus) : (Bus.recordBatch b).cmd = b.cmd := by unfold Bus.recordBatch; split <;> simp
@[simp] theorem recordBatch_devAddr (b : Bus) : (Bus.recordBatch b).devAddr = b.devAddr := by unfold Bus.recordBatch; split <;> simp
@[simp] theorem recordBatch_txEnd (b : Bus) : (Bus.recordBatch b).txEnd = b.txEnd := by unfold Bus.recordBatch; split <;> simp
@[simp] theorem recordBatch_rxEnd (b : Bus) : (Bus.recordBatch b).rxEnd = b.rxEnd := by unfold Bus.recordBatch; split <;> simp
@[simp] theorem recordBatch_txByte (b : Bus) : (Bus.recordBatch b).txByte = b.txByte := by unfold Bus.recordBatch; split <;> simp
@[simp] theorem recordBatch_rxByte (b : Bus) : (Bus.recordBatch b).rxByte = b.rxByte := by unfold Bus.recordBatch; split <;> simp
@[simp] theorem recordBatch_dmaAddr (b : Bus) : (Bus.recordBatch b).dmaAddr = b.dmaAddr := by unfold Bus.recordBatch; split <;> simp
@[simp] theorem recordBatch_dmaLenProg (b : Bus) : (Bus.recordBatch b).dmaLenProg = b.dmaLenProg := by unfold Bus.recordBatch; split <;> simp
@[simp] theorem recordBatch_pool (b : Bus) : (Bus.recordBatch b).pool = b.pool := by unfold Bus.recordBatch; split <;> simp
@[simp] theorem recordBatch_mstate (b : Bus) : (Bus.recordBatch b).mstate = b.mstate := by unfold Bus.recordBatch; split <;> simp
@[simp] theorem recordBatch_own (b : Bus) : (Bus.recordBatch b).own = b.own := by unfold Bus.recordBatch; split <;> simp
@[simp] theorem recordBatch_lastSlot (b : Bus) : (Bus.recordBatch b).lastSlot = b.lastSlot := by unfold Bus.recordBatch; split <;> simp
@[simp] theorem recordBatch_sstate (b : Bus) : (Bus.recordBatch b).sstate = b.sstate := by unfold Bus.recordBatch; split <;> simp
@[simp] theorem recordBatch_sPath (b : Bus) : (Bus.recordBatch b).sPath = b.sPath := by unfold Bus.recordBatch; split <;> simp
@[simp] theorem recordBatch_sCount (b : Bus) : (Bus.recordBatch b).sCount = b.sCount := by unfold Bus.recordBatch; split <;> simp
@[simp] theorem recordBatch_sCap (b : Bus) : (Bus.recordBatch b).sCap = b.sCap := by unfold Bus.recordBatch; split <;> simp
@[simp] theorem recordBatch_sBase (b : Bus) : (Bus.recordBatch b).sBase = b.sBase := by unfold Bus.recordBatch; split <;> simp
@[simp] theorem recordBatch_dmaPtr (b : Bus) : (Bus.recordBatch b).dmaPtr = b.dmaPtr := by unfold Bus.recordBatch; split <;> simp
@[simp] theorem recordBatch_refused (b : Bus) : (Bus.recordBatch b).refused = b.refused := by unfold Bus.recordBatch; split <;> simp
@[simp] theorem recordBatch_stuck (b : Bus) : (Bus.recordBatch b).stuck = b.stuck := by unfold Bus.recordBatch; split <;> simp
@[simp] theorem recordBatch_mDrv (b : Bus) : (Bus.recordBatch b).mDrv = b.mDrv := by unfold Bus.recordBatch; split <;> simp
@[simp] theorem recordBatch_sDrv (b : Bus) : (Bus.recordBatch b).sDrv = b.sDrv := by unfold Bus.recordBatch; split <;> simp
@[simp] theorem recordBatch_env (b : Bus) : (Bus.recordBatch b).env = b.env := by unfold Bus.recordBatch; split <;> simp
@[simp] theorem recordBatch_busBusy (b : Bus) : (Bus.recordBatch b).busBusy = b.busBusy := by unfold Bus.recordBatch; split <;> simp
@[simp] theorem recordBatch_stale (b : Bus) : (Bus.recordBatch b).stale = b.stale := by unfold Bus.recordBatch; split <;> simp
@[simp] theorem recordBatch_rxOldPool (b : Bus) : (Bus.recordBatch b).rxOldPool = b.rxOldPool := by unfold Bus.recordBatch; split <;> simp
@[simp] theorem recordBatch_rxOldMem (b : Bus) : (Bus.recordBatch b).rxOldMem = b.rxOldMem := by unfold Bus.recordBatch; split <;> simp
@[simp] theorem recordBatch_wire (b : Bus) : (Bus.recordBatch b).wire = b.wire := by unfold Bus.recordBatch; split <;> simp

/-! ## deliverBatch -/

@[simp] theorem deliverBatch_masterEn (b : Bus) : (Bus.deliverBatch b).masterEn = b.masterEn := by unfold Bus.deliverBatch; split <;> simp
@[simp] theorem deliverBatch_slaveEn (b : Bus) : (Bus.deliverBatch b).slaveEn = b.slaveEn := by unfold Bus.deliverBatch; split <;> simp
@[simp] theorem deliverBatch_multiMasterDis (b : Bus) : (Bus.deliverBatch b).multiMasterDis = b.multiMasterDis := by unfold Bus.deliverBatch; split <;> simp
@[simp] theorem deliverBatch_timing (b : Bus) : (Bus.deliverBatch b).timing = b.timing := by unfold Bus.deliverBatch; split <;> simp
@[simp] theorem deliverBatch_sclTiming (b : Bus) : (Bus.deliverBatch b).sclTiming = b.sclTiming := by unfold Bus.deliverBatch; split <;> simp
@[simp] theorem deliverBatch_timeout (b : Bus) : (Bus.deliverBatch b).timeout = b.timeout := by unfold Bus.deliverBatch; split <;> simp
@[simp] theorem deliverBatch_ier (b : Bus) : (Bus.deliverBatch b).ier = b.ier := by unfold Bus.deliverBatch; split <;> simp
@[simp] theorem deliverBatch_cmd (b : Bus) : (Bus.deliverBatch b).cmd = b.cmd := by unfold Bus.deliverBatch; split <;> simp
@[simp] theorem deliverBatch_devAddr (b : Bus) : (Bus.deliverBatch b).devAddr = b.devAddr := by unfold Bus.deliverBatch; split <;> simp
@[simp] theorem deliverBatch_txEnd (b : Bus) : (Bus.deliverBatch b).txEnd = b.txEnd := by unfold Bus.deliverBatch; split <;> simp
@[simp] theorem deliverBatch_rxEnd (b : Bus) : (Bus.deliverBatch b).rxEnd = b.rxEnd := by unfold Bus.deliverBatch; split <;> simp
@[simp] theorem deliverBatch_txByte (b : Bus) : (Bus.deliverBatch b).txByte = b.txByte := by unfold Bus.deliverBatch; split <;> simp
@[simp] theorem deliverBatch_rxByte (b : Bus) : (Bus.deliverBatch b).rxByte = b.rxByte := by unfold Bus.deliverBatch; split <;> simp
@[simp] theorem deliverBatch_dmaAddr (b : Bus) : (Bus.deliverBatch b).dmaAddr = b.dmaAddr := by unfold Bus.deliverBatch; split <;> simp
@[simp] theorem deliverBatch_dmaLenProg (b : Bus) : (Bus.deliverBatch b).dmaLenProg = b.dmaLenProg := by unfold Bus.deliverBatch; split <;> simp
@[simp] theorem deliverBatch_pool (b : Bus) : (Bus.deliverBatch b).pool = b.pool := by unfold Bus.deliverBatch; split <;> simp
@[simp] theorem deliverBatch_mstate (b : Bus) : (Bus.deliverBatch b).mstate = b.mstate := by unfold Bus.deliverBatch; split <;> simp
@[simp] theorem deliverBatch_own (b : Bus) : (Bus.deliverBatch b).own = b.own := by unfold Bus.deliverBatch; split <;> simp
@[simp] theorem deliverBatch_lastSlot (b : Bus) : (Bus.deliverBatch b).lastSlot = b.lastSlot := by unfold Bus.deliverBatch; split <;> simp
@[simp] theorem deliverBatch_sstate (b : Bus) : (Bus.deliverBatch b).sstate = b.sstate := by unfold Bus.deliverBatch; split <;> simp
@[simp] theorem deliverBatch_sPath (b : Bus) : (Bus.deliverBatch b).sPath = b.sPath := by unfold Bus.deliverBatch; split <;> simp
@[simp] theorem deliverBatch_sCount (b : Bus) : (Bus.deliverBatch b).sCount = b.sCount := by unfold Bus.deliverBatch; split <;> simp
@[simp] theorem deliverBatch_sCap (b : Bus) : (Bus.deliverBatch b).sCap = b.sCap := by unfold Bus.deliverBatch; split <;> simp
@[simp] theorem deliverBatch_sBase (b : Bus) : (Bus.deliverBatch b).sBase = b.sBase := by unfold Bus.deliverBatch; split <;> simp
@[simp] theorem deliverBatch_dmaPtr (b : Bus) : (Bus.deliverBatch b).dmaPtr = b.dmaPtr := by unfold Bus.deliverBatch; split <;> simp
@[simp] theorem deliverBatch_refused (b : Bus) : (Bus.deliverBatch b).refused = b.refused := by unfold Bus.deliverBatch; split <;> simp
@[simp] theorem deliverBatch_stuck (b : Bus) : (Bus.deliverBatch b).stuck = b.stuck := by unfold Bus.deliverBatch; split <;> simp
@[simp] theorem deliverBatch_mDrv (b : Bus) : (Bus.deliverBatch b).mDrv = b.mDrv := by unfold Bus.deliverBatch; split <;> simp
@[simp] theorem deliverBatch_sDrv (b : Bus) : (Bus.deliverBatch b).sDrv = b.sDrv := by unfold Bus.deliverBatch; split <;> simp
@[simp] theorem deliverBatch_env (b : Bus) : (Bus.deliverBatch b).env = b.env := by unfold Bus.deliverBatch; split <;> simp
@[simp] theorem deliverBatch_busBusy (b : Bus) : (Bus.deliverBatch b).busBusy = b.busBusy := by unfold Bus.deliverBatch; split <;> simp
@[simp] theorem deliverBatch_stale (b : Bus) : (Bus.deliverBatch b).stale = b.stale := by unfold Bus.deliverBatch; split <;> simp
@[simp] theorem deliverBatch_rxOldPool (b : Bus) : (Bus.deliverBatch b).rxOldPool = b.rxOldPool := by unfold Bus.deliverBatch; split <;> simp
@[simp] theorem deliverBatch_rxOldMem (b : Bus) : (Bus.deliverBatch b).rxOldMem = b.rxOldMem := by unfold Bus.deliverBatch; split <;> simp
@[simp] theorem deliverBatch_wire (b : Bus) : (Bus.deliverBatch b).wire = b.wire := by unfold Bus.deliverBatch; split <;> simp

/-! ## advanceDma -/

@[simp] theorem advanceDma_masterEn (path : Path) (b : Bus) : (Bus.advanceDma path b).masterEn = b.masterEn := by cases path <;> rfl
@[simp] theorem advanceDma_slaveEn (path : Path) (b : Bus) : (Bus.advanceDma path b).slaveEn = b.slaveEn := by cases path <;> rfl
@[simp] theorem advanceDma_multiMasterDis (path : Path) (b : Bus) : (Bus.advanceDma path b).multiMasterDis = b.multiMasterDis := by cases path <;> rfl
@[simp] theorem advanceDma_timing (path : Path) (b : Bus) : (Bus.advanceDma path b).timing = b.timing := by cases path <;> rfl
@[simp] theorem advanceDma_sclTiming (path : Path) (b : Bus) : (Bus.advanceDma path b).sclTiming = b.sclTiming := by cases path <;> rfl
@[simp] theorem advanceDma_timeout (path : Path) (b : Bus) : (Bus.advanceDma path b).timeout = b.timeout := by cases path <;> rfl
@[simp] theorem advanceDma_ier (path : Path) (b : Bus) : (Bus.advanceDma path b).ier = b.ier := by cases path <;> rfl
@[simp] theorem advanceDma_isr (path : Path) (b : Bus) : (Bus.advanceDma path b).isr = b.isr := by cases path <;> rfl
@[simp] theorem advanceDma_cmd (path : Path) (b : Bus) : (Bus.advanceDma path b).cmd = b.cmd := by cases path <;> rfl
@[simp] theorem advanceDma_devAddr (path : Path) (b : Bus) : (Bus.advanceDma path b).devAddr = b.devAddr := by cases path <;> rfl
@[simp] theorem advanceDma_txEnd (path : Path) (b : Bus) : (Bus.advanceDma path b).txEnd = b.txEnd := by cases path <;> rfl
@[simp] theorem advanceDma_rxEnd (path : Path) (b : Bus) : (Bus.advanceDma path b).rxEnd = b.rxEnd := by cases path <;> rfl
@[simp] theorem advanceDma_bufCount (path : Path) (b : Bus) : (Bus.advanceDma path b).bufCount = b.bufCount := by cases path <;> rfl
@[simp] theorem advanceDma_txByte (path : Path) (b : Bus) : (Bus.advanceDma path b).txByte = b.txByte := by cases path <;> rfl
@[simp] theorem advanceDma_rxByte (path : Path) (b : Bus) : (Bus.advanceDma path b).rxByte = b.rxByte := by cases path <;> rfl
@[simp] theorem advanceDma_dmaAddr (path : Path) (b : Bus) : (Bus.advanceDma path b).dmaAddr = b.dmaAddr := by cases path <;> rfl
@[simp] theorem advanceDma_dmaLenProg (path : Path) (b : Bus) : (Bus.advanceDma path b).dmaLenProg = b.dmaLenProg := by cases path <;> rfl
@[simp] theorem advanceDma_dmaMoved (path : Path) (b : Bus) : (Bus.advanceDma path b).dmaMoved = b.dmaMoved := by cases path <;> rfl
@[simp] theorem advanceDma_pool (path : Path) (b : Bus) : (Bus.advanceDma path b).pool = b.pool := by cases path <;> rfl
@[simp] theorem advanceDma_mstate (path : Path) (b : Bus) : (Bus.advanceDma path b).mstate = b.mstate := by cases path <;> rfl
@[simp] theorem advanceDma_own (path : Path) (b : Bus) : (Bus.advanceDma path b).own = b.own := by cases path <;> rfl
@[simp] theorem advanceDma_lastSlot (path : Path) (b : Bus) : (Bus.advanceDma path b).lastSlot = b.lastSlot := by cases path <;> rfl
@[simp] theorem advanceDma_sstate (path : Path) (b : Bus) : (Bus.advanceDma path b).sstate = b.sstate := by cases path <;> rfl
@[simp] theorem advanceDma_sPath (path : Path) (b : Bus) : (Bus.advanceDma path b).sPath = b.sPath := by cases path <;> rfl
@[simp] theorem advanceDma_sCount (path : Path) (b : Bus) : (Bus.advanceDma path b).sCount = b.sCount := by cases path <;> rfl
@[simp] theorem advanceDma_sCap (path : Path) (b : Bus) : (Bus.advanceDma path b).sCap = b.sCap := by cases path <;> rfl
@[simp] theorem advanceDma_sBase (path : Path) (b : Bus) : (Bus.advanceDma path b).sBase = b.sBase := by cases path <;> rfl
@[simp] theorem advanceDma_refused (path : Path) (b : Bus) : (Bus.advanceDma path b).refused = b.refused := by cases path <;> rfl
@[simp] theorem advanceDma_stuck (path : Path) (b : Bus) : (Bus.advanceDma path b).stuck = b.stuck := by cases path <;> rfl
@[simp] theorem advanceDma_mDrv (path : Path) (b : Bus) : (Bus.advanceDma path b).mDrv = b.mDrv := by cases path <;> rfl
@[simp] theorem advanceDma_sDrv (path : Path) (b : Bus) : (Bus.advanceDma path b).sDrv = b.sDrv := by cases path <;> rfl
@[simp] theorem advanceDma_env (path : Path) (b : Bus) : (Bus.advanceDma path b).env = b.env := by cases path <;> rfl
@[simp] theorem advanceDma_busBusy (path : Path) (b : Bus) : (Bus.advanceDma path b).busBusy = b.busBusy := by cases path <;> rfl
@[simp] theorem advanceDma_stale (path : Path) (b : Bus) : (Bus.advanceDma path b).stale = b.stale := by cases path <;> rfl
@[simp] theorem advanceDma_rxOldPool (path : Path) (b : Bus) : (Bus.advanceDma path b).rxOldPool = b.rxOldPool := by cases path <;> rfl
@[simp] theorem advanceDma_rxOldMem (path : Path) (b : Bus) : (Bus.advanceDma path b).rxOldMem = b.rxOldMem := by cases path <;> rfl
@[simp] theorem advanceDma_wire (path : Path) (b : Bus) : (Bus.advanceDma path b).wire = b.wire := by cases path <;> rfl

/-! ## slaveSeesOwnStart -/

@[simp] theorem slaveSeesOwnStart_masterEn (b : Bus) : (Bus.slaveSeesOwnStart b).masterEn = b.masterEn := by unfold Bus.slaveSeesOwnStart; split <;> rfl
@[simp] theorem slaveSeesOwnStart_slaveEn (b : Bus) : (Bus.slaveSeesOwnStart b).slaveEn = b.slaveEn := by unfold Bus.slaveSeesOwnStart; split <;> rfl
@[simp] theorem slaveSeesOwnStart_multiMasterDis (b : Bus) : (Bus.slaveSeesOwnStart b).multiMasterDis = b.multiMasterDis := by unfold Bus.slaveSeesOwnStart; split <;> rfl
@[simp] theorem slaveSeesOwnStart_timing (b : Bus) : (Bus.slaveSeesOwnStart b).timing = b.timing := by unfold Bus.slaveSeesOwnStart; split <;> rfl
@[simp] theorem slaveSeesOwnStart_sclTiming (b : Bus) : (Bus.slaveSeesOwnStart b).sclTiming = b.sclTiming := by unfold Bus.slaveSeesOwnStart; split <;> rfl
@[simp] theorem slaveSeesOwnStart_timeout (b : Bus) : (Bus.slaveSeesOwnStart b).timeout = b.timeout := by unfold Bus.slaveSeesOwnStart; split <;> rfl
@[simp] theorem slaveSeesOwnStart_ier (b : Bus) : (Bus.slaveSeesOwnStart b).ier = b.ier := by unfold Bus.slaveSeesOwnStart; split <;> rfl
@[simp] theorem slaveSeesOwnStart_isr (b : Bus) : (Bus.slaveSeesOwnStart b).isr = b.isr := by unfold Bus.slaveSeesOwnStart; split <;> rfl
@[simp] theorem slaveSeesOwnStart_cmd (b : Bus) : (Bus.slaveSeesOwnStart b).cmd = b.cmd := by unfold Bus.slaveSeesOwnStart; split <;> rfl
@[simp] theorem slaveSeesOwnStart_devAddr (b : Bus) : (Bus.slaveSeesOwnStart b).devAddr = b.devAddr := by unfold Bus.slaveSeesOwnStart; split <;> rfl
@[simp] theorem slaveSeesOwnStart_txEnd (b : Bus) : (Bus.slaveSeesOwnStart b).txEnd = b.txEnd := by unfold Bus.slaveSeesOwnStart; split <;> rfl
@[simp] theorem slaveSeesOwnStart_rxEnd (b : Bus) : (Bus.slaveSeesOwnStart b).rxEnd = b.rxEnd := by unfold Bus.slaveSeesOwnStart; split <;> rfl
@[simp] theorem slaveSeesOwnStart_bufCount (b : Bus) : (Bus.slaveSeesOwnStart b).bufCount = b.bufCount := by unfold Bus.slaveSeesOwnStart; split <;> rfl
@[simp] theorem slaveSeesOwnStart_txByte (b : Bus) : (Bus.slaveSeesOwnStart b).txByte = b.txByte := by unfold Bus.slaveSeesOwnStart; split <;> rfl
@[simp] theorem slaveSeesOwnStart_rxByte (b : Bus) : (Bus.slaveSeesOwnStart b).rxByte = b.rxByte := by unfold Bus.slaveSeesOwnStart; split <;> rfl
@[simp] theorem slaveSeesOwnStart_dmaAddr (b : Bus) : (Bus.slaveSeesOwnStart b).dmaAddr = b.dmaAddr := by unfold Bus.slaveSeesOwnStart; split <;> rfl
@[simp] theorem slaveSeesOwnStart_dmaLenProg (b : Bus) : (Bus.slaveSeesOwnStart b).dmaLenProg = b.dmaLenProg := by unfold Bus.slaveSeesOwnStart; split <;> rfl
@[simp] theorem slaveSeesOwnStart_dmaMoved (b : Bus) : (Bus.slaveSeesOwnStart b).dmaMoved = b.dmaMoved := by unfold Bus.slaveSeesOwnStart; split <;> rfl
@[simp] theorem slaveSeesOwnStart_pool (b : Bus) : (Bus.slaveSeesOwnStart b).pool = b.pool := by unfold Bus.slaveSeesOwnStart; split <;> rfl
@[simp] theorem slaveSeesOwnStart_mstate (b : Bus) : (Bus.slaveSeesOwnStart b).mstate = b.mstate := by unfold Bus.slaveSeesOwnStart; split <;> rfl
@[simp] theorem slaveSeesOwnStart_own (b : Bus) : (Bus.slaveSeesOwnStart b).own = b.own := by unfold Bus.slaveSeesOwnStart; split <;> rfl
@[simp] theorem slaveSeesOwnStart_lastSlot (b : Bus) : (Bus.slaveSeesOwnStart b).lastSlot = b.lastSlot := by unfold Bus.slaveSeesOwnStart; split <;> rfl
@[simp] theorem slaveSeesOwnStart_sPath (b : Bus) : (Bus.slaveSeesOwnStart b).sPath = b.sPath := by unfold Bus.slaveSeesOwnStart; split <;> rfl
@[simp] theorem slaveSeesOwnStart_sCount (b : Bus) : (Bus.slaveSeesOwnStart b).sCount = b.sCount := by unfold Bus.slaveSeesOwnStart; split <;> rfl
@[simp] theorem slaveSeesOwnStart_sCap (b : Bus) : (Bus.slaveSeesOwnStart b).sCap = b.sCap := by unfold Bus.slaveSeesOwnStart; split <;> rfl
@[simp] theorem slaveSeesOwnStart_sBase (b : Bus) : (Bus.slaveSeesOwnStart b).sBase = b.sBase := by unfold Bus.slaveSeesOwnStart; split <;> rfl
@[simp] theorem slaveSeesOwnStart_dmaPtr (b : Bus) : (Bus.slaveSeesOwnStart b).dmaPtr = b.dmaPtr := by unfold Bus.slaveSeesOwnStart; split <;> rfl
@[simp] theorem slaveSeesOwnStart_refused (b : Bus) : (Bus.slaveSeesOwnStart b).refused = b.refused := by unfold Bus.slaveSeesOwnStart; split <;> rfl
@[simp] theorem slaveSeesOwnStart_stuck (b : Bus) : (Bus.slaveSeesOwnStart b).stuck = b.stuck := by unfold Bus.slaveSeesOwnStart; split <;> rfl
@[simp] theorem slaveSeesOwnStart_mDrv (b : Bus) : (Bus.slaveSeesOwnStart b).mDrv = b.mDrv := by unfold Bus.slaveSeesOwnStart; split <;> rfl
@[simp] theorem slaveSeesOwnStart_env (b : Bus) : (Bus.slaveSeesOwnStart b).env = b.env := by unfold Bus.slaveSeesOwnStart; split <;> rfl
@[simp] theorem slaveSeesOwnStart_busBusy (b : Bus) : (Bus.slaveSeesOwnStart b).busBusy = b.busBusy := by unfold Bus.slaveSeesOwnStart; split <;> rfl
@[simp] theorem slaveSeesOwnStart_stale (b : Bus) : (Bus.slaveSeesOwnStart b).stale = b.stale := by unfold Bus.slaveSeesOwnStart; split <;> rfl
@[simp] theorem slaveSeesOwnStart_rxOldPool (b : Bus) : (Bus.slaveSeesOwnStart b).rxOldPool = b.rxOldPool := by unfold Bus.slaveSeesOwnStart; split <;> rfl
@[simp] theorem slaveSeesOwnStart_rxOldMem (b : Bus) : (Bus.slaveSeesOwnStart b).rxOldMem = b.rxOldMem := by unfold Bus.slaveSeesOwnStart; split <;> rfl
@[simp] theorem slaveSeesOwnStart_wire (b : Bus) : (Bus.slaveSeesOwnStart b).wire = b.wire := by unfold Bus.slaveSeesOwnStart; split <;> rfl

/-! ## slaveSeesOwnStop -/

@[simp] theorem slaveSeesOwnStop_masterEn (b : Bus) : (Bus.slaveSeesOwnStop b).masterEn = b.masterEn := by unfold Bus.slaveSeesOwnStop; split <;> rfl
@[simp] theorem slaveSeesOwnStop_slaveEn (b : Bus) : (Bus.slaveSeesOwnStop b).slaveEn = b.slaveEn := by unfold Bus.slaveSeesOwnStop; split <;> rfl
@[simp] theorem slaveSeesOwnStop_multiMasterDis (b : Bus) : (Bus.slaveSeesOwnStop b).multiMasterDis = b.multiMasterDis := by unfold Bus.slaveSeesOwnStop; split <;> rfl
@[simp] theorem slaveSeesOwnStop_timing (b : Bus) : (Bus.slaveSeesOwnStop b).timing = b.timing := by unfold Bus.slaveSeesOwnStop; split <;> rfl
@[simp] theorem slaveSeesOwnStop_sclTiming (b : Bus) : (Bus.slaveSeesOwnStop b).sclTiming = b.sclTiming := by unfold Bus.slaveSeesOwnStop; split <;> rfl
@[simp] theorem slaveSeesOwnStop_timeout (b : Bus) : (Bus.slaveSeesOwnStop b).timeout = b.timeout := by unfold Bus.slaveSeesOwnStop; split <;> rfl
@[simp] theorem slaveSeesOwnStop_ier (b : Bus) : (Bus.slaveSeesOwnStop b).ier = b.ier := by unfold Bus.slaveSeesOwnStop; split <;> rfl
@[simp] theorem slaveSeesOwnStop_isr (b : Bus) : (Bus.slaveSeesOwnStop b).isr = b.isr := by unfold Bus.slaveSeesOwnStop; split <;> rfl
@[simp] theorem slaveSeesOwnStop_cmd (b : Bus) : (Bus.slaveSeesOwnStop b).cmd = b.cmd := by unfold Bus.slaveSeesOwnStop; split <;> rfl
@[simp] theorem slaveSeesOwnStop_devAddr (b : Bus) : (Bus.slaveSeesOwnStop b).devAddr = b.devAddr := by unfold Bus.slaveSeesOwnStop; split <;> rfl
@[simp] theorem slaveSeesOwnStop_txEnd (b : Bus) : (Bus.slaveSeesOwnStop b).txEnd = b.txEnd := by unfold Bus.slaveSeesOwnStop; split <;> rfl
@[simp] theorem slaveSeesOwnStop_rxEnd (b : Bus) : (Bus.slaveSeesOwnStop b).rxEnd = b.rxEnd := by unfold Bus.slaveSeesOwnStop; split <;> rfl
@[simp] theorem slaveSeesOwnStop_bufCount (b : Bus) : (Bus.slaveSeesOwnStop b).bufCount = b.bufCount := by unfold Bus.slaveSeesOwnStop; split <;> rfl
@[simp] theorem slaveSeesOwnStop_txByte (b : Bus) : (Bus.slaveSeesOwnStop b).txByte = b.txByte := by unfold Bus.slaveSeesOwnStop; split <;> rfl
@[simp] theorem slaveSeesOwnStop_rxByte (b : Bus) : (Bus.slaveSeesOwnStop b).rxByte = b.rxByte := by unfold Bus.slaveSeesOwnStop; split <;> rfl
@[simp] theorem slaveSeesOwnStop_dmaAddr (b : Bus) : (Bus.slaveSeesOwnStop b).dmaAddr = b.dmaAddr := by unfold Bus.slaveSeesOwnStop; split <;> rfl
@[simp] theorem slaveSeesOwnStop_dmaLenProg (b : Bus) : (Bus.slaveSeesOwnStop b).dmaLenProg = b.dmaLenProg := by unfold Bus.slaveSeesOwnStop; split <;> rfl
@[simp] theorem slaveSeesOwnStop_dmaMoved (b : Bus) : (Bus.slaveSeesOwnStop b).dmaMoved = b.dmaMoved := by unfold Bus.slaveSeesOwnStop; split <;> rfl
@[simp] theorem slaveSeesOwnStop_pool (b : Bus) : (Bus.slaveSeesOwnStop b).pool = b.pool := by unfold Bus.slaveSeesOwnStop; split <;> rfl
@[simp] theorem slaveSeesOwnStop_mstate (b : Bus) : (Bus.slaveSeesOwnStop b).mstate = b.mstate := by unfold Bus.slaveSeesOwnStop; split <;> rfl
@[simp] theorem slaveSeesOwnStop_own (b : Bus) : (Bus.slaveSeesOwnStop b).own = b.own := by unfold Bus.slaveSeesOwnStop; split <;> rfl
@[simp] theorem slaveSeesOwnStop_lastSlot (b : Bus) : (Bus.slaveSeesOwnStop b).lastSlot = b.lastSlot := by unfold Bus.slaveSeesOwnStop; split <;> rfl
@[simp] theorem slaveSeesOwnStop_sPath (b : Bus) : (Bus.slaveSeesOwnStop b).sPath = b.sPath := by unfold Bus.slaveSeesOwnStop; split <;> rfl
@[simp] theorem slaveSeesOwnStop_sCount (b : Bus) : (Bus.slaveSeesOwnStop b).sCount = b.sCount := by unfold Bus.slaveSeesOwnStop; split <;> rfl
@[simp] theorem slaveSeesOwnStop_sCap (b : Bus) : (Bus.slaveSeesOwnStop b).sCap = b.sCap := by unfold Bus.slaveSeesOwnStop; split <;> rfl
@[simp] theorem slaveSeesOwnStop_sBase (b : Bus) : (Bus.slaveSeesOwnStop b).sBase = b.sBase := by unfold Bus.slaveSeesOwnStop; split <;> rfl
@[simp] theorem slaveSeesOwnStop_dmaPtr (b : Bus) : (Bus.slaveSeesOwnStop b).dmaPtr = b.dmaPtr := by unfold Bus.slaveSeesOwnStop; split <;> rfl
@[simp] theorem slaveSeesOwnStop_refused (b : Bus) : (Bus.slaveSeesOwnStop b).refused = b.refused := by unfold Bus.slaveSeesOwnStop; split <;> rfl
@[simp] theorem slaveSeesOwnStop_stuck (b : Bus) : (Bus.slaveSeesOwnStop b).stuck = b.stuck := by unfold Bus.slaveSeesOwnStop; split <;> rfl
@[simp] theorem slaveSeesOwnStop_mDrv (b : Bus) : (Bus.slaveSeesOwnStop b).mDrv = b.mDrv := by unfold Bus.slaveSeesOwnStop; split <;> rfl
@[simp] theorem slaveSeesOwnStop_env (b : Bus) : (Bus.slaveSeesOwnStop b).env = b.env := by unfold Bus.slaveSeesOwnStop; split <;> rfl
@[simp] theorem slaveSeesOwnStop_busBusy (b : Bus) : (Bus.slaveSeesOwnStop b).busBusy = b.busBusy := by unfold Bus.slaveSeesOwnStop; split <;> rfl
@[simp] theorem slaveSeesOwnStop_stale (b : Bus) : (Bus.slaveSeesOwnStop b).stale = b.stale := by unfold Bus.slaveSeesOwnStop; split <;> rfl
@[simp] theorem slaveSeesOwnStop_rxOldPool (b : Bus) : (Bus.slaveSeesOwnStop b).rxOldPool = b.rxOldPool := by unfold Bus.slaveSeesOwnStop; split <;> rfl
@[simp] theorem slaveSeesOwnStop_rxOldMem (b : Bus) : (Bus.slaveSeesOwnStop b).rxOldMem = b.rxOldMem := by unfold Bus.slaveSeesOwnStop; split <;> rfl
@[simp] theorem slaveSeesOwnStop_wire (b : Bus) : (Bus.slaveSeesOwnStop b).wire = b.wire := by unfold Bus.slaveSeesOwnStop; split <;> rfl

/-! ## What the branching updates write -/

@[simp] theorem afterCond_afterCond (l : LastSlot) : l.afterCond.afterCond = l.afterCond := by cases l <;> rfl
@[simp] theorem mayLoseCond_iff (b : Bus) : b.mayLoseCond = true ↔ b.lastSlot ≠ .other := by simp [Bus.mayLoseCond]

@[simp] theorem nextPhase_nil (b : Bus) : Bus.nextPhase [] b = b.endCommand := rfl
@[simp] theorem nextPhase_cons_cmd (ph : Phase) (rest : List Phase) (b : Bus) :
    (Bus.nextPhase (ph :: rest) b).cmd = b.cmd &&& pendingBits (ph :: rest) := rfl
@[simp] theorem nextPhase_cons_mstate (ph : Phase) (rest : List Phase) (b : Bus) :
    (Bus.nextPhase (ph :: rest) b).mstate = .exec (ph :: rest) .fresh := rfl
@[simp] theorem nextPhase_cons_mDrv (ph : Phase) (rest : List Phase) (b : Bus) :
    (Bus.nextPhase (ph :: rest) b).mDrv = b.mDrv := rfl
@[simp] theorem endCommand_cmd (b : Bus) : b.endCommand.cmd = 0 := by unfold Bus.endCommand; split <;> rfl
@[simp] theorem endCommand_mstate (b : Bus) : b.endCommand.mstate = if b.own then .hold else .idle := by
  unfold Bus.endCommand; split <;> rfl
@[simp] theorem endCommand_mDrv (b : Bus) :
    b.endCommand.mDrv = if b.own then { b.mDrv with scl := .low } else b.mDrv := by
  unfold Bus.endCommand; split <;> rfl
@[simp] theorem slotFault_mDrv (f : SlotFault) (pk : SrcPick) (b : Bus) : (Bus.slotFault f pk b).mDrv = {} := by
  cases f <;> first | rfl | (rename_i k; cases k <;> rfl)
@[simp] theorem slotFault_own (f : SlotFault) (pk : SrcPick) (b : Bus) : (Bus.slotFault f pk b).own = false := by
  cases f <;> first | rfl | (rename_i k; cases k <;> rfl)
@[simp] theorem slotFault_cmd (f : SlotFault) (pk : SrcPick) (b : Bus) : (Bus.slotFault f pk b).cmd = 0 := by
  cases f <;> first | rfl | (rename_i k; cases k <;> rfl)
@[simp] theorem slotFault_mstate (f : SlotFault) (pk : SrcPick) (b : Bus) : (Bus.slotFault f pk b).mstate = .idle := by
  cases f <;> first | rfl | (rename_i k; cases k <;> rfl)
@[simp] theorem slotFault_isr (f : SlotFault) (pk : SrcPick) (b : Bus) : (Bus.slotFault f pk b).isr = b.isr ||| f.bit := by
  cases f <;> first | rfl | (rename_i k; cases k <;> rfl)
@[simp] theorem slotFault_sclTiming (f : SlotFault) (pk : SrcPick) (b : Bus) :
    (Bus.slotFault f pk b).sclTiming = b.faultTiming pk := by
  cases f <;> first | rfl | (rename_i k; cases k <;> rfl)
@[simp] theorem faultTiming_setMoved (pk : SrcPick) (path : Path) (k : Nat) (b : Bus) :
    (Bus.setMoved path k b).faultTiming pk = b.faultTiming pk := by cases path <;> rfl
@[simp] theorem clearStx_cmd (b : Bus) : b.clearStx.cmd = if b.sstate.isTx then 0 else b.cmd := by
  unfold Bus.clearStx; split <;> rfl
@[simp] theorem dropStx_cmd (b : Bus) : b.dropStx.cmd = if b.sstate.isTx then 0 else b.cmd := by
  unfold Bus.dropStx; split <;> simp_all [SState.isTx]
/-- A bus whose slave runs no STX has nothing to drop. -/
theorem dropStx_of_not_isTx {b : Bus} (h : b.sstate.isTx = false) : b.dropStx = b := by
  unfold Bus.dropStx; split <;> simp_all [SState.isTx]
@[simp] theorem stopped_sclTiming (b : Bus) : b.stopped.sclTiming = b.stopTiming := by
  unfold Bus.stopped; simp
@[simp] theorem slaveSeesOwnStart_sstate (b : Bus) :
    b.slaveSeesOwnStart.sstate = if b.slaveEn then .ignore else b.sstate := by
  unfold Bus.slaveSeesOwnStart; split <;> rfl
@[simp] theorem slaveSeesOwnStart_sDrv (b : Bus) :
    b.slaveSeesOwnStart.sDrv = if b.slaveEn then {} else b.sDrv := by
  unfold Bus.slaveSeesOwnStart; split <;> rfl
@[simp] theorem slaveSeesOwnStop_sstate (b : Bus) :
    b.slaveSeesOwnStop.sstate = if b.slaveEn then .idle else b.sstate := by
  unfold Bus.slaveSeesOwnStop; split <;> rfl
@[simp] theorem slaveSeesOwnStop_sDrv (b : Bus) :
    b.slaveSeesOwnStop.sDrv = if b.slaveEn then {} else b.sDrv := by
  unfold Bus.slaveSeesOwnStop; split <;> rfl

namespace Machine

/-! ## setBus -/

@[simp] theorem setBus_params (s : State) (n : Nat) (b : Bus) : (s.setBus n b).params = s.params := rfl
@[simp] theorem setBus_buses (s : State) (n : Nat) (b : Bus) : (s.setBus n b).buses = s.buses.set n b := rfl
@[simp] theorem setBus_clkDiv (s : State) (n : Nat) (b : Bus) : (s.setBus n b).clkDiv = s.clkDiv := rfl
@[simp] theorem setBus_mem (s : State) (n : Nat) (b : Bus) : (s.setBus n b).mem = s.mem := rfl
@[simp] theorem setBus_hosts (s : State) (n : Nat) (b : Bus) : (s.setBus n b).hosts = s.hosts := rfl
@[simp] theorem setBus_disp (s : State) (n : Nat) (b : Bus) : (s.setBus n b).disp = s.disp := rfl
@[simp] theorem setBus_inputs (s : State) (n : Nat) (b : Bus) : (s.setBus n b).inputs = s.inputs := rfl
@[simp] theorem setBus_fresh (s : State) (n : Nat) (b : Bus) : (s.setBus n b).fresh = s.fresh := rfl
@[simp] theorem setBus_sel (s : State) (n : Nat) (b : Bus) : (s.setBus n b).sel = s.sel := rfl
@[simp] theorem setBus_rdata (s : State) (n : Nat) (b : Bus) : (s.setBus n b).rdata = s.rdata := rfl

end Machine

end Sys2Proof
end

