-- ==== Sys2Proof/Laws/Inv.lean ====
section
/-! SUPPORT. The shared operations keep the invariant of a bus: one lemma for each, for the proofs about whole steps. -/

namespace Sys2Proof

/-- Two words inside a mask. -/
theorem or_masked {a b c : Word} (ha : a &&& c = 0) (hb : b &&& c = 0) : (a ||| b) &&& c = 0 := by
  have h : (a ||| b) &&& c = (a &&& c) ||| (b &&& c) := by ext i; simp [Bool.and_or_distrib_right]
  rw [h, ha, hb]; rfl

/-- Clearing bits stays inside a mask. -/
theorem and_masked {a b c : Word} (ha : a &&& c = 0) : (a &&& b) &&& c = 0 := by
  rw [BitVec.and_assoc, BitVec.and_comm b c, ← BitVec.and_assoc, ha]; simp

/-- The fault bits are implemented. -/
theorem faultBit_impl (f : SlotFault) : f.bit &&& ~~~isrImpl = 0 := by
  cases f <;> first | decide | (rename_i k; cases k <;> decide)

variable {p : Params} {b : Bus}

theorem Bus.Inv.setStatus {m : Word} (hm : m &&& ~~~isrImpl = 0) (h : b.Inv p) : (Bus.setStatus m b).Inv p :=
  { h with isr := or_masked h.isr hm }

theorem Bus.Inv.clearStatus (v : Word) (h : b.Inv p) : (Bus.clearStatus v b).Inv p :=
  { h with isr := and_masked h.isr }

theorem Bus.Inv.refuse (h : b.Inv p) : b.refuse.Inv p := { h with }

theorem Bus.Inv.stuck (v : Bool) (h : b.Inv p) : Bus.Inv p { b with stuck := v } := { h with }

theorem Bus.Inv.onWire (w : WireItem) (h : b.Inv p) : (b.onWire w).Inv p := { h with }

theorem Bus.Inv.setMoved (path : Path) (k : Nat) (h : b.Inv p) : (b.setMoved path k).Inv p := by
  cases path
  · exact h
  · exact { h with }
  · exact { h with }

theorem Bus.Inv.advanceDma (path : Path) (h : b.Inv p) : (b.advanceDma path).Inv p := by
  cases path
  · exact h
  · exact h
  · exact { h with }

/-- A slot's record. -/
theorem Bus.Inv.ranSlot (l : LastSlot) (h : b.Inv p) : (b.ranSlot l).Inv p := { h with timing := h.timing }

/-- A slot on an owned bus. -/
theorem Bus.Inv.slotDone {l : LastSlot} (ho : b.own = true) (h : b.Inv p) : (b.slotDone l).Inv p := by
  obtain hs | ⟨ph, pr, hs⟩ := h.ownState ho
  · exact { h with timing := h.timing, ownScl := fun _ => rfl, released := by simp [hs] }
  · exact { h with timing := h.timing, ownScl := fun _ => rfl, released := by simp [hs] }

/-- The abort of a command that runs. -/
theorem Bus.Inv.mAbort {m : Word} (hm : m &&& ~~~isrImpl = 0) (hb : b.mstate.busy = true) (h : b.Inv p) :
    (b.mAbort m).Inv p := by
  have hoff : b.masterEn = true := by
    cases he : b.masterEn
    · rw [h.masterOff.2 he] at hb; cases hb
    · rfl
  have htx : b.sstate.isTx = false := by
    cases ht : b.sstate.isTx
    · rfl
    · rw [h.stx ht] at hb; cases hb
  exact
    { h with
      isr := or_masked h.isr hm
      masterOff := by simp [hoff]
      ownState := by simp
      ownScl := by simp
      ownBusy := by simp
      ownSlave := by simp
      hold := by simp
      released := by simp
      exec := by simp
      cmd := by
        cases hs : b.sstate <;> simp [cmdOk, hs]
      stx := fun _ => rfl }

theorem Bus.Inv.busBusy {v : Bool} (ho : b.own = true → v = true) (hm : b.monitoring = true) (h : b.Inv p) :
    Bus.Inv p { b with busBusy := v } :=
  { h with ownBusy := ho, busy := fun _ => hm }

/-- A running command's bus is monitored. -/
theorem Bus.Inv.monitoring_of_busy (hb : b.mstate.busy = true) (h : b.Inv p) : b.monitoring = true := by
  have : b.masterEn = true := by
    cases he : b.masterEn
    · rw [h.masterOff.2 he] at hb; cases hb
    · rfl
  simp [Bus.monitoring, this]

theorem slotFault_eq (f : SlotFault) (pk : SrcPick) (b : Bus) :
    b.slotFault f pk = { b.mAbort f.bit with busBusy := (b.slotFault f pk).busBusy, sclTiming := b.faultTiming pk } := by
  cases f <;> first | rfl | (rename_i k; cases k <;> rfl)

theorem Bus.Inv.slotFault {f : SlotFault} {pk : SrcPick} (hb : b.mstate.busy = true) (h : b.Inv p) :
    (b.slotFault f pk).Inv p := by
  rw [slotFault_eq]
  have hm0 := h.monitoring_of_busy hb
  have hm : (b.mAbort f.bit).monitoring = true := hm0
  exact { (h.mAbort (faultBit_impl f) hb).busBusy (v := (b.slotFault f pk).busBusy) (by simp) hm with }

@[simp] theorem afterNak_nil : afterNak [] = [] := rfl
@[simp] theorem afterNak_addr (rest : List Phase) : afterNak (.addr :: rest) = afterNak rest := rfl
@[simp] theorem afterNak_tx (q : Path) (rest : List Phase) : afterNak (.tx q :: rest) = afterNak rest := rfl
@[simp] theorem afterNak_rx (q : Path) (l : Bool) (rest : List Phase) : afterNak (.rx q l :: rest) = afterNak rest := rfl
@[simp] theorem afterNak_stop (rest : List Phase) : afterNak (.stop :: rest) = .stop :: afterNak rest := rfl
theorem pendingBits_cons (ph : Phase) (rest : List Phase) : pendingBits (ph :: rest) = ph.bits ||| pendingBits rest := rfl

/-- The bits of the phases that an N leaves are among those of all of them. -/
theorem pendingBits_afterNak (rest : List Phase) : pendingBits rest &&& pendingBits (afterNak rest) = pendingBits (afterNak rest) := by
  induction rest with
  | nil => rfl
  | cons ph rest ih =>
    have key : ∀ x y z : BitVec 12, y &&& z = z → (x ||| y) &&& z = z := by
      intro x y z hyz
      have : (x ||| y) &&& z = (x &&& z) ||| (y &&& z) := by ext i; simp [Bool.and_or_distrib_right]
      rw [this, hyz]; ext i; simp
    have key2 : ∀ x y z : BitVec 12, y &&& z = z → (x ||| y) &&& (x ||| z) = x ||| z := by
      intro x y z hyz
      ext i hi
      have hi2 := congrArg (fun v => v[i]) hyz
      simp only [BitVec.getElem_and, BitVec.getElem_or] at hi2 ⊢
      revert hi2
      generalize x[i] = u; generalize y[i] = v; generalize z[i] = w
      revert u v w
      decide
    cases ph with
    | addr => rw [afterNak_addr, pendingBits_cons]; exact key _ _ _ ih
    | tx q => rw [afterNak_tx, pendingBits_cons]; exact key _ _ _ ih
    | rx q l => rw [afterNak_rx, pendingBits_cons]; exact key _ _ _ ih
    | stop => rw [afterNak_stop, pendingBits_cons, pendingBits_cons]; exact key2 _ _ _ ih

theorem restOk_afterNak : ∀ rest : List Phase, restOk rest = true → restOk (afterNak rest) = true
  | [], _ => rfl
  | .addr :: _, h => by simp [restOk] at h
  | .tx _ :: rest, h => restOk_afterNak rest (by simpa [restOk] using h)
  | .rx _ _ :: rest, h => restOk_afterNak rest (by simpa [restOk] using h)
  | [.stop], _ => rfl
  | .stop :: _ :: _, h => by simp [restOk] at h

theorem pendingBits_cons_and (ph : Phase) (rest : List Phase) : pendingBits (ph :: rest) &&& pendingBits rest = pendingBits rest := by
  simp only [pendingBits]
  ext i; simp; intro h; exact .inr h

/-- On to the phases `rest` of an owned bus. -/
theorem Bus.Inv.nextPhase {ph : Phase} {rest0 rest : List Phase} {pr : Progress} (hs : b.mstate = .exec (ph :: rest0) pr)
    (ho : b.own = true) (hr : restOk rest = true)
    (hbits : pendingBits (ph :: rest0) &&& pendingBits rest = pendingBits rest) (h : b.Inv p) : (b.nextPhase rest).Inv p := by
  have hc : b.cmd = pendingBits (ph :: rest0) := by simpa [cmdOk, hs] using h.cmd
  have hoff : b.masterEn = true := by
    cases he : b.masterEn
    · rw [h.masterOff.2 he] at hs; cases hs
    · rfl
  have htx : b.sstate.isTx = false := by
    cases ht : b.sstate.isTx
    · rfl
    · have := h.stx ht; simp [hs, MState.busy] at this
  cases rest with
  | nil =>
    rw [nextPhase_nil, Bus.endCommand, if_pos ho]
    exact
      { h with
        masterOff := by simp [hoff]
        ownState := fun _ => .inl rfl
        ownScl := fun _ => rfl
        hold := fun _ => ho
        released := by simp
        exec := by simp
        cmd := by cases hst : b.sstate <;> simp [cmdOk]
        stx := fun _ => rfl }
  | cons ph2 rest2 =>
    exact
      { h with
        masterOff := by simp [Bus.nextPhase, hoff]
        ownState := fun _ => .inr ⟨_, _, rfl⟩
        hold := by simp [Bus.nextPhase]
        released := by simp [Bus.nextPhase]
        exec := by
          intro ph' pr' he
          simp only [Bus.nextPhase, MState.exec.injEq] at he
          obtain ⟨rfl, rfl⟩ := he
          have ho' : (Bus.nextPhase (ph2 :: rest2) b).own = true := by simp [ho]
          rw [ho']
          cases ph2 with
          | addr => simp [restOk] at hr
          | tx q => simpa [execOk, dataProgressOk, restOk] using hr
          | rx q l => simpa [execOk, dataProgressOk, restOk] using hr
          | stop =>
            cases rest2 with
            | nil => rfl
            | cons _ _ => simp [restOk] at hr
        cmd := by simp only [cmdOk, Bus.nextPhase, hc, hbits, beq_self_eq_true]
        stx := by intro ht; simp [htx, Bus.nextPhase] at ht }

/-- Progress inside a data phase of an owned bus. -/
theorem Bus.Inv.moved {ph : Phase} {rest : List Phase} {pr pr2 : Progress} (hs : b.mstate = .exec (ph :: rest) pr)
    (he : execOk p b.own (ph :: rest) pr2 = true) (h : b.Inv p) :
    Bus.Inv p { b with mstate := .exec (ph :: rest) pr2 } := by
  have hoff : b.masterEn = true := by
    cases hm : b.masterEn
    · rw [h.masterOff.2 hm] at hs; cases hs
    · rfl
  exact
    { h with
      masterOff := by simp [hoff]
      ownState := fun _ => .inr ⟨_, _, rfl⟩
      hold := by simp
      released := by simp
      exec := by
        intro ph' pr' hx
        simp only [MState.exec.injEq] at hx
        obtain ⟨rfl, rfl⟩ := hx
        exact he
      cmd := by have := h.cmd; simpa [cmdOk, hs] using this
      stx := by
        intro ht
        have := h.stx ht
        simp [hs, MState.busy] at this }

/-- The START or repeated START of an address phase. -/
theorem Bus.Inv.started {rest : List Phase} {pr : Progress} (hs : b.mstate = .exec (.addr :: rest) pr)
    (h : b.Inv p) : (b.started rest).Inv p := by
  have hoff : b.masterEn = true := by
    cases hm : b.masterEn
    · rw [h.masterOff.2 hm] at hs; cases hs
    · rfl
  have htx : b.sstate.isTx = false := by
    cases ht : b.sstate.isTx
    · rfl
    · have := h.stx ht; simp [hs, MState.busy] at this
  have hr : restOk rest = true := by
    have := h.exec _ _ hs
    cases pr <;> simp_all [execOk]
  have hc := h.cmd
  rw [hs] at hc
  unfold Bus.started
  by_cases hse : b.slaveEn = false
  · have hso := h.slaveOff.2 hse
    rw [Bus.slaveSeesOwnStart, if_neg (by simp [hse])]
    exact
      { h with
        masterOff := by simp [hoff]
        ownState := fun _ => .inr ⟨_, _, rfl⟩
        ownScl := fun _ => rfl
        ownBusy := fun _ => rfl
        ownSlave := fun _ => .inl hso
        hold := by simp
        released := by simp
        busy := fun _ => by simp [Bus.monitoring, hoff]
        exec := by
          intro ph' pr' hx
          simp only [MState.exec.injEq] at hx
          obtain ⟨rfl, rfl⟩ := hx
          simp [execOk, hr]
        cmd := hc
        stx := by intro ht; rw [htx] at ht; cases ht }
  · rw [Bus.slaveSeesOwnStart, if_pos (by simp [hse])]
    exact
      { h with
        masterOff := by simp [hoff]
        slaveOff := by simp [hse]
        ownState := fun _ => .inr ⟨_, _, rfl⟩
        ownScl := fun _ => rfl
        ownBusy := fun _ => rfl
        ownSlave := fun _ => .inr (.inr rfl)
        hold := by simp
        released := by simp
        stretch := by simp
        slaveSda := rfl
        busy := fun _ => by simp [Bus.monitoring, hoff]
        exec := by
          intro ph' pr' hx
          simp only [MState.exec.injEq] at hx
          obtain ⟨rfl, rfl⟩ := hx
          simp [execOk, hr]
        cmd := hc
        stx := by simp [SState.isTx]
        room := by simp
        txRoom := by simp [SState.isTx]
        readPath := by simp [SState.isTx] }

end Sys2Proof
end

