-- ==== Sys2Proof/Laws/EngineInv.lean ====
section
/-! SUPPORT. Every step of the master engine keeps the invariant of its bus and the canonical form of memory: one lemma for each kind
of phase. -/

namespace Sys2Proof

variable {p : Params} {b : Bus}

/-- The STOP of this engine, and the end of its command. -/
theorem Bus.Inv.stopPhase (hs : b.mstate = .exec [.stop] .fresh) (h : b.Inv p) :
    ((b.stopped.setStatus maskNormalStop).nextPhase []).Inv p := by
  have hm := h.monitoring_of_busy (by rw [hs]; rfl)
  have hoff : b.masterEn = true := by
    cases hm : b.masterEn
    · rw [h.masterOff.2 hm] at hs; cases hs
    · rfl
  have htx : b.sstate.isTx = false := by
    cases ht : b.sstate.isTx
    · rfl
    · have := h.stx ht; simp [hs, MState.busy] at this
  rw [nextPhase_nil, Bus.endCommand]
  have ho : b.stopped.own = false := by simp [Bus.stopped]
  rw [if_neg (by simp [ho])]
  by_cases hse : b.slaveEn = false
  · have hso := h.slaveOff.2 hse
    rw [Bus.stopped, Bus.slaveSeesOwnStop, if_neg (by simp [hse])]
    exact
      { h with
        isr := or_masked h.isr (by decide)
        masterOff := by simp [hoff]
        ownState := by simp
        ownScl := by simp
        ownBusy := by simp
        ownSlave := by simp
        hold := by simp
        released := fun _ => rfl
        busy := by simp
        exec := by simp
        cmd := by simp [cmdOk, hso]
        stx := by simp [MState.busy] }
  · rw [Bus.stopped, Bus.slaveSeesOwnStop, if_pos (by simp [hse])]
    exact
      { h with
        isr := or_masked h.isr (by decide)
        masterOff := by simp [hoff]
        slaveOff := by simp [hse]
        ownState := by simp
        ownScl := by simp
        ownBusy := by simp
        ownSlave := by simp
        hold := by simp
        released := fun _ => rfl
        stretch := by simp
        slaveSda := rfl
        busy := by simp
        exec := by simp
        cmd := by simp [cmdOk]
        stx := by simp [SState.isTx]
        room := by simp
        txRoom := by simp [SState.isTx]
        readPath := by simp [SState.isTx] }

/-- A step of a STOP phase. -/
theorem Bus.Inv.stopStep {rest : List Phase} {pr : Progress} {r : LineResult} {b2 : Bus}
    (hs : b.mstate = .exec (.stop :: rest) pr) (he : b.stopStep rest r = some b2) (h : b.Inv p) : b2.Inv p := by
  have hb : b.mstate.busy = true := by rw [hs]; rfl
  have hx := h.exec _ _ hs
  have hrest : rest = [] ∧ pr = .fresh := by
    cases rest <;> cases pr <;> simp_all [execOk]
  obtain ⟨rfl, rfl⟩ := hrest
  cases r <;> simp only [Bus.stopStep] at he <;> split at he <;> cases he
  · exact h.stopPhase hs
  all_goals exact Bus.Inv.mAbort (b := { b with sclTiming := b.stopTiming }) (by decide) hb { h with }

/-- A step of `do_start`. -/
theorem Bus.Inv.startStep {rest : List Phase} {pr : Progress} {d : Draw} {b2 : Bus}
    (hs : b.mstate = .exec (.addr :: rest) pr) (he : b.startStep p pr rest d = some b2) (h : b.Inv p) : b2.Inv p := by
  have hb : b.mstate.busy = true := by rw [hs]; rfl
  unfold Bus.startStep at he
  split at he
  · cases d <;> try (cases he)
    rename_i r
    cases r <;> simp only [Bus.stepSr] at he <;> split at he <;> cases he
    · exact h.started hs
    all_goals exact h.mAbort (by decide) hb
  · split at he
    · cases d <;> try (cases he)
      rename_i r
      cases r <;> simp only [Bus.stepS] at he <;> try split at he
      all_goals cases he
      · exact h.started hs
      all_goals exact h.mAbort (by decide) hb
    · rename_i ho _
      split at he
      · split at he <;> cases he
        · refine h.moved hs ?_
          have hx := h.exec _ _ hs
          simp_all [execOk]
        · exact h.mAbort (by decide) hb
      · cases he

/-- The address slot. -/
theorem Bus.Inv.addrStep {rest : List Phase} {r : TxResult} {pk : SrcPick} {b2 : Bus}
    (hs : b.mstate = .exec (.addr :: rest) .started) (he : b.addrStep p rest r pk = some b2) (h : b.Inv p) : b2.Inv p := by
  have hb : b.mstate.busy = true := by rw [hs]; rfl
  have hx := h.exec _ _ hs
  simp only [execOk, Bool.and_eq_true] at hx
  obtain ⟨hr, ho⟩ := hx
  unfold Bus.addrStep at he
  dsimp only at he
  split at he
  · cases he
    cases r with
    | ack =>
      dsimp only
      refine Bus.Inv.nextPhase (ph := .addr) (rest0 := rest) (pr := .started) ?_ ?_ hr (pendingBits_cons_and _ _) (Bus.Inv.setStatus ?_ (Bus.Inv.onWire _ (h.slotDone ho)))
      · simpa using hs
      · simpa using ho
      · unfold Bus.addrAckStatus; split <;> decide
    | nak =>
      dsimp only
      refine Bus.Inv.nextPhase (ph := .addr) (rest0 := rest) (pr := .started) ?_ ?_ (restOk_afterNak _ hr) ?_ (Bus.Inv.setStatus (by decide) (Bus.Inv.onWire _ (h.slotDone ho)))
      · simpa using hs
      · simpa using ho
      · exact (afterNak_addr rest) ▸ pendingBits_afterNak (.addr :: rest)
    | fault f => exact (h.ranSlot _).slotFault hb
  · cases he

/-- One byte of a transmit phase. -/
theorem Bus.Inv.txMove {mem : Memory} {path : Path} {i n : Nat} {rest : List Phase} {pr : Progress} {r : TxResult} {pk : SrcPick} {b2 : Bus}
    (hs : b.mstate = .exec (.tx path :: rest) pr) (hin : i < n) (hn : path = .buf → n ≤ p.bufSize)
    (he : b.txMove p mem path i n rest r pk = some b2) (h : b.Inv p) : b2.Inv p := by
  have hx := h.exec _ _ hs
  simp only [execOk, Bool.and_eq_true] at hx
  obtain ⟨⟨hr, ho⟩, -⟩ := hx
  unfold Bus.txMove at he
  split at he
  · cases he; exact h.stuck _
  · have h1 := h.advanceDma path
    have hs1 : (b.advanceDma path).mstate = .exec (.tx path :: rest) pr := by simpa using hs
    have ho1 : (b.advanceDma path).own = true := by simpa using ho
    generalize b.advanceDma path = c at *
    unfold Bus.txSlot at he
    split at he
    · cases he
      cases r with
      | ack =>
        dsimp only
        split
        · refine Bus.Inv.nextPhase (ph := .tx path) (rest0 := rest) (pr := pr) ?_ ?_ hr (pendingBits_cons_and _ _)
            (Bus.Inv.setStatus (by decide) (Bus.Inv.setMoved _ _ (Bus.Inv.onWire _ (h1.slotDone ho1))))
          · simpa using hs1
          · simpa using ho1
        · rename_i hne
          refine Bus.Inv.moved (pr := pr) ?_ ?_ (Bus.Inv.onWire _ (h1.slotDone ho1))
          · simpa using hs1
          · simp only [onWire_own, slotDone_own, ho1, execOk, hr, dataProgressOk, Bool.and_eq_true, decide_eq_true_eq, Bool.or_eq_true, true_and]
            refine ⟨by omega, ?_⟩
            cases path <;> simp_all
      | nak =>
        dsimp only
        refine Bus.Inv.nextPhase (ph := .tx path) (rest0 := rest) (pr := pr) ?_ ?_ (restOk_afterNak _ hr) ?_
            (Bus.Inv.setStatus (by decide) (Bus.Inv.setMoved _ _ (Bus.Inv.onWire _ (h1.slotDone ho1))))
        · simpa using hs1
        · simpa using ho1
        · exact (afterNak_tx path rest) ▸ pendingBits_afterNak (.tx path :: rest)
      | fault f =>
        refine Bus.Inv.slotFault ?_ ((h1.setMoved _ _).ranSlot _)
        simp [hs1, MState.busy]
    · cases he

/-- What the start of a transmit phase gives: at least one byte, a buffer phase inside the pool, and only `dma_ptr` changed. -/
theorem beginTx_spec {path : Path} {pk : SrcPick} {n : Nat} {b1 : Bus} (he : b.beginTx p path pk = some (n, b1)) :
    0 < n ∧ (path = .buf → n ≤ p.bufSize) ∧ ∃ a, b1 = { b with dmaPtr := a } := by
  cases path <;> simp only [Bus.beginTx] at he
  · cases he; exact ⟨by omega, by simp, b.dmaPtr, rfl⟩
  · split at he <;> cases he
    exact ⟨by omega, fun _ => by assumption, b.dmaPtr, rfl⟩
  · split at he <;> cases he
    rename_i hr
    simp only [Params.dmaRangeOk, Bool.and_eq_true, decide_eq_true_eq] at hr
    exact ⟨by omega, by simp, _, rfl⟩

/-- What the start of a receive phase gives. -/
theorem beginRx_spec {path : Path} {pk : SrcPick} {n : Nat} {b1 : Bus} (he : b.beginRx p path pk = some (n, b1)) :
    0 < n ∧ (path = .buf → n ≤ p.bufSize) ∧ ∃ a x y, b1 = { b with dmaPtr := a, rxOldPool := x, rxOldMem := y } := by
  cases path <;> simp only [Bus.beginRx] at he
  · cases he; exact ⟨by omega, by simp, b.dmaPtr, b.rxOldPool, b.rxOldMem, rfl⟩
  · split at he <;> cases he
    exact ⟨by omega, fun _ => by assumption, b.dmaPtr, [], b.rxOldMem, rfl⟩
  · split at he <;> cases he
    rename_i hr
    simp only [Params.dmaRangeOk, Bool.and_eq_true, decide_eq_true_eq] at hr
    exact ⟨by omega, by simp, _, b.rxOldPool, [], rfl⟩

/-- A step of a transmit phase. -/
theorem Bus.Inv.txStep {mem : Memory} {path : Path} {rest : List Phase} {pr : Progress} {r : TxResult} {pk : SrcPick} {b2 : Bus}
    (hs : b.mstate = .exec (.tx path :: rest) pr)
    (he : b.txStep p mem path pr rest r pk = some b2) (h : b.Inv p) : b2.Inv p := by
  unfold Bus.txStep at he
  cases pr with
  | fresh =>
    dsimp only at he
    split at he
    · cases he; exact h.refuse
    · rename_i n b1 hbt
      obtain ⟨hn, hb, a, rfl⟩ := beginTx_spec hbt
      refine Bus.Inv.txMove (b := { b with dmaPtr := a }) hs hn hb he ?_
      exact { h with }
  | moving i n =>
    have hx := h.exec _ _ hs
    simp only [execOk, dataProgressOk, Bool.and_eq_true, decide_eq_true_eq, Bool.or_eq_true] at hx
    refine h.txMove hs hx.2.1 ?_ he
    rintro rfl
    simpa using hx.2.2
  | waitBus => cases he
  | started => cases he

/-- Putting a received byte away. -/
theorem Bus.Inv.rxStore {mem : Memory} {path : Path} {i : Nat} {d : Byte} {r : Bus × Memory}
    (he : b.rxStore p mem path i d = some r) (h : b.Inv p) : r.1.Inv p ∧ r.1.mstate = b.mstate ∧ r.1.own = b.own := by
  cases path <;> simp only [Bus.rxStore] at he
  · cases he; exact ⟨{ h with }, rfl, rfl⟩
  · cases he; exact ⟨{ h with pool := by simpa using h.pool }, rfl, rfl⟩
  · split at he <;> cases he
    exact ⟨{ h with }, rfl, rfl⟩

/-- Putting a received byte away keeps memory canonical. -/
theorem rxStore_wf {mem : Memory} {path : Path} {i : Nat} {d : Byte} {r : Bus × Memory}
    (he : b.rxStore p mem path i d = some r) (hm : Memory.wf mem = true) : Memory.wf r.2 = true := by
  obtain h | ⟨-, h⟩ := rxStore_mem he
  · rw [h]; exact hm
  · rw [h]; exact Memory.wf_write b.dmaPtr.isLt hm

/-- One byte of a receive phase. -/
theorem Bus.Inv.rxMove {mem : Memory} {path : Path} {last : Bool} {i n : Nat} {rest : List Phase} {pr : Progress} {r : RxResult} {pk : SrcPick}
    {b2 : Bus × Memory} (hs : b.mstate = .exec (.rx path last :: rest) pr) (hin : i < n) (hn : path = .buf → n ≤ p.bufSize)
    (he : b.rxMove p mem path last i n rest r pk = some b2) (h : b.Inv p) (hm : Memory.wf mem = true) :
    b2.1.Inv p ∧ Memory.wf b2.2 = true := by
  have hx := h.exec _ _ hs
  simp only [execOk, Bool.and_eq_true] at hx
  obtain ⟨⟨hr, ho⟩, -⟩ := hx
  unfold Bus.rxMove at he
  dsimp only at he
  split at he
  · cases r with
    | fault f =>
      cases he
      refine ⟨Bus.Inv.slotFault ?_ ((h.setMoved _ _).ranSlot _), hm⟩
      simp [hs, MState.busy]
    | data d =>
      dsimp only at he
      have h1 := Bus.Inv.onWire (.byte d (rxAnswer last i n)) (h.slotDone (l := (rxAnswer last i n).rxSlot) ho)
      split at he
      · cases he; exact ⟨h1.stuck _, hm⟩
      · rename_i b3 mem2 hst
        cases he
        obtain ⟨h2, e1, e2⟩ := h1.rxStore hst
        dsimp only at h2 e1 e2
        have hw := rxStore_wf hst hm
        refine ⟨?_, hw⟩
        have e1' : b3.mstate = .exec (.rx path last :: rest) pr := by rw [e1]; simpa using hs
        have e2' : b3.own = true := by rw [e2]; simpa using ho
        dsimp only
        unfold Bus.rxNext
        split
        · refine Bus.Inv.nextPhase (ph := .rx path last) (rest0 := rest) (pr := pr) ?_ ?_ hr (pendingBits_cons_and _ _)
            (Bus.Inv.setStatus (by decide) (h2.setMoved _ _))
          · simpa using e1'
          · simpa using e2'
        · refine h2.moved e1' ?_
          simp only [e2', execOk, hr, dataProgressOk, Bool.and_eq_true, decide_eq_true_eq, Bool.or_eq_true, true_and]
          refine ⟨by omega, ?_⟩
          cases path <;> simp_all
  · cases he

/-- A step of a receive phase. -/
theorem Bus.Inv.rxStep {mem : Memory} {path : Path} {last : Bool} {rest : List Phase} {pr : Progress} {r : RxResult} {pk : SrcPick} {b2 : Bus × Memory}
    (hs : b.mstate = .exec (.rx path last :: rest) pr)
    (he : b.rxStep p mem path last pr rest r pk = some b2) (h : b.Inv p) (hm : Memory.wf mem = true) :
    b2.1.Inv p ∧ Memory.wf b2.2 = true := by
  unfold Bus.rxStep at he
  cases pr with
  | fresh =>
    dsimp only at he
    split at he
    · cases he; exact ⟨h.refuse, hm⟩
    · rename_i n b1 hbt
      obtain ⟨hn, hb, a, x, y, rfl⟩ := beginRx_spec hbt
      refine Bus.Inv.rxMove (b := { b with dmaPtr := a, rxOldPool := x, rxOldMem := y }) hs hn hb he ?_ hm
      exact { h with }
  | moving i n =>
    have hx := h.exec _ _ hs
    simp only [execOk, dataProgressOk, Bool.and_eq_true, decide_eq_true_eq, Bool.or_eq_true] at hx
    refine h.rxMove hs hx.2.1 ?_ he hm
    rintro rfl
    simpa using hx.2.2
  | waitBus => cases he
  | started => cases he

/-- The end of a recovery. -/
theorem Bus.Inv.recoverEnd {k : Nat} (hs : b.mstate = .recover k) (h : b.Inv p) : b.recoverEnd.Inv p := by
  have hoff : b.masterEn = true := by
    cases hm : b.masterEn
    · rw [h.masterOff.2 hm] at hs; cases hs
    · rfl
  have ho : b.own = false := by
    cases ho : b.own
    · rfl
    · obtain h1 | ⟨_, _, h1⟩ := h.ownState ho <;> rw [hs] at h1 <;> cases h1
  have htx : b.sstate.isTx = false := by
    cases ht : b.sstate.isTx
    · rfl
    · have := h.stx ht; simp [hs, MState.busy] at this
  exact
    { h with
      masterOff := by simp [hoff]
      ownState := by simp [ho]
      ownScl := by simp [ho]
      hold := by simp
      released := fun _ => rfl
      exec := by simp
      cmd := by cases hst : b.sstate <;> simp [cmdOk, hst]
      stx := fun _ => rfl }

/-- A step of a recovery. -/
theorem Bus.Inv.recoverStep {k : Nat} {d : Draw} {b2 : Bus} (hs : b.mstate = .recover k)
    (he : b.recoverStep p k d = some b2) (h : b.Inv p) : b2.Inv p := by
  have hoff : b.masterEn = true := by
    cases hm : b.masterEn
    · rw [h.masterOff.2 hm] at hs; cases hs
    · rfl
  have ho : b.own = false := by
    cases ho : b.own
    · rfl
    · obtain h1 | ⟨_, _, h1⟩ := h.ownState ho <;> rw [hs] at h1 <;> cases h1
  have htx : b.sstate.isTx = false := by
    cases ht : b.sstate.isTx
    · rfl
    · have := h.stx ht; simp [hs, MState.busy] at this
  unfold Bus.recoverStep at he
  split at he
  · split at he <;> cases he
    refine Bus.Inv.setStatus (by decide) ?_
    refine Bus.Inv.recoverEnd (k := k) (by simpa using hs) ?_
    by_cases hse : b.slaveEn = false
    · rw [Bus.slaveSeesOwnStop, if_neg (by simp [hse])]
      exact { h with ownBusy := by simp [ho], busy := by simp }
    · rw [Bus.slaveSeesOwnStop, if_pos (by simp [hse])]
      have hc : b.cmd = bitsRecover := by simpa [cmdOk, hs] using h.cmd
      exact
        { h with
          slaveOff := by simp [hse]
          ownBusy := by simp [ho]
          ownSlave := by simp [ho]
          stretch := by simp
          slaveSda := rfl
          busy := by simp
          cmd := by simp [cmdOk, hs, hc]
          stx := by simp [SState.isTx]
          room := by simp
          txRoom := by simp [SState.isTx]
          readPath := by simp [SState.isTx] }
  · split at he <;> cases he
    exact Bus.Inv.setStatus (by decide) { h.recoverEnd hs with }
  · split at he <;> cases he
    exact
      { h with
        masterOff := by simp [hoff]
        ownState := by simp [ho]
        ownScl := by simp [ho]
        hold := by simp
        released := by simp
        exec := by simp
        cmd := by have := h.cmd; simpa [cmdOk, hs] using this
        stx := by intro ht; rw [htx] at ht; cases ht }
  · split at he <;> cases he
    unfold Bus.recoverFailed
    split
    · exact Bus.Inv.setStatus (by decide) (h.recoverEnd hs)
    · exact h.recoverEnd hs
  · cases he

/-- A step of the first phase of a command. -/
theorem Bus.Inv.phaseStep {mem : Memory} {ph : Phase} {rest : List Phase} {pr : Progress} {d : Draw} {pk : SrcPick} {b2 : Bus × Memory}
    (hs : b.mstate = .exec (ph :: rest) pr) (he : b.phaseStep p mem ph pr rest d pk = some b2) (h : b.Inv p) (hm : Memory.wf mem = true) :
    b2.1.Inv p ∧ Memory.wf b2.2 = true := by
  have lift : ∀ {o : Option Bus}, o.map (·, mem) = some b2 → (∀ b3, o = some b3 → b3.Inv p) → b2.1.Inv p ∧ Memory.wf b2.2 = true := by
    intro o ho hk
    cases o with
    | none => cases ho
    | some b3 => cases ho; exact ⟨hk _ rfl, hm⟩
  unfold Bus.phaseStep at he
  split at he
  · exact lift he fun _ hb => h.addrStep hs hb
  · cases he
  · cases he
  · exact lift he fun _ hb => h.startStep hs hb
  · split at he
    · exact lift he fun _ hb => h.txStep hs hb
    · cases he
  · split at he
    · exact h.rxStep hs he hm
    · cases he
  · exact lift he fun _ hb => h.stopStep hs hb
  · cases he

/-- A step of the master engine. -/
theorem Bus.Inv.masterStep {mem : Memory} {d : Draw} {pk : SrcPick} {b2 : Bus × Memory}
    (he : b.masterStep p mem d pk = some b2) (h : b.Inv p) (hm : Memory.wf mem = true) :
    b2.1.Inv p ∧ Memory.wf b2.2 = true := by
  unfold Bus.masterStep at he
  split at he
  · cases he
  · split at he
    · rename_i hs; exact h.phaseStep hs he hm
    · rename_i k hs
      cases hr : b.recoverStep p k d with
      | none => rw [hr] at he; cases he
      | some b3 => rw [hr] at he; cases he; exact ⟨h.recoverStep hs hr, hm⟩
    · cases he

end Sys2Proof
end

