-- ==== Sys2Proof/Laws/SlaveInv.lean ====
section
/-! SUPPORT. Every step of a bus's environment and slave keeps the invariant of the bus and the canonical form of memory. -/

namespace Sys2Proof

variable {p : Params} {b : Bus}

/-- Where the slave leaves its states and releases the lines. -/
theorem Bus.Inv.slaveTo {st : SState} {c : BitVec 12} (hse : b.slaveEn = true)
    (hst : st = .idle ∨ st = .addr ∨ st = .ignore ∨ st = .waitStop) (hown : b.own = false)
    (hc : cmdOk c b.mstate st = true)
    (h : b.Inv p) : Bus.Inv p { b with cmd := c, sstate := st, sDrv := {} } :=
  { h with
    slaveOff := by rcases hst with rfl | rfl | rfl | rfl <;> simp [hse]
    ownSlave := by simp [hown]
    stretch := by rcases hst with rfl | rfl | rfl | rfl <;> simp
    slaveSda := rfl
    cmd := hc
    stx := by rcases hst with rfl | rfl | rfl | rfl <;> simp [SState.isTx]
    room := by rcases hst with rfl | rfl | rfl | rfl <;> simp
    txRoom := by rcases hst with rfl | rfl | rfl | rfl <;> simp [SState.isTx]
    readPath := by rcases hst with rfl | rfl | rfl | rfl <;> simp [SState.isTx] }

/-- CMD after a pending STX is dropped. -/
def Bus.cmdDropped (b : Bus) : BitVec 12 := if b.sstate.isTx then 0 else b.cmd

/-- The length register after a pending STX is dropped. -/
def Bus.stxCounted (b : Bus) : Bus :=
  match b.sstate with
  | .tx path => b.setMoved path b.sCount
  | _ => b

/-- Dropping an STX changes CMD and its path's length register. -/
theorem dropStx_eq (b : Bus) : b.dropStx = { b.stxCounted with cmd := b.cmdDropped } := by
  unfold Bus.dropStx Bus.stxCounted Bus.cmdDropped
  cases h : b.sstate with
  | tx path => cases path <;> simp [SState.isTx, Bus.setMoved, h]
  | _ => simp [SState.isTx]

theorem Bus.Inv.stxCounted (h : b.Inv p) : b.stxCounted.Inv p := by
  unfold Bus.stxCounted
  split
  · exact h.setMoved _ _
  · exact h

/-- Of the fields, the length registers alone can differ. -/
theorem stxCounted_fields (b : Bus) : b.stxCounted.slaveEn = b.slaveEn ∧ b.stxCounted.own = b.own ∧ b.stxCounted.mstate = b.mstate := by
  unfold Bus.stxCounted; split <;> simp

/-- CMD is right for a state without STX once a pending STX is dropped. -/
theorem cmdDropped_ok {st : SState} (hst : st.isTx = false) (h : b.Inv p) : cmdOk b.cmdDropped b.mstate st = true := by
  have hc := h.cmd
  unfold Bus.cmdDropped
  split
  · rename_i ht
    have hb := h.stx ht
    cases hm : b.mstate <;> simp_all [MState.busy, cmdOk] <;> cases st <;> simp_all [SState.isTx]
  · rename_i ht
    cases hm : b.mstate <;> simp_all [cmdOk] <;> cases st <;> cases hs : b.sstate <;> simp_all [SState.isTx]

/-- Setting a bit and ending at a state with the lines released: the common shape of the ends of a session. -/
theorem Bus.Inv.sessionTo {st : SState} {m : Word} (hm : m &&& ~~~isrImpl = 0) (hse : b.slaveEn = true) (hown : b.own = false)
    (hst : st = .idle ∨ st = .addr ∨ st = .ignore ∨ st = .waitStop) (h : b.Inv p) :
    Bus.Inv p { (b.setStatus m).dropStx with sstate := st, sDrv := {} } := by
  have hs := h.setStatus hm
  obtain ⟨e1, e2, e3⟩ := stxCounted_fields (b.setStatus m)
  rw [dropStx_eq]
  refine Bus.Inv.slaveTo (b := (b.setStatus m).stxCounted) (c := (b.setStatus m).cmdDropped) (e1.trans hse) hst (e2.trans hown) (e3.symm ▸ cmdDropped_ok ?_ hs) hs.stxCounted
  rcases hst with rfl | rfl | rfl | rfl <;> rfl

/-- Delivery of a partial batch. -/
theorem Bus.Inv.deliverBatch (h : b.Inv p) : b.deliverBatch.Inv p := by
  unfold Bus.deliverBatch
  split
  · exact Bus.Inv.setStatus (by decide) (h.setMoved _ _)
  · exact h


/-- The record of a batch that a timeout ends. -/
theorem Bus.Inv.recordBatch (h : b.Inv p) : b.recordBatch.Inv p := by
  unfold Bus.recordBatch
  split
  · exact h.setMoved _ _
  · exact h

/-- Setting no bit changes nothing. -/
theorem setStatus_zero (b : Bus) : b.setStatus 0 = b := by simp [Bus.setStatus]

/-- A remote START. -/
theorem Bus.Inv.slaveStart (hown : b.own = false) (h : b.Inv p) : b.slaveStart.Inv p := by
  unfold Bus.slaveStart
  split
  · rename_i hse
    have := h.deliverBatch.sessionTo (m := 0) (st := .addr) (by decide) (by simp [hse]) (by simp [hown]) (by simp)
    rwa [setStatus_zero] at this
  · exact h

/-- To S_IDLE with the lines released, from a state without STX. -/
theorem Bus.Inv.slaveIdle (hse : b.slaveEn = true) (hown : b.own = false) (htx : b.sstate.isTx = false) (h : b.Inv p) :
    Bus.Inv p { b with sstate := .idle, sDrv := {} } := by
  have hs := h.sessionTo (m := 0) (st := .idle) (by decide) hse hown (by simp)
  rwa [setStatus_zero, dropStx_of_not_isTx htx] at hs

/-- A remote STOP. -/
theorem Bus.Inv.slaveStop (hown : b.own = false) (h : b.Inv p) : b.slaveStop.Inv p := by
  unfold Bus.slaveStop
  split
  · rename_i hse
    split
    · exact h.deliverBatch.sessionTo (by decide) (by simp [hse]) (by simp [hown]) (by simp)
    · rename_i hl
      refine h.slaveIdle hse hown ?_
      cases hs : b.sstate <;> simp_all [SState.listening, SState.isTx]
  · exact h

/-- A START or STOP inside a byte. -/
theorem Bus.Inv.slaveMid (k : Cond) (hown : b.own = false) (h : b.Inv p) : (b.slaveMid k).Inv p := by
  unfold Bus.slaveMid
  split
  · rename_i hse
    simp only [Bool.and_eq_true] at hse
    cases k
    · exact h.deliverBatch.sessionTo (by decide) (by simp [hse.1]) (by simp [hown]) (by simp)
    · exact Bus.Inv.setStatus (m := maskNormalStop) (by decide)
        (h.deliverBatch.sessionTo (m := maskAbnormal) (st := .idle) (by decide) (by simp [hse.1]) (by simp [hown]) (by simp))
  · cases k
    · exact h.slaveStart hown
    · exact h.slaveStop hown

/-- A slave timeout. -/
theorem Bus.Inv.slaveTimeout (l : Line) (hl : b.sstate.listening = true) (hown : b.own = false) (h : b.Inv p) : (b.slaveTimeout l).Inv p := by
  have hse : b.slaveEn = true := by
    cases he : b.slaveEn
    · rw [h.slaveOff.2 he] at hl; cases hl
    · rfl
  exact h.recordBatch.sessionTo (by cases l <;> decide) (by simp [hse]) (by simp [hown]) (by simp)

/-- A stretch. -/
theorem Bus.Inv.stretched {st : SState} (hst : st = .rxWait ∨ (st = .txWait ∧ b.sPath = .byte)) (hse : b.slaveEn = true) (hown : b.own = false)
    (hc : cmdOk b.cmd b.mstate st = true) (h : b.Inv p) : Bus.Inv p (b.stretch st) :=
  { h with
    slaveOff := by rcases hst with rfl | ⟨rfl, -⟩ <;> simp [hse]
    ownSlave := by simp [hown]
    stretch := by rcases hst with rfl | ⟨rfl, -⟩ <;> simp
    cmd := hc
    stx := by rcases hst with rfl | ⟨rfl, -⟩ <;> simp [SState.isTx]
    room := by rcases hst with rfl | ⟨rfl, -⟩ <;> simp
    txRoom := by rcases hst with rfl | ⟨rfl, -⟩ <;> simp [SState.isTx]
    readPath := by rcases hst with rfl | ⟨rfl, hp⟩ <;> simp [SState.isTx, *] }

/-- CMD is right for any two states without STX. -/
theorem cmdOk_other {c : BitVec 12} {m : MState} {s1 s2 : SState} (h1 : s1.isTx = false) (h2 : s2.isTx = false)
    (h : cmdOk c m s1 = true) : cmdOk c m s2 = true := by
  cases m <;> cases s1 <;> cases s2 <;> simp_all [cmdOk, SState.isTx]

/-- An address match. -/
theorem Bus.Inv.slaveMatch (d : Byte) (hst : b.sstate = .addr) (hown : b.own = false) (h : b.Inv p) : (b.slaveMatch d).Inv p := by
  have hse : b.slaveEn = true := by
    cases he : b.slaveEn
    · rw [h.slaveOff.2 he] at hst; cases hst
    · rfl
  unfold Bus.slaveMatch
  refine Bus.Inv.stretched ?_ (by simpa using hse) (by simpa using hown) ?_ (Bus.Inv.setStatus (by decide) (Bus.Inv.onWire _ ?_))
  · split <;> simp
  · refine cmdOk_other (s1 := .addr) rfl ?_ ?_
    · split <;> rfl
    · have := h.cmd; rw [hst] at this; simpa using this
  · exact
      { h with
        bufCap := by simp
        dmaCap := by simp
        room := by simp
        txRoom := by simp [hst, SState.isTx]
        readPath := by simp }

/-- One more byte of a batch. -/
theorem Bus.Inv.batchNext (hst : b.sstate = .rx) (hp : b.sPath ≠ .byte) (hown : b.own = false) (h : b.Inv p) : b.batchNext.Inv p := by
  have hse : b.slaveEn = true := by
    cases he : b.slaveEn
    · rw [h.slaveOff.2 he] at hst; cases hst
    · rfl
  have hroom := h.room hst hp
  unfold Bus.batchNext
  dsimp only
  have hc : cmdOk b.cmd b.mstate .rxWait = true := by
    refine cmdOk_other (s1 := .rx) rfl rfl ?_
    have := h.cmd; rwa [hst] at this
  split
  · -- the batch is full
    rename_i hf
    have e : ∀ q k, ((Bus.setMoved q k { b with sCount := b.sCount + 1 }).setStatus maskRxDone).stretch .rxWait
        = { ((Bus.setMoved q k b).setStatus maskRxDone).stretch .rxWait with sCount := b.sCount + 1 } := by
      intro q k; cases q <;> rfl
    rw [e]
    have h2 : Bus.Inv p (((Bus.setMoved b.sPath (b.sCount + 1) b).setStatus maskRxDone).stretch .rxWait) := by
      refine Bus.Inv.stretched (.inl rfl) (by simpa using hse) (by simpa using hown) (by simpa using hc)
        (Bus.Inv.setStatus (by decide) (h.setMoved _ _))
    exact { h2 with room := by simp [Bus.stretch], txRoom := by simp [Bus.stretch, SState.isTx] }
  · rename_i hf
    exact { h with room := fun _ _ => by dsimp only at hf ⊢; omega, txRoom := by simp [hst, SState.isTx] }

/-- A byte the slave stores; memory stays canonical. -/
theorem Bus.Inv.slaveStore {mem : Memory} (d : Byte) (hst : b.sstate = .rx) (hown : b.own = false) (h : b.Inv p) (hm : Memory.wf mem = true) :
    (b.slaveStore p mem d).1.Inv p ∧ Memory.wf (b.slaveStore p mem d).2 = true := by
  have hse : b.slaveEn = true := by
    cases he : b.slaveEn
    · rw [h.slaveOff.2 he] at hst; cases hst
    · rfl
  have hroom := h.room hst
  unfold Bus.slaveStore
  dsimp only
  split
  · refine ⟨?_, hm⟩
    refine Bus.Inv.stretched (.inl rfl) (by simpa using hse) (by simpa using hown) ?_ (Bus.Inv.setStatus (by decide) ?_)
    · refine cmdOk_other (s1 := .rx) rfl rfl ?_
      have := h.cmd; rw [hst] at this; simpa using this
    · exact { h with }
  · rename_i hp
    refine ⟨?_, hm⟩
    refine Bus.Inv.batchNext (by simpa using hst) (by simp [hp]) (by simpa using hown) ?_
    exact { h with pool := by simpa using h.pool }
  · rename_i hp
    split
    · have hlt : b.sBase.toNat + b.sCount < 2 ^ 32 := by
        have := h.dmaCap hp
        have := hroom (by simp [hp])
        omega
      refine ⟨?_, Memory.wf_write hlt hm⟩
      refine Bus.Inv.batchNext (by simpa using hst) (by simp [hp]) (by simpa using hown) ?_
      exact { h with }
    · exact ⟨{ h with }, hm⟩

/-- A byte the remote side writes. -/
theorem Bus.Inv.slaveWrite {mem : Memory} (d : Byte) (hown : b.own = false) (h : b.Inv p) (hm : Memory.wf mem = true) :
    (b.slaveWrite p mem d).1.Inv p ∧ Memory.wf (b.slaveWrite p mem d).2 = true := by
  unfold Bus.slaveWrite
  split
  · rename_i hst
    refine ⟨?_, hm⟩
    dsimp only
    split
    · exact h.slaveMatch d hst hown
    · have hse : b.slaveEn = true := by
        cases he : b.slaveEn
        · rw [h.slaveOff.2 he] at hst; cases hst
        · rfl
      have hsd : b.sDrv = {} := by
        have h1 : b.sDrv.scl = .rel := by
          cases hd : b.sDrv.scl
          · have := h.stretch.1 hd; simp [hst] at this
          · rfl
        have h2 := h.slaveSda
        cases hw : b.sDrv
        simp_all
      have := h.sessionTo (m := 0) (st := .ignore) (by decide) hse hown (by simp)
      rw [setStatus_zero, dropStx_of_not_isTx (by simp [hst, SState.isTx])] at this
      rw [← hsd] at this
      exact this
  · rename_i hst
    exact h.slaveStore d hst hown hm
  · exact ⟨h, hm⟩

/-- A byte of STX that went out. -/
theorem Bus.Inv.stxAnswered {path : Path} (v : Byte) (a : Ack) (hst : b.sstate = .tx path) (hown : b.own = false) (h : b.Inv p) :
    (b.stxAnswered path v a).Inv p := by
  have hse : b.slaveEn = true := by
    cases he : b.slaveEn
    · rw [h.slaveOff.2 he] at hst; cases hst
    · rfl
  have htx : b.sstate.isTx = true := by rw [hst]; rfl
  have hroom := h.txRoom htx
  have hpath := h.readPath (.inr htx)
  have hbusy := h.stx htx
  unfold Bus.stxAnswered
  dsimp only
  cases a with
  | ack =>
    dsimp only
    split
    · have e : ∀ q k, ((Bus.setMoved q k { ({ b with sCount := b.sCount + 1 }.onWire (.byte v .ack)) with cmd := 0 }).setStatus maskTxAck).stretch .txWait
        = { (((Bus.setMoved q k b).setStatus maskTxAck).stretch .txWait) with sCount := b.sCount + 1, cmd := 0, wire := .byte v .ack :: b.wire } := by
        intro q k; cases q <;> rfl
      rw [e]
      have h1 := Bus.Inv.setStatus (m := maskTxAck) (by decide) (h.setMoved path (b.sCount + 1))
      have hc : cmdOk 0 b.mstate .txWait = true := by
        cases hm : b.mstate <;> simp_all [cmdOk, MState.busy]
      exact
        { h1 with
          slaveOff := by simp [hse, Bus.stretch]
          ownSlave := by simp [hown, Bus.stretch]
          stretch := by simp [Bus.stretch]
          cmd := by simpa [Bus.stretch] using hc
          stx := by simp [SState.isTx, Bus.stretch]
          room := by simp [Bus.stretch]
          txRoom := by simp [SState.isTx, Bus.stretch]
          readPath := by simp [hpath, Bus.stretch] }
    · rename_i hf
      exact
        { h with
          room := by simp [Bus.onWire, hst]
          txRoom := fun _ => by simp [Bus.onWire] at hf ⊢; omega }
  | nak =>
    dsimp only
    have e : ∀ q k, (Bus.setMoved q k { ({ b with sCount := b.sCount + 1 }.onWire (.byte v .nak)) with cmd := 0 }).setStatus maskTxNak
        = { ((Bus.setMoved q k b).setStatus maskTxNak) with sCount := b.sCount + 1, cmd := 0, wire := .byte v .nak :: b.wire } := by
      intro q k; cases q <;> rfl
    rw [e]
    have h1 := Bus.Inv.setStatus (m := maskTxNak) (by decide) (h.setMoved path (b.sCount + 1))
    have hc : cmdOk 0 b.mstate .waitStop = true := by
      cases hm : b.mstate <;> simp_all [cmdOk, MState.busy]
    exact
      { h1 with
        slaveOff := by simp [hse]
        ownSlave := by simp [hown]
        stretch := by simp
        slaveSda := rfl
        cmd := by simpa using hc
        stx := by simp [SState.isTx]
        room := by simp
        txRoom := by simp [SState.isTx]
        readPath := by simp [SState.isTx] }

/-- A byte the remote side reads. -/
theorem Bus.Inv.slaveRead {mem : Memory} (a : Ack) (pk : SrcPick) (hown : b.own = false) (h : b.Inv p) : (b.slaveRead p mem a pk).Inv p := by
  unfold Bus.slaveRead
  split
  · rename_i path hst
    split
    · exact h.stuck _
    · exact h.stxAnswered _ _ hst hown
  · exact h

/-- The remote side moves only while this engine does not own the bus. -/
theorem own_of_remoteMay (hr : b.remoteMay = true) (h : b.Inv p) : b.own = false := by
  cases ho : b.own
  · rfl
  · have := h.ownScl ho
    simp [Bus.remoteMay, Bus.drvScl, this, Drive.and] at hr

/-- An environment step other than a line hold. -/
theorem Bus.Inv.remoteStep {mem : Memory} {e : EnvEvent} {pk : SrcPick} {r : Bus × Memory} (he : b.remoteStep p mem e pk = some r)
    (h : b.Inv p) (hm : Memory.wf mem = true) : r.1.Inv p ∧ Memory.wf r.2 = true := by
  unfold Bus.remoteStep at he
  cases e with
  | s =>
    dsimp only at he; split at he <;> cases he
    rename_i hc
    simp only [Bool.and_eq_true] at hc
    have ho := own_of_remoteMay hc.1.1.1 h
    refine ⟨Bus.Inv.slaveStart (by simpa using ho) ?_, hm⟩
    exact { h with ownBusy := by simp [ho], busy := id }
  | sr =>
    dsimp only at he; split at he <;> cases he
    rename_i hc
    simp only [Bus.remoteOwns, Bool.and_eq_true] at hc
    exact ⟨h.slaveStart (own_of_remoteMay hc.1 h), hm⟩
  | p =>
    dsimp only at he; split at he <;> cases he
    rename_i hc
    simp only [Bus.remoteOwns, Bool.and_eq_true] at hc
    have ho := own_of_remoteMay hc.1 h
    refine ⟨Bus.Inv.slaveStop (by simpa using ho) ?_, hm⟩
    exact { h with ownBusy := by simp [ho], busy := by simp }
  | wbyte d =>
    dsimp only at he; split at he <;> cases he
    rename_i hc
    simp only [Bus.remoteOwns, Bool.and_eq_true] at hc
    exact h.slaveWrite d (own_of_remoteMay hc.1 h) hm
  | rbyte a =>
    dsimp only at he; split at he <;> cases he
    rename_i hc
    simp only [Bus.remoteOwns, Bool.and_eq_true] at hc
    exact ⟨h.slaveRead a pk (own_of_remoteMay hc.1 h), hm⟩
  | mid k =>
    dsimp only at he; split at he <;> cases he
    rename_i hc
    simp only [Bus.remoteOwns, Bool.and_eq_true] at hc
    have ho := own_of_remoteMay hc.1 h
    refine ⟨Bus.Inv.slaveMid k (by simpa using ho) ?_, hm⟩
    exact { h with ownBusy := by simp [ho], busy := fun _ => h.busy hc.2 }
  | hold l => cases he
  | release l => cases he
  | timeout l =>
    dsimp only at he; split at he <;> cases he
    rename_i hc
    simp only [Bus.timeoutMay, Bool.and_eq_true] at hc
    refine ⟨h.slaveTimeout l hc.1.2 ?_, hm⟩
    cases ho : b.own
    · rfl
    · have := h.ownSlave ho
      rcases this with h1 | h1 | h1 <;> simp [h1, SState.listening] at hc

/-- A line hold or release by the environment. -/
theorem Bus.Inv.envPut (l : Line) (v : Drive) (h : b.Inv p) : Bus.Inv p { b with env := b.env.put l v } := { h with }

/-- An environment step. -/
theorem Bus.Inv.envStep {mem : Memory} {e : EnvEvent} {pk : SrcPick} {r : Bus × Memory} (he : b.envStep p mem e pk = some r)
    (h : b.Inv p) (hm : Memory.wf mem = true) : r.1.Inv p ∧ Memory.wf r.2 = true := by
  unfold Bus.envStep at he
  split at he
  · cases he
  · split at he
    · cases he; exact ⟨h.envPut _ _, hm⟩
    · cases he; exact ⟨h.envPut _ _, hm⟩
    · split at he
      · cases he
      · exact h.remoteStep he hm

/-- The slave's internal step. -/
theorem Bus.Inv.slaveStep {b2 : Bus} (he : b.slaveStep = some b2) (h : b.Inv p) : b2.Inv p := by
  unfold Bus.slaveStep at he
  split at he <;> cases he
  rename_i hc
  simp only [Bool.and_eq_true, beq_iff_eq, Bool.or_eq_true, decide_eq_true_eq] at hc
  obtain ⟨⟨⟨⟨-, -⟩, hst⟩, -⟩, hp⟩ := hc
  have hse : b.slaveEn = true := by
    cases he : b.slaveEn
    · rw [h.slaveOff.2 he] at hst; cases hst
    · rfl
  exact
    { h with
      slaveOff := by simp [hse]
      ownSlave := by intro ho; have := h.ownSlave ho; simp [hst] at this
      stretch := by simp
      cmd := cmdOk_other (s1 := b.sstate) (by simp [hst, SState.isTx]) rfl h.cmd
      stx := by simp [SState.isTx]
      room := fun _ hb => by rcases hp with hp | hp; exact absurd hp hb; exact hp
      txRoom := by simp [SState.isTx]
      readPath := by simp [SState.isTx] }

end Sys2Proof
end

