-- ==== Sys2Proof/Laws/HostInv.lean ====
section
/-! SUPPORT. Every host write, every command's acceptance and the block reset keep the invariant of a bus. -/

namespace Sys2Proof

variable {p : Params} {b : Bus}

/-- The master function goes off; the latch is left to `v`. -/
theorem Bus.Inv.masterGone {v : Bool} (hv : v = true → b.slaveEn = true) (h : b.Inv p) :
    Bus.Inv p { b.masterOff with masterEn := false, busBusy := v } :=
  { h with
    masterOff := by simp [Bus.masterOff]
    ownState := by simp [Bus.masterOff]
    ownScl := by simp [Bus.masterOff]
    ownBusy := by simp [Bus.masterOff]
    ownSlave := by simp [Bus.masterOff]
    hold := by simp [Bus.masterOff]
    released := by simp [Bus.masterOff]
    busy := by intro hb; simp [Bus.monitoring]; exact hv hb
    exec := by simp [Bus.masterOff]
    cmd := by cases hs : b.sstate <;> simp [Bus.masterOff, cmdOk, hs]
    stx := by simp [Bus.masterOff, MState.busy] }

/-- The slave's end, written out. -/
theorem slaveOff_eq (b : Bus) : b.slaveOff = { b with cmd := b.cmdDropped, sDrv := {}, sstate := .off } := by
  unfold Bus.slaveOff Bus.clearStx Bus.cmdDropped; split <;> rfl

/-- The slave function goes off. -/
theorem Bus.Inv.slaveGone {v : Bool} (ho : b.own = true → v = true) (hv : v = true → b.masterEn = true) (h : b.Inv p) :
    Bus.Inv p { b with cmd := b.cmdDropped, sDrv := {}, sstate := .off, slaveEn := false, busBusy := v } :=
    { h with
      slaveOff := by simp
      ownBusy := ho
      ownSlave := by simp
      stretch := by simp
      slaveSda := rfl
      busy := by intro hb; simp [Bus.monitoring]; exact hv hb
      cmd := cmdDropped_ok rfl h
      stx := by simp [SState.isTx]
      room := by simp
      txRoom := by simp [SState.isTx]
      readPath := by simp [SState.isTx] }

/-- The master function comes on. -/
theorem Bus.Inv.masterCome (he : b.masterEn = false) (h : b.Inv p) : Bus.Inv p { b with masterEn := true, mstate := .idle } := by
  have hm := h.masterOff.2 he
  have ho : b.own = false := by
    cases ho : b.own
    · rfl
    · obtain h2 | ⟨_, _, h2⟩ := h.ownState ho <;> rw [hm] at h2 <;> cases h2
  exact
    { h with
      masterOff := by simp
      ownState := by simp [ho]
      hold := by simp
      released := fun _ => h.released (.inl hm)
      busy := fun _ => by simp [Bus.monitoring]
      exec := by simp
      cmd := by have := h.cmd; rw [hm] at this; simpa [cmdOk] using this
      stx := fun _ => rfl }

/-- The slave function comes on. -/
theorem Bus.Inv.slaveCome (he : b.slaveEn = false) (h : b.Inv p) : Bus.Inv p { b with slaveEn := true, sstate := .idle } := by
  have hs := h.slaveOff.2 he
  exact
    { h with
      slaveOff := by simp
      ownSlave := by simp
      stretch := by have := h.stretch; simp only [hs] at this ⊢; simpa using this
      busy := fun _ => by simp [Bus.monitoring]
      cmd := cmdOk_other (s1 := b.sstate) (by simp [hs, SState.isTx]) rfl h.cmd
      stx := by simp [SState.isTx]
      room := by simp
      txRoom := by simp [SState.isTx]
      readPath := by simp [SState.isTx] }

/-- TIMING is stored without its reserved bits. -/
theorem and_masked_self (v : Word) : v &&& timingMask &&& ~~~timingMask = 0 := by
  rw [BitVec.and_assoc]; have : timingMask &&& ~~~timingMask = 0 := by decide
  rw [this]; simp

/-- FUN_CTRL bit 15. -/
theorem Bus.Inv.bit15 (d : Bool) (h : b.Inv p) : Bus.Inv p { b with multiMasterDis := d } := { h with }

/-- A FUN_CTRL write: the four cases of each function. -/
theorem Bus.Inv.writeFunCtrl (m sl d : Bool) (h : b.Inv p) : (b.writeFunCtrl m sl d).Inv p := by
  have hown : b.masterEn = false → b.own = false := by
    intro he
    cases ho : b.own
    · rfl
    · have hm := h.masterOff.2 he
      obtain h2 | ⟨_, _, h2⟩ := h.ownState ho <;> rw [hm] at h2 <;> cases h2
  have hbusy : b.masterEn = false → b.slaveEn = false → b.busBusy = false := by
    intro h1 h2
    cases hb : b.busBusy
    · rfl
    · have := h.busy hb; simp [Bus.monitoring, h1, h2] at this
  have hown1 : b.own = true → b.masterEn = true := by
    intro ho
    cases hm : b.masterEn
    · rw [hown hm] at ho; cases ho
    · rfl
  have hown2 := h.ownBusy
  simp only [Bus.writeFunCtrl, slaveOff_eq]
  cases b
  rename_i me se _ _ _ _ _ _ _ _ _ _ _ _ _ _ _ _ _ _ ow _ _ _ _ _ _ _ _ _ _ _ _ bb _ _ _ _
  dsimp only at hown hbusy hown1 hown2
  cases me <;> cases m <;> cases se <;> cases sl <;> dsimp [Bus.masterOff, Bus.cmdDropped]
  · cases hbusy rfl rfl; exact h.bit15 d
  · cases hbusy rfl rfl; have hx := (h.slaveCome rfl).bit15 d; dsimp [Bus.masterOff, Bus.cmdDropped] at hx; exact hx
  · have hx := (h.slaveGone (v := false) (fun ho => by rw [hown rfl] at ho; cases ho) (by simp)).bit15 d; dsimp [Bus.masterOff, Bus.cmdDropped] at hx; exact hx
  · exact h.bit15 d
  · have hx := (h.masterCome rfl).bit15 d; dsimp [Bus.masterOff, Bus.cmdDropped] at hx; exact hx
  · have hx := ((h.masterCome rfl).slaveCome rfl).bit15 d; dsimp [Bus.masterOff, Bus.cmdDropped] at hx; exact hx
  · have hx := ((h.masterCome rfl).slaveGone (v := bb) (fun ho => by rw [hown rfl] at ho; cases ho) (fun _ => rfl)).bit15 d; dsimp [Bus.masterOff, Bus.cmdDropped] at hx; exact hx
  · have hx := (h.masterCome rfl).bit15 d; dsimp [Bus.masterOff, Bus.cmdDropped] at hx; exact hx
  · have hx := (h.masterGone (v := false) (by simp)).bit15 d; dsimp [Bus.masterOff, Bus.cmdDropped] at hx; exact hx
  · have hx := ((h.slaveCome rfl).masterGone (v := bb) (fun _ => rfl)).bit15 d; dsimp [Bus.masterOff, Bus.cmdDropped] at hx; exact hx
  · have hx := ((h.masterGone (v := bb) (fun _ => rfl)).slaveGone (v := false) (by simp [Bus.masterOff]) (by simp)).bit15 d; dsimp [Bus.masterOff, Bus.cmdDropped] at hx; exact hx
  · have hx := (h.masterGone (v := bb) (fun _ => rfl)).bit15 d; dsimp [Bus.masterOff, Bus.cmdDropped] at hx; exact hx
  · exact h.bit15 d
  · have hx := (h.slaveCome rfl).bit15 d; dsimp [Bus.masterOff, Bus.cmdDropped] at hx; exact hx
  · have hx := (h.slaveGone (v := bb) hown2 (fun _ => rfl)).bit15 d; dsimp [Bus.masterOff, Bus.cmdDropped] at hx; exact hx
  · exact h.bit15 d


/-- A register write. -/
theorem Bus.Inv.writeReg (off : Nat) (v : Word) (h : b.Inv p) : (b.writeReg off v).Inv p := by
  unfold Bus.writeReg
  split
  · exact h.writeFunCtrl _ _ _
  · exact { h with timing := and_masked_self v }
  · exact { h with }
  · unfold Bus.writeIer
    split
    · exact h.refuse
    · rename_i hv
      exact { h with ier := by simpa [hasAny] using hv }
  · exact h.clearStatus v
  · exact { h with }
  · exact { h with }
  · exact { h with }
  · exact { h with }
  · exact { h with }
  · exact h.refuse

/-- A register read. -/
theorem Bus.Inv.afterRead (off : Nat) (h : b.Inv p) : (b.afterRead p off).Inv p := by
  unfold Bus.afterRead
  split
  · exact { h with isr := by simp }
  · exact h

/-- A pool lane. -/
theorem Bus.Inv.writePoolLane (w j : Nat) (v : Word) (h : b.Inv p) : (b.writePoolLane p w j v).Inv p := by
  unfold Bus.writePoolLane
  split
  · exact { h with pool := by simpa [Bus.writePoolByte] using h.pool }
  · exact h

/-- A pool word. -/
theorem Bus.Inv.writePool (w : Nat) (v : Word) (h : b.Inv p) : (b.writePool p w v).Inv p :=
  (((h.writePoolLane w 0 v).writePoolLane w 1 v).writePoolLane w 2 v).writePoolLane w 3 v

/-- A bus after reset, whatever the unspecified values. -/
theorem Bus.Inv.afterReset (env : Wires) (u : ResetDraw) : (Bus.afterReset p env u).Inv p where
  isr := by simp [Bus.afterReset]
  ier := by simp [Bus.afterReset]
  timing := by simp [Bus.afterReset]
  masterOff := by simp [Bus.afterReset]
  slaveOff := by simp [Bus.afterReset]
  ownState := by simp [Bus.afterReset]
  ownScl := by simp [Bus.afterReset]
  ownBusy := by simp [Bus.afterReset]
  ownSlave := by simp [Bus.afterReset]
  hold := by simp [Bus.afterReset]
  released := by simp [Bus.afterReset]
  stretch := by simp [Bus.afterReset]
  slaveSda := rfl
  busy := by simp [Bus.afterReset]
  exec := by simp [Bus.afterReset]
  cmd := by simp [Bus.afterReset, cmdOk]
  stx := by simp [Bus.afterReset, SState.isTx]
  pool := by simp [Bus.afterReset]
  bufCap := by simp [Bus.afterReset]
  dmaCap := by simp [Bus.afterReset]
  room := by simp [Bus.afterReset]
  txRoom := by simp [Bus.afterReset, SState.isTx]
  readPath := by simp [Bus.afterReset]

/-- The acceptance of a master command. -/
theorem Bus.Inv.accept {ph : List Phase} (hi : b.mstate = .idle ∨ b.mstate = .hold) (htx : b.sstate.isTx = false)
    (hx : execOk p b.own ph .fresh = true) (h : b.Inv p) : (b.accept (pendingBits ph) (.exec ph .fresh)).Inv p := by
  have hoff : b.masterEn = true := by
    cases hm : b.masterEn
    · rw [h.masterOff.2 hm] at hi; simp at hi
    · rfl
  exact
    { h with
      masterOff := by simp [Bus.accept, hoff]
      ownState := fun _ => .inr ⟨_, _, rfl⟩
      hold := by simp [Bus.accept]
      released := by simp [Bus.accept]
      exec := by
        intro ph' pr' hh
        simp only [Bus.accept, MState.exec.injEq] at hh
        obtain ⟨rfl, rfl⟩ := hh
        exact hx
      cmd := by simp [Bus.accept, cmdOk]
      stx := by intro ht; simp [Bus.accept] at ht; rw [htx] at ht; cases ht }

/-- The acceptance of RECOVER. -/
theorem Bus.Inv.acceptRecover (hi : b.mstate = .idle) (htx : b.sstate.isTx = false) (h : b.Inv p) :
    (b.accept bitsRecover (.recover 0)).Inv p := by
  have hoff : b.masterEn = true := by
    cases hm : b.masterEn
    · rw [h.masterOff.2 hm] at hi; simp at hi
    · rfl
  have ho : b.own = false := by
    cases ho : b.own
    · rfl
    · obtain h2 | ⟨_, _, h2⟩ := h.ownState ho <;> rw [hi] at h2 <;> cases h2
  exact
    { h with
      masterOff := by simp [Bus.accept, hoff]
      ownState := by simp [Bus.accept, ho]
      hold := by simp [Bus.accept]
      released := by simp [Bus.accept]
      exec := by simp [Bus.accept]
      cmd := by simp [Bus.accept, cmdOk]
      stx := by intro ht; simp [Bus.accept] at ht; rw [htx] at ht; cases ht }

/-- SRXARM. -/
theorem Bus.Inv.srxarm (path : Path) (h : b.Inv p) : (b.srxarm p path).Inv p := by
  unfold Bus.srxarm
  split
  · rename_i hc
    simp only [Bus.takesSlaveCmd, Bool.and_eq_true, beq_iff_eq, Bool.not_eq_true'] at hc
    obtain ⟨⟨hse, hbusy⟩, hst⟩ := hc
    split
    · exact h.refuse
    · rename_i cap hcap
      refine Bus.Inv.setMoved _ _ ?_
      exact
        { h with
          cmd := by
            cases hm : b.mstate <;> simp_all [cmdOk, MState.busy]
          bufCap := by
            intro hp; simp only at hp; subst hp
            simp only [Bus.armCap] at hcap
            split at hcap <;> cases hcap
            assumption
          dmaCap := by
            intro hp; simp only at hp; subst hp
            simp only [Bus.armCap] at hcap
            split at hcap <;> cases hcap
            rename_i hr
            simp only [Params.dmaRangeOk, Bool.and_eq_true, decide_eq_true_eq] at hr
            simpa using hr.2
          room := by simp [hst]
          txRoom := by simp [hst, SState.isTx]
          readPath := by simp [hst, SState.isTx] }
  · exact h.refuse

/-- STX. -/
theorem Bus.Inv.stxCmd (path : Path) (h : b.Inv p) : (b.stx p path (bitsStx path)).Inv p := by
  unfold Bus.stx
  split
  · rename_i hc
    simp only [Bus.takesSlaveCmd, Bool.and_eq_true, beq_iff_eq, Bool.not_eq_true'] at hc
    obtain ⟨⟨hse, hbusy⟩, hst⟩ := hc
    split
    · exact h.refuse
    · rename_i cap hcap
      have hp := h.readPath (.inl hst)
      have hpos : 0 < cap := by
        cases path <;> simp only [Bus.stxCap] at hcap
        · cases hcap; omega
        · split at hcap <;> cases hcap; omega
        · split at hcap <;> cases hcap
          rename_i hr
          simp only [Params.dmaRangeOk, Bool.and_eq_true, decide_eq_true_eq] at hr
          omega
      exact
        { h with
          slaveOff := by simp [hse]
          ownSlave := by intro ho; have := h.ownSlave ho; simp [hst] at this
          stretch := by simp
          cmd := by cases hm : b.mstate <;> simp_all [cmdOk, MState.busy]
          stx := fun _ => hbusy
          bufCap := by simp [hp]
          dmaCap := by simp [hp]
          room := by simp
          txRoom := fun _ => hpos
          readPath := fun _ => hp }
  · exact h.refuse

/-- The record of older memory bytes. -/
theorem Bus.Inv.staleMem (l : List (Nat × Byte)) (h : b.Inv p) : Bus.Inv p { b with stale := { b.stale with mem := l } } := { h with }

end Sys2Proof
end

