-- ==== Sys2Proof/Laws/StateInv.lean ====
section
/-! SUPPORT. What each operation over the whole state keeps: the invariant of the state, for host accesses, commands, bus steps, reset
and the host agent's operations. -/

namespace Sys2Proof

open Machine

variable {p : Params} {b : Bus} {s s' : State}

/-- A bus of a state with the invariant. -/
theorem Machine.State.Inv.of_mem {n : Nat} (hb : s.buses[n]? = some b) (h : s.Inv) : b.Inv s.params :=
  h.bus b (List.mem_of_getElem? hb)

/-- One bus replaced. -/
theorem Machine.State.Inv.setBus {n : Nat} {b2 : Bus} (hb : b2.Inv s.params) (h : s.Inv) : (s.setBus n b2).Inv where
  buses := by simpa [State.setBus] using h.buses
  hosts := h.hosts
  mem := h.mem
  bus := by
    intro c hc
    rcases List.mem_or_eq_of_mem_set hc with hc | rfl
    · exact h.bus c hc
    · exact hb

/-- A command's effect on the selected bus. -/
theorem Machine.State.Inv.onSel {f : Bus → Bus} (hf : ∀ b, b.Inv s.params → (f b).Inv s.params) (he : s.onSel f = .next s') (h : s.Inv) :
    s'.Inv := by
  unfold State.onSel at he
  split at he
  · cases he
  · rename_i b hb
    cases he
    exact h.setBus (hf b (h.of_mem hb))

/-- A master command with M_START. -/
theorem Bus.Inv.command_start {c : BitVec 12} {rest : List Phase} (hr : restOk rest = true) (hc : c = pendingBits (.addr :: rest)) (h : b.Inv p) :
    (Bus.command Bus.takesStart c (.exec (.addr :: rest) .fresh) b).Inv p := by
  unfold Bus.command
  split
  · rename_i ht
    simp only [Bus.takesStart, Bool.and_eq_true, Bool.or_eq_true, beq_iff_eq, Bool.not_eq_true'] at ht
    subst hc
    exact h.accept ht.1 ht.2 hr
  · exact h.refuse

/-- A master command on an owned bus. -/
theorem Bus.Inv.command_data {c : BitVec 12} {ph : Phase} {rest : List Phase} (hr : restOk (ph :: rest) = true)
    (hc : c = pendingBits (ph :: rest)) (h : b.Inv p) :
    (Bus.command Bus.takesData c (.exec (ph :: rest) .fresh) b).Inv p := by
  unfold Bus.command
  split
  · rename_i ht
    simp only [Bus.takesData, Bool.and_eq_true, beq_iff_eq, Bool.not_eq_true'] at ht
    subst hc
    refine h.accept (.inr ht.1) ht.2 ?_
    have ho := h.hold ht.1
    cases ph <;> simp_all [restOk, execOk, dataProgressOk]
    cases rest with
    | nil => rfl
    | cons _ _ => simp [restOk] at hr
  · exact h.refuse

/-- Every command's acceptance. -/
theorem Machine.State.Inv.exec {i : Instr} (he : Machine.exec i s = .next s') (h : s.Inv) : s'.Inv := by
  cases i
  case cmdNop => cases he; exact h
  case stxB => exact h.onSel (fun b hb => by have := hb.stxCmd .byte; exact this) he
  case stxBuf => exact h.onSel (fun b hb => by have := hb.stxCmd .buf; exact this) he
  case stxDma => exact h.onSel (fun b hb => by have := hb.stxCmd .dma; exact this) he
  case srxarmBuf => exact h.onSel (fun b hb => hb.srxarm .buf) he
  case srxarmDma => exact h.onSel (fun b hb => hb.srxarm .dma) he
  case recover =>
    refine h.onSel (fun b hb => ?_) he
    unfold Bus.command
    split
    · rename_i ht
      simp only [Bus.takesRecover, Bool.and_eq_true, beq_iff_eq, Bool.not_eq_true'] at ht
      exact hb.acceptRecover ht.1 ht.2
    · exact hb.refuse
  case mstop =>
    refine h.onSel (fun b hb => ?_) he
    unfold Bus.command
    split
    · rename_i ht
      simp only [Bus.takesStop, Bool.and_eq_true, Bool.or_eq_true, beq_iff_eq, Bool.not_eq_true'] at ht
      exact hb.accept (ph := [.stop]) ht.1 ht.2 rfl
    · exact hb.refuse
  all_goals first
    | exact h.onSel (fun b hb => hb.command_start (by rfl) (by rfl)) he
    | exact h.onSel (fun b hb => hb.command_data (by rfl) (by rfl)) he

/-- The selection of a bus. -/
theorem Machine.State.Inv.sel (n : Nat) (h : s.Inv) : ({ s with sel := n } : State).Inv := ⟨h.buses, h.hosts, h.mem, h.bus⟩

/-- A host access reaches a bus that is there and not refused. -/
theorem busFor_next {n : Nat} (hb : s.busFor n = .next b) : s.buses[n]? = some b ∧ b.refused = false := by
  unfold State.busFor at hb
  split at hb
  · cases hb
  · split at hb <;> cases hb
    rename_i h1 h2
    exact ⟨h1, by simpa using h2⟩

/-- Both parts of a sequence answer next. -/
theorem andThen_next {α β : Type} {r : Host.Outcome α Fault Refusal} {f : α → Host.Outcome β Fault Refusal} {x : β}
    (h : andThen r f = .next x) : ∃ a, r = .next a ∧ f a = .next x := by
  cases r <;> simp [andThen] at h
  exact ⟨_, rfl, h⟩

/-- A write to CMD. -/
theorem Machine.State.Inv.writeCmd {n : Nat} {v : Word} (hb : s.buses[n]? = some b) (he : s.writeCmd n b v = .next s') (h : s.Inv) : s'.Inv := by
  unfold State.writeCmd at he
  split at he
  · cases he
    exact h.setBus (h.of_mem hb).refuse
  · exact (h.sel n).exec he

/-- A write to a register of a bus. -/
theorem Machine.State.Inv.writeBusReg {n w off : Nat} {v : Word} (he : s.writeBusReg n w off v = .next s') (h : s.Inv) : s'.Inv := by
  obtain ⟨b, hb, he⟩ := andThen_next he
  obtain ⟨hb, -⟩ := busFor_next hb
  split at he
  · cases he; exact h.setBus (h.of_mem hb).refuse
  · split at he
    · cases he
    · split at he
      · exact h.writeCmd hb he
      · cases he; exact h.setBus ((h.of_mem hb).writeReg _ _)

/-- A read of a register of a bus. -/
theorem Machine.State.Inv.readBusReg {n w off : Nat} {d : ReadDraw} {r : Option Word × State} (he : s.readBusReg n w off d = .next r) (h : s.Inv) :
    r.2.Inv := by
  obtain ⟨b, hb, he⟩ := andThen_next he
  obtain ⟨hb, -⟩ := busFor_next hb
  split at he
  · cases he; exact h.setBus (h.of_mem hb).refuse
  · split at he
    · cases he
    · split at he <;> cases he
      · exact h.setBus (h.of_mem hb).refuse
      · exact h.setBus ((h.of_mem hb).afterRead _)

/-- A write to a pooled-buffer window. -/
theorem Machine.State.Inv.writePool {n w off : Nat} {v : Word} (he : s.writePool n w off v = .next s') (h : s.Inv) : s'.Inv := by
  obtain ⟨b, hb, he⟩ := andThen_next he
  obtain ⟨hb, -⟩ := busFor_next hb
  split at he <;> cases he
  · exact h.setBus (h.of_mem hb).refuse
  · exact h.setBus ((h.of_mem hb).writePool _ _)

/-- A read of a pooled-buffer window. -/
theorem Machine.State.Inv.readPool {n w off : Nat} {d : ReadDraw} {r : Option Word × State} (he : s.readPool n w off d = .next r) (h : s.Inv) :
    r.2.Inv := by
  obtain ⟨b, hb, he⟩ := andThen_next he
  obtain ⟨hb, -⟩ := busFor_next hb
  split at he <;> cases he
  · exact h.setBus (h.of_mem hb).refuse
  · exact h

/-- A write to the global bank. -/
theorem Machine.State.Inv.writeGlobal {w off : Nat} {v : Word} (he : s.writeGlobal w off v = .next s') (h : s.Inv) : s'.Inv := by
  unfold State.writeGlobal at he
  split at he
  · cases he
  · split at he <;> cases he
    · exact h
    · exact ⟨h.buses, h.hosts, h.mem, h.bus⟩

/-- A read. -/
theorem Machine.State.Inv.mmioRead {loc : Loc} {w : Nat} {d : ReadDraw} {r : Option Word × State} (he : s.mmioRead loc w d = .next r) (h : s.Inv) :
    r.2.Inv := by
  unfold State.mmioRead at he
  split at he
  · cases he
  · exact h.readBusReg he
  · exact h.readPool he
  · unfold State.readGlobal at he
    split at he
    · cases he
    · split at he <;> cases he <;> exact h

/-- A write. -/
theorem Machine.State.Inv.hostWrite {loc : Loc} {w : Nat} {v : Word} (he : s.hostWrite loc w v = .next s') (h : s.Inv) : s'.Inv := by
  unfold State.hostWrite at he
  split at he
  · cases he
  · exact h.writeBusReg he
  · exact h.writePool he
  · exact h.writeGlobal he

/-- The word read. -/
theorem Machine.State.Inv.rdata (v : Word) (h : s.Inv) : ({ s with rdata := v } : State).Inv := ⟨h.buses, h.hosts, h.mem, h.bus⟩

/-- A host program's read. -/
theorem Machine.State.Inv.hostRead {loc : Loc} {w : Nat} {d : ReadDraw} (he : s.hostRead loc w d = .next s') (h : s.Inv) : s'.Inv := by
  obtain ⟨r, hr, he⟩ := andThen_next he
  have := h.mmioRead hr
  split at he <;> cases he
  · exact this
  · exact this.rdata _

/-- The host's write to its memory. -/
theorem Machine.State.Inv.hostMemWrite (a : Word) (v : Byte) (h : s.Inv) : (s.hostMemWrite a.toNat v).Inv where
  buses := by simpa [State.hostMemWrite] using h.buses
  hosts := h.hosts
  mem := Memory.wf_write a.isLt h.mem
  bus := by
    intro c hc
    simp only [State.hostMemWrite, List.mem_map] at hc
    obtain ⟨b, hb, rfl⟩ := hc
    split
    · exact (h.bus b hb).staleMem _
    · exact h.bus b hb

/-- A step of one bus. -/
theorem Machine.State.Inv.busStep {n : Nat} {f : Bus → Option (Bus × Memory)}
    (hf : ∀ b r, f b = some r → b.Inv s.params → r.1.Inv s.params ∧ Memory.wf r.2 = true) (h : s.Inv) : (s.busStep n f).Inv := by
  unfold State.busStep
  split
  · exact h
  · rename_i b hb
    split
    · exact h
    · rename_i r hr
      have hh := hf b r hr (h.of_mem hb)
      have h2 := h.setBus (n := n) hh.1
      exact ⟨h2.buses, h2.hosts, hh.2, h2.bus⟩

/-- The buses after a block reset. -/
theorem resetBuses_spec (p : Params) : ∀ (l : List Bus) (u : List ResetDraw),
    (resetBuses p l u).length = l.length ∧ ∀ b ∈ resetBuses p l u, b.Inv p
  | [], _ => by simp [resetBuses]
  | b :: rest, [] => by
    have := resetBuses_spec p rest []
    simp only [resetBuses, List.length_cons, List.mem_cons, forall_eq_or_imp]
    exact ⟨by omega, Bus.Inv.afterReset _ _, this.2⟩
  | b :: rest, u :: us => by
    have := resetBuses_spec p rest us
    simp only [resetBuses, List.length_cons, List.mem_cons, forall_eq_or_imp]
    exact ⟨by omega, Bus.Inv.afterReset _ _, this.2⟩

/-- A block reset. -/
theorem Machine.State.Inv.blockReset (u : List ResetDraw) (h : s.Inv) : (s.blockReset u).Inv where
  buses := by have := (resetBuses_spec s.params s.buses u).1; rw [State.blockReset]; exact this.trans h.buses
  hosts := h.hosts
  mem := h.mem
  bus := (resetBuses_spec s.params s.buses u).2

/-- The host's own state. -/
theorem Machine.State.Inv.onHost (n : Nat) (f : HostBus → HostBus) (h : s.Inv) : (s.onHost n f).Inv where
  buses := h.buses
  hosts := by simpa [State.onHost] using h.hosts
  mem := h.mem
  bus := h.bus

/-- The dispatcher's record. -/
theorem Machine.State.Inv.onDisp (f : Disp → Disp) (h : s.Inv) : (s.onDisp f).Inv := ⟨h.buses, h.hosts, h.mem, h.bus⟩
/-- The dispatcher, started or gone. -/
theorem Machine.State.Inv.disp (d : Option Disp) (h : s.Inv) : ({ s with disp := d } : State).Inv := ⟨h.buses, h.hosts, h.mem, h.bus⟩

/-- An operation without effect. -/
theorem Machine.State.Inv.quiet {r : State × List HOp} (he : Machine.quiet s = .next r) (h : s.Inv) : r.1.Inv := by cases he; exact h

/-- A register write by the host sequencer. -/
theorem Machine.State.Inv.opWrite {n off : Nat} {v : Word} {r : State × List HOp} (he : Machine.opWrite n off v s = .next r) (h : s.Inv) : r.1.Inv := by
  obtain ⟨s2, h2, he⟩ := andThen_next he
  exact (h.writeBusReg h2).quiet he

/-- A pool write by the host sequencer. -/
theorem Machine.State.Inv.opPool {n off : Nat} {v : Word} {r : State × List HOp} (he : andThen (s.writePool n 32 off v) Machine.quiet = .next r) (h : s.Inv) : r.1.Inv := by
  obtain ⟨s2, h2, he⟩ := andThen_next he
  exact (h.writePool h2).quiet he

/-- A register read by the host sequencer. -/
theorem Machine.State.Inv.opRead {n off : Nat} {d : ReadDraw} {k : Word → State → OpResult} {r : State × List HOp}
    (he : Machine.opRead n off d s k = .next r) (hk : ∀ w s2, s2.Inv → k w s2 = .next r → r.1.Inv) (h : s.Inv) : r.1.Inv := by
  obtain ⟨s2, h2, he⟩ := andThen_next he
  exact hk _ _ (h.readBusReg h2) he

/-- Every operation of a submitter. -/
theorem Machine.State.Inv.submitterOp {n : Nat} {hd : HostDraw} {op : HOp} {hb : HostBus} {r : State × List HOp}
    (he : Machine.submitterOp n hd op hb s = .next r) (h : s.Inv) : r.1.Inv := by
  cases op <;> simp only [Machine.submitterOp] at he
  all_goals first
    | exact h.quiet he
    | exact h.opWrite he
    | exact (h.onHost _ _).opWrite he
    | exact (h.onHost _ _).quiet he
    | exact h.opPool he
    | (cases he; exact h.onHost _ _)
    | (cases he; exact h)
    | exact h.opRead he (fun w s2 h2 hk => by cases hk; exact h2)

/-- Every operation of the dispatcher. -/
theorem Machine.State.Inv.dispatcherOp {n : Nat} {hd : HostDraw} {op : HOp} {d : Disp} {hb : HostBus} {r : State × List HOp}
    (he : Machine.dispatcherOp n hd op d hb s = .next r) (h : s.Inv) : r.1.Inv := by
  cases op <;> simp only [Machine.dispatcherOp] at he
  all_goals first
    | exact h.quiet he
    | exact h.opWrite he
    | exact (h.onHost _ _).opWrite he
    | exact (h.onHost _ _).quiet he
    | exact (h.onDisp _).quiet he
    | exact h.opPool he
    | (cases he; exact h.onHost _ _)
    | (cases he; exact h)
    | exact h.opRead he (fun w s2 h2 hk => by cases hk; exact h2.onDisp _)
    | skip
  obtain ⟨s2, h2, he⟩ := andThen_next he
  exact ((h.readPool h2).onDisp _).quiet he

/-- A step of a submitter. -/
theorem Machine.State.Inv.submitterStep {n : Nat} {hd : HostDraw} (he : s.submitterStep n hd = .next s') (h : s.Inv) : s'.Inv := by
  unfold State.submitterStep at he
  split at he
  · cases he; exact h
  · split at he
    · cases he; exact h
    · split at he
      · cases he; exact h
      · obtain ⟨r, h2, he⟩ := andThen_next he
        cases he
        exact (h.submitterOp h2).onHost _ _

/-- A step of the dispatcher. -/
theorem Machine.State.Inv.dispatcherStep {hd : HostDraw} (he : s.dispatcherStep hd = .next s') (h : s.Inv) : s'.Inv := by
  unfold State.dispatcherStep at he
  split at he
  · cases he; exact h
  · split at he
    · cases he; exact h.disp _
    · split at he
      · obtain ⟨r, h2, he⟩ := andThen_next he
        cases he
        exact (h.dispatcherOp h2).onDisp _
      · cases he
        unfold State.dispatcherAdvance
        split
        · exact h.disp _
        · split
          · split
            · exact h
            · exact h.disp _
          · exact h.disp _

/-- The host's timeout. -/
theorem Machine.State.Inv.hostTimeoutStep (n : Nat) (h : s.Inv) : (s.hostTimeoutStep n).Inv := by
  unfold State.hostTimeoutStep
  split
  · exact h
  · split
    · exact h
    · split
      · split
        · exact h
        · exact h.onHost _ _
      · split
        · exact h
        · exact h.onHost _ _
      · exact h

end Sys2Proof
end

