-- ==== Sys2Proof/Laws/Phases.lean ====
section
/-! SUPPORT. The phases of a master command on a sound bus, step by step (42_master_commands.md R301 to R335): what one slot leaves, and the
bytes in order. -/

namespace Sys2Proof.Laws

open Sys2Proof Sys2Proof.Machine

theorem masterStep_exec {p : Params} {mem : Memory} {b : Bus} {ph : Phase} {rest : List Phase} {pr : Progress} {d : Draw} {pk : SrcPick} (hl : b.live) (hm : b.mstate = .exec (ph :: rest) pr) :
    b.masterStep p mem d pk = b.phaseStep p mem ph pr rest d pk := by
  simp [Bus.masterStep, hl.1, hl.2, hm]

theorem alone_free {b : Bus} (h : b.alone) : b.sclFree = true ∧ b.sdaFree = true := by
  simp [Bus.sclFree, Bus.sdaFree, h.1, h.2]

theorem slotFault_fields (f : SlotFault) (pk : SrcPick) (b : Bus) : b.slotFault f pk =
    { b with mDrv := {}, own := false, cmd := 0, mstate := MState.idle, isr := b.isr ||| f.bit,
             sclTiming := b.faultTiming pk, busBusy := f.latch b.busBusy } := by
  rcases f with _ | _ | _ | k
  · rfl
  · rfl
  · rfl
  · cases k <;> rfl

theorem runMaster_append (p : Params) (xs ys : List (Draw × SrcPick)) (r : Bus × Memory) :
    Bus.runMaster p (xs ++ ys) r = (Bus.runMaster p xs r).bind (Bus.runMaster p ys) := by
  induction xs generalizing r with
  | nil => rfl
  | cons x xs ih =>
    simp only [List.cons_append, Bus.runMaster]
    cases r.1.masterStep p r.2 x.1 x.2 with
    | none => rfl
    | some r2 => exact ih r2

theorem runMaster_single (p : Params) (d : Draw) (pk : SrcPick) (b : Bus) (mem : Memory) :
    Bus.runMaster p [(d, pk)] (b, mem) = b.masterStep p mem d pk := by
  simp only [Bus.runMaster]
  cases b.masterStep p mem d pk <;> rfl

/-- The bus after `i` acknowledged bytes of a transmit phase. -/
def afterTx (b : Bus) (path : Path) (ackedItems : List WireItem) (i : Nat) (m : MState) : Bus :=
  { b with mDrv := { scl := .low, sda := .rel }, sclTiming := b.timing, lastSlot := .other, mstate := m,
           dmaPtr := if path = .dma then b.dmaAddr + BitVec.ofNat 32 i else b.dmaPtr,
           wire := ackedItems ++ b.wire }

/-- The items on the wire of the first `i` of these bytes, each answered A. -/
def ackedItems (bytes : List Byte) (i : Nat) : List WireItem := (bytes.take i).reverse.map (fun v => .byte v .ack)

theorem ackedItems_succ {bytes : List Byte} {i : Nat} {v : Byte} (h : bytes[i]? = some v) : ackedItems bytes (i+1) = .byte v .ack :: ackedItems bytes i := by
  simp [ackedItems, List.take_add_one, h]

theorem beginTx_fits {p : Params} {mem : Memory} {path : Path} {b : Bus} (hf : b.txFits p path = true) (hst : b.stale = {}) :
    ∃ c, b.beginTx p path current = some ((b.txBytes mem path).length, c) ∧ c = (if path = .dma then { b with dmaPtr := b.dmaAddr } else b) := by
  cases path
  · exact ⟨_, rfl, rfl⟩
  · simp only [Bus.txFits, decide_eq_true_eq] at hf
    simp [Bus.beginTx, Bus.sampleEnds, hst, pickOld, hf, Bus.txBytes]
  · simp only [Bus.txFits, Bus.dmaFits, Bool.and_eq_true] at hf
    simp [Bus.beginTx, Bus.sampleDmaLen, Bus.sampleDmaAddr, hst, pickOld, hf.1, Bus.txBytes]

theorem txSource_fits {p : Params} {mem : Memory} {path : Path} {b c : Bus} {i : Nat} {v : Byte} (hf : b.txFits p path = true)
    (hst : b.stale = {}) (hi : (b.txBytes mem path)[i]? = some v)
    (h1 : c.txByte = b.txByte) (h2 : c.pool = b.pool) (h3 : c.stale = b.stale)
    (h4 : c.dmaPtr = if path = .dma then b.dmaAddr + BitVec.ofNat 32 i else b.dmaPtr) :
    c.txSource p mem path i current = some v := by
  cases path
  · simp [Bus.txBytes] at hi
    simp [Bus.txSource, Bus.sampleTxByte, h3, hst, pickOld, h1]
    have : i = 0 := by by_contra h; simp [List.getElem?_eq_none (l := [b.txByte]) (i := i) (by simp; omega)] at hi
    subst this; simpa using hi
  · have hlt : i < (b.txBytes mem .buf).length := by
      by_contra h; rw [List.getElem?_eq_none (by omega)] at hi; cases hi
    rw [List.getElem?_eq_getElem hlt] at hi
    simp [Bus.txBytes] at hi
    simp [Bus.txSource, Bus.samplePool, h3, hst, olderAt, pickOld, h2, hi]
  · have hlt : i < (b.txBytes mem .dma).length := by
      by_contra h; rw [List.getElem?_eq_none (by omega)] at hi; cases hi
    rw [List.getElem?_eq_getElem hlt] at hi
    simp [Bus.txBytes] at hi hlt
    simp only [Bus.txFits, Bus.dmaFits, Bool.and_eq_true, Params.dmaRangeOk, decide_eq_true_eq] at hf
    obtain ⟨⟨⟨h5, h6⟩, h7⟩, h8⟩ := hf
    have hptr : c.dmaPtr.toNat = b.dmaAddr.toNat + i := by
      rw [h4]; simp; omega
    rw [List.all_eq_true] at h8
    have := h8 i (by simpa using hlt)
    simp [Bus.txSource, hptr, this, h3, hst, olderAt, pickOld, hi]

theorem setMoved_setStatus (path : Path) (k : Nat) (b : Bus) (w : Word) : (Bus.setMoved path k b).setStatus w = Bus.setMoved path k (b.setStatus w) := by
  cases path <;> rfl

theorem nextPhase_withMstate (rest : List Phase) (b : Bus) (m : MState) : Bus.nextPhase rest { b with mstate := m } = Bus.nextPhase rest b := by
  cases rest <;> simp [Bus.nextPhase, Bus.endCommand]

theorem setMoved_withMstate (path : Path) (k : Nat) (b : Bus) (m : MState) : Bus.setMoved path k { b with mstate := m } = { Bus.setMoved path k b with mstate := m } := by
  cases path <;> rfl

/-- A transmit phase may run by the registers, with nothing else on the lines. -/
structure TxReady (p : Params) (mem : Memory) (b : Bus) (path : Path) (rest : List Phase) : Prop where
  l : b.live
  a : b.alone
  m : b.mstate = .exec (.tx path :: rest) .fresh
  o : b.own = true
  s : b.mDrv.scl = .low
  st : b.stale = {}
  f : b.txFits p path = true

/-- The bus before byte `i` of a transmit phase. -/
def txAt (b : Bus) (path : Path) (rest : List Phase) (bytes : List Byte) (i : Nat) : Bus :=
  if i = 0 then b else afterTx b path (ackedItems bytes i) i (.exec (.tx path :: rest) (.moving i bytes.length))

theorem txAt_step {p : Params} {mem : Memory} {b : Bus} {path : Path} {rest : List Phase} (h : TxReady p mem b path rest) (r : TxResult) (i : Nat) :
    (txAt b path rest (b.txBytes mem path) i).masterStep p mem (.tx r) current =
      (((if i = 0 then (if path = .dma then { b with dmaPtr := b.dmaAddr } else b) else txAt b path rest (b.txBytes mem path) i)).txMove p mem path i (b.txBytes mem path).length rest r current).map (·, mem) := by
  by_cases hi : i = 0
  · subst hi
    obtain ⟨c, hc, hc2⟩ := beginTx_fits (mem := mem) h.f h.st
    have hsr : b.slotReady = true := by simp [Bus.slotReady, h.o, h.s]
    simp only [txAt, if_pos]
    rw [masterStep_exec h.l h.m]
    simp only [Bus.phaseStep, hsr, if_true, Bus.txStep, hc, hc2]
  · simp only [txAt, hi, if_false]
    have hl : (afterTx b path (ackedItems (b.txBytes mem path) i) i (.exec (.tx path :: rest) (.moving i (b.txBytes mem path).length))).live := h.l
    rw [masterStep_exec hl rfl]
    have : (afterTx b path (ackedItems (b.txBytes mem path) i) i (.exec (.tx path :: rest) (.moving i (b.txBytes mem path).length))).slotReady = true := by simp [Bus.slotReady, afterTx, h.o]
    simp only [Bus.phaseStep, this, if_true, Bus.txStep]

theorem txAt_answered {p : Params} {mem : Memory} {b : Bus} {path : Path} {rest : List Phase} (h : TxReady p mem b path rest) (i : Nat) (v : Byte)
    (hv : (b.txBytes mem path)[i]? = some v) :
    ((txAt b path rest (b.txBytes mem path) i).masterStep p mem (.tx .ack) current =
      some (if i + 1 = (b.txBytes mem path).length then
        Bus.nextPhase rest (Bus.setMoved path (i+1) { afterTx b path (ackedItems (b.txBytes mem path) (i+1)) (i+1) b.mstate with isr := b.isr ||| 1 })
        else txAt b path rest (b.txBytes mem path) (i+1), mem)) ∧
    (txAt b path rest (b.txBytes mem path) i).masterStep p mem (.tx .nak) current =
      some (Bus.nextPhase (afterNak rest) (Bus.setMoved path (i+1) { afterTx b path (.byte v .nak :: ackedItems (b.txBytes mem path) i) (i+1) b.mstate with isr := b.isr ||| 2 }), mem) := by
  have hw := ackedItems_succ hv
  obtain ⟨h1, h2⟩ := alone_free h.a
  rw [txAt_step h, txAt_step h]
  generalize hX : (if i = 0 then (if path = .dma then { b with dmaPtr := b.dmaAddr } else b) else txAt b path rest (b.txBytes mem path) i) = X
  have hXs : ∃ md st ak ms, X = { b with mDrv := md, sclTiming := st, lastSlot := ak, mstate := ms, dmaPtr := if path = .dma then b.dmaAddr + BitVec.ofNat 32 i else b.dmaPtr, wire := ackedItems (b.txBytes mem path) i ++ b.wire } := by
    rw [← hX]
    by_cases hi : i = 0
    · subst hi
      refine ⟨b.mDrv, b.sclTiming, b.lastSlot, b.mstate, ?_⟩
      by_cases hp : path = .dma <;> simp [hp, ackedItems]
    · refine ⟨{ scl := .low, sda := .rel }, b.timing, .other, MState.exec (Phase.tx path :: rest) (.moving i (b.txBytes mem path).length), ?_⟩
      simp only [hi, if_false, txAt, afterTx]
  obtain ⟨md, st, ak, ms, hXs⟩ := hXs
  have hsrc : X.txSource p mem path i current = some v := txSource_fits h.f h.st hv (by rw [hXs]) (by rw [hXs]) (by rw [hXs]) (by rw [hXs])
  have hadv : X.advanceDma path = { b with mDrv := md, sclTiming := st, lastSlot := ak, mstate := ms, dmaPtr := if path = .dma then b.dmaAddr + BitVec.ofNat 32 (i+1) else b.dmaPtr, wire := ackedItems (b.txBytes mem path) i ++ b.wire } := by
    rw [hXs]
    cases path <;> simp [Bus.advanceDma, BitVec.add_assoc, BitVec.ofNat_add]
  have hsc : (X.advanceDma path).sclFree = true := by rw [hadv]; exact h1
  refine ⟨?_, ?_⟩
  · simp only [Bus.txMove, hsrc, Bus.txSlot, Bus.txAdmits, hsc, if_true, Option.map_some]
    congr 2
    rw [hadv]
    by_cases hn : i + 1 = (b.txBytes mem path).length
    · simp only [hn, if_true]
      rw [setMoved_setStatus, ← nextPhase_withMstate _ _ b.mstate, ← setMoved_withMstate]
      simp only [Bus.slotDone, Bus.onWire, Bus.setStatus, maskTxAck, afterTx]
      rw [← hn, hw]; rfl
    · simp only [hn, if_false, txAt, Nat.add_one_ne_zero, Bus.slotDone, Bus.onWire, afterTx, hw, List.cons_append]
  · simp only [Bus.txMove, hsrc, Bus.txSlot, Bus.txAdmits, hsc, if_true, Option.map_some]
    congr 2
    rw [hadv]
    rw [setMoved_setStatus, ← nextPhase_withMstate _ _ b.mstate, ← setMoved_withMstate]
    simp only [Bus.slotDone, Bus.onWire, Bus.setStatus, maskTxNak, afterTx, List.cons_append]

theorem setAll_snoc (l : List Byte) (i : Nat) (ds : List Byte) (d : Byte) : setAll l i (ds ++ [d]) = (setAll l i ds).set (i + ds.length) d := by
  induction ds generalizing l i with
  | nil => rfl
  | cons x xs ih => simp only [List.cons_append, setAll, ih, List.length_cons]; congr 1; omega

theorem writeAll_snoc (m : Memory) (a : Nat) (ds : List Byte) (d : Byte) : Memory.writeAll m a (ds ++ [d]) = (Memory.writeAll m a ds).write (a + ds.length) d := by
  induction ds generalizing m a with
  | nil => rfl
  | cons x xs ih => simp only [List.cons_append, Memory.writeAll, ih, List.length_cons]; congr 1; omega

/-- The bus after these received bytes of a receive phase. -/
def afterRx (b : Bus) (path : Path) (got : List Byte) (w : List WireItem) (ak : LastSlot) (m : MState) (old oldm : List (Nat × Byte)) : Bus :=
  { b with mDrv := { scl := .low, sda := .rel }, sclTiming := b.timing, lastSlot := ak, mstate := m,
           rxByte := if path = .byte then got.headD b.rxByte else b.rxByte,
           pool := if path = .buf then setAll b.pool 0 got else b.pool,
           dmaPtr := if path = .dma then b.dmaAddr + BitVec.ofNat 32 got.length else b.dmaPtr,
           rxOldPool := old, rxOldMem := oldm,
           wire := w ++ b.wire }

/-- Memory after these bytes of a receive phase. -/
def rxMemory (b : Bus) (path : Path) (mem : Memory) (got : List Byte) : Memory := if path = .dma then Memory.writeAll mem b.dmaAddr.toNat got else mem

theorem beginRx_fits {p : Params} {path : Path} {b : Bus} (hf : b.rxFits p path = true) (hst : b.stale = {}) :
    ∃ old oldm, b.beginRx p path current = some (b.rxCount path, { b with dmaPtr := if path = .dma then b.dmaAddr else b.dmaPtr, rxOldPool := old, rxOldMem := oldm }) := by
  cases path
  · exact ⟨b.rxOldPool, b.rxOldMem, rfl⟩
  · simp only [Bus.rxFits, decide_eq_true_eq] at hf
    refine ⟨[], b.rxOldMem, ?_⟩
    simp [Bus.beginRx, Bus.sampleEnds, hst, pickOld, hf, Bus.rxCount]
  · simp only [Bus.rxFits, Bus.dmaFits, Bool.and_eq_true] at hf
    refine ⟨b.rxOldPool, [], ?_⟩
    simp [Bus.beginRx, Bus.sampleDmaLen, Bus.sampleDmaAddr, hst, pickOld, hf.1, Bus.rxCount]

/-- The bus inside a receive phase, up to the fields a slot sets anew. -/
def rxShape (b : Bus) (path : Path) (got : List Byte) (w : List WireItem) (md : Wires) (st : Word) (ak : LastSlot) (ms : MState) (rb : Byte) (old oldm : List (Nat × Byte)) : Bus :=
  { b with mDrv := md, sclTiming := st, lastSlot := ak, mstate := ms, rxByte := (if path = .byte then rb else b.rxByte), pool := (if path = .buf then setAll b.pool 0 got else b.pool), dmaPtr := (if path = .dma then b.dmaAddr + BitVec.ofNat 32 got.length else b.dmaPtr), rxOldPool := old, rxOldMem := oldm, wire := w ++ b.wire }

/-- One received byte, from any bus of the shape. -/
theorem rxMove_shape {p : Params} {mem : Memory} {b X : Bus} {path : Path} {last : Bool} {rest : List Phase} {n : Nat} {pk : SrcPick} (ha : b.alone) (hf : b.rxFits p path = true)
    (hn : n = b.rxCount path) (got : List Byte) (d : Byte) (hi : got.length < n) (w : List WireItem)
    (hX : ∃ md st ak ms rb old oldm, X = rxShape b path got w md st ak ms rb old oldm) :
    (got.length + 1 ≠ n → ∃ old oldm, X.rxMove p (rxMemory b path mem got) path last got.length n rest (.data d) pk = some (afterRx b path (got ++ [d]) (.byte d .ack :: w) .read (.exec (.rx path last :: rest) (.moving (got.length+1) n)) old oldm, rxMemory b path mem (got ++ [d]))) ∧
    (got.length + 1 = n → ∃ old oldm, X.rxMove p (rxMemory b path mem got) path last got.length n rest (.data d) pk = some (Bus.nextPhase rest (Bus.setMoved path n { afterRx b path (got ++ [d]) (.byte d (if last then .nak else .ack) :: w) (if last then .other else .read) b.mstate old oldm with isr := b.isr ||| 4 }), rxMemory b path mem (got ++ [d]))) := by
  obtain ⟨md, st, ak, ms, rb, old, oldm, hX⟩ := hX
  obtain ⟨h1, h2⟩ := alone_free ha
  have hsc : X.sclFree = true := by rw [hX]; exact h1
  have hr : ∀ a, ∃ old2 oldm2, ((X.slotDone a.rxSlot).onWire (.byte d a)).rxStore p (rxMemory b path mem got) path got.length d =
      some (afterRx b path (got ++ [d]) (.byte d a :: w) a.rxSlot ms old2 oldm2, rxMemory b path mem (got ++ [d])) := by
    intro a
    rw [hX]; unfold rxShape
    cases path
    · refine ⟨old, oldm, ?_⟩
      have : got = [] := by
        simp [Bus.rxCount] at hn; rw [hn] at hi; simpa using hi
      subst this
      simp [Bus.rxStore, Bus.slotDone, Bus.onWire, afterRx, rxMemory]
    · simp [Bus.rxStore, Bus.slotDone, Bus.onWire, afterRx, rxMemory, setAll_snoc]
    · simp only [Bus.rxCount] at hn
      simp only [Bus.rxFits, Bus.dmaFits, Bool.and_eq_true, Params.dmaRangeOk, decide_eq_true_eq, List.all_eq_true] at hf
      obtain ⟨⟨⟨h5, h6⟩, h7⟩, h8⟩ := hf
      have hptr : (b.dmaAddr + BitVec.ofNat 32 got.length).toNat = b.dmaAddr.toNat + got.length := by
        simp; omega
      have hal := h8 got.length (by simp; omega)
      simp only [Bus.rxStore, Bus.slotDone, Bus.onWire, if_true, hptr, hal]
      refine ⟨old, (b.dmaAddr.toNat + got.length, Memory.read (rxMemory b .dma mem got) (b.dmaAddr.toNat + got.length)) :: oldm, ?_⟩
      simp [afterRx, rxMemory, writeAll_snoc, BitVec.add_assoc, BitVec.ofNat_add]
  refine ⟨?_, ?_⟩
  · intro hne
    have ha : rxAnswer last got.length n = .ack := by simp [rxAnswer, hne]
    obtain ⟨o1, o2, ho⟩ := hr .ack
    refine ⟨o1, o2, ?_⟩
    simp only [Bus.rxMove, ha, Bus.rxAdmits, hsc, if_true]
    rw [ho]
    simp [Bus.rxNext, hne, afterRx, Ack.rxSlot]
  · intro he
    have ha : rxAnswer last got.length n = if last then .nak else .ack := by simp [rxAnswer, he]
    obtain ⟨o1, o2, ho⟩ := hr (if last then .nak else .ack)
    refine ⟨o1, o2, ?_⟩
    simp only [Bus.rxMove, ha, Bus.rxAdmits, hsc, if_true]
    rw [ho]
    have hl : (if last = true then Ack.nak else Ack.ack).rxSlot = if last then .other else .read := by cases last <;> rfl
    simp only [Bus.rxNext, he, if_true, hl]
    rw [setMoved_setStatus, ← nextPhase_withMstate _ _ b.mstate, ← setMoved_withMstate]
    simp only [Bus.setStatus, afterRx, maskRxDone]

theorem rxShape_ready {p : Params} {b : Bus} {path : Path} {last : Bool} {rest : List Phase} {mem : Memory}
    (hl : b.live) (hm : b.mstate = .exec (.rx path last :: rest) .fresh) (ho : b.own = true) (hs : b.mDrv.scl = .low)
    (hst : b.stale = {}) (hf : b.rxFits p path = true) (d : Byte) :
    ∃ old oldm, b.masterStep p mem (.rx (.data d)) current = Bus.rxMove p mem path last 0 (b.rxCount path) rest (.data d) current { b with dmaPtr := if path = .dma then b.dmaAddr else b.dmaPtr, rxOldPool := old, rxOldMem := oldm } := by
  obtain ⟨old, oldm, hb⟩ := beginRx_fits hf hst
  have hsr : b.slotReady = true := by simp [Bus.slotReady, ho, hs]
  refine ⟨old, oldm, ?_⟩
  rw [masterStep_exec hl hm]
  simp only [Bus.phaseStep, hsr, if_true, Bus.rxStep, hb]

theorem rxShape_step {p : Params} {mem : Memory} {b : Bus} {path : Path} {last : Bool} {rest : List Phase} 
    (hl : b.live) (ha : b.alone) (hm : b.mstate = .exec (.rx path last :: rest) .fresh) (ho : b.own = true) (hs : b.mDrv.scl = .low)
    (hst : b.stale = {}) (hf : b.rxFits p path = true) (ds : List Byte) (d : Byte) (hi : ds.length < b.rxCount path) (c : Bus)
    (hc : (ds = [] ∧ c = b) ∨ ∃ old oldm, c = afterRx b path ds (ds.reverse.map (fun d => .byte d .ack)) .read (.exec (.rx path last :: rest) (.moving ds.length (b.rxCount path))) old oldm) :
    (ds.length + 1 ≠ b.rxCount path → ∃ old oldm, c.masterStep p (rxMemory b path mem ds) (.rx (.data d)) current = some (afterRx b path (ds ++ [d]) (.byte d .ack :: (ds.reverse.map (fun d => .byte d .ack))) .read (.exec (.rx path last :: rest) (.moving (ds.length+1) (b.rxCount path))) old oldm, rxMemory b path mem (ds ++ [d]))) ∧
    (ds.length + 1 = b.rxCount path → ∃ old oldm, c.masterStep p (rxMemory b path mem ds) (.rx (.data d)) current = some (Bus.nextPhase rest (Bus.setMoved path (b.rxCount path) { afterRx b path (ds ++ [d]) (.byte d (if last then .nak else .ack) :: (ds.reverse.map (fun d => .byte d .ack))) (if last then .other else .read) b.mstate old oldm with isr := b.isr ||| 4 }), rxMemory b path mem (ds ++ [d]))) := by
  have : ∃ X, c.masterStep p (rxMemory b path mem ds) (.rx (.data d)) current = Bus.rxMove p (rxMemory b path mem ds) path last ds.length (b.rxCount path) rest (.data d) current X ∧
    ∃ md st ak ms rb old oldm, X = rxShape b path ds (ds.reverse.map (fun d => .byte d .ack)) md st ak ms rb old oldm := by
    rcases hc with ⟨rfl, rfl⟩ | ⟨old, oldm, rfl⟩
    · obtain ⟨old, oldm, h⟩ := rxShape_ready (mem := rxMemory c path mem []) hl hm ho hs hst hf d
      refine ⟨_, h, c.mDrv, c.sclTiming, c.lastSlot, c.mstate, c.rxByte, old, oldm, ?_⟩
      cases path <;> simp [rxShape, setAll]
    · refine ⟨afterRx b path ds (ds.reverse.map (fun d => .byte d .ack)) .read (.exec (.rx path last :: rest) (.moving ds.length (b.rxCount path))) old oldm, ?_, { scl := .low, sda := .rel }, b.timing, .read, (.exec (.rx path last :: rest) (.moving ds.length (b.rxCount path))), (if path = .byte then ds.headD b.rxByte else b.rxByte), old, oldm, ?_⟩
      · have hl2 : (afterRx b path ds (ds.reverse.map (fun d => .byte d .ack)) .read (.exec (.rx path last :: rest) (.moving ds.length (b.rxCount path))) old oldm).live := hl
        rw [masterStep_exec hl2 rfl]
        have hsr : (afterRx b path ds (ds.reverse.map (fun d => .byte d .ack)) .read (.exec (.rx path last :: rest) (.moving ds.length (b.rxCount path))) old oldm).slotReady = true := by simp [Bus.slotReady, afterRx, ho]
        simp only [Bus.phaseStep, hsr, if_true, Bus.rxStep]
      · cases path <;> simp [rxShape, afterRx]
  obtain ⟨X, hX, hs⟩ := this
  rw [hX]
  exact rxMove_shape ha hf rfl ds d hi _ hs

theorem masterStep_recover {p : Params} {mem : Memory} {b : Bus} {k : Nat} {d : Draw} {pk : SrcPick} (hl : b.live) (hm : b.mstate = .recover k) :
    b.masterStep p mem d pk = (b.recoverStep p k d).map (·, mem) := by
  simp [Bus.masterStep, hl.1, hl.2, hm]

end Sys2Proof.Laws
end

