-- ==== Sys2Proof/Laws/StatusBits.lean ====
section
/-! SUPPORT. The status bits each operation of the engine and of the slave can set (60_exceptions.md R504, R505). -/

namespace Sys2Proof.Laws

open Sys2Proof Sys2Proof.Machine

/-- The bits one step can set (60_exceptions.md R504). -/
def stepMasks : List Word := [0x0#32, 0x1#32, 0x2#32, 0x4#32, 0x8#32, 0x10#32, 0x20#32, 0x40#32, 0x2000#32, 0x4000#32, 0x84#32, 0x14#32, 0x30#32,
            0x24#32, 0x34#32]

/-- ISR rises by one of them, and by no timeout bit while TIMEOUT is 0. -/
def SetsMask (b c : Bus) : Prop := ∃ w ∈ stepMasks, c.isr = b.isr ||| w ∧ (b.timeout = 0#32 → w &&& 0x4040#32 = 0#32)

theorem setsMask_same {b c : Bus} (h : c.isr = b.isr) : SetsMask b c := ⟨0#32, by decide, by simp [h], fun _ => by decide⟩

theorem setsMask_of {b c : Bus} (w : Word) (h : c.isr = b.isr ||| w) (hL : w ∈ stepMasks := by decide) (h2 : w &&& 0x4040#32 = 0#32 := by decide) : SetsMask b c :=
  ⟨w, hL, h, fun _ => h2⟩

theorem faultBit_mem (f : SlotFault) : f.bit ∈ stepMasks := by
  rcases f with _ | _ | _ | k
  · decide
  · decide
  · decide
  · cases k <;> decide

theorem faultBit_timeout {f : SlotFault} {a : Bool} {b : Bus} (h : b.slotFaultOk a f = true) : b.timeout = 0#32 → f.bit &&& 0x4040#32 = 0#32 := by
  intro ht
  rcases f with _ | _ | _ | k
  · decide
  · simp [Bus.slotFaultOk, Bus.timeoutsOn, ht] at h
  · simp [Bus.slotFaultOk, Bus.timeoutsOn, ht] at h
  · cases k <;> decide

theorem setsMask_fault {b c d : Bus} {f : SlotFault} {a : Bool} (h : d.slotFaultOk a f = true) (hd : d.timeout = b.timeout) (hc : c.isr = b.isr ||| f.bit) : SetsMask b c :=
  ⟨f.bit, faultBit_mem f, hc, fun ht => faultBit_timeout h (hd.trans ht)⟩

theorem setsMask_timeout {b c : Bus} (w : Word) (h : c.isr = b.isr ||| w) (ht : b.timeoutsOn = true) (hL : w ∈ stepMasks := by decide) : SetsMask b c :=
  ⟨w, hL, h, fun h0 => by simp [Bus.timeoutsOn, h0] at ht⟩

theorem isr_nextPhase (rest : List Phase) (b : Bus) : (Bus.nextPhase rest b).isr = b.isr := by
  cases rest <;> simp only [Bus.nextPhase, Bus.endCommand]
  split <;> rfl

theorem isr_setMoved (path : Path) (k : Nat) (b : Bus) : (Bus.setMoved path k b).isr = b.isr := by cases path <;> rfl

theorem isr_advanceDma (path : Path) (b : Bus) : (Bus.advanceDma path b).isr = b.isr := by cases path <;> rfl

theorem isr_setStatus (m : Word) (b : Bus) : (Bus.setStatus m b).isr = b.isr ||| m := rfl

theorem isr_slotFault (f : SlotFault) (pk : SrcPick) (b : Bus) : (Bus.slotFault f pk b).isr = b.isr ||| f.bit := by rw [slotFault_fields]

theorem isr_started (rest : List Phase) (b : Bus) : (Bus.started rest b).isr = b.isr := by
  simp only [Bus.started, Bus.slaveSeesOwnStart]; split <;> rfl

theorem isr_stopped (b : Bus) : (Bus.stopped b).isr = b.isr := by
  simp only [Bus.stopped, Bus.slaveSeesOwnStop]; split <;> rfl

theorem isr_beginTx {p : Params} {path : Path} {pk : SrcPick} {b c : Bus} {n : Nat} (h : b.beginTx p path pk = some (n, c)) : c.isr = b.isr ∧ c.timeout = b.timeout := by
  cases path <;> simp [Bus.beginTx] at h
  · rw [← h.2]; simp
  · rw [← h.2.2]; simp
  · rw [← h.2.2]; simp

theorem isr_beginRx {p : Params} {path : Path} {pk : SrcPick} {b c : Bus} {n : Nat} (h : b.beginRx p path pk = some (n, c)) : c.isr = b.isr ∧ c.timeout = b.timeout := by
  cases path <;> simp [Bus.beginRx] at h
  · rw [← h.2]; simp
  · rw [← h.2.2]; simp
  · rw [← h.2.2]; simp

theorem isr_rxStore {p : Params} {mem mem2 : Memory} {path : Path} {i : Nat} {d : Byte} {b c : Bus} (h : b.rxStore p mem path i d = some (c, mem2)) : c.isr = b.isr := by
  cases path <;> simp [Bus.rxStore] at h
  · rw [← h.1]
  · rw [← h.1]
  · rw [← h.2.1]

theorem timeout_advanceDma (path : Path) (b : Bus) : (Bus.advanceDma path b).timeout = b.timeout := by cases path <;> rfl

theorem SetsMask.of {a b c : Bus} (h1 : b.isr = a.isr ∧ b.timeout = a.timeout) (h : SetsMask b c) : SetsMask a c := by
  obtain ⟨w, h2, h3, h4⟩ := h
  exact ⟨w, h2, by rw [h3, h1.1], fun h => h4 (h1.2.trans h)⟩

theorem isr_txMove {p : Params} {mem : Memory} {path : Path} {i n : Nat} {rest : List Phase} {r : TxResult} {pk : SrcPick} {b c : Bus}
    (h : b.txMove p mem path i n rest r pk = some c) : SetsMask b c := by
  unfold Bus.txMove at h
  split at h
  · cases h; exact setsMask_same rfl
  · unfold Bus.txSlot at h
    split at h
    · rename_i hok
      cases r <;> simp only [Option.some.injEq] at h
      · split at h <;> subst h
        · exact setsMask_of maskTxAck (by rw [isr_nextPhase, isr_setStatus, isr_setMoved]; simp only [Bus.onWire, Bus.slotDone, isr_advanceDma])
        · exact setsMask_same (isr_advanceDma _ _)
      · subst h; exact setsMask_of maskTxNak (by rw [isr_nextPhase, isr_setStatus, isr_setMoved]; simp only [Bus.onWire, Bus.slotDone, isr_advanceDma])
      · subst h; exact setsMask_fault hok (timeout_advanceDma _ _) (by rw [isr_slotFault, ranSlot_isr, isr_setMoved, isr_advanceDma])
    · cases h

theorem isr_rxMove {p : Params} {mem mem2 : Memory} {path : Path} {last : Bool} {i n : Nat} {rest : List Phase} {r : RxResult} {pk : SrcPick} {b c : Bus}
    (h : b.rxMove p mem path last i n rest r pk = some (c, mem2)) : SetsMask b c := by
  unfold Bus.rxMove at h
  dsimp only at h
  split at h
  · rename_i hok
    cases r with
    | fault f =>
      simp only [Option.some.injEq, Prod.mk.injEq] at h
      obtain ⟨rfl, rfl⟩ := h
      exact setsMask_fault hok rfl (by rw [isr_slotFault, ranSlot_isr, isr_setMoved])
    | data d =>
      dsimp only at h
      split at h
      · simp only [Option.some.injEq, Prod.mk.injEq] at h
        obtain ⟨rfl, rfl⟩ := h
        exact setsMask_same rfl
      · rename_i b2 mem3 hs
        simp only [Option.some.injEq, Prod.mk.injEq] at h
        obtain ⟨rfl, rfl⟩ := h
        have := isr_rxStore hs
        unfold Bus.rxNext
        split
        · exact setsMask_of maskRxDone (by rw [isr_nextPhase, isr_setStatus, isr_setMoved, this]; rfl)
        · exact setsMask_same this
  · cases h

theorem isr_mAbort (m : Word) (b : Bus) : (Bus.mAbort m b).isr = b.isr ||| m := rfl

theorem lineTimeout_on {l : Line} {b : Bus} (h : b.lineTimeout l = true) : b.timeoutsOn = true := by
  cases l <;> simp only [Bus.lineTimeout, Bool.and_eq_true] at h <;> exact h.1

theorem isr_startStep {p : Params} {b c : Bus} {pr : Progress} {rest : List Phase} {d : Draw} (h : b.startStep p pr rest d = some c) : SetsMask b c := by
  unfold Bus.startStep at h
  split at h
  · split at h
    · cases ‹LineResult› <;> simp only [Bus.stepSr] at h <;> rw [Option.ite_none_right_eq_some] at h <;> obtain ⟨hc, h⟩ := h <;> cases h
      · exact setsMask_same (isr_started _ _)
      · exact setsMask_of maskArbLoss rfl
      · exact setsMask_timeout maskSclTimeout rfl (lineTimeout_on hc)
      · exact setsMask_timeout maskSdaTimeout rfl (lineTimeout_on hc)
    · cases h
  · split at h
    · split at h
      · cases ‹LineResult› <;> simp only [Bus.stepS] at h
        · rw [Option.ite_none_right_eq_some] at h; obtain ⟨hc, h⟩ := h; cases h
          exact setsMask_same (isr_started _ _)
        · cases h
        · rw [Option.ite_none_right_eq_some] at h; obtain ⟨hc, h⟩ := h; cases h
          exact setsMask_timeout maskSclTimeout rfl (lineTimeout_on hc)
        · rw [Option.ite_none_right_eq_some] at h; obtain ⟨hc, h⟩ := h; cases h
          exact setsMask_timeout maskSdaTimeout rfl (lineTimeout_on hc)
      · cases h
    · split at h
      · split at h <;> cases h
        · exact setsMask_same rfl
        · exact setsMask_of maskArbLoss rfl
      · cases h

theorem isr_stopStep {b c : Bus} {rest : List Phase} {r : LineResult} (h : b.stopStep rest r = some c) : SetsMask b c := by
  cases r <;> simp only [Bus.stopStep] at h <;> rw [Option.ite_none_right_eq_some] at h <;> obtain ⟨hc, h⟩ := h <;> cases h
  · exact setsMask_of maskNormalStop (by rw [isr_nextPhase, isr_setStatus, isr_stopped])
  · exact setsMask_of maskArbLoss rfl
  · exact setsMask_timeout maskSclTimeout rfl (lineTimeout_on hc)
  · exact setsMask_timeout maskSdaTimeout rfl (lineTimeout_on hc)

theorem isr_recoverStep {p : Params} {b c : Bus} {k : Nat} {d : Draw} (h : b.recoverStep p k d = some c) : SetsMask b c := by
  unfold Bus.recoverStep at h
  split at h
  · rw [Option.ite_none_right_eq_some] at h
    cases h.2
    refine setsMask_of maskRecoverDone ?_
    simp only [Bus.slaveSeesOwnStop]; split <;> rfl
  · rw [Option.ite_none_right_eq_some, Bool.and_eq_true] at h
    cases h.2
    exact setsMask_timeout maskSclTimeout rfl (lineTimeout_on h.1.1)
  · rw [Option.ite_none_right_eq_some] at h
    cases h.2; exact setsMask_same rfl
  · rw [Option.ite_none_right_eq_some] at h
    cases h.2
    cases p.recoverFail.getD _
    · exact setsMask_of maskRecoverDone rfl
    · exact setsMask_same rfl
  · cases h

theorem isr_dropStx (b : Bus) : b.dropStx.isr = b.isr := dropStx_isr b

theorem isr_deliverBatch (b : Bus) : b.deliverBatch.isr = b.isr ||| (if b.batchOpen then 4#32 else 0#32) := by
  unfold Bus.deliverBatch; split
  · simp only [isr_setStatus, isr_setMoved]; rfl
  · simp

theorem isr_slaveStart (b : Bus) : SetsMask b b.slaveStart := by
  unfold Bus.slaveStart
  split
  · refine setsMask_of (if b.batchOpen then 4#32 else 0#32) (by simp only [isr_dropStx, isr_deliverBatch]) ?_ ?_ <;> split <;> decide
  · exact setsMask_same rfl

theorem isr_slaveStop (b : Bus) : SetsMask b b.slaveStop := by
  unfold Bus.slaveStop
  split
  · split
    · refine setsMask_of ((if b.batchOpen then 4#32 else 0#32) ||| maskNormalStop) (by simp only [isr_dropStx, isr_setStatus, isr_deliverBatch, BitVec.or_assoc]) ?_ ?_ <;> split <;> decide
    · exact setsMask_same rfl
  · exact setsMask_same rfl

theorem isr_slaveMid (k : Cond) (b : Bus) : SetsMask b (b.slaveMid k) := by
  unfold Bus.slaveMid
  split
  · cases k
    · refine setsMask_of ((if b.batchOpen then 4#32 else 0#32) ||| maskAbnormal) (by simp only [isr_dropStx, isr_setStatus, isr_deliverBatch, BitVec.or_assoc]) ?_ ?_ <;> split <;> decide
    · refine setsMask_of ((if b.batchOpen then 4#32 else 0#32) ||| (maskAbnormal ||| maskNormalStop)) (by simp only [isr_dropStx, isr_setStatus, isr_deliverBatch, BitVec.or_assoc]) ?_ ?_ <;> split <;> decide
  · cases k
    · exact isr_slaveStart b
    · exact isr_slaveStop b

theorem isr_stretch (st : SState) (b : Bus) : (b.stretch st).isr = b.isr := rfl

theorem isr_batchNext (b : Bus) : SetsMask b b.batchNext := by
  unfold Bus.batchNext
  dsimp only
  split
  · exact setsMask_of maskRxDone (by rw [isr_stretch, isr_setStatus, isr_setMoved])
  · exact setsMask_same rfl

theorem isr_slaveWrite (p : Params) (mem : Memory) (d : Byte) (b : Bus) : SetsMask b (b.slaveWrite p mem d).1 := by
  unfold Bus.slaveWrite
  split
  · dsimp only
    split
    · exact setsMask_of (maskSlaveMatch ||| maskRxDone) rfl
    · exact setsMask_same rfl
  · unfold Bus.slaveStore
    dsimp only
    split
    · exact setsMask_of maskRxDone rfl
    · exact (isr_batchNext _).of ⟨rfl, rfl⟩
    · split
      · exact (isr_batchNext _).of ⟨rfl, rfl⟩
      · exact setsMask_same rfl
  · exact setsMask_same rfl

theorem isr_slaveRead (p : Params) (mem : Memory) (a : Ack) (pk : SrcPick) (b : Bus) : SetsMask b (b.slaveRead p mem a pk) := by
  unfold Bus.slaveRead
  split
  · split
    · exact setsMask_same rfl
    · unfold Bus.stxAnswered
      dsimp only
      split
      · split
        · exact setsMask_of maskTxAck (by rw [isr_stretch, isr_setStatus, isr_setMoved]; rfl)
        · exact setsMask_same rfl
      · exact setsMask_of maskTxNak (by simp only [isr_setStatus, isr_setMoved]; rfl)
  · exact setsMask_same rfl

theorem isr_slaveStep {b c : Bus} (h : b.slaveStep = some c) : c.isr = b.isr := by
  unfold Bus.slaveStep at h
  rw [Option.ite_none_right_eq_some] at h; cases h.2; rfl

end Sys2Proof.Laws
end

