-- ==== Sys2Proof/Laws/Access.lean ====
section
/-! SUPPORT. What host accesses and the host contexts do to the buses (10_state.md R33 to R63, 20_memory.md R100 to R109): one bus at most
changes, and ISR only at its own register. -/

namespace Sys2Proof.Laws

open Sys2Proof Sys2Proof.Machine

theorem onSel_next {s : State} {b : Bus} (f : Bus → Bus) (hb : s.buses[s.sel]? = some b) : s.onSel f = .next (s.setBus s.sel (f b)) := by
  simp [State.onSel, hb]

theorem busFor_ok {s : State} {n : Nat} {b : Bus} (hb : s.buses[n]? = some b) (hr : b.refused = false) : s.busFor n = .next b := by
  unfold State.busFor; rw [hb]; simp [hr]

theorem hostWrite_reg {s : State} {loc : Loc} {n off : Nat} {b : Bus} {v : Word} (hl : Loc.find s.params loc = some (.bus n, off)) (hb : s.buses[n]? = some b)
    (hr : b.refused = false) (ho : off % 4 = 0) (h1 : off < 0x40) (h2 : off ≠ 0x14) :
    s.hostWrite loc 32 v = .next (s.setBus n (b.writeReg off v)) := by
  unfold State.hostWrite
  rw [hl]
  simp only
  unfold State.writeBusReg
  rw [busFor_ok hb hr]
  simp [andThen, accessOk, ho, h2]
  omega

theorem hostRead_reg {s : State} {loc : Loc} {n off : Nat} {b : Bus} {d : ReadDraw} {w : Word} (hl : Loc.find s.params loc = some (.bus n, off)) (hb : s.buses[n]? = some b)
    (hr : b.refused = false) (ho : off % 4 = 0) (h1 : off < 0x40) (hw : b.regWord off d.bits = some w) :
    s.hostRead loc 32 d = .next { s.setBus n (b.afterRead s.params off) with rdata := w } := by
  unfold State.hostRead State.mmioRead
  rw [hl]
  simp only
  unfold State.readBusReg
  rw [busFor_ok hb hr]
  have : ¬ 64 ≤ off := by omega
  simp [andThen, accessOk, ho, this, hw]

theorem setBus_self {s : State} {n : Nat} {b : Bus} (hb : s.buses[n]? = some b) : s.setBus n b = s := by
  unfold State.setBus
  have : s.buses.set n b = s.buses := by
    apply List.ext_getElem?
    intro i
    rw [List.getElem?_set]
    split
    · subst_vars; split
      · exact hb.symm
      · rename_i h; rw [List.getElem?_eq_none (by omega)]
    · rfl
  rw [this]

theorem hostRead_noEffect {s : State} {n off : Nat} {b : Bus} {d : ReadDraw} {w : Word} (hb : s.buses[n]? = some b)
    (hr : b.refused = false) (ho : off % 4 = 0) (h1 : off < 0x40) (h2 : off ≠ 0x10) (hw : b.regWord off d.bits = some w) :
    s.hostRead (.space (.bus n) off) 32 d = .next { s with rdata := w } := by
  rw [hostRead_reg rfl hb hr ho h1 hw]
  unfold Bus.afterRead
  simp [h2, setBus_self hb]

theorem mixBits_and (m a r : Word) : mixBits m a r &&& m = a &&& m := by
  unfold mixBits; ext i hi; simp; cases m[i] <;> simp

theorem mixBits_field (m a r : Word) (k n : Nat) (h : ∀ i < n, m.getLsbD (k + i) = true) :
    (mixBits m a r).extractLsb' k n = a.extractLsb' k n := by
  unfold mixBits; ext i hi
  have := h i hi
  simp [this]

theorem writePoolLane_pool (p : Params) (w j : Nat) (v : Word) (b : Bus) : (b.writePoolLane p w j v).pool = (if 4 * w + j < p.bufSize then b.pool.set (4 * w + j) (v.extractLsb' (8 * j) 8) else b.pool) := by
  unfold Bus.writePoolLane; split <;> rfl

theorem writePoolLane_fields (p : Params) (w j : Nat) (v : Word) (b : Bus) : ∃ q st, b.writePoolLane p w j v = { b with pool := q, stale := st } := by
  unfold Bus.writePoolLane; split
  · exact ⟨_, _, rfl⟩
  · exact ⟨b.pool, b.stale, rfl⟩

/-- Lane `i` of a word of the window. -/
theorem poolWord_lane (p : Params) (w : Nat) (d : ReadDraw) (b : Bus) {i : Nat} (hi : i < 4) :
    (b.poolWord p w d).extractLsb' (8 * i) 8 = b.poolLane p w i d := by
  unfold Bus.poolWord
  have : i = 0 ∨ i = 1 ∨ i = 2 ∨ i = 3 := by omega
  rcases this with rfl | rfl | rfl | rfl <;>
    (apply BitVec.eq_of_getLsbD_eq; intro k hk
     simp only [BitVec.getLsbD_extractLsb', BitVec.getLsbD_append, hk, decide_true, Bool.true_and]
     repeat' split
     all_goals first | omega | (congr 1; omega))

theorem writePool_fields (p : Params) (w : Nat) (v : Word) (b : Bus) : ∃ q st, b.writePool p w v = { b with pool := q, stale := st } := by
  unfold Bus.writePool
  obtain ⟨q0, s0, h0⟩ := writePoolLane_fields p w 0 v b
  rw [h0]
  obtain ⟨q1, s1, h1⟩ := writePoolLane_fields p w 1 v { b with pool := q0, stale := s0 }
  rw [h1]
  obtain ⟨q2, s2, h2⟩ := writePoolLane_fields p w 2 v { b with pool := q1, stale := s1 }
  rw [h2]
  obtain ⟨q3, s3, h3⟩ := writePoolLane_fields p w 3 v { b with pool := q2, stale := s2 }
  rw [h3]
  exact ⟨_, _, rfl⟩

theorem gisrFrom_bit : ∀ (l : List Bus) (i n : Nat), n < 32 → i + l.length ≤ 32 → ((gisrFrom i l).getLsbD n = true ↔ i ≤ n ∧ ∃ b, l[n - i]? = some b ∧ b.irq = true)
  | [], i, n, hn, hl => by simp [gisrFrom]
  | b :: rest, i, n, hn, hl => by
    unfold gisrFrom
    simp at hl
    have ih := gisrFrom_bit rest (i + 1) n hn (by omega)
    rw [BitVec.getLsbD_or, Bool.or_eq_true, ih]
    have hb : (if b.irq then 1#32 <<< i else 0).getLsbD n = true ↔ n = i ∧ b.irq = true := by
      cases b.irq
      · simp
      · simp only [if_true]
        simp only [BitVec.getLsbD_shiftLeft, BitVec.getLsbD_one]
        simp
        omega
    rw [hb]
    constructor
    · rintro (⟨rfl, h⟩ | ⟨h, c, h1, h2⟩)
      · exact ⟨le_refl _, b, by simp, h⟩
      · refine ⟨by omega, c, ?_, h2⟩
        rw [show n - i = (n - (i+1)) + 1 by omega]; simpa using h1
    · rintro ⟨h, c, h1, h2⟩
      by_cases hni : n = i
      · subst hni; simp at h1; subst h1; exact .inl ⟨rfl, h2⟩
      · right; refine ⟨by omega, c, ?_, h2⟩
        rw [show n - i = (n - (i+1)) + 1 by omega] at h1; simpa using h1

theorem irq_iff (b : Bus) : b.irq = true ↔ b.isr &&& b.ier ≠ 0 := by simp [Bus.irq, hasAny]

theorem resetBuses_length (p : Params) : ∀ (l : List Bus) (u : List ResetDraw), (resetBuses p l u).length = l.length
  | [], _ => rfl
  | _ :: rest, [] => by simp [resetBuses, resetBuses_length p rest]
  | _ :: rest, _ :: us => by simp [resetBuses, resetBuses_length p rest]

/-- Bus `n` after a block reset takes the draws number `n`. -/
theorem resetBuses_get (p : Params) : ∀ (l : List Bus) (u : List ResetDraw) (n : Nat) (b : Bus), l[n]? = some b →
    (resetBuses p l u)[n]? = some (Bus.afterReset p b.env (u.getD n {}))
  | [], _, n, b, h => by simp at h
  | c :: rest, [], 0, b, h => by simp at h; subst h; rfl
  | c :: rest, [], n+1, b, h => by simpa [resetBuses] using resetBuses_get p rest [] n b (by simpa using h)
  | c :: rest, u :: us, 0, b, h => by simp at h; subst h; rfl
  | c :: rest, u :: us, n+1, b, h => by simpa [resetBuses] using resetBuses_get p rest us n b (by simpa using h)

/-- From `s` to `t` bus `n` changes by `R` and no other bus changes. -/
def OneBus (s t : State) (n : Nat) (R : Bus → Bus → Prop) : Prop :=
  ∀ m b c, s.buses[m]? = some b → t.buses[m]? = some c → (m ≠ n → c = b) ∧ (m = n → R b c)

theorem oneBus_set {s : State} {n : Nat} {b b2 : Bus} {R : Bus → Bus → Prop} (hb : s.buses[n]? = some b) (hR : R b b2) : OneBus s (s.setBus n b2) n R := by
  intro m x y hx hy
  simp only [State.setBus, List.getElem?_set] at hy
  split at hy
  · rename_i h; subst h
    rw [hb] at hx; cases hx
    split at hy
    · cases hy; exact ⟨fun h => absurd rfl h, fun _ => hR⟩
    · cases hy
  · rename_i h
    rw [hx] at hy; cases hy
    exact ⟨fun _ => rfl, fun h2 => absurd h2.symm h⟩

theorem oneBus_same {s t : State} {n : Nat} {R : Bus → Bus → Prop} (h : t.buses = s.buses) (hR : ∀ b, R b b) : OneBus s t n R := by
  intro m x y hx hy; rw [h, hx] at hy; cases hy; exact ⟨fun _ => rfl, fun _ => hR _⟩

theorem oneBus_of {s s2 t : State} {n : Nat} {R : Bus → Bus → Prop} (h : s2.buses = s.buses) (hu : OneBus s2 t n R) : OneBus s t n R := by
  intro m x y hx hy; exact hu m x y (by rw [h]; exact hx) hy

/-- ISR is unchanged. -/
def SameIsr (b c : Bus) : Prop := c.isr = b.isr

theorem oneBus_onSel {s t : State} {f : Bus → Bus} {R : Bus → Bus → Prop} (hf : ∀ b, R b (f b)) (h : s.onSel f = .next t) : OneBus s t s.sel R := by
  unfold State.onSel at h
  split at h
  · cases h
  · cases h; exact oneBus_set ‹_› (hf _)

theorem oneBus_exec {i : Instr} {s t : State} (h : exec i s = .next t) : OneBus s t s.sel SameIsr := by
  have hc : ∀ ok c m (b : Bus), SameIsr b (b.command ok c m) := by
    intro ok c m b; unfold Bus.command; split <;> rfl
  have hx : ∀ p path (b : Bus), SameIsr b (b.srxarm p path) := by
    intro p path b; unfold Bus.srxarm
    split
    · split
      · rfl
      · exact isr_setMoved _ _ _
    · rfl
  have hs : ∀ p path c (b : Bus), SameIsr b (b.stx p path c) := by
    intro p path c b; unfold Bus.stx
    split
    · split <;> rfl
    · rfl
  cases i
  case cmdNop => cases h; exact oneBus_same rfl (fun _ => rfl)
  all_goals first
    | exact oneBus_onSel (hc _ _ _) h
    | exact oneBus_onSel (hx _ _) h
    | exact oneBus_onSel (hs _ _ _) h

/-- What a write of `v` to the register at `off` can do to ISR. -/
def IsrWrite (off : Nat) (v : Word) (b c : Bus) : Prop :=
  c.isr = b.isr ∨ (off = 0x10 ∧ c.isr = b.isr &&& ~~~(v &&& isrImpl))

/-- What a read of the register at `off` can do to ISR. -/
def IsrRead (p : Params) (off : Nat) (b c : Bus) : Prop :=
  c.isr = b.isr ∨ (off = 0x10 ∧ p.statusClearOnRead = true ∧ c.isr = 0)


theorem isr_writeFunCtrl (m sl d : Bool) (b : Bus) : (b.writeFunCtrl m sl d).isr = b.isr := by
  have hd : ∀ b : Bus, b.slaveOff.isr = b.isr := by intro b; unfold Bus.slaveOff Bus.slaveRelease Bus.clearStx; dsimp only; split <;> rfl
  unfold Bus.writeFunCtrl
  dsimp only
  have e1 : (if (b.masterEn && !m) = true then b.masterOff else b).isr = b.isr := by split <;> rfl
  generalize (if (b.masterEn && !m) = true then b.masterOff else b) = b1 at *
  have e2 : (if (b.slaveEn && !sl) = true then b1.slaveOff else b1).isr = b.isr := by split <;> simp only [hd, e1]
  generalize (if (b.slaveEn && !sl) = true then b1.slaveOff else b1) = b2 at *
  split <;> split <;> split <;> exact e2

theorem isr_writeReg (off : Nat) (v : Word) (b : Bus) : IsrWrite off v b (b.writeReg off v) := by
  unfold Bus.writeReg
  split
  · exact .inl (isr_writeFunCtrl _ _ _ _)
  · exact .inl rfl
  · exact .inl rfl
  · left; unfold Bus.writeIer; split <;> rfl
  · exact .inr ⟨rfl, rfl⟩
  all_goals exact .inl rfl

theorem oneBus_writeBusReg {s t : State} {n w off : Nat} {v : Word} (h : s.writeBusReg n w off v = .next t) :
    OneBus s t n (IsrWrite off v) := by
  unfold State.writeBusReg at h
  obtain ⟨b, hb, h⟩ := andThen_next h
  obtain ⟨hb, _⟩ := busFor_next hb
  split at h
  · cases h; exact oneBus_set hb (.inl rfl)
  · split at h
    · cases h
    · split at h
      · unfold State.writeCmd at h
        split at h
        · cases h; exact oneBus_set hb (.inl rfl)
        · have := oneBus_exec h
          intro m x y hx hy
          obtain ⟨h1, h2⟩ := this m x y hx hy
          exact ⟨h1, fun hm => .inl (h2 hm)⟩
      · cases h; exact oneBus_set hb (isr_writeReg _ _ _)

theorem oneBus_readBusReg {s : State} {n w off : Nat} {d : ReadDraw} {r : Option Word × State} (h : s.readBusReg n w off d = .next r) :
    OneBus s r.2 n (IsrRead s.params off) := by
  unfold State.readBusReg at h
  obtain ⟨b, hb, h⟩ := andThen_next h
  obtain ⟨hb, _⟩ := busFor_next hb
  split at h
  · cases h; exact oneBus_set hb (.inl rfl)
  · split at h
    · cases h
    · split at h
      · cases h; exact oneBus_set hb (.inl rfl)
      · cases h
        refine oneBus_set hb ?_
        unfold Bus.afterRead
        split
        · rename_i hc; simp at hc; exact .inr ⟨hc.1, hc.2, rfl⟩
        · exact .inl rfl

theorem isr_writePool (p : Params) (w : Nat) (v : Word) (b : Bus) : (b.writePool p w v).isr = b.isr := by
  have : ∀ j (b : Bus), (b.writePoolLane p w j v).isr = b.isr := by intro j b; unfold Bus.writePoolLane; split <;> rfl
  unfold Bus.writePool; simp only [this]

theorem oneBus_writePool {s t : State} {n w off : Nat} {v : Word} (h : s.writePool n w off v = .next t) : OneBus s t n SameIsr := by
  unfold State.writePool at h
  obtain ⟨b, hb, h⟩ := andThen_next h
  obtain ⟨hb, _⟩ := busFor_next hb
  split at h
  · cases h; exact oneBus_set hb rfl
  · cases h; exact oneBus_set hb (isr_writePool _ _ _ _)

theorem oneBus_readPool {s : State} {n w off : Nat} {d : ReadDraw} {r : Option Word × State} (h : s.readPool n w off d = .next r) : OneBus s r.2 n SameIsr := by
  unfold State.readPool at h
  obtain ⟨b, hb, h⟩ := andThen_next h
  obtain ⟨hb, _⟩ := busFor_next hb
  split at h
  · cases h; exact oneBus_set hb rfl
  · cases h; exact oneBus_same rfl (fun _ => rfl)

theorem writeGlobal_buses {s t : State} {w off : Nat} {v : Word} (h : s.writeGlobal w off v = .next t) : t.buses = s.buses := by
  unfold State.writeGlobal at h
  split at h
  · cases h
  · split at h <;> cases h <;> rfl

theorem readGlobal_state {s : State} {w off : Nat} {r : Option Word × State} (h : s.readGlobal w off = .next r) : r.2 = s := by
  unfold State.readGlobal at h
  split at h
  · cases h
  · split at h <;> cases h <;> rfl

/-- A host write sets no status bit, and clears one only at ISR of its bus. -/
theorem hostWrite_isr {s t : State} {loc : Loc} {w : Nat} {v : Word} (h : s.hostWrite loc w v = .next t) {m : Nat} {b c : Bus}
    (hb : s.buses[m]? = some b) (hc : t.buses[m]? = some c) :
    c.isr = b.isr ∨ (Loc.find s.params loc = some (.bus m, 0x10) ∧ c.isr = b.isr &&& ~~~(v &&& isrImpl)) := by
  unfold State.hostWrite at h
  split at h
  · cases h
  · rename_i n off hf
    obtain ⟨h1, h2⟩ := oneBus_writeBusReg h m b c hb hc
    by_cases hm : m = n
    · rcases h2 hm with h | ⟨rfl, hx⟩
      · exact .inl h
      · subst hm; exact .inr ⟨hf, hx⟩
    · rw [h1 hm]; exact .inl rfl
  · rename_i n off hf
    obtain ⟨h1, h2⟩ := oneBus_writePool h m b c hb hc
    by_cases hm : m = n
    · exact .inl (h2 hm)
    · rw [h1 hm]; exact .inl rfl
  · rw [writeGlobal_buses h, hb] at hc; cases hc; exact .inl rfl

theorem mmioRead_isr {s : State} {loc : Loc} {w : Nat} {d : ReadDraw} {r : Option Word × State} (h : s.mmioRead loc w d = .next r)
    {m : Nat} {b c : Bus} (hb : s.buses[m]? = some b) (hc : r.2.buses[m]? = some c) :
    c.isr = b.isr ∨ (Loc.find s.params loc = some (.bus m, 0x10) ∧ s.params.statusClearOnRead = true ∧ c.isr = 0) := by
  unfold State.mmioRead at h
  split at h
  · cases h
  · rename_i n off hf
    obtain ⟨h1, h2⟩ := oneBus_readBusReg h m b c hb hc
    by_cases hm : m = n
    · rcases h2 hm with h | ⟨rfl, hx⟩
      · exact .inl h
      · subst hm; exact .inr ⟨hf, hx⟩
    · rw [h1 hm]; exact .inl rfl
  · rename_i n off hf
    obtain ⟨h1, h2⟩ := oneBus_readPool h m b c hb hc
    by_cases hm : m = n
    · exact .inl (h2 hm)
    · rw [h1 hm]; exact .inl rfl
  · rw [readGlobal_state h, hb] at hc; cases hc; exact .inl rfl

theorem hostRead_isr {s t : State} {loc : Loc} {w : Nat} {d : ReadDraw} (h : s.hostRead loc w d = .next t) {m : Nat} {b c : Bus}
    (hb : s.buses[m]? = some b) (hc : t.buses[m]? = some c) :
    c.isr = b.isr ∨ (Loc.find s.params loc = some (.bus m, 0x10) ∧ s.params.statusClearOnRead = true ∧ c.isr = 0) := by
  unfold State.hostRead at h
  obtain ⟨r, hr, h⟩ := andThen_next h
  split at h <;> cases h <;> exact mmioRead_isr hr hb hc

/-- What an operation of a submitter can do to ISR of its bus: only the ISR write touches it. -/
def SubIsr (op : HOp) (b c : Bus) : Prop :=
  c.isr = b.isr ∨ ∃ v, op = .wr 0x10 v ∧ c.isr = b.isr &&& ~~~(v &&& isrImpl)

/-- What an operation of the dispatcher can do to ISR of its bus: the ISR read touches it too. -/
def DispIsr (p : Params) (op : HOp) (b c : Bus) : Prop :=
  SubIsr op b c ∨ (op = .rdIsr ∧ p.statusClearOnRead = true ∧ c.isr = 0)

theorem OneBus.mono {s t : State} {n : Nat} {R S : Bus → Bus → Prop} (h : OneBus s t n R) (hm : ∀ b c, R b c → S b c) : OneBus s t n S :=
  fun m b c hb hc => ⟨(h m b c hb hc).1, fun he => hm _ _ ((h m b c hb hc).2 he)⟩

theorem opWrite_isr {s : State} {n off : Nat} {v : Word} {r : State × List HOp} (h : opWrite n off v s = .next r) :
    OneBus s r.1 n (IsrWrite off v) := by
  unfold opWrite at h
  obtain ⟨t, ht, h⟩ := andThen_next h
  cases h
  exact oneBus_writeBusReg ht

theorem opWrite_other {s s0 : State} {n off : Nat} {v : Word} {r : State × List HOp} (h : opWrite n off v s = .next r) (ho : off ≠ 0x10)
    (hs : s.buses = s0.buses) : OneBus s0 r.1 n SameIsr :=
  oneBus_of hs ((opWrite_isr h).mono fun _ _ h => h.resolve_right fun h2 => ho h2.1)

theorem opPool_isr {s : State} {n off : Nat} {v : Word} {r : State × List HOp} (h : andThen (s.writePool n 32 off v) quiet = .next r) :
    OneBus s r.1 n SameIsr := by
  obtain ⟨t, ht, h⟩ := andThen_next h
  cases h
  exact oneBus_writePool ht

theorem opRead_isr {s : State} {n off : Nat} {d : ReadDraw} {k : Word → State → OpResult} {r : State × List HOp}
    (hk : ∀ t s2 r, k t s2 = .next r → r.1.buses = s2.buses) (h : opRead n off d s k = .next r) :
    OneBus s r.1 n (IsrRead s.params off) := by
  unfold opRead at h
  obtain ⟨x, hx, h⟩ := andThen_next h
  have hb := hk _ _ _ h
  intro m b c h1 h2
  exact oneBus_readBusReg hx m b c h1 (by rw [← hb]; exact h2)

theorem opRead_other {s : State} {n off : Nat} {d : ReadDraw} {k : Word → State → OpResult} {r : State × List HOp}
    (hk : ∀ t s2 r, k t s2 = .next r → r.1.buses = s2.buses) (h : opRead n off d s k = .next r) (ho : off ≠ 0x10) :
    OneBus s r.1 n SameIsr :=
  (opRead_isr hk h).mono fun _ _ h => h.resolve_right fun h2 => ho h2.1

theorem submitterOp_isr {n : Nat} {hd : HostDraw} {op : HOp} {h : HostBus} {s : State} {r : State × List HOp}
    (he : submitterOp n hd op h s = .next r) : OneBus s r.1 n (SubIsr op) := by
  cases op <;> simp only [submitterOp] at he
  case wr off v => exact (opWrite_isr he).mono fun _ _ h => h.imp id fun h2 => ⟨v, by rw [h2.1], h2.2⟩
  all_goals refine OneBus.mono (R := SameIsr) ?_ fun _ _ h => .inl h
  all_goals first
    | exact opWrite_other he (by decide) rfl
    | exact opPool_isr he
    | exact opRead_other (by intro t s2 r h; cases h; rfl) he (by decide)
    | (cases he; exact oneBus_same rfl fun _ => rfl)

theorem dispatcherOp_isr {n : Nat} {hd : HostDraw} {op : HOp} {d : Disp} {h : HostBus} {s : State} {r : State × List HOp}
    (he : dispatcherOp n hd op d h s = .next r) : OneBus s r.1 n (DispIsr s.params op) := by
  cases op <;> simp only [dispatcherOp] at he
  case wr off v => exact (opWrite_isr he).mono fun _ _ h => .inl (h.imp id fun h2 => ⟨v, by rw [h2.1], h2.2⟩)
  case rdIsr => exact (opRead_isr (by intro t s2 r h; cases h; rfl) he).mono fun _ _ h => h.imp .inl fun h2 => ⟨rfl, h2.2⟩
  all_goals refine OneBus.mono (R := SameIsr) ?_ fun _ _ h => .inl (.inl h)
  case rdCount =>
    exact opRead_other (by intro t s2 r h; cases h; rfl) he (by cases h.mode <;> decide)
  case rdPool w =>
    obtain ⟨x, hx, he⟩ := andThen_next he
    cases he
    exact oneBus_readPool hx
  all_goals first
    | exact opWrite_other he (by decide) rfl
    | exact opPool_isr he
    | exact opRead_other (by intro t s2 r h; cases h; rfl) he (by decide)
    | (cases he; exact oneBus_same rfl fun _ => rfl)

/-- A step of a submitter: the buses stay, or the operation in front runs on its bus. -/
theorem submitterStep_isr {s t : State} {n : Nat} {hd : HostDraw} (h : s.submitterStep n hd = .next t) :
    t.buses = s.buses ∨ ∃ hb op rest, s.hosts[n]? = some hb ∧ hb.sub = op :: rest ∧ OneBus s t n (SubIsr op) := by
  unfold State.submitterStep at h
  split at h
  · cases h; exact .inl rfl
  · rename_i hb hh
    split at h
    · cases h; exact .inl rfl
    · split at h
      · cases h; exact .inl rfl
      · obtain ⟨r, hr, h⟩ := andThen_next h
        cases h
        exact .inr ⟨_, _, _, hh, by assumption, submitterOp_isr hr⟩

/-- A step of the dispatcher: the buses stay, or the operation in front runs on the bus dispatched. -/
theorem dispatcherStep_isr {s t : State} {hd : HostDraw} (h : s.dispatcherStep hd = .next t) :
    t.buses = s.buses ∨ ∃ d op rest, s.disp = some d ∧ d.todo = op :: rest ∧ OneBus s t d.n (DispIsr s.params op) := by
  unfold State.dispatcherStep at h
  split at h
  · cases h; exact .inl rfl
  · rename_i d hd
    split at h
    · cases h; exact .inl rfl
    · split at h
      · obtain ⟨r, hr, h⟩ := andThen_next h
        cases h
        exact .inr ⟨_, _, _, hd, by assumption, dispatcherOp_isr hr⟩
      · cases h
        left
        unfold State.dispatcherAdvance
        split
        · rfl
        · split
          · split <;> rfl
          · rfl

theorem hostTimeout_buses (s : State) (n : Nat) : (s.hostTimeoutStep n).buses = s.buses := by
  unfold State.hostTimeoutStep
  split
  · rfl
  · split
    · rfl
    · split
      · split <;> rfl
      · split <;> rfl
      · rfl

theorem oneBus_busStep {s : State} {n : Nat} {f : Bus → Option (Bus × Memory)} {R : Bus → Bus → Prop} (hR : ∀ b, R b b)
    (hf : ∀ b r, f b = some r → R b r.1) : OneBus s (s.busStep n f) n R := by
  unfold State.busStep
  split
  · exact oneBus_same rfl hR
  · split
    · exact oneBus_same rfl hR
    · exact oneBus_set ‹_› (hf _ _ ‹_›)

theorem OneBus.all {s t : State} {n : Nat} {R : Bus → Bus → Prop} (h : OneBus s t n R) (hR : ∀ b, R b b) {m : Nat} {b c : Bus} (hb : s.buses[m]? = some b) (hc : t.buses[m]? = some c) : R b c := by
  obtain ⟨h1, h2⟩ := h m b c hb hc
  by_cases hm : m = n
  · exact h2 hm
  · rw [h1 hm]; exact hR b

theorem isr_hostMemWrite {s : State} {a : Nat} {v : Byte} {m : Nat} {b c : Bus} (hb : s.buses[m]? = some b) (hc : (s.hostMemWrite a v).buses[m]? = some c) : c.isr = b.isr := by
  simp only [State.hostMemWrite, List.getElem?_map, hb, Option.map_some, Option.some.injEq] at hc
  subst hc; split <;> rfl

theorem isr_resetBuses (p : Params) : ∀ (l : List Bus) (u : List ResetDraw) (m : Nat) (c : Bus), (resetBuses p l u)[m]? = some c → c.isr = 0
  | [], _, m, c, h => by simp [resetBuses] at h
  | b :: rest, [], 0, c, h => by simp [resetBuses] at h; subst h; rfl
  | b :: rest, [], m+1, c, h => by simp [resetBuses] at h; exact isr_resetBuses p rest [] m c h
  | b :: rest, u :: us, 0, c, h => by simp [resetBuses] at h; subst h; rfl
  | b :: rest, u :: us, m+1, c, h => by simp [resetBuses] at h; exact isr_resetBuses p rest us m c h

end Sys2Proof.Laws
end

