-- ==== Sys2Proof/Machine/Fairness.lean ====
section
/-! DEFINITION. Weak fairness (00_scope.md R7, "an engine with an enabled step eventually takes it"; 41_line_driver.md R255;
60_exceptions.md R513; 70_reset_and_hazards.md R572): a property of a run, for claims that something happens. No step of the machine
rests on it, and a claim that every run keeps something needs none of it. -/

namespace Sys2Proof.Machine

/-- What fairness is asked of: the two machines of each bus's engine, and the contexts of the host. The environment owes nothing:
where TIMEOUT_CFG is 0 it may hold a line for ever (41_line_driver.md R255). -/
inductive Agent where
  | master (n : Nat)
  | slave (n : Nat)
  | submitter (n : Nat)
  | irqEntry
  | dispatcher
  deriving DecidableEq, Repr

/-- Bus `n`'s submitter has an operation that may run. -/
def State.submitterReady (s : State) (n : Nat) : Bool :=
  match s.hosts[n]? with
  | none => false
  | some h =>
    match h.sub with
    | [] => false
    | op :: _ => !s.dispatching n && subReady op h

/-- The dispatcher has a step: none while it waits for a bus's critical block (45_host_sequencer.md R456). -/
def State.dispatcherReady (s : State) : Bool :=
  match s.disp with
  | none => false
  | some d =>
    match d.g, d.todo, s.hosts[d.n]? with
    | some g, [], some h => !(g.getLsbD d.n && h.crit)
    | _, _, _ => true

/-- The agent has an enabled step. With TIMEOUT_CFG other than 0 the end of a blocked step by a timeout is such a step, so that a
stretch does not last for ever (41_line_driver.md R255). -/
def State.Enabled (s : State) : Agent → Prop
  | .master n => ∃ b d pk, s.buses[n]? = some b ∧ (b.masterStep s.params s.mem d pk).isSome
  | .slave n => ∃ b, s.buses[n]? = some b ∧ b.slaveStep.isSome
  | .submitter n => s.submitterReady n
  | .irqEntry => s.irq ∧ s.disp = none
  | .dispatcher => s.dispatcherReady

/-- The step that the state takes next is an enabled step of the agent. -/
def State.Moves (s : State) : Agent → Prop
  | .master n => ∃ b d pk, s.nextInput = .engine n d pk ∧ s.buses[n]? = some b ∧ (b.masterStep s.params s.mem d pk).isSome
  | .slave n => s.nextInput = .slave n ∧ s.Enabled (.slave n)
  | .submitter n => (∃ hd, s.nextInput = .submitter n hd) ∧ s.Enabled (.submitter n)
  | .irqEntry => s.nextInput = .irqEntry ∧ s.Enabled .irqEntry
  | .dispatcher => (∃ hd, s.nextInput = .dispatcher hd) ∧ s.Enabled .dispatcher

/-- An endless run of the machine. -/
def IsRun (σ : Nat → State) : Prop := ∀ k, step (σ k) = .next (σ (k + 1))

/-- Weak fairness: an agent whose step is enabled from some point on takes a step after that point. -/
def WeaklyFair (σ : Nat → State) : Prop :=
  ∀ (a : Agent) (k : Nat), (∀ j, k ≤ j → (σ j).Enabled a) → ∃ j, k ≤ j ∧ (σ j).Moves a

end Sys2Proof.Machine
end

