-- ==== Sys2Proof/Laws/Fairness.lean ====
section
/-! SUPPORT. What weak fairness gives of a run. -/

namespace Sys2Proof.Machine

/-- An agent that moves had an enabled step. -/
theorem State.Moves.enabled {s : State} {a : Agent} (h : s.Moves a) : s.Enabled a := by
  cases a with
  | master n =>
    obtain ⟨b, d, pk, -, hb⟩ := h
    exact ⟨b, d, pk, hb⟩
  | slave n => exact h.2
  | submitter n => exact h.2
  | irqEntry => exact h.2
  | dispatcher => exact h.2

/-- In a fair run an agent moves again, or its step is disabled at some time. -/
theorem WeaklyFair.moves_or_disabled {σ : Nat → State} (h : WeaklyFair σ) (a : Agent) (k : Nat) :
    (∃ j, k ≤ j ∧ (σ j).Moves a) ∨ ∃ j, k ≤ j ∧ ¬ (σ j).Enabled a := by
  by_cases hd : ∃ j, k ≤ j ∧ ¬ (σ j).Enabled a
  · exact .inr hd
  · exact .inl (h a k fun j hj => Classical.not_not.1 fun hn => hd ⟨j, hj, hn⟩)

/-- 60_exceptions.md R513: the host enters its interrupt entry while IRQ stays 1. -/
theorem WeaklyFair.irq_entered {σ : Nat → State} (h : WeaklyFair σ) (k : Nat) (hirq : ∀ j, k ≤ j → (σ j).irq = true) :
    ∃ j, k ≤ j ∧ ((σ j).Moves .irqEntry ∨ (σ j).disp ≠ none) := by
  obtain ⟨j, hj, hm⟩ | ⟨j, hj, hd⟩ := h.moves_or_disabled .irqEntry k
  · exact ⟨j, hj, .inl hm⟩
  · exact ⟨j, hj, .inr fun hn => hd ⟨hirq j hj, hn⟩⟩

end Sys2Proof.Machine
end

