-- ==== Sys2Proof/Laws/Frame.lean ====
section
/-! SUPPORT. What the operations of the engine and of the slave leave alone, one lemma per operation. -/

namespace Sys2Proof.Laws

open Sys2Proof Sys2Proof.Machine

/-- The registers no engine step changes, with the environment, RX_BYTE and the pool. -/
structure EngineKeeps (b c : Bus) : Prop where
  f : (c.masterEn = b.masterEn ∧ c.slaveEn = b.slaveEn ∧ c.multiMasterDis = b.multiMasterDis ∧ c.timing = b.timing ∧
      c.timeout = b.timeout ∧ c.ier = b.ier ∧ c.devAddr = b.devAddr ∧ c.txEnd = b.txEnd ∧ c.rxEnd = b.rxEnd ∧
      c.txByte = b.txByte ∧ c.dmaAddr = b.dmaAddr ∧ c.dmaLenProg = b.dmaLenProg ∧ c.sPath = b.sPath ∧ c.sCount = b.sCount ∧
      c.sCap = b.sCap ∧ c.sBase = b.sBase ∧ c.env.scl = b.env.scl ∧ c.stale = b.stale)
  e : c.env = b.env
  r : c.rxByte = b.rxByte
  p : c.pool = b.pool

theorem EngineKeeps.trans {a b c : Bus} (h1 : EngineKeeps a b) (h2 : EngineKeeps b c) : EngineKeeps a c := by
  obtain ⟨h1, e1, r1, p1⟩ := h1
  obtain ⟨h2, e2, r2, p2⟩ := h2
  constructor
  · simp only [h1, h2, and_self]
  · rw [e2, e1]
  · rw [r2, r1]
  · rw [p2, p1]

theorem EngineKeeps.rfl' (b : Bus) : EngineKeeps b b := by constructor <;> simp

theorem keeps_nextPhase (rest : List Phase) (b : Bus) : EngineKeeps b (Bus.nextPhase rest b) := by
  cases rest <;> simp only [Bus.nextPhase, Bus.endCommand]
  · split <;> constructor <;> simp
  · constructor <;> simp

theorem keeps_setMoved (path : Path) (k : Nat) (b : Bus) : EngineKeeps b (Bus.setMoved path k b) := by
  cases path <;> constructor <;> simp [Bus.setMoved]

theorem keeps_setStatus (m : Word) (b : Bus) : EngineKeeps b (Bus.setStatus m b) := by constructor <;> simp [Bus.setStatus]

theorem keeps_ranSlot (l : LastSlot) (b : Bus) : EngineKeeps b (Bus.ranSlot l b) := by constructor <;> simp

theorem keeps_slotDone (l : LastSlot) (b : Bus) : EngineKeeps b (Bus.slotDone l b) := by constructor <;> simp [Bus.slotDone]

theorem keeps_onWire (a : WireItem) (b : Bus) : EngineKeeps b (Bus.onWire a b) := by constructor <;> simp [Bus.onWire]

theorem keeps_slotFault (f : SlotFault) (pk : SrcPick) (b : Bus) : EngineKeeps b (Bus.slotFault f pk b) := by
  rw [slotFault_fields]; constructor <;> simp

theorem keeps_mAbort (f : Word) (b : Bus) : EngineKeeps b (Bus.mAbort f b) := by constructor <;> simp [Bus.mAbort, Bus.setStatus]

theorem keeps_started (rest : List Phase) (b : Bus) : EngineKeeps b (Bus.started rest b) := by
  simp only [Bus.started, Bus.slaveSeesOwnStart]; split <;> constructor <;> simp

theorem keeps_stopped (b : Bus) : EngineKeeps b (Bus.stopped b) := by
  simp only [Bus.stopped, Bus.slaveSeesOwnStop]; split <;> constructor <;> simp

theorem keeps_advanceDma (path : Path) (b : Bus) : EngineKeeps b (Bus.advanceDma path b) := by
  cases path <;> constructor <;> simp [Bus.advanceDma]

theorem keeps_stuck (b : Bus) : EngineKeeps b { b with stuck := true } := by constructor <;> simp

theorem keeps_mstate (m : MState) (b : Bus) : EngineKeeps b { b with mstate := m } := by constructor <;> simp

theorem keeps_beginTx {p : Params} {path : Path} {pk : SrcPick} {b c : Bus} {n : Nat} (h : b.beginTx p path pk = some (n, c)) : EngineKeeps b c := by
  cases path <;> simp [Bus.beginTx] at h
  · rw [← h.2]; exact EngineKeeps.rfl' b
  · rw [← h.2.2]; exact EngineKeeps.rfl' b
  · rw [← h.2.2]; constructor <;> simp

theorem keeps_beginRx {p : Params} {path : Path} {pk : SrcPick} {b c : Bus} {n : Nat} (h : b.beginRx p path pk = some (n, c)) : EngineKeeps b c ∧ (path = .dma → c.dmaPtr = b.sampleDmaAddr pk) := by
  cases path <;> simp [Bus.beginRx] at h
  · rw [← h.2]; exact ⟨EngineKeeps.rfl' b, by simp⟩
  · rw [← h.2.2]; exact ⟨by constructor <;> simp, by simp⟩
  · rw [← h.2.2]; exact ⟨by constructor <;> simp, by simp⟩

theorem keeps_txMove {p : Params} {mem : Memory} {path : Path} {i n : Nat} {rest : List Phase} {r : TxResult} {pk : SrcPick} {b c : Bus}
    (h : b.txMove p mem path i n rest r pk = some c) : EngineKeeps b c := by
  unfold Bus.txMove at h
  split at h
  · cases h; constructor <;> simp
  · unfold Bus.txSlot at h
    split at h
    · cases r <;> simp only [Option.some.injEq] at h
      · split at h <;> subst h
        · exact (keeps_advanceDma path b).trans <| (keeps_slotDone _ _).trans <| (keeps_onWire _ _).trans <| (keeps_setMoved _ _ _).trans <| (keeps_setStatus _ _).trans (keeps_nextPhase _ _)
        · exact (keeps_advanceDma path b).trans <| (keeps_slotDone _ _).trans <| (keeps_onWire _ _).trans (keeps_mstate _ _)
      · subst h
        exact (keeps_advanceDma path b).trans <| (keeps_slotDone _ _).trans <| (keeps_onWire _ _).trans <| (keeps_setMoved _ _ _).trans <| (keeps_setStatus _ _).trans (keeps_nextPhase _ _)
      · subst h
        exact (keeps_advanceDma path b).trans <| (keeps_setMoved _ _ _).trans <| (keeps_ranSlot _ _).trans (keeps_slotFault _ _ _)
    · cases h

/-- the weaker frame of a receive -/
structure RxKeeps (path : Path) (i : Nat) (b c : Bus) : Prop where
  f : (c.masterEn = b.masterEn ∧ c.slaveEn = b.slaveEn ∧ c.multiMasterDis = b.multiMasterDis ∧ c.timing = b.timing ∧
      c.timeout = b.timeout ∧ c.ier = b.ier ∧ c.devAddr = b.devAddr ∧ c.txEnd = b.txEnd ∧ c.rxEnd = b.rxEnd ∧
      c.txByte = b.txByte ∧ c.dmaAddr = b.dmaAddr ∧ c.dmaLenProg = b.dmaLenProg ∧ c.sPath = b.sPath ∧ c.sCount = b.sCount ∧
      c.sCap = b.sCap ∧ c.sBase = b.sBase ∧ c.env.scl = b.env.scl ∧ c.stale = b.stale)
  e : c.env = b.env
  r : path ≠ .byte → c.rxByte = b.rxByte
  p : path ≠ .buf → c.pool = b.pool
  q : ∀ j, j ≠ i → c.pool[j]? = b.pool[j]?

theorem EngineKeeps.x {path : Path} {i : Nat} {b c : Bus} (h : EngineKeeps b c) : RxKeeps path i b c := by
  obtain ⟨h, e, r, p⟩ := h
  exact ⟨h, e, fun _ => r, fun _ => p, fun j _ => by rw [p]⟩

theorem RxKeeps.trans {path : Path} {i : Nat} {a b c : Bus} (h1 : RxKeeps path i a b) (h2 : RxKeeps path i b c) : RxKeeps path i a c := by
  obtain ⟨h1, e1, r1, p1, q1⟩ := h1
  obtain ⟨h2, e2, r2, p2, q2⟩ := h2
  constructor
  · simp only [h1, h2, and_self]
  · rw [e2, e1]
  · intro h; rw [r2 h, r1 h]
  · intro h; rw [p2 h, p1 h]
  · intro j h; rw [q2 j h, q1 j h]

theorem keeps_rxStore {p : Params} {mem mem2 : Memory} {path : Path} {i : Nat} {d : Byte} {b c : Bus} (h : b.rxStore p mem path i d = some (c, mem2)) :
    RxKeeps path i b c := by
  cases path <;> simp [Bus.rxStore] at h
  · rw [← h.1]; constructor <;> simp
  · rw [← h.1]; constructor <;> simp
    intro j h; rw [List.getElem?_set_ne (Ne.symm h)]
  · rw [← h.2.1]; constructor <;> simp

theorem keeps_rxMove {p : Params} {mem mem2 : Memory} {path : Path} {last : Bool} {i n : Nat} {rest : List Phase} {r : RxResult} {pk : SrcPick} {b c : Bus}
    (h : b.rxMove p mem path last i n rest r pk = some (c, mem2)) : RxKeeps path i b c ∧ (path ≠ .dma → mem2 = mem) ∧ (Memory.wf mem = true → ∀ a, a ≠ b.dmaPtr.toNat → mem2.read a = mem.read a) := by
  unfold Bus.rxMove at h
  dsimp only at h
  split at h
  · cases r with
    | fault f =>
      simp only [Option.some.injEq, Prod.mk.injEq] at h
      obtain ⟨rfl, rfl⟩ := h
      exact ⟨((keeps_setMoved _ _ _).trans <| (keeps_ranSlot _ _).trans (keeps_slotFault _ _ _)).x, by simp, by simp⟩
    | data d =>
      dsimp only at h
      split at h
      · simp only [Option.some.injEq, Prod.mk.injEq] at h
        obtain ⟨rfl, rfl⟩ := h
        exact ⟨((keeps_slotDone _ _).trans <| (keeps_onWire _ _).trans (keeps_stuck _)).x, by simp, by simp⟩
      · rename_i b2 mem3 hs
        simp only [Option.some.injEq, Prod.mk.injEq] at h
        obtain ⟨rfl, rfl⟩ := h
        refine ⟨?_, ?_, ?_⟩
        · refine ((keeps_slotDone _ _).trans (keeps_onWire _ _)).x.trans <| (keeps_rxStore hs).trans ?_
          unfold Bus.rxNext
          split
          · exact ((keeps_setMoved _ _ _).trans <| (keeps_setStatus _ _).trans (keeps_nextPhase _ _)).x
          · exact (keeps_mstate _ _).x
        · intro hp
          rcases rxStore_mem hs with h | ⟨h, _⟩
          · exact h
          · exact absurd h hp
        · intro hw a ha
          rcases rxStore_mem hs with h | ⟨_, h⟩
          · rw [show mem3 = mem from h]
          · rw [show mem3 = mem.write b.dmaPtr.toNat d from h, Memory.read_write_other ha hw]
  · cases h

theorem keeps_startStep {p : Params} {b c : Bus} {pr : Progress} {rest : List Phase} {d : Draw} (h : b.startStep p pr rest d = some c) : EngineKeeps b c := by
  unfold Bus.startStep at h
  split at h
  · split at h
    · rename_i r
      cases r <;> simp only [Bus.stepSr] at h <;> split at h <;> cases h
      · exact keeps_started _ _
      all_goals exact keeps_mAbort _ _
    · cases h
  · split at h
    · split at h
      · rename_i r
        cases r <;> simp only [Bus.stepS] at h <;> try split at h
        all_goals cases h
        · exact keeps_started _ _
        all_goals exact keeps_mAbort _ _
      · cases h
    · split at h
      · split at h <;> cases h
        · exact keeps_mstate _ _
        · exact keeps_mAbort _ _
      · cases h

theorem keeps_stopStep {b c : Bus} {rest : List Phase} {r : LineResult} (h : b.stopStep rest r = some c) : EngineKeeps b c := by
  cases r <;> simp only [Bus.stopStep] at h <;> split at h <;> cases h
  · exact (keeps_stopped _).trans <| (keeps_setStatus _ _).trans (keeps_nextPhase _ _)
  all_goals constructor <;> simp

/-- frame without env.sda -/
theorem keeps_recoverStep {p : Params} {b c : Bus} {k : Nat} {d : Draw} (h : b.recoverStep p k d = some c) : EngineKeeps { b with env := c.env } c ∧ c.env.scl = b.env.scl ∧ ((∀ r, d ≠ .pulse r) → c.env = b.env) := by
  unfold Bus.recoverStep at h
  split at h
  · rw [Option.ite_none_right_eq_some] at h
    cases h.2
    simp only [Bus.slaveSeesOwnStop]
    split <;> refine ⟨?_, rfl, fun _ => rfl⟩ <;> constructor <;> simp [Bus.recoverEnd, Bus.setStatus]
  · rw [Option.ite_none_right_eq_some] at h
    cases h.2
    refine ⟨?_, rfl, fun _ => rfl⟩; constructor <;> simp
  · rw [Option.ite_none_right_eq_some] at h
    cases h.2
    refine ⟨?_, rfl, fun h => absurd rfl (h _)⟩; constructor <;> simp
  · rw [Option.ite_none_right_eq_some] at h
    cases h.2
    cases p.recoverFail.getD _ <;> refine ⟨?_, rfl, fun _ => rfl⟩ <;> constructor <;> simp [Bus.recoverEnd, Bus.setStatus, Bus.recoverFailed]
  · cases h

/-- The registers no environment step changes. -/
structure SlaveKeepsRegs (b c : Bus) : Prop where
  f : (c.masterEn = b.masterEn ∧ c.slaveEn = b.slaveEn ∧ c.multiMasterDis = b.multiMasterDis ∧ c.timing = b.timing ∧
        c.sclTiming = b.sclTiming ∧ c.timeout = b.timeout ∧ c.ier = b.ier ∧ c.devAddr = b.devAddr ∧ c.txEnd = b.txEnd ∧
        c.rxEnd = b.rxEnd ∧ c.txByte = b.txByte ∧ c.dmaAddr = b.dmaAddr ∧ c.dmaLenProg = b.dmaLenProg ∧ c.dmaPtr = b.dmaPtr ∧
        c.refused = b.refused)

/-- Those, RX_BYTE and the pool. -/
structure SlaveKeeps (b c : Bus) : Prop extends SlaveKeepsRegs b c where
  r : c.rxByte = b.rxByte
  p : c.pool = b.pool

theorem SlaveKeepsRegs.trans {a b c : Bus} (h1 : SlaveKeepsRegs a b) (h2 : SlaveKeepsRegs b c) : SlaveKeepsRegs a c := by
  obtain ⟨h1⟩ := h1; obtain ⟨h2⟩ := h2
  exact ⟨by simp only [h1, h2, and_self]⟩

theorem SlaveKeeps.trans {a b c : Bus} (h1 : SlaveKeeps a b) (h2 : SlaveKeeps b c) : SlaveKeeps a c := by
  obtain ⟨h1, r1, p1⟩ := h1; obtain ⟨h2, r2, p2⟩ := h2
  exact ⟨h1.trans h2, by rw [r2, r1], by rw [p2, p1]⟩

theorem slaveKeeps_dropStx (b : Bus) : SlaveKeeps b b.dropStx := by unfold Bus.dropStx; split <;> refine ⟨⟨?_⟩, ?_, ?_⟩ <;> simp

theorem slaveKeeps_setMoved (path : Path) (k : Nat) (b : Bus) : SlaveKeeps b (Bus.setMoved path k b) := by cases path <;> refine ⟨⟨?_⟩, ?_, ?_⟩ <;> simp [Bus.setMoved]

theorem slaveKeeps_setStatus (m : Word) (b : Bus) : SlaveKeeps b (b.setStatus m) := by refine ⟨⟨?_⟩, ?_, ?_⟩ <;> simp

theorem slaveKeeps_refl (b : Bus) : SlaveKeeps b b := by refine ⟨⟨?_⟩, ?_, ?_⟩ <;> simp

theorem slaveKeeps_deliverBatch (b : Bus) : SlaveKeeps b b.deliverBatch := by
  unfold Bus.deliverBatch; split
  · exact (slaveKeeps_setMoved _ _ _).trans (slaveKeeps_setStatus _ _)
  · exact slaveKeeps_refl b

theorem slaveKeeps_sstate (b : Bus) (st : SState) (w : Wires) : SlaveKeeps b { b with sstate := st, sDrv := w } := by refine ⟨⟨?_⟩, ?_, ?_⟩ <;> simp

theorem slaveKeeps_onWire (b : Bus) (w : WireItem) : SlaveKeeps b (b.onWire w) := by refine ⟨⟨?_⟩, ?_, ?_⟩ <;> simp

theorem slaveKeeps_busBusy (b : Bus) (v : Bool) : SlaveKeeps b { b with busBusy := v } := by refine ⟨⟨?_⟩, ?_, ?_⟩ <;> simp

theorem slaveKeeps_slaveStart (b : Bus) : SlaveKeeps b b.slaveStart := by
  unfold Bus.slaveStart; split
  · exact (slaveKeeps_deliverBatch b).trans <| (slaveKeeps_dropStx _).trans (slaveKeeps_sstate _ _ _)
  · exact slaveKeeps_refl b

theorem slaveKeeps_slaveStop (b : Bus) : SlaveKeeps b b.slaveStop := by
  unfold Bus.slaveStop; split
  · split
    · exact (slaveKeeps_deliverBatch b).trans <| (slaveKeeps_setStatus _ _).trans <| (slaveKeeps_dropStx _).trans (slaveKeeps_sstate _ _ _)
    · exact slaveKeeps_sstate _ _ _
  · exact slaveKeeps_refl b

theorem slaveKeeps_slaveMid (k : Cond) (b : Bus) : SlaveKeeps b (b.slaveMid k) := by
  unfold Bus.slaveMid; split
  · cases k
    · exact (slaveKeeps_deliverBatch b).trans <| (slaveKeeps_setStatus _ _).trans <| (slaveKeeps_dropStx _).trans (slaveKeeps_sstate _ _ _)
    · exact (slaveKeeps_deliverBatch b).trans <| (slaveKeeps_setStatus _ _).trans <| (slaveKeeps_dropStx _).trans <| (slaveKeeps_setStatus _ _).trans (slaveKeeps_sstate _ _ _)
  · cases k
    · exact slaveKeeps_slaveStart b
    · exact slaveKeeps_slaveStop b

theorem slaveKeeps_batchNext (b : Bus) : SlaveKeeps b b.batchNext := by
  unfold Bus.batchNext; dsimp only; split
  · have h0 : SlaveKeeps b { b with sCount := b.sCount + 1 } := by refine ⟨⟨?_⟩, ?_, ?_⟩ <;> simp
    exact h0.trans <| (slaveKeeps_setMoved _ _ _).trans <| (slaveKeeps_setStatus _ _).trans (slaveKeeps_sstate _ _ _)
  · refine ⟨⟨?_⟩, ?_, ?_⟩ <;> simp

theorem slaveKeeps_slaveRead (p : Params) (mem : Memory) (a : Ack) (pk : SrcPick) (b : Bus) : SlaveKeeps b (b.slaveRead p mem a pk) := by
  unfold Bus.slaveRead; split
  · split
    · refine ⟨⟨?_⟩, ?_, ?_⟩ <;> simp
    · have h0 : SlaveKeeps b { b with sCount := b.sCount + 1 } := by refine ⟨⟨?_⟩, ?_, ?_⟩ <;> simp
      have h1 : ∀ c : Bus, SlaveKeeps c { c with cmd := 0 } := by intro c; refine ⟨⟨?_⟩, ?_, ?_⟩ <;> simp
      unfold Bus.stxAnswered; dsimp only; split
      · split
        · exact h0.trans <| (slaveKeeps_onWire _ _).trans <| (h1 _).trans <| (slaveKeeps_setMoved _ _ _).trans <| (slaveKeeps_setStatus _ _).trans (slaveKeeps_sstate _ _ _)
        · exact h0.trans (slaveKeeps_onWire _ _)
      · exact h0.trans <| (slaveKeeps_onWire _ _).trans <| (h1 _).trans <| (slaveKeeps_setMoved _ _ _).trans <| (slaveKeeps_setStatus _ _).trans (slaveKeeps_sstate _ _ _)
  · exact slaveKeeps_refl b

theorem slaveKeeps_slaveWrite (p : Params) (mem : Memory) (d : Byte) (b : Bus) : SlaveKeepsRegs b (b.slaveWrite p mem d).1 ∧ (b.sPath ≠ .buf ∨ b.sstate ≠ .rx → (b.slaveWrite p mem d).1.pool = b.pool) ∧
    (∀ j, j ≠ b.sCount → (b.slaveWrite p mem d).1.pool[j]? = b.pool[j]?) ∧ (b.sPath ≠ .dma ∨ b.sstate ≠ .rx → (b.slaveWrite p mem d).2 = mem) ∧
    (Memory.wf mem = true → ∀ a, a ≠ b.sBase.toNat + b.sCount → (b.slaveWrite p mem d).2.read a = mem.read a) := by
  unfold Bus.slaveWrite
  split
  · dsimp only
    refine ⟨?_, ?_, ?_, fun _ => rfl, fun _ _ _ => rfl⟩ <;> split
    · exact ⟨by simp [Bus.slaveMatch, Bus.stretch]⟩
    · exact ⟨by simp⟩
    · intro _; rfl
    · intro _; rfl
    · intro _ _; rfl
    · intro _ _; rfl
  · rename_i hst
    unfold Bus.slaveStore
    dsimp only
    split
    · exact ⟨⟨by simp [Bus.stretch]⟩, fun _ => rfl, fun _ _ => rfl, fun _ => rfl, fun _ _ _ => rfl⟩
    · rename_i hp
      have h := slaveKeeps_batchNext { b.onWire (.byte d .ack) with pool := b.pool.set b.sCount d, rxOldPool := (b.sCount, b.pool.getD b.sCount 0) :: b.rxOldPool }
      refine ⟨?_, ?_, ?_, fun _ => rfl, fun _ _ _ => rfl⟩
      · exact SlaveKeepsRegs.trans ⟨by simp⟩ h.toSlaveKeepsRegs
      · intro hne; simp [hp, hst] at hne
      · intro j hj; dsimp only; rw [h.p]; simp only; rw [List.getElem?_set_ne (Ne.symm hj)]
    · rename_i hp
      split
      · have h := slaveKeeps_batchNext { b.onWire (.byte d .ack) with rxOldMem := (b.sBase.toNat + b.sCount, mem.read (b.sBase.toNat + b.sCount)) :: b.rxOldMem }
        refine ⟨SlaveKeepsRegs.trans ⟨by simp⟩ h.toSlaveKeepsRegs, fun _ => h.p, fun j _ => by dsimp only; rw [h.p]; rfl, ?_, ?_⟩
        · intro hne; simp [hp, hst] at hne
        · intro hw a ha; dsimp only; rw [Memory.read_write_other ha hw]
      · exact ⟨⟨by simp⟩, fun _ => rfl, fun _ _ => rfl, fun _ => rfl, fun _ _ _ => rfl⟩
  · exact ⟨(slaveKeeps_refl b).toSlaveKeepsRegs, fun _ => rfl, fun _ _ => rfl, fun _ => rfl, fun _ _ _ => rfl⟩

end Sys2Proof.Laws
end

