-- ==== Sys2Proof/Laws/HostOps.lean ====
section
/-! SUPPORT. What the operations that the dispatcher lines up write: none of them writes ISR but those of the decision itself
(44_status_decoder.md R419). -/

namespace Sys2Proof

/-- No operation of the list is a write to ISR. -/
def SparesIsr (l : List HOp) : Prop := ∀ v, HOp.wr 0x10 v ∉ l

theorem SparesIsr.nil : SparesIsr [] := fun _ h => nomatch h

theorem SparesIsr.append {l k : List HOp} (hl : SparesIsr l) (hk : SparesIsr k) : SparesIsr (l ++ k) := fun v h =>
  (List.mem_append.1 h).elim (hl v) (hk v)

theorem SparesIsr.cons {op : HOp} {l : List HOp} (h : ∀ v, op ≠ .wr 0x10 v) (hl : SparesIsr l) : SparesIsr (op :: l) :=
  fun v hv => (List.mem_cons.1 hv).elim (fun he => h v he.symm) (hl v)

/-! ## Staging and issuing -/

theorem sparesIsr_poolWrites : ∀ (fuel w : Nat) (bytes : List Byte), SparesIsr (poolWrites fuel w bytes)
  | 0, _, _ => .nil
  | fuel + 1, w, bytes => by
    unfold poolWrites
    split
    · exact .nil
    · exact .cons (fun _ h => nomatch h) (sparesIsr_poolWrites _ _ _)

theorem sparesIsr_stageTx (path : Path) (m : Msg) (x k : Nat) : SparesIsr (stageTx path m x k) := by
  cases path
  · exact .nil
  · exact (sparesIsr_poolWrites _ _ _).append (by simp [SparesIsr, offBufCtrl])
  · simp [SparesIsr, stageTx, stageDma, offDmaAddr, offDmaLen]

theorem sparesIsr_stageRx (path : Path) (m : Msg) (x k : Nat) : SparesIsr (stageRx path m x k) := by
  cases path <;> simp [SparesIsr, stageRx, stageDma, offDmaAddr, offDmaLen, offBufCtrl]

theorem sparesIsr_stageAddr (a : BitVec 7) (rw : Bool) : SparesIsr [stageAddr a rw] := by
  simp [SparesIsr, stageAddr, offByteBuf]

theorem sparesIsr_nextWrite (p : Params) (path : Path) (t : Txn) (m : Msg) (last : Bool) :
    SparesIsr (nextWrite p path t m last).1 := by
  unfold nextWrite
  dsimp only
  split
  · exact sparesIsr_stageAddr _ _
  · split
    · split
      · simp [SparesIsr, offByteBuf]
      · exact sparesIsr_stageAddr _ _
    · split
      · exact sparesIsr_stageTx _ _ _ _
      · exact (sparesIsr_stageTx _ _ _ _).append (sparesIsr_stageAddr _ _)

theorem sparesIsr_nextRead (p : Params) (path : Path) (t : Txn) (m : Msg) (last : Bool) :
    SparesIsr (nextRead p path t m last).1 := by
  unfold nextRead
  dsimp only
  split
  · exact sparesIsr_stageRx _ _ _ _
  · exact (sparesIsr_stageRx _ _ _ _).append (sparesIsr_stageAddr _ _)

theorem sparesIsr_nextCmd (p : Params) (path : Path) (t : Txn) : SparesIsr (nextCmd p path t).1 := by
  unfold nextCmd
  split
  · exact .nil
  · dsimp only; split
    · exact sparesIsr_nextWrite _ _ _ _ _
    · exact sparesIsr_nextRead _ _ _ _ _

theorem sparesIsr_issueNext (p : Params) (h : HostBus) : SparesIsr (h.issueNext p).2 :=
  (sparesIsr_nextCmd _ _ _).append (by simp [SparesIsr])

/-! ## Outcomes and events -/

theorem sparesIsr_varlenResolve (p : Params) (m : Msg) (b0 : Nat) (h : HostBus) : SparesIsr (h.varlenResolve p m b0).2 := by
  unfold HostBus.varlenResolve
  dsimp only
  generalize (if p.pec then 1 else 0) = pec
  split
  · exact sparesIsr_issueNext _ _
  · exact (sparesIsr_stageRx _ _ _ _).append (by simp [SparesIsr])

theorem sparesIsr_onChunkDone (p : Params) (count : Nat) (rx : Byte) (data : List Byte) (mb : Byte) (h : HostBus) :
    SparesIsr (h.onChunkDone p count rx data mb).2 := by
  unfold HostBus.onChunkDone
  split
  · exact .nil
  · split
    · exact .nil
    · dsimp only
      split
      · exact sparesIsr_varlenResolve _ _ _ _
      · split
        · split
          · exact .nil
          · exact sparesIsr_issueNext _ _
        · exact sparesIsr_issueNext _ _

theorem sparesIsr_onError (e : ErrClass) (m : Word) (h : HostBus) : SparesIsr (h.onError e m).2 := by
  unfold HostBus.onError
  dsimp only
  repeat' split
  all_goals simp [SparesIsr]

theorem sparesIsr_onOutcome (p : Params) (o : MOutcome) (m : Word) (count : Nat) (rx : Byte) (data : List Byte) (mb : Byte)
    (h : HostBus) : SparesIsr (h.onOutcome p o m count rx data mb).2 := by
  unfold HostBus.onOutcome
  split
  · split <;> exact .nil
  · split
    · exact sparesIsr_onChunkDone _ _ _ _ _ _
    · exact sparesIsr_onError _ _ _
    · exact .nil

/-- What the slave's part of a dispatch lines up: handler events, the arming, and the new session state. -/
theorem mem_slaveOps {p : Params} {h : HostBus} {ss : Word} {rx : Byte} {count : Nat} {data : List Byte} {op : HOp}
    (ho : op ∈ slaveOps p h ss rx count data) : (∃ e, op = .slaveEv e) ∨ op = .arm ∨ ∃ c, op = .setSh c := by
  unfold slaveOps rearmOps at ho
  split at ho
  · cases ho
  · simp only [List.mem_append, List.mem_map, List.mem_singleton] at ho
    rcases ho with ((⟨e, -, rfl⟩ | ho) | ⟨e, -, rfl⟩) | rfl
    · exact .inl ⟨e, rfl⟩
    · split at ho
      · exact .inr (.inl (List.mem_singleton.mp ho))
      · cases ho
    · exact .inl ⟨e, rfl⟩
    · exact .inr (.inr ⟨_, rfl⟩)

theorem sparesIsr_slaveOps (p : Params) (h : HostBus) (ss : Word) (rx : Byte) (count : Nat) (data : List Byte) :
    SparesIsr (slaveOps p h ss rx count data) := by
  intro v hv
  rcases mem_slaveOps hv with ⟨_, h⟩ | h | ⟨_, h⟩ <;> cases h

theorem sparesIsr_armOps (p : Params) (path : Path) : SparesIsr (armOps p path) := by
  cases path <;> simp [SparesIsr, armOps, offBufCtrl, offDmaAddr, offDmaLen]

theorem sparesIsr_onSlaveEvent (e : SlaveEvent) (draw : Byte) (h : HostBus) : SparesIsr (h.onSlaveEvent e draw).2 := by
  unfold HostBus.onSlaveEvent
  split
  · exact .nil
  · dsimp only; split <;> simp [SparesIsr, offByteBuf]

theorem sparesIsr_readOps (h : HostBus) (st : Word) : SparesIsr (readOps h st) := by
  unfold readOps
  dsimp only
  refine .append (.append (.append ?_ ?_) ?_) ?_ <;> split <;> simp [SparesIsr]

theorem sparesIsr_poolReads (n : Nat) : SparesIsr (poolReads n) := by
  unfold poolReads; simp [SparesIsr]

namespace Machine

/-- A register write lines nothing up. -/
theorem opWrite_spares {n off : Nat} {v : Word} {s t : State} {ops : List HOp} (h : opWrite n off v s = .next (t, ops)) :
    SparesIsr ops := by
  obtain ⟨a, -, h⟩ := andThen_next h; cases h; exact .nil

/-- Every operation of the dispatcher but the decision lines up no write to ISR. -/
theorem dispatcherOp_spares {n : Nat} {hd : HostDraw} {op : HOp} {d : Disp} {h : HostBus} {s t : State} {ops : List HOp}
    (he : dispatcherOp n hd op d h s = .next (t, ops)) (hop : op ≠ .decide) : SparesIsr ops := by
  cases op <;> simp only [dispatcherOp] at he
  case wr => exact opWrite_spares he
  case pw => obtain ⟨a, -, he⟩ := andThen_next he; cases he; exact .nil
  case issue => exact opWrite_spares he
  case cmd => exact opWrite_spares he
  case rdIsr =>
    obtain ⟨a, -, he⟩ := andThen_next he; cases he
    exact (sparesIsr_readOps _ _).append (by simp [SparesIsr])
  case rdByte => obtain ⟨a, -, he⟩ := andThen_next he; cases he; exact .nil
  case rdCount => obtain ⟨a, -, he⟩ := andThen_next he; cases he; exact .nil
  case rdData => cases he; exact sparesIsr_poolReads _
  case rdPool => obtain ⟨a, -, he⟩ := andThen_next he; cases he; exact .nil
  case slaveEv => cases he; exact sparesIsr_onSlaveEvent _ _ _
  case arm => cases he; exact sparesIsr_armOps _ _
  case master => cases he; exact sparesIsr_onOutcome _ _ _ _ _ _ _ _
  case decide => exact absurd rfl hop
  all_goals cases he; exact .nil

end Machine

end Sys2Proof
end

