-- ==== Sys2Proof/Laws/PerInstr.lean ====
section
/-! SUPPORT. Every command's word is legal (30_encoding.md R151), CMD_NOP apart, whose word is 0 (R154). -/

namespace Sys2Proof.Laws.CodeLegal

open Sys2Proof

/-- The word of the command is 0 for CMD_NOP and legal for every other. -/
def Statement (i : Instr) : Prop := if i = .cmdNop then code i = 0 else legal (code i) = true

theorem cmdNop : Statement .cmdNop := by unfold Statement; decide
theorem mtxB : Statement .mtxB := by unfold Statement; decide
theorem mstart : Statement .mstart := by unfold Statement; decide
theorem stxB : Statement .stxB := by unfold Statement; decide
theorem mrxB : Statement .mrxB := by unfold Statement; decide
theorem mstartRxB : Statement .mstartRxB := by unfold Statement; decide
theorem mrxlB : Statement .mrxlB := by unfold Statement; decide
theorem mstartRxlB : Statement .mstartRxlB := by unfold Statement; decide
theorem mstop : Statement .mstop := by unfold Statement; decide
theorem mtxStopB : Statement .mtxStopB := by unfold Statement; decide
theorem mstartStop : Statement .mstartStop := by unfold Statement; decide
theorem mrxStopB : Statement .mrxStopB := by unfold Statement; decide
theorem mstartRxStopB : Statement .mstartRxStopB := by unfold Statement; decide
theorem mrxlStopB : Statement .mrxlStopB := by unfold Statement; decide
theorem mstartRxlStopB : Statement .mstartRxlStopB := by unfold Statement; decide
theorem mtxBuf : Statement .mtxBuf := by unfold Statement; decide
theorem mstartTxBuf : Statement .mstartTxBuf := by unfold Statement; decide
theorem stxBuf : Statement .stxBuf := by unfold Statement; decide
theorem mtxStopBuf : Statement .mtxStopBuf := by unfold Statement; decide
theorem mstartTxStopBuf : Statement .mstartTxStopBuf := by unfold Statement; decide
theorem srxarmBuf : Statement .srxarmBuf := by unfold Statement; decide
theorem mrxBuf : Statement .mrxBuf := by unfold Statement; decide
theorem mstartRxBuf : Statement .mstartRxBuf := by unfold Statement; decide
theorem mrxlBuf : Statement .mrxlBuf := by unfold Statement; decide
theorem mstartRxlBuf : Statement .mstartRxlBuf := by unfold Statement; decide
theorem mrxStopBuf : Statement .mrxStopBuf := by unfold Statement; decide
theorem mstartRxStopBuf : Statement .mstartRxStopBuf := by unfold Statement; decide
theorem mrxlStopBuf : Statement .mrxlStopBuf := by unfold Statement; decide
theorem mstartRxlStopBuf : Statement .mstartRxlStopBuf := by unfold Statement; decide
theorem mtxDma : Statement .mtxDma := by unfold Statement; decide
theorem mstartTxDma : Statement .mstartTxDma := by unfold Statement; decide
theorem stxDma : Statement .stxDma := by unfold Statement; decide
theorem mtxStopDma : Statement .mtxStopDma := by unfold Statement; decide
theorem mstartTxStopDma : Statement .mstartTxStopDma := by unfold Statement; decide
theorem srxarmDma : Statement .srxarmDma := by unfold Statement; decide
theorem mrxDma : Statement .mrxDma := by unfold Statement; decide
theorem mstartRxDma : Statement .mstartRxDma := by unfold Statement; decide
theorem mrxlDma : Statement .mrxlDma := by unfold Statement; decide
theorem mstartRxlDma : Statement .mstartRxlDma := by unfold Statement; decide
theorem mrxStopDma : Statement .mrxStopDma := by unfold Statement; decide
theorem mstartRxStopDma : Statement .mstartRxStopDma := by unfold Statement; decide
theorem mrxlStopDma : Statement .mrxlStopDma := by unfold Statement; decide
theorem mstartRxlStopDma : Statement .mstartRxlStopDma := by unfold Statement; decide
theorem recover : Statement .recover := by unfold Statement; decide

end Sys2Proof.Laws.CodeLegal
end

