-- ==== Sys2Proof/Laws/Remote.lean ====
section
/-! SUPPORT. Steps of the remote side, unfolded once (43_slave.md R360 to R379). -/

namespace Sys2Proof.Laws

open Sys2Proof Sys2Proof.Machine

theorem envStep_remote {p : Params} {mem : Memory} {b : Bus} {e : EnvEvent} {pk : SrcPick} (hl : b.live) (he : ∀ l, e ≠ .hold l ∧ e ≠ .release l) :
    b.envStep p mem e pk = b.remoteStep p mem e pk := by
  unfold Bus.envStep
  rw [hl.1]
  cases e <;> simp [hl.2] <;> exact absurd rfl (by first | exact (he _).1 | exact (he _).2)

theorem hasAny_rxDone (v : Word) : hasAny v maskRxDone = v.getLsbD 2 := by
  unfold hasAny maskRxDone
  show (v &&& BitVec.twoPow 32 2 != 0) = _
  rw [BitVec.and_twoPow]
  cases v.getLsbD 2
  · rfl
  · decide

theorem batchOpen_iff (b : Bus) : b.batchOpen = true ↔ (b.sstate = .rx ∧ b.sPath ≠ .byte ∧ 0 < b.sCount) := by
  simp [Bus.batchOpen, and_assoc]

theorem deliverBatch_fields (b : Bus) : b.deliverBatch =
    (let batch := b.sstate = .rx ∧ b.sPath ≠ .byte ∧ 0 < b.sCount
    { b with isr := b.isr ||| (if batch then 0x4 else 0),
             bufCount := if batch ∧ b.sPath = .buf then BitVec.ofNat 8 b.sCount else b.bufCount,
             dmaMoved := if batch ∧ b.sPath = .dma then BitVec.ofNat 13 b.sCount else b.dmaMoved }) := by
  unfold Bus.deliverBatch
  by_cases h : b.sstate = .rx ∧ b.sPath ≠ .byte ∧ 0 < b.sCount
  · rw [if_pos ((batchOpen_iff b).2 h)]
    cases hp : b.sPath <;> simp_all [Bus.setMoved, Bus.setStatus, maskRxDone]
  · rw [if_neg (by rw [batchOpen_iff]; exact h)]
    simp [h]

/-- The end of a session's phase on the wires, written out: a partial batch is delivered, bits of `w` are set, a pending STX ends. -/
theorem phaseEnd_fields (w : Word) (b : Bus) : (b.deliverBatch.setStatus w).dropStx =
    { b with cmd := if b.sstate.isTx then 0 else b.cmd,
             isr := b.isr ||| (if b.sstate = .rx ∧ b.sPath ≠ .byte ∧ 0 < b.sCount then 0x4 else 0) ||| w,
             bufCount := if b.cutPhase .buf then BitVec.ofNat 8 b.sCount else b.bufCount,
             dmaMoved := if b.cutPhase .dma then BitVec.ofNat 13 b.sCount else b.dmaMoved } := by
  rw [deliverBatch_fields]
  cases hs : b.sstate <;> simp [Bus.setStatus, Bus.dropStx, hs, SState.isTx, Bus.cutPhase]
  · cases hp : b.sPath <;> by_cases h0 : 0 < b.sCount <;> simp [h0]
  · rename_i q
    cases q <;> simp [Bus.setMoved]

/-- The same of a timeout: the partial batch is recorded and not delivered. -/
theorem timeoutEnd_fields (w : Word) (b : Bus) : (b.recordBatch.setStatus w).dropStx =
    { b with cmd := if b.sstate.isTx then 0 else b.cmd, isr := b.isr ||| w,
             bufCount := if b.cutPhase .buf then BitVec.ofNat 8 b.sCount else b.bufCount,
             dmaMoved := if b.cutPhase .dma then BitVec.ofNat 13 b.sCount else b.dmaMoved } := by
  cases hs : b.sstate <;> simp [Bus.recordBatch, Bus.batchOpen, Bus.setStatus, Bus.dropStx, hs, SState.isTx, Bus.cutPhase]
  · cases hp : b.sPath <;> by_cases h0 : 0 < b.sCount <;> simp [h0, hp, hs, Bus.setMoved]
  · rename_i q
    cases q <;> simp [Bus.setMoved]

end Sys2Proof.Laws
end

