-- ==== Sys2Proof/Tests/Slice0.lean ====
section
/-! SUPPORT. The model's own tests: decoding of words written out from 30_encoding.md R140, what the well-formedness checks refuse,
single steps with the results of 95_test_vectors.md (the vector is named), and for every statement with hypotheses a state and
operands that meet them. -/

namespace Sys2Proof.Tests

open Sys2Proof Sys2Proof.Machine

/-! ## Small states -/

/-- The state of a next outcome. -/
def nextOf (r : Result) : Option State :=
  match r with
  | .next t => some t
  | _ => none

/-- The refusal of an outcome. -/
def refusalOf (r : Result) : Option Refusal :=
  match r with
  | .refused e => some e
  | _ => none

/-- The fault of an outcome. -/
def faultOf (r : Result) : Option Fault :=
  match r with
  | .fault e => some e
  | _ => none

def part : Params := Params.illustrative

/-- A part whose DMA mapping ends at 0x9000 and whose pool has 6 bytes. -/
def smallPart : Params := { part with dmaOk := [(0, 0x9000)], bufSize := 6 }

/-- A machine with one bus. -/
def stateOf (b : Bus) : State := { State.resetFor part with buses := [b] }

def pool16 : List Byte := List.replicate 16 0

/-- A bus in M_IDLE. -/
def idleBus : Bus := { masterEn := true, mstate := .idle, pool := pool16 }

/-- A bus in M_HOLD. -/
def holdBus : Bus :=
  { masterEn := true, mstate := .hold, own := true, busBusy := true, mDrv := { scl := .low, sda := .rel }, pool := pool16 }

/-- An owned bus at this point of a command. -/
def execBus (c : BitVec 12) (ph : List Phase) (pr : Progress) : Bus := { holdBus with cmd := c, mstate := .exec ph pr }

/-- A bus whose slave is in this state of a remote transfer, its address 0x42. -/
def slaveBus (st : SState) : Bus :=
  { masterEn := true, slaveEn := true, mstate := .idle, sstate := st, devAddr := 0x42, busBusy := true, pool := pool16 }

/-- A bus whose slave stretches in this state. -/
def stretchBus (st : SState) : Bus := { slaveBus st with sDrv := { scl := .low, sda := .rel } }

/-- What a step of bus 0 leaves there. -/
def busAfter (r : Result) : Option Bus := (nextOf r).bind (fun s => s.buses[0]?)

/-! ## Decoding: words from the bit places of R140 and the rows of R152 -/

theorem test_decode_start :
    decode 0b000000000011#32 = some .mstart ∧ decode 0b000000100011#32 = some .mstartStop ∧
    decode 0b000001000011#32 = some .mstartTxBuf ∧ decode 0b000100000011#32 = some .mstartTxDma ∧
    decode 0b000001100011#32 = some .mstartTxStopBuf ∧ decode 0b000100100011#32 = some .mstartTxStopDma := by decide

theorem test_decode_start_rx :
    decode 0b000000001011#32 = some .mstartRxB ∧ decode 0b000010001011#32 = some .mstartRxBuf ∧
    decode 0b001000001011#32 = some .mstartRxDma ∧ decode 0b000000011011#32 = some .mstartRxlB ∧
    decode 0b000010011011#32 = some .mstartRxlBuf ∧ decode 0b001000011011#32 = some .mstartRxlDma := by decide

theorem test_decode_start_rx_stop :
    decode 0b000000101011#32 = some .mstartRxStopB ∧ decode 0b000010101011#32 = some .mstartRxStopBuf ∧
    decode 0b001000101011#32 = some .mstartRxStopDma ∧ decode 0b000000111011#32 = some .mstartRxlStopB ∧
    decode 0b000010111011#32 = some .mstartRxlStopBuf ∧ decode 0b001000111011#32 = some .mstartRxlStopDma := by decide

theorem test_decode_mtx :
    decode 0b000000000010#32 = some .mtxB ∧ decode 0b000001000010#32 = some .mtxBuf ∧ decode 0b000100000010#32 = some .mtxDma ∧
    decode 0b000000100010#32 = some .mtxStopB ∧ decode 0b000001100010#32 = some .mtxStopBuf ∧
    decode 0b000100100010#32 = some .mtxStopDma := by decide

theorem test_decode_mrx :
    decode 0b000000001000#32 = some .mrxB ∧ decode 0b000010001000#32 = some .mrxBuf ∧ decode 0b001000001000#32 = some .mrxDma ∧
    decode 0b000000011000#32 = some .mrxlB ∧ decode 0b000010011000#32 = some .mrxlBuf ∧
    decode 0b001000011000#32 = some .mrxlDma := by decide

theorem test_decode_mrx_stop :
    decode 0b000000101000#32 = some .mrxStopB ∧ decode 0b000010101000#32 = some .mrxStopBuf ∧
    decode 0b001000101000#32 = some .mrxStopDma ∧ decode 0b000000111000#32 = some .mrxlStopB ∧
    decode 0b000010111000#32 = some .mrxlStopBuf ∧ decode 0b001000111000#32 = some .mrxlStopDma := by decide

theorem test_decode_control_and_slave :
    decode 0b000000000000#32 = some .cmdNop ∧ decode 0b000000100000#32 = some .mstop ∧ decode 0b100000000000#32 = some .recover ∧
    decode 0b000000000100#32 = some .stxB ∧ decode 0b000001000100#32 = some .stxBuf ∧ decode 0b000100000100#32 = some .stxDma ∧
    decode 0b000010000000#32 = some .srxarmBuf ∧ decode 0b001000000000#32 = some .srxarmDma := by decide

/-- V-E1, V-E7 to V-E13: bits [31:12] are ignored, illegal words do not decode. -/
theorem test_decode_ignored_and_illegal :
    decode 0xFFFFF003#32 = some .mstart ∧ decode 0x00070000#32 = some .cmdNop ∧ decode 0x001#32 = none ∧ decode 0x010#32 = none ∧
    decode 0x400#32 = none ∧ decode 0x142#32 = none ∧ decode 0x801#32 = none ∧ decode 0x006#32 = none := by decide

/-- The table's own numbering of a word's bits. -/
theorem test_decodeTableWord :
    decodeTableWord 32 0x23B = some .mstartRxlStopDma ∧ decodeTableWord 32 0x800 = some .recover ∧
    decodeTableWord 32 0x400 = none := by decide

/-! ## Well-formedness refuses -/

/-- One word for each conjunct of R151. -/
theorem test_illegal_words :
    [0x000#12, 0x400#12, 0x801#12, 0x006#12, 0x144#12, 0x280#12, 0x082#12, 0x001#12, 0x012#12, 0x142#12, 0x288#12, 0x060#12,
     0x0A2#12, 0x00A#12, 0x04B#12].all (fun c => !legal c) = true := by decide

def goodMsg : Msg := { addr7 := 0x50, dir := .read, len := 1, buf := [], varlen := false, phys := 0 }

theorem test_wf_message :
    goodMsg.wf = true ∧ { goodMsg with len := 0 }.wf = false ∧ { goodMsg with len := 65536 }.wf = false ∧
    { goodMsg with dir := .write, varlen := true }.wf = false ∧ { goodMsg with dir := .write, len := 0 }.wf = true := by decide

theorem test_wf_legacy_table :
    legacyTableWf illustrativeLegacyTable = true ∧ legacyTableWf [] = false ∧ legacyTableWf [(65, 0x000FF001)] = false ∧
    legacyTableWf [(128, 0x000FF002), (64, 0x000FF001)] = false := by decide

theorem test_wf_params :
    part.wf = true ∧ { part with nbus := 0, busBase := [], poolBase := [] }.wf = false ∧ { part with busBase := [] }.wf = false ∧
    { part with poolBase := [] }.wf = false ∧ { part with busBase := [0x82] }.wf = false ∧
    { part with busBase := [0x10] }.wf = false ∧ { part with bufSize := 0 }.wf = false ∧ { part with bufSize := 256 }.wf = false ∧
    { part with dmaMax := 0 }.wf = false ∧ { part with dmaMax := 4097 }.wf = false := by decide

theorem test_wf_params_host :
    { part with slaveDmaCap := 0 }.wf = false ∧ { part with slaveDmaCap := 4097 }.wf = false ∧
    { part with legacyTable := [] }.wf = false ∧ { part with timingExtra := 0x1000 }.wf = false ∧
    { part with errCodes := { part.errCodes with busy := -1 } }.wf = false ∧
    { part with errCodes := { part.errCodes with busy := 0 } }.wf = false := by decide

/-- The next step after `withFetchWord` runs the command: from reset the master is off, so MSTART is refused and CMD_NOP changes nothing. -/
theorem test_withFetchWord :
    (busAfter (step (State.reset.withFetchWord 32 0x003))).map Bus.refused = some true ∧
    nextOf (step (State.reset.withFetchWord 32 0x000)) = some State.reset ∧
    (busAfter (step ((stateOf idleBus).withFetchWord 32 0x23B))).map Bus.cmd = some 0x23B := by decide

/-! ## Acceptance of commands (42_master_commands.md R304; V-M31 to V-M42) -/

/-- V-M31, V-M32: after reset the master is off. -/
theorem test_accept_off :
    (busAfter (exec .mstart State.reset)).map Bus.refused = some true ∧
    (busAfter (exec .cmdNop State.reset)).map Bus.refused = some false := by decide

/-- V-M33 to V-M36. -/
theorem test_accept_idle :
    (busAfter (exec .mtxB (stateOf idleBus))).map Bus.refused = some true ∧
    (busAfter (exec .mrxB (stateOf idleBus))).map Bus.refused = some true ∧
    (busAfter (exec .mstop (stateOf idleBus))).map Bus.mstate = some (.exec [.stop] .fresh) ∧
    (busAfter (exec .recover (stateOf idleBus))).map Bus.mstate = some (.recover 0) := by decide

/-- V-M37, V-M38. -/
theorem test_accept_hold :
    (busAfter (exec .recover (stateOf holdBus))).map Bus.refused = some true ∧
    (busAfter (exec .mstart (stateOf holdBus))).map (fun b => (b.refused, b.cmd)) = some (false, 0x003) := by decide

/-- V-M39 to V-M42. -/
theorem test_accept_busy :
    (busAfter (exec .mstop (stateOf (execBus 0x002 [.tx .byte] .fresh)))).map Bus.refused = some true ∧
    (busAfter (exec .cmdNop (stateOf (execBus 0x002 [.tx .byte] .fresh)))).map Bus.refused = some false ∧
    (busAfter (exec .mstart (stateOf { idleBus with mstate := .recover 1 }))).map Bus.refused = some true ∧
    (busAfter (exec .mstart (stateOf (slaveBus (.tx .byte))))).map Bus.refused = some true := by decide

/-- R301, R152: the phases each word stands for. -/
theorem test_phases :
    (busAfter (exec .mstartTxStopDma (stateOf idleBus))).map Bus.mstate = some (.exec [.addr, .tx .dma, .stop] .fresh) ∧
    (busAfter (exec .mstartRxlStopBuf (stateOf idleBus))).map Bus.mstate = some (.exec [.addr, .rx .buf true, .stop] .fresh) ∧
    (busAfter (exec .mtxStopB (stateOf holdBus))).map Bus.mstate = some (.exec [.tx .byte, .stop] .fresh) ∧
    (busAfter (exec .mrxDma (stateOf holdBus))).map Bus.mstate = some (.exec [.rx .dma false] .fresh) := by decide

/-- V-S14, V-S15. -/
theorem test_slave_commands_refused :
    (busAfter (exec .stxB (stateOf (slaveBus .idle)))).map Bus.refused = some true ∧
    (busAfter (exec .srxarmBuf (stateOf (stretchBus .txWait)))).map Bus.refused = some true := by decide

/-- V-S3's SRXARM.BUF: RX_END 3 arms four bytes, and the stretch stays. -/
theorem test_srxarm_buf :
    (busAfter (exec .srxarmBuf (stateOf { stretchBus .rxWait with rxEnd := 3, bufCount := 7 }))).map
      (fun b => (b.sPath, b.sCap, b.bufCount, b.sDrv.scl)) = some (.buf, 4, 0, .low) := by decide

/-- V-S10's STX.B: the stretch is released and CMD shows S_TX. -/
theorem test_stx_b :
    (busAfter (exec .stxB (stateOf (stretchBus .txWait)))).map (fun b => (b.sstate, b.cmd, b.sDrv.scl)) =
      some (.tx .byte, 0x004, .rel) := by decide

/-! ## Master phases, one step each -/

/-- V-M1: the START, then the address answered A. -/
theorem test_mstart :
    (Bus.masterStep part [] (.line .ok) {} { idleBus with cmd := 0x003, mstate := .exec [.addr] .fresh, txByte := 0xA0 }).map
      (fun (r : Bus × Memory) => (r.1.own, r.1.busBusy, r.1.scl, r.1.wire)) = some (true, true, false, [.s]) ∧
    (Bus.masterStep part [] (.tx .ack) {} { execBus 0x003 [.addr] .started with txByte := 0xA0 }).map
      (fun (r : Bus × Memory) => (r.1.isr, r.1.mstate, r.1.cmd, r.1.wire)) = some (0x1, .hold, 0, [.byte 0xA0 .ack]) := by decide

/-- V-M2, V-M3: MSTART.STOP's address sets no TX_ACK by default, TX_ACK with ZL_ADDR_ACK, and TX_NAK after N. -/
theorem test_mstart_stop :
    (Bus.masterStep part [] (.tx .ack) {} (execBus 0x023 [.addr, .stop] .started)).map (fun (r : Bus × Memory) => (r.1.isr, r.1.mstate)) =
      some (0, .exec [.stop] .fresh) ∧
    (Bus.masterStep { part with zlAddrAck := true } [] (.tx .ack) {} (execBus 0x023 [.addr, .stop] .started)).map
      (fun (r : Bus × Memory) => r.1.isr) = some 0x1 ∧
    (Bus.masterStep part [] (.tx .nak) {} (execBus 0x023 [.addr, .stop] .started)).map (fun (r : Bus × Memory) => (r.1.isr, r.1.mstate)) =
      some (0x2, .exec [.stop] .fresh) := by decide

/-- V-M5: an address answered N leaves BUF_COUNT. -/
theorem test_mstart_tx_buf_nak :
    (Bus.masterStep part [] (.tx .nak) {} { execBus 0x043 [.addr, .tx .buf] .started with bufCount := 7 }).map
      (fun (r : Bus × Memory) => (r.1.isr, r.1.bufCount, r.1.mstate)) = some (0x2, 7, .hold) := by decide

/-- V-M6: the third byte of MSTART.TX.BUF is not sent after the second is answered N, which counts. -/
theorem test_tx_buf_nak :
    (Bus.masterStep part [] (.tx .nak) {}
      { execBus 0x042 [.tx .buf] (.moving 1 4) with pool := [0x12, 0x34, 0x56, 0x78] }).map
      (fun (r : Bus × Memory) => (r.1.isr, r.1.bufCount, r.1.mstate, r.1.wire)) = some (0x2, 2, .hold, [.byte 0x34 .nak]) := by decide

/-- V-M7: MTX.STOP.DMA reads memory, counts the byte answered N, and its STOP is left. -/
theorem test_tx_dma_nak :
    (Bus.masterStep part [(0x1000, 1), (0x1001, 2), (0x1002, 3)] (.tx .nak) {}
      { execBus 0x122 [.tx .dma, .stop] (.moving 1 3) with dmaPtr := 0x1001 }).map
      (fun (r : Bus × Memory) => (r.1.isr, r.1.dmaMoved, r.1.mstate, r.1.cmd, r.1.wire)) =
      some (0x2, 2, .exec [.stop] .fresh, 0x020, [.byte 2 .nak]) := by decide

/-- V-M14: MTX.B. -/
theorem test_mtx_b :
    (Bus.masterStep part [] (.tx .ack) {} { execBus 0x002 [.tx .byte] .fresh with txByte := 0x12 }).map
      (fun (r : Bus × Memory) => (r.1.isr, r.1.mstate, r.1.wire)) = some (0x1, .hold, [.byte 0x12 .ack]) := by decide

/-- V-M17, V-M18: MRX.B answers A, MRXL.B answers N. -/
theorem test_mrx_b :
    (Bus.masterStep part [] (.rx (.data 0x77)) {} (execBus 0x008 [.rx .byte false] .fresh)).map
      (fun (r : Bus × Memory) => (r.1.isr, r.1.rxByte, r.1.mstate, r.1.wire)) = some (0x4, 0x77, .hold, [.byte 0x77 .ack]) ∧
    (Bus.masterStep part [] (.rx (.data 0x77)) {} (execBus 0x018 [.rx .byte true] .fresh)).map
      (fun (r : Bus × Memory) => (r.1.isr, r.1.wire)) = some (0x4, [.byte 0x77 .nak]) := by decide

/-- V-M10: the last byte of MSTART.RXL.BUF is answered N and counted. -/
theorem test_rx_buf_last :
    (Bus.masterStep part [] (.rx (.data 3)) {} { execBus 0x098 [.rx .buf true] (.moving 2 3) with pool := [1, 2, 0, 9] }).map
      (fun (r : Bus × Memory) => (r.1.isr, r.1.pool, r.1.bufCount, r.1.wire)) = some (0x4, [1, 2, 3, 9], 3, [.byte 3 .nak]) := by decide

/-- V-M20: MRXL.STOP.DMA's last byte. -/
theorem test_rx_dma_last :
    (Bus.masterStep part [(0x1000, 0xAA)] (.rx (.data 0xBB)) {}
      { execBus 0x238 [.rx .dma true, .stop] (.moving 1 2) with dmaPtr := 0x1001 }).map
      (fun (r : Bus × Memory) => (r.1.isr, r.1.dmaMoved, r.2, r.1.cmd)) = some (0x4, 2, [(0x1000, 0xAA), (0x1001, 0xBB)], 0x020) := by decide

/-- V-M21, V-M22: MSTOP from M_HOLD and from M_IDLE. -/
theorem test_mstop :
    (Bus.masterStep part [] (.line .ok) {} { execBus 0x020 [.stop] .fresh with isr := 0x2 }).map
      (fun (r : Bus × Memory) => (r.1.isr, r.1.mstate, r.1.busBusy, r.1.own)) = some (0x12, .idle, false, false) ∧
    (Bus.masterStep part [] (.line .ok) {} { idleBus with cmd := 0x020, mstate := .exec [.stop] .fresh, busBusy := true }).map
      (fun (r : Bus × Memory) => (r.1.isr, r.1.mstate, r.1.busBusy)) = some (0x10, .idle, false) := by decide

/-- V-L16, V-L17: the STOP after an acknowledged read may lose arbitration. -/
theorem test_stop_after_acknowledged_read :
    (Bus.masterStep part [] (.line .arb) {} { execBus 0x020 [.stop] .fresh with lastSlot := .read }).map
      (fun (r : Bus × Memory) => (r.1.isr, r.1.mstate, r.1.busBusy)) = some (0x8, .idle, true) ∧
    (Bus.masterStep part [] (.line .arb) {} (execBus 0x020 [.stop] .fresh)).isNone = true := by decide

/-- R248 with R339: after an acknowledged read slot and MASTER_EN off and on, an MSTOP in M_IDLE may lose arbitration, and again after
that abort; after an acknowledged read address a STOP of this engine ends that. -/
theorem test_mstop_after_acknowledged_read :
    let off := fun (l : LastSlot) => Bus.writeFunCtrl true false false (Bus.writeFunCtrl false false false { holdBus with lastSlot := l })
    let mstop := fun (b : Bus) => { b with cmd := 0x020, mstate := .exec [.stop] .fresh }
    let lost := fun (b : Bus) => Bus.masterStep part [] (.line .arb) {} (mstop b)
    (((lost (off .read)).bind fun r => lost r.1).map fun (r : Bus × Memory) => (r.1.isr, r.1.mstate)) = some (0x8, .idle) ∧
    (((Bus.masterStep part [] (.line .ok) {} (mstop (off .address))).bind fun r => lost r.1).isNone = true) ∧
    (lost (off .address)).isSome = true ∧ (lost (off .other)).isNone = true := by decide

/-- R246, R248: a receive slot that was to be answered A counts though a timeout ended it; one answered N does not. -/
theorem test_faulted_read_slot :
    let b := fun (l : Bool) => { execBus 0x008 [.rx .byte l] .fresh with timeout := 1 }
    (Bus.masterStep part [] (.rx (.fault .sclTo)) {} (b false)).map (fun (r : Bus × Memory) => r.1.lastSlot) = some .read ∧
    (Bus.masterStep part [] (.rx (.fault .sclTo)) {} (b true)).map (fun (r : Bus × Memory) => r.1.lastSlot) = some .other := by decide

/-- V-L13: arbitration lost in the second byte. -/
theorem test_arbitration_lost :
    (Bus.masterStep part [] (.tx (.fault .arb)) {}
      { execBus 0x042 [.tx .buf] (.moving 1 3) with pool := [0x11, 0x22, 0x33] }).map
      (fun (r : Bus × Memory) => (r.1.isr, r.1.bufCount, r.1.mstate, r.1.own, r.1.cmd, r.1.busBusy)) =
      some (0x8, 1, .idle, false, 0, true) := by decide

/-- V-L14: an abnormal STOP in the data slot clears the latch. -/
theorem test_abnormal_stop :
    (Bus.masterStep part [] (.rx (.fault (.abn .stop))) {}
      { execBus 0x038 [.rx .byte true, .stop] .fresh with isr := 0x1 }).map
      (fun (r : Bus × Memory) => (r.1.isr, r.1.mstate, r.1.busBusy)) = some (0x21, .idle, false) := by decide

/-- V-L15: a timeout in MTX.B, admitted with TIMEOUT not 0 only (V-L12). -/
theorem test_slot_timeout :
    (Bus.masterStep part [] (.tx (.fault .sclTo)) {} { execBus 0x002 [.tx .byte] .fresh with timeout := 1 }).map
      (fun (r : Bus × Memory) => (r.1.isr, r.1.mstate, r.1.busBusy, r.1.scl)) = some (0x40, .idle, true, true) ∧
    (Bus.masterStep part [] (.tx (.fault .sclTo)) {} (execBus 0x002 [.tx .byte] .fresh)).isNone = true := by decide

/-- R265, R266, R273: outside a slot a line times out only while the environment holds it; the slave's own stretch never does. -/
theorem test_line_timeouts :
    let b := { execBus 0x020 [.stop] .fresh with timeout := 1 }
    let r := { stretchBus .rxWait with timeout := 1, cmd := 0x800, mstate := .recover 0, env := { sda := .low } }
    (Bus.masterStep part [] (.line .sclTo) {} b).isNone = true ∧ (Bus.masterStep part [] (.line .sdaTo) {} b).isNone = true ∧
    (Bus.masterStep part [] (.line .sdaTo) {} { b with env := { sda := .low } }).map (fun (r : Bus × Memory) => r.1.isr) =
      some 0x4000 ∧
    (Bus.masterStep part [] (.line .sclTo) {} { b with env := { sda := .low } }).isNone = true ∧
    (Bus.masterStep part [] (.line .sclTo) {} r).isNone = true ∧
    (Bus.masterStep part [] (.line .sclTo) {} { r with env := { scl := .low, sda := .low } }).map
      (fun (r : Bus × Memory) => r.1.isr) = some 0x40 := by decide

/-- V-L10, V-L11: no arbitration loss in a byte 0x00 nor in a slot answered A. -/
theorem test_no_arbitration_loss :
    (Bus.masterStep part [] (.tx (.fault .arb)) {} (execBus 0x002 [.tx .byte] .fresh)).isNone = true ∧
    (Bus.masterStep part [] (.rx (.fault .arb)) {} (execBus 0x008 [.rx .byte false] .fresh)).isNone = true := by decide

/-- V-M24, V-M25: a START on a busy bus. -/
theorem test_start_on_busy_bus :
    (Bus.masterStep part [] (.busy .arbLoss) {}
      { idleBus with cmd := 0x003, mstate := .exec [.addr] .fresh, busBusy := true }).map (fun (r : Bus × Memory) => (r.1.isr, r.1.mstate)) =
      some (0x8, .idle) ∧
    (Bus.masterStep part [] (.busy .wait) {}
      { idleBus with cmd := 0x003, mstate := .exec [.addr] .fresh, busBusy := true }).map (fun (r : Bus × Memory) => (r.1.isr, r.1.mstate)) =
      some (0, .exec [.addr] .waitBus) := by decide

/-- R305: a START told to wait waits for the latch, whatever MULTI_MASTER_DIS becomes. -/
theorem test_waiting_start :
    let b := { idleBus with cmd := 0x003, mstate := .exec [.addr] .waitBus, busBusy := true, multiMasterDis := true }
    (Bus.masterStep { part with mmDisEffect := .noBusyWait } [] (.line .ok) {} b).isNone = true ∧
    (Bus.masterStep { part with mmDisEffect := .noBusyWait } [] (.line .ok) {} { b with mstate := .exec [.addr] .fresh }).map
      (fun (r : Bus × Memory) => r.1.own) = some true ∧
    (Bus.masterStep part [] (.line .ok) {} { b with busBusy := false }).map (fun (r : Bus × Memory) => r.1.own) = some true := by
  decide

/-- V-M27 to V-M30: refusals where a phase starts. -/
theorem test_phase_start_refused :
    (Bus.masterStep smallPart [] (.tx .ack) {} { execBus 0x042 [.tx .buf] .fresh with txEnd := 6 }).map
      (fun (r : Bus × Memory) => r.1.refused) = some true ∧
    (Bus.masterStep part [] (.tx .ack) {} (execBus 0x102 [.tx .dma] .fresh)).map (fun (r : Bus × Memory) => r.1.refused) = some true ∧
    (Bus.masterStep part [] (.rx (.data 0)) {} { execBus 0x208 [.rx .dma false] .fresh with dmaLenProg := 4097 }).map
      (fun (r : Bus × Memory) => r.1.refused) = some true ∧
    (Bus.masterStep part [] (.tx .ack) {}
      { execBus 0x102 [.tx .dma] .fresh with dmaAddr := 0xFFFFFFFE, dmaLenProg := 4 }).map (fun (r : Bus × Memory) => r.1.refused) =
      some true := by decide

/-- V-M23: the last pulse of a recovery, and its end. -/
theorem test_recover :
    (Bus.masterStep part [] (.pulse true) {}
      { idleBus with cmd := 0x800, mstate := .recover 2, busBusy := true, env := { scl := .rel, sda := .low } }).map
      (fun (r : Bus × Memory) => (r.1.mstate, r.1.env.sda)) = some (.recover 3, .rel) ∧
    (Bus.masterStep part [] (.line .ok) {} { idleBus with cmd := 0x800, mstate := .recover 3, busBusy := true }).map
      (fun (r : Bus × Memory) => (r.1.isr, r.1.mstate, r.1.busBusy, r.1.cmd)) = some (0x2000, .idle, false, 0) := by decide

/-! ## The slave, one step each -/

/-- V-S1, V-S9, V-S7: match for write, match for read, no match. -/
theorem test_slave_address :
    ((slaveBus .addr).envStep part [] (.wbyte 0x84) {}).map (fun (r : Bus × Memory) => (r.1.rxByte, r.1.isr, r.1.sstate, r.1.scl)) =
      some (0x84, 0x84, .rxWait, false) ∧
    ((slaveBus .addr).envStep part [] (.wbyte 0x85) {}).map (fun (r : Bus × Memory) => (r.1.isr, r.1.sstate)) = some (0x84, .txWait) ∧
    ((slaveBus .addr).envStep part [] (.wbyte 0xA0) {}).map (fun (r : Bus × Memory) => (r.1.isr, r.1.sstate)) = some (0, .ignore) := by decide

/-- V-S2: the stretch ends once RX_DONE is clear; a byte follows. -/
theorem test_slave_byte :
    ((stretchBus .rxWait).slaveStep).map (fun b => (b.sstate, b.scl)) = some (.rx, true) ∧
    ({ stretchBus .rxWait with isr := 0x84 }).slaveStep.isNone = true ∧
    ((slaveBus .rx).envStep part [] (.wbyte 0x77) {}).map (fun (r : Bus × Memory) => (r.1.rxByte, r.1.isr, r.1.sstate)) =
      some (0x77, 0x4, .rxWait) := by decide

/-- V-S3: the byte that fills a batch of four. -/
theorem test_slave_batch_full :
    ({ slaveBus .rx with sPath := .buf, sCap := 4, sCount := 3, pool := [0x11, 0x22, 0x33, 0] }.envStep part [] (.wbyte 0x44)
      {}).map (fun (r : Bus × Memory) => (r.1.pool, r.1.bufCount, r.1.isr, r.1.sstate)) = some ([0x11, 0x22, 0x33, 0x44], 4, 0x4, .rxWait) := by
  decide

/-- V-S4, V-S5: a partial batch ended by a STOP, and by a STOP inside a byte. -/
theorem test_slave_batch_partial :
    ({ slaveBus .rx with sPath := .buf, sCap := 4, sCount := 2 }.envStep part [] .p {}).map
      (fun (r : Bus × Memory) => (r.1.bufCount, r.1.isr, r.1.sstate, r.1.busBusy)) = some (2, 0x14, .idle, false) ∧
    ({ slaveBus .rx with sPath := .buf, sCap := 4, sCount := 1 }.envStep part [] (.mid .stop) {}).map
      (fun (r : Bus × Memory) => (r.1.bufCount, r.1.isr, r.1.sstate, r.1.busBusy)) = some (1, 0x34, .idle, false) := by decide

/-- R42, R45, R501: an STX that a STOP ends and a batch that a timeout ends leave their partial counts, the batch no RX_DONE. -/
theorem test_slave_partial_counts :
    ({ slaveBus (.tx .buf) with cmd := 0x044, sCap := 4, sCount := 2, bufCount := 9 }.envStep part [] .p {}).map
      (fun (r : Bus × Memory) => (r.1.bufCount, r.1.cmd, r.1.isr, r.1.sstate)) = some (2, 0, 0x10, .idle) ∧
    ({ slaveBus .rx with timeout := 1, sPath := .dma, sCap := 4, sCount := 3 }.envStep part [] (.timeout .sda) {}).map
      (fun (r : Bus × Memory) => (r.1.dmaMoved, r.1.isr, r.1.sstate)) = some (3, 0x4000, .idle) := by decide

/-- R380: the next match resets the capacity. -/
theorem test_match_resets_capacity :
    ({ slaveBus .addr with sPath := .buf, sCap := 4, sCount := 2 }.envStep part [] (.wbyte 0x84) {}).map
      (fun (r : Bus × Memory) => (r.1.sPath, r.1.sCap, r.1.sCount)) = some (.byte, 0, 0) := by decide

/-- V-S6: a slave timeout. -/
theorem test_slave_timeout :
    ({ slaveBus .rx with timeout := 1 }.envStep part [] (.timeout .scl) {}).map
      (fun (r : Bus × Memory) => (r.1.isr, r.1.sstate, r.1.busBusy)) = some (0x40, .idle, true) := by decide

/-- V-S10, V-S11, V-S13: STX.B answered N, its STOP, and answered A. -/
theorem test_slave_transmit :
    ({ slaveBus (.tx .byte) with cmd := 0x004, txByte := 0xEE, sCap := 1 }.envStep part [] (.rbyte .nak) {}).map
      (fun (r : Bus × Memory) => (r.1.isr, r.1.sstate, r.1.cmd, r.1.wire)) = some (0x2, .waitStop, 0, [.byte 0xEE .nak]) ∧
    ({ slaveBus .waitStop with isr := 0x2 }.envStep part [] .p {}).map (fun (r : Bus × Memory) => (r.1.isr, r.1.sstate)) = some (0x12, .idle) ∧
    ({ slaveBus (.tx .byte) with cmd := 0x004, sCap := 1 }.envStep part [] (.rbyte .ack) {}).map
      (fun (r : Bus × Memory) => (r.1.isr, r.1.sstate, r.1.scl)) = some (0x1, .txWait, false) := by decide

/-! ## Registers -/

/-- R35, V-M44: both functions off end a waiting command with no status. -/
theorem test_fun_ctrl_off :
    (busAfter ((stateOf { idleBus with cmd := 0x003, mstate := .exec [.addr] .waitBus, busBusy := true }).hostWrite
      (.space (.bus 0) 0) 32 0x8000)).map (fun b => (b.mstate, b.cmd, b.isr, b.busBusy, b.multiMasterDis)) =
      some (.off, 0, 0, false, true) := by decide

/-- R118, R35: an STX goes on when MASTER_EN is cleared, and a TX_BYTE written then may still be sent old. -/
theorem test_late_stx_source :
    let s := stateOf { slaveBus (.tx .byte) with cmd := 0x004, sCap := 1, txByte := 0x11 }
    let t := ((nextOf (s.hostWrite (.space (.bus 0) 0) 32 0x0002)).bind fun s2 =>
      nextOf (s2.hostWrite (.space (.bus 0) 0x20) 32 0x22)).bind fun s3 => s3.buses[0]?
    t.map (fun b => (b.cmd, b.sstate)) = some (0, .tx .byte) ∧
    (t.bind fun b => b.envStep part [] (.rbyte .nak) {}).map (fun (r : Bus × Memory) => r.1.wire) = some [.byte 0x22 .nak] ∧
    (t.bind fun b => b.envStep part [] (.rbyte .nak) { txByte := 1 }).map (fun (r : Bus × Memory) => r.1.wire) =
      some [.byte 0x11 .nak] := by decide

/-- R225, R339: an MSTOP in M_IDLE pulls SCL low anew, so TIMING counts; one in M_HOLD does not. -/
theorem test_mstop_takes_timing :
    (Bus.masterStep part [] (.line .ok) {} { idleBus with cmd := 0x020, mstate := .exec [.stop] .fresh, timing := 0x3003 }).map
      (fun (r : Bus × Memory) => r.1.sclTiming) = some 0x3003 ∧
    (Bus.masterStep part [] (.line .ok) {} { execBus 0x020 [.stop] .fresh with timing := 0x3003 }).map
      (fun (r : Bus × Memory) => r.1.sclTiming) = some 0 := by decide

/-- R225 with R339 and R251: an MSTOP in M_IDLE and a recovery pulse have pulled SCL low before a timeout ends them, so TIMING counts. -/
theorem test_timed_out_takes_timing :
    let b := { idleBus with timing := 0x3003, timeout := 1, env := { scl := .low, sda := .low } }
    (Bus.masterStep part [] (.line .sclTo) {} { b with cmd := 0x020, mstate := .exec [.stop] .fresh }).map
      (fun (r : Bus × Memory) => (r.1.sclTiming, r.1.isr)) = some (0x3003, 0x40) ∧
    (Bus.masterStep part [] (.line .sclTo) {} { b with cmd := 0x800, mstate := .recover 0 }).map
      (fun (r : Bus × Memory) => (r.1.sclTiming, r.1.isr)) = some (0x3003, 0x40) := by decide

/-- R61: write one to clear. -/
theorem test_isr_clear :
    (busAfter ((stateOf { idleBus with isr := 0x15 }).hostWrite (.addr 0x90) 32 0xFFFF0011)).map Bus.isr = some 0x4 := by decide

/-- R39, R58: CMD shows the latch and the lines. -/
theorem test_cmd_read :
    (nextOf ((stateOf { idleBus with busBusy := true, env := { scl := .rel, sda := .low } }).hostRead (.space (.bus 0) 0x14) 32
      {})).map State.rdata = some 0x00050000 := by decide

/-- R104: bytes of the window, the last word cut at BUF_SIZE. -/
theorem test_pool_window :
    (busAfter ({ stateOf { idleBus with pool := [0, 0, 0, 0, 0, 0] } with params := smallPart }.hostWrite (.space (.pool 0) 4) 32
      0x44332211)).map Bus.pool = some [0, 0, 0, 0, 0x11, 0x22] ∧
    (busAfter ({ stateOf { idleBus with pool := [0, 0, 0, 0, 0, 0] } with params := smallPart }.hostWrite (.space (.pool 0) 8) 32
      0)).map Bus.refused = some true := by decide

/-- R70, R54, R102: what is refused with no bus to mark, and what faults. -/
theorem test_other_refusals :
    refusalOf (State.reset.hostWrite (.space .global 4) 32 0) = some .globalAccess ∧
    refusalOf ((stateOf { idleBus with refused := true }).hostWrite (.space (.bus 0) 0) 32 0) = some .busRefused ∧
    faultOf (State.reset.hostWrite (.addr 0x5000) 32 0) = some .outsideMap := by decide

/-- R73, R510. -/
theorem test_gisr :
    (stateOf { idleBus with isr := 0x5, ier := 0x4 }).gisr = 1 ∧ (stateOf { idleBus with isr := 0x1, ier := 0x4 }).irq = false := by
  decide

/-! ## The calculator (V-C rows) -/

theorem test_calc_new :
    [100000, 400000, 1500000, 3400000, 3100000, 10000, 150000].map (calcTiming part 0x62220803) =
      [some 0x00099004, some 0x00066003, some 0x000DC001, some 0x000EE000, some 0x000FF000, some 0x000CB007,
       some 0x00098004] := by decide

theorem test_calc_edges :
    [10, 33333334, 50000000, 100000000, 0].map (calcTiming part 0x62220803) =
      [some 0x000FF00F, some 0x00010000, some 0x00000000, none, none] ∧
    [2000000, 500000, 150000].map (calcTiming part 0) = [some 0x000CB002, some 0x000CB005, some 0x000A9008] := by decide

theorem test_calc_legacy :
    [100000, 400000, 10000, 187500].map (calcTiming { part with clkDivMode := .legacy, inputClk := 24000000 } 0) =
      [some 0x000FF003, some 0x000FF001, some 0x000FF004, some 0x000FF002] := by decide

/-- V-T1, V-T4. -/
theorem test_scl_frequency :
    (sclFrequency .new 100000000 (baseClk 100000000 0x62220803) 0x00099004).same { num := 100000, den := 1 } = true ∧
    (sclFrequency .legacy 24000000 (fun _ => 0) 0x000FF003).same { num := 93750, den := 1 } = true := by decide

/-! ## The decoder and the host sequencer -/

/-- The table of R410. -/
theorem test_decode_master :
    [0x15, 0x01, 0x05, 0x12, 0x18, 0x4000, 0x2000, 0].map (decodeIssued 0x03B) =
      [.chunkDone, .notYet, .notYet, .error .addressing, .error .retryable, .error .busCondition, .unrecognized, .none] := by
  decide

/-- Rows of R418. -/
theorem test_decode_slave :
    decodeSlave .byte 0x84 [] .idle 0x84 = { events := [.writeRequested], next := .write } ∧
    decodeSlave .byte 0x77 [] .write 0x04 = { events := [.writeReceived 0x77], next := .write } ∧
    decodeSlave .byte 0x85 [] .write 0x84 = { events := [.readRequested], next := .read } ∧
    decodeSlave .byte 0 [] .read 0x01 = { events := [.readProcessed], next := .read } ∧
    decodeSlave .byte 0 [] .read 0x02 = { events := [], next := .stop } ∧
    decodeSlave .byte 0 [] .read 0x12 = { events := [.stop], next := .idle } := by decide

/-- More rows of R418; the last is by R417, where R418's own row differs (log 31). -/
theorem test_decode_slave_batches :
    decodeSlave .byte 0 [] .stop 0x10 = { events := [.stop], next := .idle } ∧
    decodeSlave .buf 0 [1, 2] .write 0x14 = { events := [.writeReceived 1, .writeReceived 2, .stop], next := .idle } ∧
    decodeSlave .buf 0x85 [] .write 0x94 = { events := [.stop, .readRequested], next := .read } := by decide

/-- R417: a claimed bit that produced no event is logged. -/
theorem test_slave_unused : slaveUnused .byte 0 [] .read 0x02 = 0x02 ∧ slaveUnused .byte 0x84 [] .idle 0x84 = 0 := by decide

/-- R462: the echo handler answers its byte, and its log takes no read request (program P7). -/
theorem test_echo_handler :
    let h : HostBus := { handler := some (.echo 0xA5) }
    (h.onSlaveEvent .readRequested 0).1.slaveLog = [] ∧
    (h.onSlaveEvent .readRequested 0).2 = [.wr 0x20 0xA5, .cmd 0x004] ∧
    (h.onSlaveEvent (.writeReceived 0x5A) 0).1.slaveLog = [.writeReceived 0x5A] := by decide

/-- R456: a call does not land in the middle of a dispatch of its bus. R559: an attach in the middle of a transaction runs. -/
theorem test_call_outside_dispatch :
    let s := { stateOf idleBus with disp := some { n := 0, todo := [.busDone] } }
    s.callStep 0 (.register (.echo 0xA5) 0x42) = s ∧
    ((({ s with disp := none } : State).callStep 0 (.register (.echo 0xA5) 0x42)).hosts[0]?.map HostBus.handler) =
      some (some (.echo 0xA5)) ∧
    ((({ stateOf idleBus with hosts := [{ ctx := .cmdIssued, sub := [.waitDone] }] } : State).callStep 0
      (.attach 100000 .byte false)).hosts[0]?.map HostBus.sub) = some [.attachCalc 100000 .byte false, .waitDone] := by decide

/-- R450, R452: an expiry ends the wait alone; the critical block is the submitter's next step. -/
theorem test_host_timeout :
    let h : HostBus := { ctx := .cmdIssued, sub := [.waitDone] }
    let r : HostBus := { ctx := .recovering, sub := [.recWait] }
    let s := { stateOf idleBus with hosts := [h] }
    let t := { stateOf idleBus with hosts := [r] }
    ((s.hostTimeoutStep 0).hosts[0]?).map HostBus.ctx = some .cmdIssued ∧
    ((nextOf ((s.hostTimeoutStep 0).submitterStep 0 {})).bind fun u => u.hosts[0]?).map (fun u => (u.ctx, u.sub)) =
      some (.idle, [.expiryLook, .finish (.err .timeout)]) ∧
    ((nextOf (t.submitterStep 0 {})).bind fun u => u.hosts[0]?).map HostBus.sub = some [.recWait] ∧
    ((nextOf ((t.hostTimeoutStep 0).submitterStep 0 {})).bind fun u => u.hosts[0]?).map (fun u => (u.ctx, u.sub, u.recov.ok)) =
      some (.idle, [], false) := by decide

/-- R455: a full batch re-arms after its last byte, beside a new WRITE_REQUESTED too; a batch that is not full does not. -/
theorem test_full_batch_rearms :
    let h : HostBus := { mode := .buf, sh := .write, handler := some .drawn }
    let q := { part with bufSize := 2 }
    slaveOps q h 0x04 0 2 [1, 2] = [.slaveEv (.writeReceived 1), .slaveEv (.writeReceived 2), .arm, .setSh .write] ∧
    slaveOps q h 0x84 0x84 2 [1, 2] =
      [.slaveEv (.writeReceived 1), .slaveEv (.writeReceived 2), .arm, .slaveEv .writeRequested, .setSh .write] ∧
    slaveOps q h 0x84 0x84 1 [1, 2] = [.slaveEv (.writeReceived 1), .slaveEv .writeRequested, .setSh .write] ∧
    slaveOps q h 0x14 0 2 [1, 2] = [.slaveEv (.writeReceived 1), .slaveEv (.writeReceived 2), .slaveEv .stop, .setSh .idle] := by decide

/-- R444's example: 20 bytes to 0x50 with a pool of 16. -/
theorem test_next_cmd :
    (nextCmd part .buf (Txn.start [{ goodMsg with dir := .write, len := 20, buf := List.replicate 20 0 }])).2.1 = 0x043 ∧
    (nextCmd part .buf { Txn.start [{ goodMsg with dir := .write, len := 20, buf := List.replicate 20 0 }] with
      xfer := 16, started := true }).2.1 = 0x062 := by decide

/-- V-E18, R161: the accesses that a program's lines stand for on bus 1. -/
theorem test_encode_program :
    encodeProgram 1 [.addr 0x50 false, .addr 0x50 true, .addr 0x7F true, .cmd .mstartRxB, .waitIrq, .rd .isr 0, .ack 0x5] =
      [{ space := .bus 1, off := 0x20, value := some 0xA0 }, { space := .bus 1, off := 0x20, value := some 0xA1 },
       { space := .bus 1, off := 0x20, value := some 0xFF }, { space := .bus 1, off := 0x14, value := some 0x00B },
       { space := .bus 1, off := 0x10, value := none }, { space := .bus 1, off := 0x10, value := some 0x5 }] := by decide

/-- R160, P2: a read sets its own temporary, and a draw of the environment is the engine's next step. -/
theorem test_program_lines :
    let r : HostRun := { st := stateOf { execBus 0x002 [.tx .byte] .fresh with txByte := 0x12 }, rest := [.draw (.tx .ack) {}, .rd .isr 3] }
    let q := match r.step 0 {} with
      | .next r2 => match r2.step 0 {} with
        | .next r3 => some r3
        | _ => none
      | _ => none
    q.map (fun r3 => (r3.temp 3, r3.temp 0, r3.rest)) = some (some 0x1, none, []) := by decide

/-- V-E19, V-E20: the counts the host stages. -/
theorem test_staged_counts :
    stageTx .buf { goodMsg with buf := [7] } 0 1 = [.pw 0 [7], .wr 0x1C 0x00000000] ∧
    (stageTx .buf { goodMsg with buf := List.replicate 16 7 } 0 16).getLast? = some (.wr 0x1C 0x00000F00) ∧
    stageRx .buf goodMsg 0 4 = [.wr 0x1C 0x00030000] ∧
    stageRx .dma { goodMsg with phys := 0x1000 } 0 4096 = [.wr 0x24 0x1000, .wr 0x28 0x00001000] := by decide

/-! ## Witnesses: for each statement with hypotheses, states and operands that meet them; several where it has several clauses -/

/-- The machine of one bus, its next input a write. -/
def writing (loc : Loc) (v : Word) : State := { stateOf idleBus with inputs := [.write loc 32 v] }

theorem witness_decodeAndEncodeAgree : decode 0xFFFFF003#32 = some .mstart ∧ decode 0x00000000#32 = some .cmdNop := by decide

theorem witness_illegalWordRefused :
    ((stateOf idleBus).buses[0]? = some idleBus ∧ idleBus.refused = false ∧ (0x142#32).extractLsb' 0 12 ≠ 0 ∧
      legal ((0x142#32).extractLsb' 0 12) = false) ∧
    ((0xFFFFFFFF#32).extractLsb' 0 12 ≠ 0 ∧ legal ((0xFFFFFFFF#32).extractLsb' 0 12) = false) := by decide

theorem witness_stepRunsDecodedCommand :
    ((writing (.space (.bus 0) 0x14) 0x003).inputs = .write (.space (.bus 0) 0x14) 32 0x003 :: [] ∧
      Loc.find part (.space (.bus 0) 0x14) = some (.bus 0, 0x14) ∧ (writing (.space (.bus 0) 0x14) 0x003).buses[0]? = some idleBus ∧
      idleBus.refused = false ∧ decode 0x003#32 = some .mstart) ∧
    Loc.find part (.addr 0x94) = some (.bus 0, 0x14) := by decide

theorem witness_nopChangesNothing :
    (stateOf (execBus 0x002 [.tx .byte] .fresh)).buses[0]? = some (execBus 0x002 [.tx .byte] .fresh) ∧
    (execBus 0x002 [.tx .byte] .fresh).refused = false ∧ (0xFFFFF000#32).extractLsb' 0 12 = 0 := by decide

theorem witness_startCommandsAccepted :
    Instr.mstartRxlStopDma.hasStart = true ∧ (stateOf idleBus).buses[(stateOf idleBus).sel]? = some idleBus ∧
    idleBus.mstate = .idle ∧ idleBus.sstate.isTx = false ∧ (stateOf holdBus).buses[(stateOf holdBus).sel]? = some holdBus ∧
    holdBus.mstate = .hold ∧ holdBus.sstate.isTx = false := by decide

theorem witness_dataCommandsAccepted :
    Instr.mtxB.isData = true ∧ Instr.mrxlStopDma.isData = true ∧ (stateOf holdBus).buses[(stateOf holdBus).sel]? = some holdBus ∧
    holdBus.mstate = .hold ∧ holdBus.sstate.isTx = false := by decide

theorem witness_stopAndRecoverAccepted :
    ((stateOf holdBus).buses[(stateOf holdBus).sel]? = some holdBus ∧ holdBus.mstate = .hold ∧ holdBus.sstate.isTx = false) ∧
    ((stateOf idleBus).buses[(stateOf idleBus).sel]? = some idleBus ∧ idleBus.mstate = .idle ∧ idleBus.sstate.isTx = false) := by
  decide

/-- The five cases of the hypothesis: M_OFF, busy (M_EXEC, M_RECOVER), STX running, a data form in M_IDLE, RECOVER in M_HOLD. -/
theorem witness_masterCommandsRefused :
    Instr.mstart.isMaster = true ∧ Instr.mrxB.isMaster = true ∧ Instr.recover.isMaster = true ∧
    (State.reset.buses[State.reset.sel]?).map Bus.mstate = some .off ∧
    (execBus 0x002 [.tx .byte] .fresh).mstate.busy = true ∧ ({ idleBus with mstate := .recover 0 } : Bus).mstate.busy = true ∧
    (slaveBus (.tx .byte)).sstate.isTx = true ∧ (idleBus.mstate = .idle ∧ Instr.mrxB.isData = true) ∧
    (holdBus.mstate = .hold ∧ Instr.recover = Instr.recover) := by decide

/-- A slave bus whose transfer waits for SRXARM, the registers at the limits of what is accepted. -/
def armBus : Bus := { stretchBus .rxWait with rxEnd := 15, dmaLenProg := 4096, dmaAddr := 0xFFFFF000 }

theorem witness_srxarmArmsOrRefuses :
    ((stateOf armBus).buses[(stateOf armBus).sel]? = some armBus ∧ armBus.slaveEn = true ∧ armBus.sstate = .rxWait ∧
      armBus.mstate.busy = false ∧ armBus.rxEnd.toNat + 1 ≤ part.bufSize ∧ 1 ≤ armBus.dmaLenProg.toNat ∧
      armBus.dmaLenProg.toNat ≤ part.dmaMax ∧ armBus.dmaAddr.toNat + armBus.dmaLenProg.toNat ≤ 2 ^ 32) ∧
    part.bufSize < ({ armBus with rxEnd := 16 } : Bus).rxEnd.toNat + 1 ∧ idleBus.slaveEn = false ∧
    (stretchBus .txWait).sstate ≠ .rxWait ∧ ({ armBus with mstate := .exec [.stop] .fresh } : Bus).mstate.busy = true ∧
    (stretchBus .rxWait).dmaLenProg = 0 ∧ part.dmaMax < ({ armBus with dmaLenProg := 4097 } : Bus).dmaLenProg.toNat ∧
    2 ^ 32 < ({ armBus with dmaAddr := 0xFFFFF001 } : Bus).dmaAddr.toNat + armBus.dmaLenProg.toNat := by decide

/-- The same for STX. -/
def stxBus : Bus := { stretchBus .txWait with txEnd := 15, dmaLenProg := 4096, dmaAddr := 0xFFFFF000 }

theorem witness_stxStarts :
    (stateOf stxBus).buses[(stateOf stxBus).sel]? = some stxBus ∧ stxBus.slaveEn = true ∧ stxBus.sstate = .txWait ∧
    stxBus.mstate.busy = false ∧ stxBus.txEnd.toNat + 1 ≤ part.bufSize ∧ 1 ≤ stxBus.dmaLenProg.toNat ∧
    stxBus.dmaLenProg.toNat ≤ part.dmaMax ∧ stxBus.dmaAddr.toNat + stxBus.dmaLenProg.toNat ≤ 2 ^ 32 := by decide

theorem witness_stxRefused :
    (stateOf stxBus).buses[(stateOf stxBus).sel]? = some stxBus ∧ (Instr.stxB.isStx = true ∧ idleBus.slaveEn = false) ∧
    (stretchBus .rxWait).sstate ≠ .txWait ∧ ({ stxBus with mstate := .recover 0 } : Bus).mstate.busy = true ∧
    part.bufSize < ({ stxBus with txEnd := 16 } : Bus).txEnd.toNat + 1 ∧ (stretchBus .txWait).dmaLenProg = 0 ∧
    part.dmaMax < ({ stxBus with dmaLenProg := 4097 } : Bus).dmaLenProg.toNat ∧
    2 ^ 32 < ({ stxBus with dmaAddr := 0xFFFFF001 } : Bus).dmaAddr.toNat + stxBus.dmaLenProg.toNat := by decide

theorem witness_masterCommandFrame : Instr.mstart.isMaster = true ∧ ∃ t, exec .mstart (stateOf idleBus) = .next t := ⟨rfl, _, rfl⟩

theorem witness_slaveCommandFrame :
    (Instr.srxarmBuf.isSrxarm = true ∧ ∃ t, exec .srxarmBuf (stateOf armBus) = .next t) ∧
    (Instr.srxarmDma.isSrxarm = true ∧ ∃ t, exec .srxarmDma (stateOf armBus) = .next t) ∧
    (Instr.stxDma.isStx = true ∧ ∃ t, exec .stxDma (stateOf stxBus) = .next t) := ⟨⟨rfl, _, rfl⟩, ⟨rfl, _, rfl⟩, ⟨rfl, _, rfl⟩⟩

/-- A START about to go out on a free bus. -/
def startBus : Bus := { idleBus with cmd := 0x003, mstate := .exec [.addr] .fresh }

theorem witness_startOnFreeBus :
    (startBus.live ∧ startBus.mstate = .exec (.addr :: []) .fresh ∧ startBus.own = false ∧ startBus.busBusy = false ∧
      startBus.scl = true ∧ startBus.sda = true) ∧
    (({ startBus with busBusy := true, multiMasterDis := true } : Bus).multiMasterDis = true ∧ startBus.mstate = .exec [.addr] .fresh ∧
      ({ part with mmDisEffect := .noBusyWait } : Params).mmDisEffect = .noBusyWait) ∧
    ({ startBus with mstate := .exec [.addr] .waitBus } : Bus).mstate = .exec (.addr :: []) .waitBus ∧
    ({ startBus with env := { scl := .low } } : Bus).scl = false ∧ ({ startBus with env := { sda := .low } } : Bus).sda = false ∧
    (let c : Bus := { startBus with env := { scl := .low, sda := .low }, timeout := 1 }
     c.env.scl = .low ∧ c.env.sda = .low ∧ c.timeout ≠ 0 ∧
      (c.masterStep part [] (.line .sclTo) {}).isSome ∧ (c.masterStep part [] (.line .sdaTo) {}).isSome) := by
  refine ⟨⟨⟨rfl, rfl⟩, ?_⟩, ?_⟩ <;> decide

theorem witness_startOnBusyBus :
    let b := { startBus with busBusy := true }
    b.live ∧ b.own = false ∧ b.busBusy = true ∧ b.multiMasterDis = false ∧ b.mstate = .exec (.addr :: []) .fresh ∧
    part.startWhenBusy.getD .wait = .wait ∧ part.startWhenBusy.getD .arbLoss = .arbLoss ∧
    ({ b with mstate := .exec [.addr] .waitBus, multiMasterDis := true } : Bus).mstate = .exec (.addr :: []) .waitBus ∧
    part.mmDisEffect = .none := by
  refine ⟨⟨rfl, rfl⟩, ?_⟩; decide

theorem witness_repeatedStart :
    let b := execBus 0x003 [.addr] .fresh
    b.live ∧ b.alone ∧ b.mstate = .exec (.addr :: []) .fresh ∧ b.own = true ∧ b.lastSlot = .other ∧
    ({ b with lastSlot := .read } : Bus).lastSlot ≠ .other ∧ ({ b with lastSlot := .address } : Bus).lastSlot ≠ .other ∧
    (({ b with env := { scl := .low }, timeout := 1 } : Bus).env.scl = .low ∧ ({ b with timeout := 1 } : Bus).timeout ≠ 0) ∧
    ({ b with env := { sda := .low }, timeout := 1 } : Bus).env.sda = .low := by
  refine ⟨⟨rfl, rfl⟩, ⟨rfl, rfl⟩, ?_⟩; decide

theorem witness_addressPhase :
    let b := execBus 0x023 [.addr, .stop] .started
    let c := execBus 0x003 [.addr] .started
    (b.live ∧ b.alone ∧ b.mstate = .exec (.addr :: [.stop]) .started ∧ b.own = true ∧ b.mDrv.scl = .low ∧ b.stale = {} ∧
      [Phase.stop] ≠ []) ∧
    (c.live ∧ c.alone ∧ c.mstate = .exec (.addr :: []) .started ∧ c.own = true ∧ c.mDrv.scl = .low ∧ c.stale = {} ∧
      Phase.stop ∉ ([] : List Phase)) := by
  refine ⟨⟨⟨rfl, rfl⟩, ⟨rfl, rfl⟩, ?_⟩, ⟨rfl, rfl⟩, ⟨rfl, rfl⟩, ?_⟩ <;> decide

theorem witness_slotFaultAborts :
    let a := { execBus 0x003 [.addr] .started with txByte := 0xA0 }
    let b := { execBus 0x042 [.tx .buf] (.moving 1 3) with pool := [1, 2, 3], txEnd := 2 }
    let c := { execBus 0x102 [.tx .dma] .fresh with dmaLenProg := 1, timeout := 1 }
    let d := execBus 0x098 [.rx .buf true] (.moving 2 3)
    let e := execBus 0x018 [.rx .byte true] .fresh
    (a.live ∧ a.own = true ∧ a.mDrv.scl = .low ∧ a.slotFaultOk (a.sampleTxByte current != 0) .arb = true) ∧
    (b.txSource part [] .buf 1 current = some 2 ∧ b.slotFaultOk (2#8 != 0) .arb = true) ∧
    (∃ n c2, c.beginTx part .dma current = some (n, c2) ∧ c2.txSource part [] .dma 0 current = some 0 ∧
      c.slotFaultOk (0#8 != 0) .sclTo = true) ∧
    d.slotFaultOk (rxAnswer true 2 3 == .nak) .arb = true ∧ d.slotFaultOk (rxAnswer true 2 3 == .nak) (.abn .stop) = true ∧
    ∃ n c2, e.beginRx part .byte current = some (n, c2) ∧ e.slotFaultOk (rxAnswer true 0 n == .nak) (.abn .start) = true :=
  ⟨⟨⟨rfl, rfl⟩, rfl, rfl, rfl⟩, ⟨rfl, rfl⟩, ⟨_, _, rfl, rfl, rfl⟩, rfl, rfl, ⟨_, _, rfl, rfl⟩⟩

theorem witness_slotFaultsAdmitted :
    (execBus 0x003 [.addr] .started).mstate = .exec (.addr :: []) .started ∧ (execBus 0x003 [.addr] .started).timeout = 0 ∧
    (execBus 0x003 [.addr] .started).sampleTxByte current = 0 ∧
    (execBus 0x002 [.tx .byte] .fresh).mstate = .exec (.tx .byte :: []) .fresh ∧
    (execBus 0x002 [.tx .byte] .fresh).sampleTxByte current = 0 ∧
    (execBus 0x002 [.tx .byte] .fresh).beginTx part .byte {} = some (1, execBus 0x002 [.tx .byte] .fresh) ∧
    (execBus 0x002 [.tx .byte] .fresh).txSource part [] .byte 0 {} = some 0 ∧
    (execBus 0x042 [.tx .buf] (.moving 1 3)).txSource part [] .buf 1 {} = some 0 ∧
    (execBus 0x102 [.tx .dma] (.moving 1 3)).txSource part [] .dma 1 {} = some 0 ∧
    (execBus 0x008 [.rx .byte false] .fresh).beginRx part .byte {} = some (1, execBus 0x008 [.rx .byte false] .fresh) ∧
    rxAnswer false 0 1 = .ack ∧ rxAnswer true 1 3 = .ack ∧ rxAnswer true 2 3 = .nak ∧
    (∃ c, ({ execBus 0x098 [.rx .buf true] .fresh with rxEnd := 1 } : Bus).beginRx part .buf {} = some (2, c)) ∧
    rxAnswer true 0 2 = .ack := by
  refine ⟨rfl, rfl, rfl, rfl, rfl, rfl, rfl, rfl, rfl, rfl, rfl, rfl, rfl, ⟨_, rfl⟩, rfl⟩

/-- A buffer phase of BUF_SIZE bytes, and a DMA phase of two bytes up to the end of the mapped range 0 .. 0x8FFF. -/
def fullTxBus : Bus := { execBus 0x042 [.tx .buf] .fresh with txEnd := 15 }

def edgeTxBus : Bus := { execBus 0x102 [.tx .dma] .fresh with dmaAddr := 0x8FFE, dmaLenProg := 2 }

theorem witness_transmitPhaseAcknowledged :
    (fullTxBus.live ∧ fullTxBus.alone ∧ fullTxBus.mstate = .exec (.tx .buf :: []) .fresh ∧ fullTxBus.own = true ∧
      fullTxBus.mDrv.scl = .low ∧ fullTxBus.stale = {} ∧ fullTxBus.txFits part .buf = true) ∧
    (edgeTxBus.live ∧ edgeTxBus.alone ∧ edgeTxBus.mstate = .exec (.tx .dma :: []) .fresh ∧ edgeTxBus.own = true ∧
      edgeTxBus.mDrv.scl = .low ∧ edgeTxBus.stale = {} ∧ edgeTxBus.txFits smallPart .dma = true) := by
  refine ⟨⟨⟨rfl, rfl⟩, ⟨rfl, rfl⟩, ?_⟩, ⟨rfl, rfl⟩, ⟨rfl, rfl⟩, ?_⟩ <;> decide

/-- The last byte of each phase is the one answered N. -/
theorem witness_transmitPhaseNotAcknowledged :
    (fullTxBus.live ∧ fullTxBus.alone ∧ fullTxBus.mstate = .exec (.tx .buf :: []) .fresh ∧ fullTxBus.own = true ∧
      fullTxBus.mDrv.scl = .low ∧ fullTxBus.stale = {} ∧ fullTxBus.txFits part .buf = true ∧
      15 < (fullTxBus.txBytes [] .buf).length) ∧
    1 < (edgeTxBus.txBytes [] .dma).length := by
  refine ⟨⟨⟨rfl, rfl⟩, ⟨rfl, rfl⟩, ?_⟩, ?_⟩ <;> decide

theorem witness_receivePhase :
    let b := { execBus 0x098 [.rx .buf true] .fresh with rxEnd := 15 }
    let c := { execBus 0x208 [.rx .dma false] .fresh with dmaAddr := 0x8FFE, dmaLenProg := 2 }
    (b.live ∧ b.alone ∧ b.mstate = .exec (.rx .buf true :: []) .fresh ∧ b.own = true ∧ b.mDrv.scl = .low ∧ b.stale = {} ∧
      b.rxFits part .buf = true ∧ (List.replicate 16 (7 : Byte)).length = b.rxCount .buf) ∧
    (c.live ∧ c.alone ∧ c.mstate = .exec (.rx .dma false :: []) .fresh ∧ c.own = true ∧ c.mDrv.scl = .low ∧ c.stale = {} ∧
      c.rxFits smallPart .dma = true ∧ [1#8, 2#8].length = c.rxCount .dma) := by
  refine ⟨⟨⟨rfl, rfl⟩, ⟨rfl, rfl⟩, ?_⟩, ⟨rfl, rfl⟩, ⟨rfl, rfl⟩, ?_⟩ <;> decide

theorem witness_stopPhase :
    let b := execBus 0x020 [.stop] .fresh
    (b.live ∧ b.mstate = .exec [.stop] .fresh ∧ b.alone ∧ b.lastSlot = .other) ∧
    (let c := { idleBus with mstate := .exec [.stop] .fresh, lastSlot := .read }
     c.mstate = .exec [.stop] .fresh ∧ c.own = false ∧ c.lastSlot ≠ .other) ∧
    ({ b with lastSlot := .read } : Bus).lastSlot ≠ .other ∧ ({ b with env := { sda := .low }, timeout := 1 } : Bus).env.sda = .low ∧
    ({ b with env := { scl := .low }, timeout := 1 } : Bus).env.scl = .low ∧ ({ b with timeout := 1 } : Bus).timeout ≠ 0 := by
  refine ⟨⟨⟨rfl, rfl⟩, rfl, ⟨rfl, rfl⟩, rfl⟩, ?_⟩; decide

theorem holdBus_inv : Bus.Inv part holdBus := by
  constructor
  all_goals first | decide | exact fun _ => Or.inl rfl | (intro _ _ h; cases h)

theorem idleBus_inv : Bus.Inv part idleBus := by
  constructor
  all_goals first | decide | exact fun _ => Or.inl rfl | (intro _ _ h; cases h) | (intro h; cases h)

theorem witness_masterCommandsComplete :
    (holdBus.Inv part ∧ Memory.wf [] = true ∧ holdBus.live ∧ holdBus.alone ∧ holdBus.sstate.isTx = false ∧
      Instr.mrxlStopBuf.isData = true ∧ Instr.mstartStop.hasStart = true ∧ holdBus.mstate = .hold ∧
      holdBus.rxFits part .buf = true ∧ (code .mrxlStopBuf).getLsbD 5 = true ∧ (code .mtxBuf).getLsbD 5 = false ∧
      holdBus.txFits part .buf = true) ∧
    (idleBus.Inv part ∧ idleBus.live ∧ idleBus.alone ∧ idleBus.sstate.isTx = false ∧ idleBus.mstate = .idle ∧
      idleBus.busBusy = false) ∧
    (∀ path, (Phase.tx path) ∈ phaseList (code .mtxBuf) → holdBus.txFits part path = true) ∧
    (∀ path last, (Phase.rx path last) ∈ phaseList (code .mrxlStopBuf) → holdBus.rxFits part path = true) := by
  refine ⟨⟨holdBus_inv, rfl, ⟨rfl, rfl⟩, ⟨rfl, rfl⟩, ?_⟩, ⟨idleBus_inv, ⟨rfl, rfl⟩, ⟨rfl, rfl⟩, ?_⟩, ?_, ?_⟩
  · decide
  · decide
  · intro path; cases path <;> decide
  · intro path last; cases path <;> cases last <;> decide

theorem witness_masterWaitsForTheHost :
    holdBus.mstate = .hold ∧ idleBus.mstate = .idle ∧ (State.reset.buses[0]?).map Bus.mstate = some .off ∧
    ((slaveBus .rx).envStep part [] (.wbyte 0x77) {}).isSome = true ∧ ((stretchBus .rxWait).slaveStep).isSome = true := by decide

/-- SDA held low; the ninth pulse, the last one, frees it. -/
theorem witness_recoverFreesBus :
    let b := { idleBus with cmd := 0x800, mstate := .recover 0, busBusy := true, env := { sda := .low } }
    b.live ∧ b.mstate = .recover 0 ∧ b.mDrv = {} ∧ b.sDrv = {} ∧ b.env.scl = .rel ∧ b.env.sda = .low ∧
    8 + 1 ≤ part.recoverPulses ∧ part.recoverPulses ≤ 9 ∧ ({ b with env := {} } : Bus).env.sda = .rel := by
  refine ⟨⟨rfl, rfl⟩, ?_⟩; decide

theorem witness_recoverFails :
    let b := { idleBus with cmd := 0x800, mstate := .recover 9, busBusy := true, env := { sda := .low } }
    let c := { idleBus with cmd := 0x800, mstate := .recover 8, busBusy := true, env := { scl := .low, sda := .low } }
    (b.live ∧ b.mstate = .recover 9 ∧ b.sDrv = {} ∧ b.env.sda = .low ∧ part.recoverPulses ≤ 9) ∧
    (c.live ∧ c.mstate = .recover 8 ∧ c.sDrv = {} ∧ c.env.scl = .low ∧ c.env.sda = .low ∧ 8 < part.recoverPulses ∧
      c.timeout = 0 ∧ ({ c with timeout := 1 } : Bus).timeout ≠ 0) ∧
    (∃ d : Bus, d.live ∧ d.mstate = .recover 0 ∧ d.sDrv.scl = .low ∧ d.env.scl = .rel ∧ d.env.sda = .low ∧ 0 < part.recoverPulses) := by
  refine ⟨⟨⟨rfl, rfl⟩, ?_⟩, ⟨⟨rfl, rfl⟩, ?_⟩,
    { stretchBus .rxWait with cmd := 0x800, mstate := .recover 0, env := { sda := .low } }, ⟨rfl, rfl⟩, ?_⟩ <;> decide

/-- The first address that is not mapped is 0x9000. -/
theorem witness_unmappedDmaSticks :
    let b := { execBus 0x102 [.tx .dma] (.moving 1 2) with dmaPtr := 0x9000 }
    let c := { slaveBus (.tx .dma) with sBase := 0x8FFF, sCount := 1, sCap := 2 }
    let d := { execBus 0x208 [.rx .dma false] (.moving 1 2) with dmaPtr := 0x9000 }
    let e := { slaveBus .rx with sPath := .dma, sBase := 0x8FFF, sCount := 1, sCap := 2 }
    let f := { execBus 0x102 [.tx .dma] .fresh with dmaAddr := 0x9000, dmaLenProg := 1 }
    let g := { execBus 0x208 [.rx .dma false] .fresh with dmaAddr := 0x9000, dmaLenProg := 1 }
    (b.live ∧ b.own = true ∧ b.mDrv.scl = .low ∧ b.mstate = .exec (.tx .dma :: []) (.moving 1 2) ∧
      smallPart.dmaAllowed b.dmaPtr.toNat = false) ∧
    (c.live ∧ c.remoteOwns = true ∧ c.sstate = .tx .dma ∧ smallPart.dmaAllowed (c.sBase.toNat + c.sCount) = false) ∧
    (d.live ∧ d.own = true ∧ d.mDrv.scl = .low ∧ d.alone ∧ d.mstate = .exec (.rx .dma false :: []) (.moving 1 2) ∧
      smallPart.dmaAllowed d.dmaPtr.toNat = false) ∧
    (e.live ∧ e.remoteOwns = true ∧ e.sstate = .rx ∧ e.sPath = .dma ∧ smallPart.dmaAllowed (e.sBase.toNat + e.sCount) = false) ∧
    (f.live ∧ f.own = true ∧ f.mDrv.scl = .low ∧ f.mstate = .exec (.tx .dma :: []) .fresh ∧
      smallPart.dmaRangeOk (f.sampleDmaLen {}).toNat (f.sampleDmaAddr {}) = true ∧
      smallPart.dmaAllowed (f.sampleDmaAddr {}).toNat = false) ∧
    (g.live ∧ g.own = true ∧ g.mDrv.scl = .low ∧ g.alone ∧ g.mstate = .exec (.rx .dma false :: []) .fresh ∧
      smallPart.dmaRangeOk (g.sampleDmaLen {}).toNat (g.sampleDmaAddr {}) = true ∧
      smallPart.dmaAllowed (g.sampleDmaAddr {}).toNat = false) ∧
    ({ idleBus with stuck := true } : Bus).stuck = true := by
  refine ⟨⟨⟨rfl, rfl⟩, ?_⟩, ⟨⟨rfl, rfl⟩, ?_⟩, ⟨⟨rfl, rfl⟩, rfl, rfl, ⟨rfl, rfl⟩, ?_⟩, ⟨⟨rfl, rfl⟩, ?_⟩, ⟨⟨rfl, rfl⟩, ?_⟩,
    ⟨⟨rfl, rfl⟩, rfl, rfl, ⟨rfl, rfl⟩, ?_⟩, rfl⟩ <;> decide

theorem witness_statusBitsSetTogether :
    (∃ c m, Bus.masterStep part [] (.tx .ack) {} (execBus 0x002 [.tx .byte] .fresh) = some (c, m)) ∧
    (∃ c m, (slaveBus .addr).envStep part [] (.wbyte 0x84) {} = some (c, m)) ∧
    ∃ c, (stretchBus .rxWait).slaveStep = some c := ⟨⟨_, _, rfl⟩, ⟨_, _, rfl⟩, ⟨_, rfl⟩⟩

theorem witness_timeoutsOffNeverSet :
    let s := { stateOf (execBus 0x002 [.tx .byte] .fresh) with inputs := [.engine 0 (.tx .ack) {}] }
    ∃ t c, step s = .next t ∧ s.buses[0]? = some (execBus 0x002 [.tx .byte] .fresh) ∧ t.buses[0]? = some c ∧
      (execBus 0x002 [.tx .byte] .fresh).timeout = 0 := ⟨_, _, rfl, rfl, rfl, rfl⟩

/-- A machine with status bits 0 and 2 set on bus 0, whose submitter and dispatcher are about to clear bit 0. -/
def clearingState (p : Params) : State :=
  { State.resetFor p with buses := [{ idleBus with isr := 0x5 }], hosts := [{ sub := [.wr 0x10 0x1] }],
                          disp := some { n := 0, todo := [.rdIsr], g := some 0 } }

/-- A bit goes in each of the five ways: a write, a read with STATUS_CLEAR_ON_READ, the submitter's write, the dispatcher's write, and
its read. -/
theorem witness_statusBitsStaySet :
    let reads := { part with statusClearOnRead := true }
    let writes := { clearingState part with disp := some { n := 0, todo := [.wr 0x10 0x1], g := some 0 } }
    let gone (s : State) (e : Event) (w : Word) :=
      (∀ u, e ≠ .blockReset u) ∧ ∃ t b c, s.apply e = .next t ∧ s.buses[0]? = some b ∧ t.buses[0]? = some c ∧
        b.isr &&& ~~~c.isr = w ∧ w ≠ 0
    gone (stateOf { idleBus with isr := 0x5 }) (.write (.addr 0x90) 32 0x1) 0x1 ∧
    gone (clearingState reads) (.read (.addr 0x90) 32 {}) 0x5 ∧
    gone { clearingState part with disp := none } (.submitter 0 {}) 0x1 ∧ gone writes (.dispatcher {}) 0x1 ∧
    gone (clearingState reads) (.dispatcher {}) 0x5 :=
  ⟨⟨fun _ h => (nomatch h), _, _, _, rfl, rfl, rfl, rfl, by decide⟩, ⟨fun _ h => (nomatch h), _, _, _, rfl, rfl, rfl, rfl, by decide⟩,
   ⟨fun _ h => (nomatch h), _, _, _, rfl, rfl, rfl, rfl, by decide⟩, ⟨fun _ h => (nomatch h), _, _, _, rfl, rfl, rfl, rfl, by decide⟩,
   ⟨fun _ h => (nomatch h), _, _, _, rfl, rfl, rfl, rfl, by decide⟩⟩

theorem witness_engineFrame :
    (∃ c m, Bus.masterStep part [] (.rx (.data 3)) {} (execBus 0x098 [.rx .buf true] (.moving 2 3)) = some (c, m)) ∧
    (∃ c m, Bus.masterStep part [] (.rx (.data 3)) {} (execBus 0x098 [.rx .buf true] .fresh) = some (c, m)) ∧
    ∃ c m, Bus.masterStep part [] (.tx .ack) {} (execBus 0x002 [.tx .byte] .fresh) = some (c, m) :=
  ⟨⟨_, _, rfl⟩, ⟨_, _, rfl⟩, ⟨_, _, rfl⟩⟩

theorem witness_engineMemoryFrame :
    Memory.wf [(0x1000, 0xAA)] = true ∧
    (∃ c m, Bus.masterStep part [(0x1000, 0xAA)] (.rx (.data 3)) {}
      { execBus 0x208 [.rx .dma false] (.moving 1 2) with dmaPtr := 0x1001 } = some (c, m)) ∧
    (∃ c m, Bus.masterStep part [(0x1000, 0xAA)] (.rx (.data 3)) {}
      { execBus 0x208 [.rx .dma false] .fresh with dmaAddr := 0x1001, dmaLenProg := 1 } = some (c, m)) ∧
    ∃ c m, Bus.masterStep part [(0x1000, 0xAA)] (.tx .ack) {} (execBus 0x002 [.tx .byte] .fresh) = some (c, m) :=
  ⟨by decide, ⟨_, _, rfl⟩, ⟨_, _, rfl⟩, ⟨_, _, rfl⟩⟩

theorem witness_slaveFrame :
    (∃ c m, ({ slaveBus .rx with sPath := .dma, sBase := 0x1000, sCap := 1 } : Bus).envStep part [] (.wbyte 0x77) {} = some (c, m)) ∧
    (∃ c m, ({ slaveBus .rx with sPath := .buf, sCap := 1 } : Bus).envStep part [] (.wbyte 0x77) {} = some (c, m)) ∧
    (∃ c m, (slaveBus .rx).envStep part [] .p {} = some (c, m)) ∧ ∃ c, (stretchBus .rxWait).slaveStep = some c :=
  ⟨⟨_, _, rfl⟩, ⟨_, _, rfl⟩, ⟨_, _, rfl⟩, ⟨_, rfl⟩⟩

theorem witness_slaveAddressMatch :
    (slaveBus .addr).live ∧ (slaveBus .addr).remoteOwns = true ∧ (slaveBus .addr).sstate = .addr ∧
    (0x84#8).extractLsb' 1 7 = (slaveBus .addr).devAddr ∧ (0x85#8).extractLsb' 1 7 = (slaveBus .addr).devAddr := by
  refine ⟨⟨rfl, rfl⟩, ?_⟩; decide

theorem witness_slaveIgnoresOthers :
    (slaveBus .addr).live ∧ (slaveBus .addr).remoteOwns = true ∧ (0x86#8).extractLsb' 1 7 ≠ (slaveBus .addr).devAddr ∧
    (slaveBus .ignore).remoteOwns = true ∧ (slaveBus .waitStop).remoteOwns = true ∧ (slaveBus .idle).remoteOwns = true := by
  refine ⟨⟨rfl, rfl⟩, ?_⟩; decide

/-- An armed path of one byte with room for it, and one that is full. -/
def armedBus (n : Nat) : Bus := { stretchBus .rxWait with sPath := .buf, sCap := 1, sCount := n }

theorem armedBus_inv_room : Bus.Inv part (armedBus 0) := by
  constructor
  all_goals first | decide | exact fun _ => Or.inl rfl | (intro _ _ h; cases h) | (intro h; cases h)

theorem armedBus_inv_full : Bus.Inv part (armedBus 1) := by
  constructor
  all_goals first | decide | exact fun _ => Or.inl rfl | (intro _ _ h; cases h) | (intro h; cases h)

theorem witness_slaveStretches :
    ((armedBus 0).Inv part ∧ (armedBus 0).live ∧ (armedBus 0).sstate = .rxWait ∧ (armedBus 0).isr.getLsbD 2 = false ∧
      (armedBus 0).sCount < (armedBus 0).sCap) ∧
    ((armedBus 1).Inv part ∧ (armedBus 1).live ∧ (armedBus 1).sPath ≠ .byte ∧ (armedBus 1).sCap ≤ (armedBus 1).sCount) := by
  refine ⟨⟨armedBus_inv_room, ⟨rfl, rfl⟩, ?_⟩, armedBus_inv_full, ⟨rfl, rfl⟩, ?_⟩ <;> decide

/-- The capacity is one byte: the byte that comes is the last one. -/
theorem witness_slaveStoresBytes :
    let b := slaveBus .rx
    let c := { slaveBus .rx with sPath := .buf, sCap := 1 }
    let d := { slaveBus .rx with sPath := .dma, sCap := 1, sBase := 0x8FFF }
    let e := { slaveBus .rx with sPath := .dma, sCap := 1, sBase := 0x9000 }
    (b.live ∧ b.remoteOwns = true ∧ b.sstate = .rx ∧ b.sPath = .byte) ∧
    (c.live ∧ c.remoteOwns = true ∧ c.sstate = .rx ∧ c.sPath = .buf ∧ c.sCount + 1 = c.sCap) ∧
    (d.live ∧ d.remoteOwns = true ∧ d.sstate = .rx ∧ d.sPath = .dma ∧ smallPart.dmaAllowed (d.sBase.toNat + d.sCount) = true ∧
      d.sCount + 1 = d.sCap) ∧
    (e.live ∧ e.remoteOwns = true ∧ e.sstate = .rx ∧ e.sPath = .dma ∧ smallPart.dmaAllowed (e.sBase.toNat + e.sCount) = false) := by
  refine ⟨⟨⟨rfl, rfl⟩, ?_⟩, ⟨⟨rfl, rfl⟩, ?_⟩, ⟨⟨rfl, rfl⟩, ?_⟩, ⟨rfl, rfl⟩, ?_⟩ <;> decide

theorem witness_stxSendsBytes :
    let b := { slaveBus (.tx .byte) with sCap := 1 }
    let c := { slaveBus (.tx .buf) with sCap := 3, sCount := 1 }
    let d := { slaveBus (.tx .dma) with sCap := 1, sBase := 0x8FFF }
    let e := { slaveBus (.tx .dma) with sCap := 1, sBase := 0x9000 }
    (b.live ∧ b.remoteOwns = true ∧ b.sstate = .tx .byte ∧ b.stale = {} ∧ b.sCount + 1 = b.sCap) ∧
    (c.live ∧ c.remoteOwns = true ∧ c.sstate = .tx .buf ∧ c.stale = {} ∧ c.sCount + 1 ≠ c.sCap) ∧
    (d.live ∧ d.remoteOwns = true ∧ d.sstate = .tx .dma ∧ d.stale = {} ∧
      smallPart.dmaAllowed (d.sBase.toNat + d.sCount) = true) ∧
    (e.live ∧ e.remoteOwns = true ∧ e.sstate = .tx .dma ∧ e.stale = {} ∧
      smallPart.dmaAllowed (e.sBase.toNat + e.sCount) = false) := by
  refine ⟨⟨⟨rfl, rfl⟩, ?_⟩, ⟨⟨rfl, rfl⟩, ?_⟩, ⟨⟨rfl, rfl⟩, ?_⟩, ⟨rfl, rfl⟩, ?_⟩ <;> decide

theorem witness_slaveSeesStartAndStop :
    let a := { slaveBus .idle with busBusy := false }
    let b := { slaveBus .rx with sPath := .buf, sCap := 2, sCount := 1 }
    let c := { idleBus with busBusy := true }
    (a.live ∧ a.slaveEn = true ∧ a.remoteMay = true ∧ a.busBusy = false ∧ a.scl = true ∧ a.sda = true) ∧
    (b.live ∧ b.slaveEn = true ∧ b.remoteOwns = true ∧ b.sstate = .rx ∧ b.sPath ≠ .byte ∧ 0 < b.sCount) ∧
    (c.live ∧ c.slaveEn = false ∧ c.remoteMay = true ∧ c.busBusy = true) ∧
    (idleBus.slaveEn = false ∧ idleBus.remoteMay = true ∧ idleBus.busBusy = false ∧ idleBus.scl = true ∧ idleBus.sda = true) := by
  refine ⟨⟨⟨rfl, rfl⟩, ?_⟩, ⟨⟨rfl, rfl⟩, ?_⟩, ⟨⟨rfl, rfl⟩, ?_⟩, ?_⟩ <;> decide

theorem witness_slaveMidByteCondition :
    let b := { slaveBus .rx with sPath := .dma, sCap := 2, sCount := 1 }
    (b.live ∧ b.remoteOwns = true ∧ b.slaveEn = true ∧ b.sstate = .rx) ∧ (slaveBus (.tx .byte)).sstate.isTx = true ∧
    ((slaveBus .waitStop).live ∧ (slaveBus .waitStop).remoteOwns = true ∧ (slaveBus .waitStop).sstate ≠ .rx ∧
      (slaveBus .waitStop).sstate.isTx = false) := by
  refine ⟨⟨⟨rfl, rfl⟩, ?_⟩, rfl, ⟨rfl, rfl⟩, ?_⟩ <;> decide

theorem witness_slaveTimeouts :
    let b := { slaveBus .waitStop with timeout := 1 }
    let c := { slaveBus .rx with timeout := 1, mstate := .recover 0 }
    (b.live ∧ b.timeout ≠ 0 ∧ b.sstate = .waitStop ∧ b.mstate.holdsRemote = false) ∧ (slaveBus .rx).timeout = 0 ∧
    ¬((slaveBus .addr).sstate = .rx ∨ (slaveBus .addr).sstate = .waitStop ∨ (slaveBus .addr).sstate.isTx = true) ∧
    (c.live ∧ c.timeout ≠ 0 ∧ c.sstate = .rx ∧ c.mstate.holdsRemote = true) ∧
    ({ slaveBus .rx with sPath := .buf, sCap := 2, sCount := 1 } : Bus).cutPhase .buf = true ∧
    (slaveBus (.tx .dma)).cutPhase .dma = true ∧ (slaveBus (.tx .byte)).cutPhase .buf = false := by
  refine ⟨⟨⟨rfl, rfl⟩, ?_⟩, ?_, ?_, ⟨⟨rfl, rfl⟩, ?_⟩, ?_⟩ <;> decide

/-- A bus with both functions on; the words written switch off one, the other, both and none, and from reset they switch them on. -/
theorem witness_funCtrlWrite :
    let b := slaveBus (.tx .byte)
    Loc.find part (.addr 0x80) = some (.bus 0, 0x00) ∧ (stateOf b).buses[0]? = some b ∧ b.refused = false ∧ b.masterEn = true ∧
    b.slaveEn = true ∧ b.sstate.isTx = true ∧ (0x0002#32).getLsbD 0 = false ∧ (0x0001#32).getLsbD 1 = false ∧
    (0x8003#32).getLsbD 15 = true ∧ (State.reset.buses[0]?).map Bus.masterEn = some false ∧
    (State.reset.buses[0]?).map Bus.slaveEn = some false := by decide

theorem witness_isrWriteAndRead :
    Loc.find part (.addr 0x90) = some (.bus 0, 0x10) ∧ (stateOf idleBus).buses[0]? = some idleBus ∧ idleBus.refused = false := by
  decide

theorem witness_registerWritesStore :
    (stateOf idleBus).buses[0]? = some idleBus ∧ idleBus.refused = false ∧ (0x60FF#32) &&& ~~~0x60FF = 0 ∧ idleBus.cmd = 0 := by
  decide

theorem witness_registerReadsReport : (stateOf idleBus).buses[0]? = some idleBus ∧ idleBus.refused = false := by decide

/-- The last word of a window of 16 bytes, and the first one beyond it; a pool of 6 bytes, whose last word is cut; a receive phase that
has overwritten byte 0, read old and new. -/
theorem witness_poolWindow :
    ((stateOf idleBus).buses[0]? = some idleBus ∧ idleBus.refused = false ∧ idleBus.pool.length = part.bufSize ∧
      3 < ceilDiv part.bufSize 4 ∧ ceilDiv part.bufSize 4 ≤ 4) ∧
    1 < ceilDiv smallPart.bufSize 4 ∧ 4 * 1 + 1 < smallPart.bufSize ∧ ¬(4 * 1 + 2 < smallPart.bufSize) ∧
    idleBus.receiving .buf = false ∧
    (let c : Bus := { execBus 0x042 [.rx .buf false] (.moving 1 2) with rxOldPool := [(0, 7)] }
     (stateOf c).buses[0]? = some c ∧ c.refused = false ∧ c.pool.length = part.bufSize ∧ c.receiving .buf = true ∧
      (1#4).getLsbD 0 = true ∧ (1#4).getLsbD 1 = false) := by decide

theorem witness_refusedAccesses :
    (stateOf idleBus).buses[0]? = some idleBus ∧ idleBus.refused = false ∧ (16 ≠ 32) ∧ 0x02 % 4 ≠ 0 ∧
    (0x0100#32) &&& ~~~0x60FF ≠ 0 := by decide

theorem witness_refusedBusStays :
    let b := { idleBus with refused := true }
    (stateOf b).buses[0]? = some b ∧ b.refused = true ∧ (∃ t, (stateOf b).apply (.env 0 .s {}) = .next t) ∧
    ∀ u, Event.env 0 .s {} ≠ .blockReset u := ⟨rfl, rfl, ⟨_, rfl⟩, fun _ h => nomatch h⟩

theorem witness_interruptLines :
    let s := stateOf { idleBus with isr := 0x5, ier := 0x4 }
    s.buses.length ≤ 32 ∧ s.irq = true ∧ (stateOf idleBus).irq = false := by decide

theorem witness_resetValues :
    (stateOf holdBus).buses[0]? = some holdBus ∧ (State.resetFor part).buses.length = 1 := by decide

theorem witness_stepKeepsInvariant :
    let s := { stateOf holdBus with inputs := [.write (.space (.bus 0) 0x14) 32 0x020] }
    s.Inv ∧ ∃ t, step s = .next t ∧ (t.buses[0]?).map Bus.mstate = some (.exec [.stop] .fresh) := by
  refine ⟨⟨rfl, rfl, rfl, ?_⟩, _, rfl, rfl⟩
  intro b hb
  rw [List.mem_singleton.mp hb]
  exact holdBus_inv

/-- The ratio 33 of the fast path (V-C4's clock), and an ordinary one. -/
theorem witness_calculatorFieldBounds :
    (∃ t, calcNew 100000000 (fun _ => 100000000) 0 3100000 = some t ∧ 32 < t.ratio) ∧
    (∃ t, calcNew 100000000 (fun _ => 100000000) 0 3400000 = some t ∧ t.ratio ≤ 32) ∧ (0 : Word) &&& 0x000FF00F = 0 :=
  ⟨⟨_, rfl, by decide⟩, ⟨_, rfl, by decide⟩, rfl⟩

theorem witness_routeIsPartition :
    MCtx.recovering ≠ .cmdIssued ∧ MCtx.complete ≠ .cmdIssued ∧ MCtx.complete ≠ .recovering ∧ (0x15#32) &&& 0x80 = 0 := by decide

/-- One word for each clause. -/
theorem witness_masterDecoderOutcomes :
    Instr.mstartRxStopB.isMaster = true ∧ (0x7F#32) &&& 0x8 ≠ 0 ∧ ((0x40#32) &&& 0x8 = 0 ∧ (0x40#32) &&& 0x4040 ≠ 0) ∧
    ((0x20#32) &&& 0x4048 = 0 ∧ (0x20#32) &&& 0x20 ≠ 0) ∧ ((0x12#32) &&& 0x4068 = 0 ∧ (0x12#32) &&& 0x2 ≠ 0) ∧
    ((0x15#32) &&& 0x406A = 0 ∧ (0x15#32) &&& completionBit (code .mstartRxStopB) ≠ 0) ∧
    ((0x5#32) ≠ 0 ∧ (0x5#32) &&& ~~~intermediateBits (code .mstartRxStopB) = 0) ∧ (0x2000#32) &&& 0x2000 ≠ 0 ∧
    ((0x4000#32) &&& 0x2000 = 0 ∧ (0x4000#32) &&& 0x4040 ≠ 0) := by decide

theorem witness_dispatcherClearsWhatItRead :
    (route .write .idle 0x4).slave &&& 0x4 ≠ 0 ∧ (route .idle .cmdIssued 0x4).slave &&& 0x4 = 0 ∧
    HOp.arm ≠ .decide ∧ (∃ t, dispatcherOp 0 {} .arm {} { mode := .buf } (stateOf idleBus) = .next (t, [.wr 0x1C 0x000F0000, .cmd 0x080])) :=
  ⟨by decide, by decide, by decide, _, rfl⟩

/-- A read; a zero-length write; a write of one byte by the pool, and by BYTE mode once it has started. -/
theorem witness_nextCommandWord :
    (let t := Txn.start [goodMsg]
     t.msgs[t.idx]? = some goodMsg ∧ goodMsg.dir = .read ∧ t.varlenPending = false ∧ t.idx + 1 = t.msgs.length ∧
      min (t.lenEff - t.xfer) (part.chunk .byte) = t.lenEff - t.xfer) ∧
    (let m := { goodMsg with dir := .write, len := 0 }
     (Txn.start [m]).msgs[(Txn.start [m]).idx]? = some m ∧ (nextCmd part .buf (Txn.start [m])).2.1 = 0x023) ∧
    (let m := { goodMsg with dir := .write, buf := [7] }
     (Txn.start [m]).msgs[(Txn.start [m]).idx]? = some m ∧ m.len ≠ 0 ∧ (nextCmd part .buf (Txn.start [m])).2.1 = 0x063 ∧
      (nextCmd part .byte (Txn.start [m])).2.1 = 0x003 ∧
      (nextCmd part .byte { Txn.start [m] with started := true }).2.1 = 0x022) := by decide

end Sys2Proof.Tests
end

section

namespace Sys2Proof.Machine

/-! ## The invariant -/

variable {s t : State}

/-- Taking an input off the list touches nothing that the invariant speaks of. -/
theorem State.Inv.takeInput (h : s.Inv) : s.takeInput.Inv := by
  unfold State.takeInput
  split <;> exact ⟨h.buses, h.hosts, h.mem, h.bus⟩

/-- A call of an entry point changes the host's own state at most. -/
theorem State.Inv.callStep (n : Nat) (c : HostCall) (h : s.Inv) : (s.callStep n c).Inv := by
  unfold State.callStep
  split
  · exact h
  · exact h.onHost n _

theorem State.Inv.irqEntryStep (h : s.Inv) : s.irqEntryStep.Inv := by
  unfold State.irqEntryStep
  split
  · exact h.disp _
  · exact h

/-- The slave's internal step, which leaves memory alone. -/
theorem State.Inv.slaveStep (n : Nat) (h : s.Inv) :
    (s.busStep n fun b => b.slaveStep.map fun b2 => (b2, s.mem)).Inv := by
  refine h.busStep fun b r hr hb => ?_
  obtain ⟨b2, hstep, rfl⟩ := Option.map_eq_some_iff.1 hr
  exact ⟨hb.slaveStep hstep, h.mem⟩

/-- Every input keeps the invariant, one agent after the other. -/
theorem State.Inv.apply {e : Event} (he : s.apply e = .next t) (h : s.Inv) : t.Inv := by
  cases e with
  | read loc width d => exact h.hostRead he
  | write loc width v => exact h.hostWrite he
  | memRead a old => cases he; exact h.rdata _
  | memWrite a v => cases he; exact h.hostMemWrite a v
  | engine n d pk => cases he; exact h.busStep fun b r hr hb => hb.masterStep hr h.mem
  | slave n => cases he; exact h.slaveStep n
  | env n ev pk => cases he; exact h.busStep fun b r hr hb => hb.envStep hr h.mem
  | blockReset u => cases he; exact h.blockReset u
  | boot => exact h.writeGlobal he
  | call n c => cases he; exact h.callStep n c
  | submitter n hd => exact h.submitterStep he
  | hostTimeout n => cases he; exact h.hostTimeoutStep n
  | irqEntry => cases he; exact h.irqEntryStep
  | dispatcher hd => exact h.dispatcherStep he

end Sys2Proof.Machine

end

section

open Sys2Proof Sys2Proof.Machine

/-- Settles O54: the next input's agent keeps the invariant (`State.Inv.apply`), and taking the input touches no part of it. -/
theorem stepKeepsInvariant : Obligations.StepKeepsInvariant :=
  fun _ _ h hstep => h.takeInput.apply hstep

end

section

namespace Sys2Proof.Laws

open Sys2Proof Sys2Proof.Machine

/-! ## Inputs that reach no bus -/

theorem callStep_buses (s : State) (n : Nat) (k : HostCall) : (s.callStep n k).buses = s.buses := by
  unfold State.callStep
  split <;> rfl

theorem irqEntryStep_buses (s : State) : s.irqEntryStep.buses = s.buses := by
  unfold State.irqEntryStep
  split <;> rfl

theorem takeInput_buses (s : State) : s.takeInput.buses = s.buses := by
  unfold State.takeInput
  split <;> rfl

/-! ## Timeout bits -/

variable {p : Params} {mem mem2 : Memory} {b c : Bus} {rest : List Phase} {pk : SrcPick}

theorem isr_addrStep {r : TxResult} (h : b.addrStep p rest r pk = some c) : SetsMask b c := by
  unfold Bus.addrStep at h
  obtain ⟨hok, h⟩ := Option.ite_none_right_eq_some.1 h
  cases h
  rw [Bool.and_eq_true] at hok
  cases r with
  | ack =>
    refine setsMask_of (b.addrAckStatus p rest) (by simp) ?_ ?_ <;>
      · unfold Bus.addrAckStatus
        split <;> decide
  | nak => exact setsMask_of maskTxNak (by simp)
  | fault f => exact setsMask_fault hok.2 rfl (by simp)

theorem isr_txStep {path : Path} {pr : Progress} {r : TxResult} (h : b.txStep p mem path pr rest r pk = some c) :
    SetsMask b c := by
  unfold Bus.txStep at h
  split at h
  · split at h
    · cases h
      exact setsMask_same rfl
    · next hbegin => exact (isr_txMove h).of (isr_beginTx hbegin)
  · exact isr_txMove h
  · cases h

theorem isr_rxStep {path : Path} {last : Bool} {pr : Progress} {r : RxResult}
    (h : b.rxStep p mem path last pr rest r pk = some (c, mem2)) : SetsMask b c := by
  unfold Bus.rxStep at h
  split at h
  · split at h
    · cases h
      exact setsMask_same rfl
    · next hbegin => exact (isr_rxMove h).of (isr_beginRx hbegin)
  · exact isr_rxMove h
  · cases h

/-- A step that leaves memory alone. -/
theorem setsMask_map {o : Option Bus} (h : o.map (·, mem) = some (c, mem2)) (ho : ∀ c, o = some c → SetsMask b c) :
    SetsMask b c := by
  obtain ⟨c', hc, he⟩ := Option.map_eq_some_iff.1 h
  cases he
  exact ho _ hc

theorem isr_phaseStep {ph : Phase} {pr : Progress} {d : Draw} (h : b.phaseStep p mem ph pr rest d pk = some (c, mem2)) :
    SetsMask b c := by
  unfold Bus.phaseStep at h
  split at h
  · exact setsMask_map h fun _ => isr_addrStep
  · cases h
  · cases h
  · exact setsMask_map h fun _ => isr_startStep
  · exact setsMask_map (Option.ite_none_right_eq_some.1 h).2 fun _ => isr_txStep
  · exact isr_rxStep (Option.ite_none_right_eq_some.1 h).2
  · exact setsMask_map h fun _ => isr_stopStep
  · cases h

/-- An engine step sets the bits of one status mask, a timeout's only with TIMEOUT on. -/
theorem isr_masterStep {d : Draw} (h : b.masterStep p mem d pk = some (c, mem2)) : SetsMask b c := by
  unfold Bus.masterStep at h
  obtain ⟨-, h⟩ := Option.ite_none_left_eq_some.1 h
  split at h
  · exact isr_phaseStep h
  · exact setsMask_map h fun _ => isr_recoverStep
  · cases h

/-- A slave timeout is admitted with TIMEOUT on only (R378). -/
theorem isr_slaveTimeout {l : Line} (h : b.timeoutMay = true) : SetsMask b (b.slaveTimeout l) := by
  simp only [Bus.timeoutMay, Bool.and_eq_true] at h
  refine setsMask_timeout l.timeoutBit ?_ h.1.1 (by cases l <;> decide)
  simp [Bus.slaveTimeout]

theorem isr_remoteStep {e : EnvEvent} {r : Bus × Memory} (h : b.remoteStep p mem e pk = some r) : SetsMask b r.1 := by
  cases e with
  | s => cases (Option.ite_none_right_eq_some.1 h).2; exact (isr_slaveStart _).of ⟨rfl, rfl⟩
  | sr => cases (Option.ite_none_right_eq_some.1 h).2; exact isr_slaveStart b
  | p => cases (Option.ite_none_right_eq_some.1 h).2; exact (isr_slaveStop _).of ⟨rfl, rfl⟩
  | wbyte d => cases (Option.ite_none_right_eq_some.1 h).2; exact isr_slaveWrite p mem d b
  | rbyte a => cases (Option.ite_none_right_eq_some.1 h).2; exact isr_slaveRead p mem a pk b
  | mid k => cases (Option.ite_none_right_eq_some.1 h).2; exact (isr_slaveMid k _).of ⟨rfl, rfl⟩
  | timeout l =>
    obtain ⟨hok, h⟩ := Option.ite_none_right_eq_some.1 h
    cases h
    exact isr_slaveTimeout hok
  | hold l => cases h
  | release l => cases h

/-- So does a step of the environment. -/
theorem isr_envStep {e : EnvEvent} {r : Bus × Memory} (h : b.envStep p mem e pk = some r) : SetsMask b r.1 := by
  unfold Bus.envStep at h
  obtain ⟨-, h⟩ := Option.ite_none_left_eq_some.1 h
  split at h
  · cases h
    exact setsMask_same rfl
  · cases h
    exact setsMask_same rfl
  · exact isr_remoteStep (Option.ite_none_left_eq_some.1 h).2

/-- What holds of ISR where TIMEOUT is 0: no timeout bit rises. -/
def NoTimeoutRise (b c : Bus) : Prop := b.timeout = 0#32 → c.isr &&& ~~~b.isr &&& 0x4040#32 = 0#32

theorem noTimeoutRise_of_same (h : c.isr = b.isr) : NoTimeoutRise b c := by
  intro _
  simp [h]

theorem noTimeoutRise_of_zero (h : c.isr = 0) : NoTimeoutRise b c := by
  intro _
  simp [h]

/-- A clear makes no bit rise. -/
theorem noTimeoutRise_of_cleared (v : Word) (h : c.isr = b.isr &&& v) : NoTimeoutRise b c := by
  intro _
  rw [h, BitVec.and_comm b.isr v, BitVec.and_assoc v]
  simp

/-- The bits that a bus step sets are no timeout bits. -/
theorem SetsMask.noTimeoutRise (h : SetsMask b c) : NoTimeoutRise b c := by
  intro h0
  obtain ⟨w, -, hc, hw⟩ := h
  have hrise : (b.isr ||| w) &&& ~~~b.isr &&& 0x4040#32 = (w &&& 0x4040#32) &&& ~~~b.isr := by
    ext i hi
    simp only [BitVec.getElem_and, BitVec.getElem_or, BitVec.getElem_not]
    cases b.isr[i] <;> simp
  rw [hc, hrise, hw h0]
  simp

theorem oneBus_noTimeoutRise {s t : State} {n m : Nat} {R : Bus → Bus → Prop} (h : OneBus s t n R)
    (hR : ∀ b c, R b c → NoTimeoutRise b c) (hb : s.buses[m]? = some b) (hc : t.buses[m]? = some c) : NoTimeoutRise b c :=
  (h.mono hR).all (fun _ => noTimeoutRise_of_same rfl) hb hc

theorem busStep_noTimeoutRise {s : State} {n m : Nat} {f : Bus → Option (Bus × Memory)}
    (hf : ∀ b r, f b = some r → SetsMask b r.1) (hb : s.buses[m]? = some b) (hc : (s.busStep n f).buses[m]? = some c) :
    NoTimeoutRise b c :=
  oneBus_noTimeoutRise (oneBus_busStep (fun _ => setsMask_same rfl) hf) (fun _ _ => SetsMask.noTimeoutRise) hb hc

theorem noTimeoutRise_of_buses {s t : State} {m : Nat} (h : t.buses = s.buses) (hb : s.buses[m]? = some b)
    (hc : t.buses[m]? = some c) : NoTimeoutRise b c := by
  rw [h, hb] at hc
  cases hc
  exact noTimeoutRise_of_same rfl

theorem SubIsr.noTimeoutRise {op : HOp} (h : SubIsr op b c) : NoTimeoutRise b c := by
  rcases h with h | ⟨v, -, h⟩
  · exact noTimeoutRise_of_same h
  · exact noTimeoutRise_of_cleared _ h

theorem DispIsr.noTimeoutRise {op : HOp} (h : DispIsr p op b c) : NoTimeoutRise b c := by
  rcases h with h | ⟨-, -, h⟩
  · exact h.noTimeoutRise
  · exact noTimeoutRise_of_zero h

/-- No input makes a timeout bit rise on a bus whose TIMEOUT is 0. -/
theorem apply_noTimeoutRise {s t : State} {e : Event} {m : Nat} (h : s.apply e = .next t) (hb : s.buses[m]? = some b)
    (hc : t.buses[m]? = some c) : NoTimeoutRise b c := by
  cases e with
  | read loc width d =>
    rcases hostRead_isr h hb hc with hisr | ⟨-, -, hisr⟩
    · exact noTimeoutRise_of_same hisr
    · exact noTimeoutRise_of_zero hisr
  | write loc width v =>
    rcases hostWrite_isr h hb hc with hisr | ⟨-, hisr⟩
    · exact noTimeoutRise_of_same hisr
    · exact noTimeoutRise_of_cleared _ hisr
  | memRead a old => cases h; exact noTimeoutRise_of_buses rfl hb hc
  | memWrite a v => cases h; exact noTimeoutRise_of_same (isr_hostMemWrite hb hc)
  | engine n d pk => cases h; exact busStep_noTimeoutRise (fun _ _ hr => isr_masterStep hr) hb hc
  | slave n =>
    cases h
    exact busStep_noTimeoutRise (fun _ _ hr => setsMask_map hr fun _ hstep => setsMask_same (isr_slaveStep hstep)) hb hc
  | env n ev pk => cases h; exact busStep_noTimeoutRise (fun _ _ hr => isr_envStep hr) hb hc
  | blockReset u => cases h; exact noTimeoutRise_of_zero (isr_resetBuses _ _ _ _ _ hc)
  | boot => exact noTimeoutRise_of_buses (writeGlobal_buses h) hb hc
  | call n k => cases h; exact noTimeoutRise_of_buses (callStep_buses s n k) hb hc
  | submitter n hd =>
    rcases submitterStep_isr h with hsame | ⟨-, op, -, -, -, hone⟩
    · exact noTimeoutRise_of_buses hsame hb hc
    · exact oneBus_noTimeoutRise hone (fun _ _ => SubIsr.noTimeoutRise) hb hc
  | hostTimeout n => cases h; exact noTimeoutRise_of_buses (hostTimeout_buses s n) hb hc
  | irqEntry => cases h; exact noTimeoutRise_of_buses (irqEntryStep_buses s) hb hc
  | dispatcher hd =>
    rcases dispatcherStep_isr h with hsame | ⟨d, op, -, -, -, hone⟩
    · exact noTimeoutRise_of_buses hsame hb hc
    · exact oneBus_noTimeoutRise hone (fun _ _ => DispIsr.noTimeoutRise) hb hc

end Sys2Proof.Laws

end

section

open Sys2Proof Sys2Proof.Machine Sys2Proof.Laws

/-- Settles O32: a bus step sets a timeout bit only where TIMEOUT is on, and every other input only clears status bits. -/
theorem timeoutsOffNeverSet : Obligations.TimeoutsOffNeverSet :=
  fun s _ _ _ _ hstep hb hc h0 => apply_noTimeoutRise hstep ((takeInput_buses s).symm ▸ hb) hc h0

end

section

namespace Sys2Proof.Laws

open Sys2Proof Sys2Proof.Machine

/-! ## Register accesses -/

variable {s : State} {n : Nat} {b : Bus}

/-- The stage of a FUN_CTRL write for MASTER_EN cleared, field by field. -/
theorem ite_masterOff (q : Bool) (b : Bus) :
    (if q then b.masterOff else b) =
      { b with mDrv := if q then {} else b.mDrv, own := if q then false else b.own, cmd := if q then 0 else b.cmd,
               mstate := if q then .off else b.mstate } := by
  cases q <;> rfl

/-- The stage for SLAVE_EN cleared. -/
theorem ite_slaveOff (q : Bool) (b : Bus) :
    (if q then b.slaveOff else b) =
      { b with cmd := if q && b.sstate.isTx then 0 else b.cmd, sDrv := if q then {} else b.sDrv,
               sstate := if q then .off else b.sstate } := by
  cases q
  · rfl
  · exact slaveOff_eq b

/-- The stage for the latch. -/
theorem ite_latchOff (q : Bool) (b : Bus) :
    (if q then { b with busBusy := false } else b) = { b with busBusy := if q then false else b.busBusy } := by
  cases q <;> rfl

/-- The stage for MASTER_EN set. -/
theorem ite_masterIdle (q : Bool) (b : Bus) :
    (if q then { b with mstate := .idle } else b) = { b with mstate := if q then .idle else b.mstate } := by
  cases q <;> rfl

/-- The stage for SLAVE_EN set. -/
theorem ite_slaveIdle (q : Bool) (b : Bus) :
    (if q then { b with sstate := .idle } else b) = { b with sstate := if q then .idle else b.sstate } := by
  cases q <;> rfl

/-- A FUN_CTRL write field by field, over both functions' enables before and after (R35). -/
theorem writeFunCtrl_fields (m sl d : Bool) (b : Bus) :
    b.writeFunCtrl m sl d =
      { b with masterEn := m, slaveEn := sl, multiMasterDis := d,
               cmd := if (b.masterEn = true ∧ m = false) ∨ (b.slaveEn = true ∧ sl = false) ∧ b.sstate.isTx = true then 0 else b.cmd,
               mstate := if b.masterEn = true ∧ m = false then .off else if b.masterEn = false ∧ m = true then .idle else b.mstate,
               own := if b.masterEn = true ∧ m = false then false else b.own,
               mDrv := if b.masterEn = true ∧ m = false then {} else b.mDrv,
               sstate := if b.slaveEn = true ∧ sl = false then .off else if b.slaveEn = false ∧ sl = true then .idle else b.sstate,
               sDrv := if b.slaveEn = true ∧ sl = false then {} else b.sDrv,
               busBusy := if m = false ∧ sl = false then false else b.busBusy } := by
  unfold Bus.writeFunCtrl
  extract_lets b1 b2 b3 b4 b5
  have h1 : b1 = _ := ite_masterOff _ _
  have h2 : b2 = _ := ite_slaveOff _ _
  have h3 : b3 = _ := ite_latchOff _ _
  have h4 : b4 = _ := ite_masterIdle _ _
  have h5 : b5 = _ := ite_slaveIdle _ _
  clear_value b1 b2 b3 b4 b5
  simp only [h5, h4, h3, h2, h1, Bus.mk.injEq, true_and, and_true, Bool.and_eq_true, Bool.not_eq_true']
  refine ⟨?cmd, ?mstate, ?sstate⟩
  case cmd => by_cases hOff : b.masterEn = true ∧ m = false <;> simp [hOff]
  case mstate => cases b.masterEn <;> cases m <;> rfl
  case sstate => cases b.slaveEn <;> cases sl <;> rfl

/-- A write at a fixed offset of the register block, CMD's apart. -/
theorem hostWrite_space {off : Nat} {v : Word} (hb : s.buses[n]? = some b) (hr : b.refused = false) (ho : off % 4 = 0 := by decide)
    (h1 : off < 0x40 := by decide) (h2 : off ≠ 0x14 := by decide) :
    s.hostWrite (.space (.bus n) off) 32 v = .next (s.setBus n (b.writeReg off v)) :=
  hostWrite_reg rfl hb hr ho h1 h2

/-- A reserved offset: a write marks the bus, and a read has no word to return (R33, R62). -/
theorem reserved_refused {off : Nat} (h : off ∈ [0x2C, 0x30, 0x34, 0x38, 0x3C]) (v r : Word) (b : Bus) :
    b.writeReg off v = b.refuse ∧ b.regWord off r = none := by
  simp only [List.mem_cons, List.not_mem_nil, or_false] at h
  rcases h with rfl | rfl | rfl | rfl | rfl <;> exact ⟨rfl, rfl⟩

/-- A read where there is no word to return marks the bus. -/
theorem hostRead_reserved {off : Nat} {d : ReadDraw} (hb : s.buses[n]? = some b) (hr : b.refused = false) (ho : off % 4 = 0)
    (h1 : off < 0x40) (hw : b.regWord off d.bits = none) :
    s.hostRead (.space (.bus n) off) 32 d = .next (s.setBus n b.refuse) := by
  simp [State.hostRead, State.mmioRead, Loc.find, State.readBusReg, busFor_ok hb hr, andThen, accessOk, ho, Nat.not_le.2 h1, hw,
    State.refuseBus]

/-- An access of another width, or at an offset that is no multiple of 4, marks the bus (R101). -/
theorem badAccess_refused {width off : Nat} (v : Word) (d : ReadDraw) (hb : s.buses[n]? = some b) (hr : b.refused = false)
    (hbad : accessOk width off = false) :
    s.hostWrite (.space (.bus n) off) width v = .next (s.setBus n b.refuse) ∧
      s.hostRead (.space (.bus n) off) width d = .next (s.setBus n b.refuse) ∧
      s.hostWrite (.space (.pool n) off) width v = .next (s.setBus n b.refuse) ∧
      s.hostRead (.space (.pool n) off) width d = .next (s.setBus n b.refuse) := by
  have hbus := busFor_ok hb hr
  refine ⟨?_, ?_, ?_, ?_⟩
  · simp [State.hostWrite, Loc.find, State.writeBusReg, hbus, andThen, hbad, State.refuseBus]
  · simp [State.hostRead, State.mmioRead, Loc.find, State.readBusReg, hbus, andThen, hbad, State.refuseBus]
  · simp [State.hostWrite, Loc.find, State.writePool, hbus, andThen, hbad, State.refuseBus]
  · simp [State.hostRead, State.mmioRead, Loc.find, State.readPool, hbus, andThen, hbad, State.refuseBus]

/-- The record of older sources grows only while a command is pending (R118). -/
theorem stale_of_not_pending {st : Stale} (hc : b.cmd = 0) (htx : b.sstate.isTx = false) :
    (if b.cmdPending then st else b.stale) = b.stale := by
  simp [Bus.cmdPending, hc, htx]

/-! ## Register fields, as read -/

/-- A bit that a mask implements. -/
theorem mixBits_getLsbD {m a r : Word} {i : Nat} (hi : m.getLsbD i = true) : (mixBits m a r).getLsbD i = a.getLsbD i := by
  simp [mixBits, hi]

theorem bitAt_getElem {i k : Nat} (v : Bool) (hk : k < 32) : (bitAt i v)[k] = (v && decide (k = i)) := by
  cases v
  · simp [bitAt]
  · grind [bitAt]

theorem bitAt_masked {i : Nat} {m : Word} (v : Bool) (hm : 1#32 <<< i &&& m = 0) : bitAt i v &&& m = 0 := by
  cases v
  · simp [bitAt]
  · exact hm

theorem funCtrlWord_bits (b : Bus) :
    b.funCtrlWord.getLsbD 0 = b.masterEn ∧ b.funCtrlWord.getLsbD 1 = b.slaveEn ∧ b.funCtrlWord.getLsbD 15 = b.multiMasterDis := by
  simp [Bus.funCtrlWord, bitAt_getElem]

/-- The command bits lie below the zeros of CMD. -/
theorem cmd_masked (c : BitVec 12) : c.setWidth 32 &&& 0xFFF8F000#32 = 0#32 := by
  have hlow : ∀ i < 12, (0xFFF8F000#32).getLsbD i = false := by decide
  refine BitVec.eq_of_getLsbD_eq fun i _ => ?_
  by_cases h : i < 12
  · simp [hlow i h]
  · simp [BitVec.getLsbD_of_ge c i (by omega)]

theorem cmdWord_fields (b : Bus) :
    b.cmdWord.extractLsb' 0 12 = b.cmd ∧ b.cmdWord.getLsbD 16 = b.busBusy ∧ b.cmdWord.getLsbD 17 = b.sda ∧
      b.cmdWord.getLsbD 18 = b.scl ∧ b.cmdWord &&& 0xFFF8F000 = 0 := by
  unfold Bus.cmdWord
  refine ⟨?_, by simp [bitAt_getElem], by simp [bitAt_getElem], by simp [bitAt_getElem], ?_⟩
  · ext i hi
    have hne : i ≠ 16 ∧ i ≠ 17 ∧ i ≠ 18 ∧ i < 32 := by omega
    simp [bitAt_getElem, hne, hi]
  · exact or_masked (or_masked (or_masked (cmd_masked b.cmd) (bitAt_masked _ (by decide))) (bitAt_masked _ (by decide)))
      (bitAt_masked _ (by decide))

theorem bufCtrlWord_fields (b : Bus) :
    b.bufCtrlWord.extractLsb' 8 8 = b.txEnd ∧ b.bufCtrlWord.extractLsb' 16 8 = b.rxEnd ∧
      b.bufCtrlWord.extractLsb' 24 8 = b.bufCount := by
  unfold Bus.bufCtrlWord
  refine ⟨?_, ?_, ?_⟩ <;> (ext i hi; grind)

theorem byteBufWord_fields (b : Bus) :
    b.byteBufWord.extractLsb' 0 8 = b.txByte ∧ b.byteBufWord.extractLsb' 8 8 = b.rxByte := by
  unfold Bus.byteBufWord
  refine ⟨?_, ?_⟩ <;> (ext i hi; grind)

end Sys2Proof.Laws

end

section

open Sys2Proof Sys2Proof.Machine Sys2Proof.Laws

/-- Settles O45: the write's effect field by field is `writeFunCtrl_fields`. -/
theorem funCtrlWrite : Obligations.FunCtrlWrite := by
  intro s loc n b v hl hb hr m sl mOff sOff c
  refine ⟨?_, fun hm hs => ?_⟩
  · rw [hostWrite_reg hl hb hr (by decide) (by decide) (by decide), Bus.writeReg, writeFunCtrl_fields]
  · simp [c, Bus.drvScl, Bus.drvSda, hm, hs, Drive.and]

/-- Settles O46: both accesses reach the register (`hostWrite_reg`, `hostRead_reg`), whose write is `Bus.clearStatus`. -/
theorem isrWriteAndRead : Obligations.IsrWriteAndRead := by
  intro s loc n b hl hb hr
  refine ⟨fun v => hostWrite_reg hl hb hr (by decide) (by decide) (by decide), fun d => ?_⟩
  rw [hostRead_reg (w := b.isr) hl hb hr (by decide) (by decide) rfl]
  cases hclear : s.params.statusClearOnRead <;> simp [Bus.afterRead, hclear]

/-- Settles O47: each write is `Bus.writeReg` at its offset; older sources are kept only for a pending command. -/
theorem registerWritesStore : Obligations.RegisterWritesStore := by
  intro s n b v hb hr put
  refine ⟨hostWrite_space hb hr, hostWrite_space hb hr, fun hv => ?_, hostWrite_space hb hr,
    ⟨_, hostWrite_space hb hr, stale_of_not_pending⟩, ⟨_, hostWrite_space hb hr, stale_of_not_pending⟩,
    ⟨_, hostWrite_space hb hr, stale_of_not_pending⟩, ⟨_, hostWrite_space hb hr, stale_of_not_pending⟩, rfl⟩
  have hier : b.writeIer v = { b with ier := v } := if_neg (by simpa [hasAny, isrImpl] using hv)
  exact (hostWrite_space hb hr).trans (by rw [Bus.writeReg, hier])

/-- Settles O48: each read returns `Bus.regWord` at its offset, and a mask keeps the implemented fields apart from the draws. -/
theorem registerReadsReport : Obligations.RegisterReadsReport := by
  intro s n b d hb hr reads
  have hread {off : Nat} {w : Word} {ok : Word → Prop} (hw : b.regWord off d.bits = some w) (hok : ok w)
      (ho : off % 4 = 0 := by decide) (h1 : off < 0x40 := by decide) (h2 : off ≠ 0x10 := by decide) : reads off ok :=
    ⟨w, hostRead_noEffect hb hr ho h1 h2 hw, hok⟩
  obtain ⟨hm, hs, hd⟩ := funCtrlWord_bits b
  obtain ⟨htx, hrx, hcount⟩ := bufCtrlWord_fields b
  obtain ⟨htb, hrb⟩ := byteBufWord_fields b
  refine ⟨hread rfl ⟨?_, ?_, ?_⟩, hread rfl (mixBits_and _ _ _), hread rfl rfl, hread rfl rfl, hread rfl (cmdWord_fields b),
    hread rfl ?_, hread rfl ⟨?_, ?_, ?_⟩, hread rfl ⟨?_, ?_⟩, hread rfl rfl, hread rfl rfl, rfl⟩
  · exact (mixBits_getLsbD (by decide)).trans hm
  · exact (mixBits_getLsbD (by decide)).trans hs
  · exact (mixBits_getLsbD (by decide)).trans hd
  · exact (mixBits_field _ _ _ _ _ (by decide)).trans ((BitVec.extractLsb'_setWidth_of_le (by decide)).trans BitVec.extractLsb'_eq_self)
  · exact (mixBits_field _ _ _ _ _ (by decide)).trans htx
  · exact (mixBits_field _ _ _ _ _ (by decide)).trans hrx
  · exact (mixBits_field _ _ _ _ _ (by decide)).trans hcount
  · exact (mixBits_field _ _ _ _ _ (by decide)).trans htb
  · exact (mixBits_field _ _ _ _ _ (by decide)).trans hrb

/-- Settles O52: GISR holds one bit per bus (`gisrFrom_bit`), so it is 0 exactly when no bus's line is up. -/
theorem interruptLines : Obligations.InterruptLines := by
  intro s hlen
  have hbit : ∀ n < 32, s.gisr.getLsbD n = true ↔ ∃ b, s.buses[n]? = some b ∧ b.isr &&& b.ier ≠ 0 := by
    intro n hn
    simpa [irq_iff, State.gisr] using gisrFrom_bit s.buses 0 n hn (by omega)
  have hirq : s.irq = true ↔ ∃ b ∈ s.buses, b.isr &&& b.ier ≠ 0 := by
    simp [State.irq, irq_iff]
  refine ⟨hbit, hirq, ?_, fun d => rfl, fun v => rfl⟩
  rw [hirq]
  constructor
  · rintro ⟨b, hb, hset⟩ hzero
    obtain ⟨n, hn, rfl⟩ := List.mem_iff_getElem.1 hb
    have hbitn := (hbit n (by omega)).2 ⟨_, List.getElem?_eq_getElem hn, hset⟩
    simp [hzero] at hbitn
  · intro hne
    by_contra hnone
    refine hne (BitVec.eq_of_getLsbD_eq fun n hn => ?_)
    refine (Bool.eq_false_iff.2 fun hbitn => ?_).trans BitVec.getLsbD_zero.symm
    obtain ⟨b, hb, hset⟩ := (hbit n hn).1 hbitn
    exact hnone ⟨b, List.mem_of_getElem? hb, hset⟩

/-- Settles O50: a bad access never reaches the register, a reserved offset has none, and IER refuses by its mask. -/
theorem refusedAccesses : Obligations.RefusedAccesses := by
  intro s n b v d hb hr mark
  refine ⟨fun width off hbad => badAccess_refused v d hb hr ?_, fun off hoff => ?_, fun hv => ?_⟩
  · rcases hbad with h | h <;> simp [accessOk, h]
  · obtain ⟨ho, h1, h2⟩ : off % 4 = 0 ∧ off < 0x40 ∧ off ≠ 0x14 := by revert off; decide
    obtain ⟨hwrite, hread⟩ := reserved_refused hoff v d.bits b
    exact ⟨(hostWrite_space hb hr ho h1 h2).trans (by rw [hwrite, Bus.refuse]), hostRead_reserved hb hr ho h1 hread⟩
  · have hier : b.writeIer v = { b with refused := true } := if_pos (by simpa [hasAny, isrImpl] using hv)
    exact (hostWrite_space hb hr).trans (by rw [Bus.writeReg, hier])

end

section

namespace Sys2Proof.Laws

open Sys2Proof Sys2Proof.Machine

/-! ## Refused buses -/

/-- The buses are as they were, or one that carries no refusal mark is replaced. -/
def LiveBusChanged (s t : State) : Prop :=
  t.buses = s.buses ∨ ∃ n b c, s.buses[n]? = some b ∧ b.refused = false ∧ t.buses = s.buses.set n c

variable {s t : State} {n : Nat} {b : Bus}

/-- So a bus that carries the mark is as it was. -/
theorem LiveBusChanged.refused_same (h : LiveBusChanged s t) (hb : s.buses[n]? = some b) (hr : b.refused = true) :
    t.buses[n]? = some b := by
  rcases h with h | ⟨m, x, c, hx, hlive, h⟩
  · rw [h, hb]
  · have hne : m ≠ n := by
      rintro rfl
      rw [hb] at hx
      cases hx
      simp [hr] at hlive
    rw [h, List.getElem?_set_ne hne, hb]

theorem liveBusChanged_setBus (c : Bus) (hb : s.buses[n]? = some b) (hr : b.refused = false) :
    LiveBusChanged s (s.setBus n c) :=
  .inr ⟨n, b, c, hb, hr, rfl⟩

/-- A command replaces the selected bus at most. -/
theorem onSel_buses {f : Bus → Bus} (h : s.onSel f = .next t) : ∃ c, t.buses = s.buses.set s.sel c := by
  unfold State.onSel at h
  split at h
  · cases h
  · cases h
    exact ⟨_, rfl⟩

theorem exec_buses {i : Instr} (h : exec i s = .next t) : t.buses = s.buses ∨ ∃ c, t.buses = s.buses.set s.sel c := by
  cases i
  case cmdNop => cases h; exact .inl rfl
  all_goals exact .inr (onSel_buses h)

theorem writeBusReg_live {w off : Nat} {v : Word} (h : s.writeBusReg n w off v = .next t) : LiveBusChanged s t := by
  obtain ⟨b, hb, h⟩ := andThen_next h
  obtain ⟨hb, hr⟩ := busFor_next hb
  split at h
  · cases h; exact liveBusChanged_setBus _ hb hr
  · split at h
    · cases h
    · split at h
      · unfold State.writeCmd at h
        split at h
        · cases h; exact liveBusChanged_setBus _ hb hr
        · exact (exec_buses h).imp id fun ⟨c, hc⟩ => ⟨n, b, c, hb, hr, hc⟩
      · cases h; exact liveBusChanged_setBus _ hb hr

theorem readBusReg_live {w off : Nat} {d : ReadDraw} {r : Option Word × State} (h : s.readBusReg n w off d = .next r) :
    LiveBusChanged s r.2 := by
  obtain ⟨b, hb, h⟩ := andThen_next h
  obtain ⟨hb, hr⟩ := busFor_next hb
  split at h
  · cases h; exact liveBusChanged_setBus _ hb hr
  · split at h
    · cases h
    · split at h <;> cases h <;> exact liveBusChanged_setBus _ hb hr

theorem writePool_live {w off : Nat} {v : Word} (h : s.writePool n w off v = .next t) : LiveBusChanged s t := by
  obtain ⟨b, hb, h⟩ := andThen_next h
  obtain ⟨hb, hr⟩ := busFor_next hb
  split at h <;> cases h <;> exact liveBusChanged_setBus _ hb hr

theorem readPool_live {w off : Nat} {d : ReadDraw} {r : Option Word × State} (h : s.readPool n w off d = .next r) :
    LiveBusChanged s r.2 := by
  obtain ⟨b, hb, h⟩ := andThen_next h
  obtain ⟨hb, hr⟩ := busFor_next hb
  split at h <;> cases h
  · exact liveBusChanged_setBus _ hb hr
  · exact .inl rfl

theorem hostWrite_live {loc : Loc} {w : Nat} {v : Word} (h : s.hostWrite loc w v = .next t) : LiveBusChanged s t := by
  unfold State.hostWrite at h
  split at h
  · cases h
  · exact writeBusReg_live h
  · exact writePool_live h
  · exact .inl (writeGlobal_buses h)

theorem hostRead_live {loc : Loc} {w : Nat} {d : ReadDraw} (h : s.hostRead loc w d = .next t) : LiveBusChanged s t := by
  obtain ⟨r, hr, h⟩ := andThen_next h
  have hlive : LiveBusChanged s r.2 := by
    unfold State.mmioRead at hr
    split at hr
    · cases hr
    · exact readBusReg_live hr
    · exact readPool_live hr
    · exact .inl (congrArg _ (readGlobal_state hr))
  split at h <;> cases h <;> exact hlive

theorem opWrite_live {off : Nat} {v : Word} {r : State × List HOp} (h : opWrite n off v s = .next r) :
    LiveBusChanged s r.1 := by
  obtain ⟨t, ht, h⟩ := andThen_next h
  cases h
  exact writeBusReg_live ht

theorem opPool_live {off : Nat} {v : Word} {r : State × List HOp} (h : andThen (s.writePool n 32 off v) quiet = .next r) :
    LiveBusChanged s r.1 := by
  obtain ⟨t, ht, h⟩ := andThen_next h
  cases h
  exact writePool_live ht

theorem opRead_live {off : Nat} {d : ReadDraw} {k : Word → State → OpResult} {r : State × List HOp}
    (h : opRead n off d s k = .next r) (hk : ∀ w s2, k w s2 = .next r → r.1.buses = s2.buses) : LiveBusChanged s r.1 := by
  obtain ⟨x, hx, h⟩ := andThen_next h
  have hlive := readBusReg_live hx
  unfold LiveBusChanged at hlive ⊢
  rwa [hk _ _ h]

theorem submitterOp_live {hd : HostDraw} {op : HOp} {h : HostBus} {r : State × List HOp}
    (he : submitterOp n hd op h s = .next r) : LiveBusChanged s r.1 := by
  cases op <;> simp only [submitterOp] at he
  case wr | cmd => exact opWrite_live he
  case wrFun | issue => exact (opWrite_live he : LiveBusChanged (s.onHost n _) r.1)
  case pw => exact opPool_live he
  case precheck | expiryLook | recLook => exact opRead_live he fun _ _ hk => by cases hk; rfl
  all_goals cases he; exact .inl rfl

theorem dispatcherOp_live {hd : HostDraw} {op : HOp} {d : Disp} {h : HostBus} {r : State × List HOp}
    (he : dispatcherOp n hd op d h s = .next r) : LiveBusChanged s r.1 := by
  cases op <;> simp only [dispatcherOp] at he
  case wr | cmd => exact opWrite_live he
  case issue => exact (opWrite_live he : LiveBusChanged (s.onHost n _) r.1)
  case pw => exact opPool_live he
  case rdIsr | rdByte | rdCount => exact opRead_live he fun _ _ hk => by cases hk; rfl
  case rdPool w =>
    obtain ⟨x, hx, he⟩ := andThen_next he
    cases he
    exact readPool_live hx
  all_goals cases he; exact .inl rfl

theorem submitterStep_live {hd : HostDraw} (h : s.submitterStep n hd = .next t) : LiveBusChanged s t := by
  unfold State.submitterStep at h
  split at h
  · cases h; exact .inl rfl
  · split at h
    · cases h; exact .inl rfl
    · split at h
      · cases h; exact .inl rfl
      · obtain ⟨r, hr, h⟩ := andThen_next h
        cases h
        exact submitterOp_live hr

theorem dispatcherAdvance_buses (s : State) (d : Disp) (g : Word) : (s.dispatcherAdvance d g).buses = s.buses := by
  unfold State.dispatcherAdvance
  split
  · rfl
  · split
    · split <;> rfl
    · rfl

theorem dispatcherStep_live {hd : HostDraw} (h : s.dispatcherStep hd = .next t) : LiveBusChanged s t := by
  unfold State.dispatcherStep at h
  split at h
  · cases h; exact .inl rfl
  · split at h
    · cases h; exact .inl rfl
    · split at h
      · obtain ⟨r, hr, h⟩ := andThen_next h
        cases h
        exact dispatcherOp_live hr
      · cases h
        exact .inl (dispatcherAdvance_buses _ _ _)

/-- A bus step is a step of a bus that carries no mark, if no bus that carries it has one. -/
theorem busStep_live {f : Bus → Option (Bus × Memory)} (hf : ∀ b, b.refused = true → f b = none) :
    LiveBusChanged s (s.busStep n f) := by
  unfold State.busStep
  split
  · exact .inl rfl
  · next b hb =>
    split
    · exact .inl rfl
    · next r hr =>
      refine .inr ⟨n, b, r.1, hb, ?_, rfl⟩
      by_contra hmark
      rw [hf b (by simpa using hmark)] at hr
      cases hr

/-- A write to memory reaches no bus but for the record of older sources. -/
theorem hostMemWrite_bus (a : Nat) (v : Byte) (hb : s.buses[n]? = some b) :
    ∃ old, (s.hostMemWrite a v).buses[n]? = some { b with stale := old } := by
  simp only [State.hostMemWrite, List.getElem?_map, hb, Option.map_some]
  split
  · exact ⟨_, rfl⟩
  · exact ⟨b.stale, rfl⟩

/-- Of the inputs that are no block reset, the host's write to memory alone reaches buses that carry the mark. -/
theorem apply_live {e : Event} (h : s.apply e = .next t) (hreset : ∀ u, e ≠ .blockReset u)
    (hmem : ∀ a v, e ≠ .memWrite a v) : LiveBusChanged s t := by
  cases e with
  | read loc width d => exact hostRead_live h
  | write loc width v => exact hostWrite_live h
  | memRead a old => cases h; exact .inl rfl
  | memWrite a v => exact absurd rfl (hmem a v)
  | engine n d pk => cases h; exact busStep_live fun b hr => by simp [Bus.masterStep, hr]
  | slave n => cases h; exact busStep_live fun b hr => by simp [Bus.slaveStep, hr]
  | env n ev pk => cases h; exact busStep_live fun b hr => by simp [Bus.envStep, hr]
  | blockReset u => exact absurd rfl (hreset u)
  | boot => exact .inl (writeGlobal_buses h)
  | call n c => cases h; exact .inl (callStep_buses s n c)
  | submitter n hd => exact submitterStep_live h
  | hostTimeout n => cases h; exact .inl (hostTimeout_buses s n)
  | irqEntry => cases h; exact .inl (irqEntryStep_buses s)
  | dispatcher hd => exact dispatcherStep_live h

theorem apply_refused {e : Event} (h : s.apply e = .next t) (hreset : ∀ u, e ≠ .blockReset u) (hb : s.buses[n]? = some b)
    (hr : b.refused = true) : ∃ old, t.buses[n]? = some { b with stale := old } := by
  by_cases hmem : ∃ a v, e = .memWrite a v
  · obtain ⟨a, v, rfl⟩ := hmem
    cases h
    exact hostMemWrite_bus _ v hb
  · have hlive := apply_live h hreset fun a v he => hmem ⟨a, v, he⟩
    exact ⟨b.stale, hlive.refused_same hb hr⟩

theorem busFor_refused (hb : s.buses[n]? = some b) (hr : b.refused = true) : s.busFor n = .refused .busRefused := by
  simp [State.busFor, hb, hr]

end Sys2Proof.Laws

end

section

open Sys2Proof Sys2Proof.Machine Sys2Proof.Laws

/-- Settles O51: only a bus without the mark is ever replaced (`apply_live`), and `busFor` answers no access to a bus with it. -/
theorem refusedBusStays : Obligations.RefusedBusStays := by
  intro s n b hb hr
  have hbus := busFor_refused hb hr
  refine ⟨fun e t h hreset => apply_refused h hreset hb hr, fun off width v => ⟨?_, ?_⟩, fun off width d => ⟨?_, ?_⟩⟩
  · simp only [State.hostWrite, Loc.find, State.writeBusReg, hbus, andThen]
  · simp only [State.hostWrite, Loc.find, State.writePool, hbus, andThen]
  · simp only [State.hostRead, State.mmioRead, Loc.find, State.readBusReg, hbus, andThen]
  · simp only [State.hostRead, State.mmioRead, Loc.find, State.readPool, hbus, andThen]

end

section

namespace Sys2Proof.Laws

open Sys2Proof Sys2Proof.Machine

variable {p : Params} {mem mem2 : Memory} {b c : Bus} {rest : List Phase} {pk : SrcPick}

/-! ## DMA bytes at an address that is not mapped -/

/-- A transmit phase's step on a bus whose master owns the clock. -/
theorem masterStep_tx {path : Path} {pr : Progress} (r : TxResult) (hl : b.live) (hown : b.own = true) (hscl : b.mDrv.scl = .low)
    (hm : b.mstate = .exec (.tx path :: rest) pr) :
    b.masterStep p mem (.tx r) pk = (b.txStep p mem path pr rest r pk).map (·, mem) := by
  rw [masterStep_exec hl hm]
  exact if_pos (by simp [Bus.slotReady, hown, hscl])

/-- A receive phase's step on such a bus. -/
theorem masterStep_rx {path : Path} {last : Bool} {pr : Progress} (r : RxResult) (hl : b.live) (hown : b.own = true)
    (hscl : b.mDrv.scl = .low) (hm : b.mstate = .exec (.rx path last :: rest) pr) :
    b.masterStep p mem (.rx r) pk = b.rxStep p mem path last pr rest r pk := by
  rw [masterStep_exec hl hm]
  exact if_pos (by simp [Bus.slotReady, hown, hscl])

/-- The start of a DMA transmit phase that is not refused (R332). -/
theorem beginTx_dma (hok : p.dmaRangeOk (b.sampleDmaLen pk).toNat (b.sampleDmaAddr pk) = true) :
    b.beginTx p .dma pk = some ((b.sampleDmaLen pk).toNat, { b with dmaPtr := b.sampleDmaAddr pk }) :=
  if_pos hok

/-- The start of a DMA receive phase that is not refused (R335). -/
theorem beginRx_dma (hok : p.dmaRangeOk (b.sampleDmaLen pk).toNat (b.sampleDmaAddr pk) = true) :
    b.beginRx p .dma pk = some ((b.sampleDmaLen pk).toNat, { b with dmaPtr := b.sampleDmaAddr pk, rxOldMem := [] }) :=
  if_pos hok

/-- Nothing is sent of a byte at an unmapped `dma_ptr`: the bus is stuck before the slot. -/
theorem txMove_unmapped (i n : Nat) (r : TxResult) (hun : p.dmaAllowed b.dmaPtr.toNat = false) :
    b.txMove p mem .dma i n rest r pk = some { b with stuck := true } := by
  simp [Bus.txMove, Bus.txSource, hun]

/-- A byte received for an unmapped `dma_ptr` has crossed the wires, and the bus is stuck with it. -/
theorem rxMove_unmapped (last : Bool) (i n : Nat) (d : Byte) (hfree : b.sclFree = true)
    (hun : p.dmaAllowed b.dmaPtr.toNat = false) :
    ∃ c, b.rxMove p mem .dma last i n rest (.data d) pk = some (c, mem) ∧ c.stuck = true ∧ c.isr = b.isr ∧ c.mDrv.scl = .low := by
  refine ⟨{ (b.slotDone (rxAnswer last i n).rxSlot).onWire (.byte d (rxAnswer last i n)) with stuck := true }, ?_, rfl, rfl, rfl⟩
  simp [Bus.rxMove, Bus.rxAdmits, Bus.rxStore, hfree, hun]

/-- The slave's transmit sends nothing of an unmapped byte. -/
theorem slaveRead_unmapped (a : Ack) (hs : b.sstate = .tx .dma) (hun : p.dmaAllowed (b.sBase.toNat + b.sCount) = false) :
    b.slaveRead p mem a pk = { b with stuck := true } := by
  simp [Bus.slaveRead, Bus.stxSource, hs, hun]

/-- The slave's receive stores nothing of one. -/
theorem slaveWrite_unmapped (d : Byte) (hs : b.sstate = .rx) (hp : b.sPath = .dma)
    (hun : p.dmaAllowed (b.sBase.toNat + b.sCount) = false) :
    b.slaveWrite p mem d = ({ b.onWire (.byte d .ack) with stuck := true }, mem) := by
  simp [Bus.slaveWrite, Bus.slaveStore, hs, hp, hun]

/-- On a stuck bus only the environment's raw line holds act (log 16). -/
theorem stuck_stops (hs : b.stuck = true) :
    (∀ d, b.masterStep p mem d pk = none) ∧ b.slaveStep = none ∧
      ∀ e, (∀ l, e ≠ .hold l ∧ e ≠ .release l) → b.envStep p mem e pk = none := by
  refine ⟨fun d => by simp [Bus.masterStep, hs], by simp [Bus.slaveStep, hs], fun e he => ?_⟩
  cases e with
  | hold l => exact absurd rfl (he l).1
  | release l => exact absurd rfl (he l).2
  | _ => simp [Bus.envStep, hs]

/-! ## The memory an engine step writes -/

/-- A step of the bus alone, paired with memory as it was. -/
theorem mem_of_map {o : Option Bus} (h : o.map (·, mem) = some (c, mem2)) : mem2 = mem := by
  obtain ⟨_, -, he⟩ := Option.map_eq_some_iff.1 h
  exact (Prod.ext_iff.1 he).2.symm

/-- A receive phase that is not by DMA leaves memory alone. -/
theorem rxStep_mem {path : Path} {last : Bool} {pr : Progress} {r : RxResult} (hp : path ≠ .dma)
    (h : b.rxStep p mem path last pr rest r pk = some (c, mem2)) : mem2 = mem := by
  unfold Bus.rxStep at h
  split at h
  · split at h
    · cases h
      rfl
    · exact (keeps_rxMove h).2.1 hp
  · exact (keeps_rxMove h).2.1 hp
  · cases h

/-- A phase's step leaves memory alone, or it is the step of a DMA receive phase. -/
theorem phaseStep_mem {ph : Phase} {pr : Progress} {d : Draw} (h : b.phaseStep p mem ph pr rest d pk = some (c, mem2)) :
    mem2 = mem ∨ ∃ last r, ph = .rx .dma last ∧ b.rxStep p mem .dma last pr rest r pk = some (c, mem2) := by
  unfold Bus.phaseStep at h
  split at h
  · exact .inl (mem_of_map h)
  · cases h
  · cases h
  · exact .inl (mem_of_map h)
  · exact .inl (mem_of_map (Option.ite_none_right_eq_some.1 h).2)
  · next path last r =>
    have hstep := (Option.ite_none_right_eq_some.1 h).2
    by_cases hp : path = .dma
    · subst hp
      exact .inr ⟨last, r, rfl, hstep⟩
    · exact .inl (rxStep_mem hp hstep)
  · exact .inl (mem_of_map h)
  · cases h

/-- So does an engine step. -/
theorem masterStep_mem {d : Draw} (h : b.masterStep p mem d pk = some (c, mem2)) :
    mem2 = mem ∨ ∃ last rest pr r, b.mstate = .exec (.rx .dma last :: rest) pr ∧
      b.rxStep p mem .dma last pr rest r pk = some (c, mem2) := by
  unfold Bus.masterStep at h
  obtain ⟨-, h⟩ := Option.ite_none_left_eq_some.1 h
  split at h
  · next ph rest pr hm =>
    refine (phaseStep_mem h).imp_right ?_
    rintro ⟨last, r, rfl, hstep⟩
    exact ⟨last, rest, pr, r, hm, hstep⟩
  · exact .inl (mem_of_map h)
  · cases h

/-- The first byte of a DMA receive phase goes to DMA_ADDR as sampled. -/
theorem rxStep_fresh_read {last : Bool} {r : RxResult} {a : Nat} (hwf : Memory.wf mem = true)
    (h : b.rxStep p mem .dma last .fresh rest r pk = some (c, mem2)) (ha : a ≠ (b.sampleDmaAddr pk).toNat) :
    mem2.read a = mem.read a := by
  dsimp only [Bus.rxStep] at h
  split at h
  · cases h
    rfl
  · next n b1 hbegin =>
    have hptr : b1.dmaPtr = b.sampleDmaAddr pk := (keeps_beginRx hbegin).2 rfl
    exact (keeps_rxMove h).2.2 hwf a (hptr ▸ ha)

/-! ## The pooled-buffer window -/

variable {s : State} {n w : Nat}

theorem hostWrite_pool (v : Word) (hb : s.buses[n]? = some b) (hr : b.refused = false) (hw : w < s.params.poolWords) :
    s.hostWrite (.space (.pool n) (4 * w)) 32 v = .next (s.setBus n (b.writePool s.params w v)) := by
  simp [State.hostWrite, Loc.find, State.writePool, busFor_ok hb hr, andThen, accessOk, Nat.not_le.2 hw]

theorem hostRead_pool (d : ReadDraw) (hb : s.buses[n]? = some b) (hr : b.refused = false) (hw : w < s.params.poolWords) :
    s.hostRead (.space (.pool n) (4 * w)) 32 d = .next { s with rdata := b.poolWord s.params w d } := by
  simp [State.hostRead, State.mmioRead, Loc.find, State.readPool, busFor_ok hb hr, andThen, accessOk, Nat.not_le.2 hw]

/-- A word beyond the window: the access marks the bus (R104). -/
theorem poolAccess_refused (v : Word) (d : ReadDraw) (hb : s.buses[n]? = some b) (hr : b.refused = false)
    (hw : s.params.poolWords ≤ w) :
    s.hostWrite (.space (.pool n) (4 * w)) 32 v = .next (s.setBus n b.refuse) ∧
      s.hostRead (.space (.pool n) (4 * w)) 32 d = .next (s.setBus n b.refuse) := by
  have hbus := busFor_ok hb hr
  constructor
  · simp [State.hostWrite, Loc.find, State.writePool, hbus, andThen, hw, State.refuseBus]
  · simp [State.hostRead, State.mmioRead, Loc.find, State.readPool, hbus, andThen, hw, State.refuseBus]

@[simp] theorem writePoolLane_length (p : Params) (w j : Nat) (v : Word) (b : Bus) :
    (b.writePoolLane p w j v).pool.length = b.pool.length := by
  rw [writePoolLane_pool]
  split
  · exact List.length_set
  · rfl

theorem writePoolLane_same {j : Nat} (v : Word) (hj : 4 * w + j < p.bufSize) (hlen : b.pool.length = p.bufSize) :
    (b.writePoolLane p w j v).pool[4 * w + j]? = some (v.extractLsb' (8 * j) 8) := by
  rw [writePoolLane_pool, if_pos hj, List.getElem?_set_self (hlen ▸ hj)]

theorem writePoolLane_other {j k : Nat} (v : Word) (hk : 4 * w + j ≠ k) : (b.writePoolLane p w j v).pool[k]? = b.pool[k]? := by
  rw [writePoolLane_pool]
  split
  · exact List.getElem?_set_ne hk
  · rfl

theorem writePool_length (p : Params) (w : Nat) (v : Word) (b : Bus) : (b.writePool p w v).pool.length = b.pool.length := by
  simp [Bus.writePool]

/-- A byte of the word that lies in the pool takes its lane; the lanes written after it go elsewhere. -/
theorem writePool_lane {i : Nat} (v : Word) (hi : i < 4) (hin : 4 * w + i < p.bufSize) (hlen : b.pool.length = p.bufSize) :
    (b.writePool p w v).pool[4 * w + i]? = some (v.extractLsb' (8 * i) 8) := by
  unfold Bus.writePool
  obtain rfl | rfl | rfl | rfl : i = 0 ∨ i = 1 ∨ i = 2 ∨ i = 3 := by omega
  · rw [writePoolLane_other v (by omega), writePoolLane_other v (by omega), writePoolLane_other v (by omega),
      writePoolLane_same v hin hlen]
  · rw [writePoolLane_other v (by omega), writePoolLane_other v (by omega), writePoolLane_same v hin (by simpa using hlen)]
  · rw [writePoolLane_other v (by omega), writePoolLane_same v hin (by simpa using hlen)]
  · rw [writePoolLane_same v hin (by simpa using hlen)]

/-- A byte outside the word stays. -/
theorem writePool_other {j : Nat} (v : Word) (hj : j < 4 * w ∨ 4 * w + 4 ≤ j) : (b.writePool p w v).pool[j]? = b.pool[j]? := by
  unfold Bus.writePool
  iterate 4 rw [writePoolLane_other v (by omega)]

theorem poolLane_beyond {j : Nat} (d : ReadDraw) (hj : p.bufSize ≤ 4 * w + j) :
    b.poolLane p w j d = d.bits.extractLsb' (8 * j) 8 :=
  if_neg (Nat.not_lt.2 hj)

/-- A byte of the pool reads as it is, where the draw does not ask for the old one or no receive phase runs. -/
theorem poolLane_current {j : Nat} {d : ReadDraw} (hj : 4 * w + j < p.bufSize)
    (h : d.old.getLsbD j = false ∨ b.receiving .buf = false) : b.poolLane p w j d = b.pool.getD (4 * w + j) 0 := by
  rcases h with h | h <;> simp [Bus.poolLane, Bus.poolByte, hj, h]

/-- Where both hold it reads as the byte that the phase overwrote, if it did (R568). -/
theorem poolLane_old {j : Nat} {d : ReadDraw} (hj : 4 * w + j < p.bufSize) (hold : d.old.getLsbD j = true)
    (hrx : b.receiving .buf = true) :
    b.poolLane p w j d = (olderAt (4 * w + j) b.rxOldPool).headD (b.pool.getD (4 * w + j) 0) := by
  simp [Bus.poolLane, Bus.poolByte, hj, hold, hrx]

/-! ## Block reset -/

/-- No status bit is set after a block reset, so no line is up. -/
theorem irq_blockReset (s : State) (u : List ResetDraw) : ∀ b ∈ (s.blockReset u).buses, b.irq = false := by
  intro b hb
  obtain ⟨n, hn⟩ := List.mem_iff_getElem?.1 hb
  simp [Bus.irq, hasAny, isr_resetBuses _ _ _ _ _ hn]

theorem gisrFrom_zero : ∀ (l : List Bus) (i : Nat), (∀ b ∈ l, b.irq = false) → gisrFrom i l = 0
  | [], _, _ => rfl
  | b :: l, i, h => by
    obtain ⟨hb, hl⟩ := List.forall_mem_cons.1 h
    simp [gisrFrom, hb, gisrFrom_zero l (i + 1) hl]

/-- The pool after reset has BUF_SIZE bytes, the reset's own draws where it draws as many. -/
theorem afterReset_pool (p : Params) (env : Wires) (u : ResetDraw) :
    (Bus.afterReset p env u).pool.length = p.bufSize ∧ (u.pool.length = p.bufSize → (Bus.afterReset p env u).pool = u.pool) := by
  constructor
  · simp [Bus.afterReset]
  · intro h
    exact List.take_left' h

end Sys2Proof.Laws

end

section

open Sys2Proof Sys2Proof.Machine Sys2Proof.Laws

/-- Settles O30: no byte moves at an unmapped address (`txMove_unmapped`, `rxMove_unmapped`, `slaveRead_unmapped`,
`slaveWrite_unmapped`), in a phase's first byte by `beginTx_dma` and `beginRx_dma`, and a stuck bus stays (`stuck_stops`). -/
theorem unmappedDmaSticks : Obligations.UnmappedDmaSticks := by
  intro p mem b pk
  refine ⟨?tx, ?txFirst, ?rxFirst, ?slaveTx, ?rx, ?slaveRx, stuck_stops⟩
  case tx =>
    intro rest i n r hl hown hscl hm hun
    rw [masterStep_tx r hl hown hscl hm, Bus.txStep, txMove_unmapped i n r hun, Option.map_some]
  case txFirst =>
    intro rest r hl hown hscl hm hok hun
    rw [masterStep_tx r hl hown hscl hm]
    simp only [Bus.txStep, beginTx_dma hok]
    rw [txMove_unmapped 0 _ r hun, Option.map_some]
  case rxFirst =>
    intro rest last d hl hown hscl ha hm hok hun
    rw [masterStep_rx _ hl hown hscl hm]
    simp only [Bus.rxStep, beginRx_dma hok]
    exact rxMove_unmapped last 0 _ d (alone_free ha).1 hun
  case slaveTx =>
    intro hl howns hs hun a
    rw [envStep_remote hl (by simp), Bus.remoteStep, if_pos howns, slaveRead_unmapped a hs hun]
  case rx =>
    intro rest last i n d hl hown hscl ha hm hun
    rw [masterStep_rx _ hl hown hscl hm]
    exact rxMove_unmapped (pk := pk) last i n d (alone_free ha).1 hun
  case slaveRx =>
    intro hl howns hs hp hun d
    rw [envStep_remote hl (by simp), Bus.remoteStep, if_pos howns, slaveWrite_unmapped d hs hp hun]
    exact ⟨_, rfl, rfl, rfl, rfl⟩

/-- Settles O35: only a DMA receive phase's step touches memory (`masterStep_mem`), at its `dma_ptr`. -/
theorem engineMemoryFrame : Obligations.EngineMemoryFrame := by
  intro p mem b c d pk mem2 hwf h
  rcases masterStep_mem h with rfl | ⟨last, rest, pr, r, hm, hstep⟩
  · exact ⟨fun _ => rfl, fun _ _ _ _ _ _ _ => rfl, fun _ _ _ _ _ => rfl⟩
  refine ⟨fun hno => absurd hm (hno _ _ _), fun last' rest' i n hm' a ha => ?_, fun last' rest' hm' a ha => ?_⟩
  · cases hm.symm.trans hm'
    exact (keeps_rxMove hstep).2.2 hwf a ha
  · cases hm.symm.trans hm'
    exact rxStep_fresh_read hwf hstep ha

/-- Settles O49: a word's four lanes go to four bytes of the pool (`writePool_lane`) and are read back lane by lane
(`poolWord_lane`). -/
theorem poolWindow : Obligations.PoolWindow := by
  intro s n w b hb hr hlen
  refine ⟨fun hw => ⟨fun v => ?write, fun d => ?read⟩, fun hw => ?refused⟩
  case write =>
    obtain ⟨pool, stale, hfields⟩ := writePool_fields s.params w v b
    exact ⟨b.writePool s.params w v, hostWrite_pool v hb hr hw, by rw [hfields], writePool_length _ _ _ _,
      fun i hi hin => writePool_lane v hi hin hlen, fun j hj => writePool_other v hj⟩
  case read =>
    refine ⟨b.poolWord s.params w d, hostRead_pool d hb hr hw, fun i hi => ?_⟩
    rw [poolWord_lane _ _ _ _ hi]
    refine ⟨poolLane_beyond d, fun hin hnew => ?_, poolLane_old⟩
    rw [poolLane_current hin hnew]
    simp [List.getD, hlen, hin]
  case refused =>
    exact ⟨fun v => (poolAccess_refused v {} hb hr hw).1, fun d => (poolAccess_refused 0 d hb hr hw).2⟩

/-- Settles O53: bus `n` becomes `Bus.afterReset` with the draws number `n` (`resetBuses_get`). -/
theorem resetValues : Obligations.ResetValues := by
  refine ⟨fun s u => ?_, fun p b hb => ?_⟩
  · have hirq := irq_blockReset s u
    refine ⟨s.blockReset u, rfl, rfl, resetBuses_length _ _ _, gisrFrom_zero _ 0 hirq, ?_, rfl, fun n b hb => ?_⟩
    · simpa [State.irq] using hirq
    · obtain ⟨hlen, hdraw⟩ := afterReset_pool s.params b.env (u.getD n {})
      exact ⟨_, resetBuses_get _ _ _ _ _ hb, hlen, hdraw⟩
  · rw [List.eq_of_mem_replicate hb]
    exact ⟨rfl, rfl⟩

end

section

namespace Sys2Proof.Laws

open Sys2Proof Sys2Proof.Machine

/-! ## The opcode map as a decoder -/

/-- A lookup finds one of the rows. -/
theorem lookupCode_mem {w : Nat} {i : Instr} : ∀ {rows : List (Nat × Instr)}, lookupCode w rows = some i → (w, i) ∈ rows
  | r :: rest, h => by
    unfold lookupCode at h
    split at h
    next hw => cases h; cases eq_of_beq hw; exact List.mem_cons_self
    next => exact List.mem_cons_of_mem _ (lookupCode_mem h)

/-- A lookup finds something exactly for the words of the rows. -/
theorem lookupCode_isSome (w : Nat) (rows : List (Nat × Instr)) : (lookupCode w rows).isSome = true ↔ w ∈ rows.map Prod.fst := by
  induction rows with
  | nil => simp [lookupCode]
  | cons r rest ih =>
    by_cases hw : r.1 = w
    · simp [lookupCode, hw]
    · simpa [lookupCode, hw, Ne.symm hw] using ih

/-- Each row of the opcode map holds its command's word, as the bit fields give it (R140, R152). -/
theorem code_toNat_of_mem {w : Nat} {i : Instr} (h : (w, i) ∈ opcodeMap) : (code i).toNat = w :=
  (by decide : ∀ r ∈ opcodeMap, (code r.2).toNat = r.1) _ h

theorem decodeCmd_code (i : Instr) : decodeCmd (code i) = some i := by
  cases i <;> rfl

/-- The twelve command bits name the command whose code they are. -/
theorem decodeCmd_eq_some {c : BitVec 12} {i : Instr} : decodeCmd c = some i ↔ c = code i := by
  constructor
  · exact fun h => (BitVec.eq_of_toNat_eq (code_toNat_of_mem (lookupCode_mem h))).symm
  · rintro rfl
    exact decodeCmd_code i

theorem decode_eq_some {v : Word} {i : Instr} : decode v = some i ↔ v.extractLsb' 0 12 = code i :=
  decodeCmd_eq_some

/-! ## The legal words -/

/-- The words of the opcode map without CMD_NOP's, in its order (R152). -/
def legalWords : List Nat := opcodeMap.tail.map Prod.fst

/-- Their bits by the names of R140. -/
def legalBits : List CmdBits := legalWords.map fun w => CmdBits.of (BitVec.ofNat 12 w)

/-- CMD_NOP's word is the map's first. -/
theorem opcodeMap_words : opcodeMap.map Prod.fst = 0 :: legalWords := rfl

theorem cmdBits_of_injective : Function.Injective CmdBits.of := by
  intro c d h
  simp only [CmdBits.of, CmdBits.mk.injEq] at h
  refine BitVec.eq_of_getLsbD_eq fun i hi => ?_
  interval_cases i <;> simp only [h]

/-- RECOVER stands alone: every bit is fixed. -/
theorem isRecover_mem {w : CmdBits} (hz : w.z = false) (h : w.isRecover = true) : w ∈ legalBits := by
  obtain ⟨s, t, x, r, l, p, b, c, d, e, z, v⟩ := w
  simp only [CmdBits.isRecover, Bool.and_eq_true, Bool.not_eq_true', Bool.or_eq_false_iff, and_assoc] at h hz
  obtain ⟨rfl, rfl, rfl, rfl, rfl, rfl, rfl, rfl, rfl, rfl, rfl⟩ := h
  cases hz
  decide

/-- STX leaves its transmit path open. -/
theorem isStx_mem {w : CmdBits} (hz : w.z = false) (h : w.isStx = true) : w ∈ legalBits := by
  obtain ⟨s, t, x, r, l, p, b, c, d, e, z, v⟩ := w
  simp only [CmdBits.isStx, Bool.and_eq_true, Bool.not_eq_true', Bool.or_eq_false_iff, and_assoc] at h hz
  obtain ⟨rfl, rfl, rfl, rfl, rfl, rfl, rfl, rfl, rfl, hpath⟩ := h
  cases hz
  revert b d
  decide

/-- SRXARM has one of the two receive paths. -/
theorem isSrxarm_mem {w : CmdBits} (hz : w.z = false) (h : w.isSrxarm = true) : w ∈ legalBits := by
  obtain ⟨s, t, x, r, l, p, b, c, d, e, z, v⟩ := w
  simp only [CmdBits.isSrxarm, Bool.and_eq_true, Bool.not_eq_true', Bool.or_eq_false_iff, and_assoc] at h hz
  obtain ⟨rfl, rfl, rfl, rfl, rfl, rfl, rfl, rfl, rfl, hpath⟩ := h
  cases hz
  revert c e
  decide

/-- A master command, by its two data bits: without either it is MSTOP; M_TX leaves start, stop and the transmit path open, and
M_RX stop, RX_LAST and the receive path, M_TX beside it going with M_START. -/
theorem isMaster_mem {w : CmdBits} (hz : w.z = false) (h : w.isMaster = true) : w ∈ legalBits := by
  obtain ⟨s, t, x, r, l, p, b, c, d, e, z, v⟩ := w
  cases hz
  cases r <;> cases t <;>
    simp only [CmdBits.isMaster, Bool.or_false, Bool.or_true, Bool.true_or, Bool.or_self, Bool.and_true, Bool.true_and, Bool.and_false,
      Bool.false_and, Bool.and_self, Bool.and_self_right, Bool.not_and, Bool.not_or, Bool.not_not, Bool.not_false, Bool.not_true,
      Bool.and_eq_true, Bool.or_eq_true, Bool.not_eq_eq_eq_not, and_assoc] at h
  case false.false =>
    obtain ⟨rfl, rfl, hsp, rfl, rfl, -, -, rfl, rfl, rfl, rfl⟩ := h
    revert p
    decide
  case false.true =>
    obtain ⟨rfl, rfl, rfl, hpath, -, rfl, rfl⟩ := h
    revert s p b d
    decide
  case true.false =>
    obtain ⟨rfl, rfl, rfl, -, hpath, rfl, rfl⟩ := h
    revert l p c e
    decide
  case true.true =>
    obtain ⟨rfl, rfl, -, hpath, rfl, rfl, rfl⟩ := h
    revert l p c e
    decide

/-- R151's predicate holds of exactly the words of the opcode map (R152). -/
theorem legal_iff {c : BitVec 12} : legal c = true ↔ c.toNat ∈ legalWords := by
  constructor
  · intro h
    simp only [legal, Bool.and_eq_true, Bool.not_eq_true', Bool.or_eq_true, or_assoc] at h
    obtain ⟨hz, hclass⟩ := h
    have hbits : CmdBits.of c ∈ legalBits := by
      rcases hclass with h | h | h | h
      · exact isRecover_mem hz h
      · exact isStx_mem hz h
      · exact isSrxarm_mem hz h
      · exact isMaster_mem hz h
    obtain ⟨w, hw, hbits⟩ := List.mem_map.1 hbits
    have hlt : w < 2 ^ 12 := (by decide : ∀ w ∈ legalWords, w < 2 ^ 12) w hw
    rwa [← cmdBits_of_injective hbits, BitVec.toNat_ofNat, Nat.mod_eq_of_lt hlt]
  · intro h
    have hall : ∀ w ∈ legalWords, legal (BitVec.ofNat 12 w) = true := by decide
    simpa using hall _ h

/-- The words that decode are CMD_NOP's and the legal ones. -/
theorem decodeCmd_isSome {c : BitVec 12} : (decodeCmd c).isSome = true ↔ c = 0 ∨ legal c = true := by
  rw [decodeCmd, lookupCode_isSome, opcodeMap_words, List.mem_cons, legal_iff, BitVec.toNat_eq]
  rfl

/-- A nonzero illegal word names no command (R155). -/
theorem decode_illegal {v : Word} (h0 : v.extractLsb' 0 12 ≠ 0) (hlegal : legal (v.extractLsb' 0 12) = false) : decode v = none := by
  rw [decode, ← Option.not_isSome_iff_eq_none, decodeCmd_isSome]
  exact not_or.2 ⟨h0, Bool.eq_false_iff.1 hlegal⟩

/-! ## Counting by rows -/

/-- Rows of `k` numbers, counted one by one, are the numbers below `k * n`. -/
theorem sum_count_rows (q : Nat → Bool) (k n : Nat) :
    ((List.range n).map fun x => ((List.range k).filter fun y => q (k * x + y)).length).sum = (List.range (k * n)).countP q := by
  induction n with
  | zero => rfl
  | succ n ih =>
    rw [List.range_succ, List.map_append, List.sum_append, ih, Nat.mul_succ, List.range_add, List.countP_append, List.countP_map,
      List.countP_eq_length_filter (l := List.range k)]
    simp [Function.comp_def]

/-- Of the numbers below `n`, all but those of a list without repetitions are outside it. -/
theorem countP_not_mem_range {l : List Nat} (hnodup : l.Nodup) {n : Nat} (hlt : ∀ w ∈ l, w < n) :
    (List.range n).countP (fun w => !decide (w ∈ l)) = n - l.length := by
  have hin : ((List.range n).filter fun w => decide (w ∈ l)).Perm l :=
    (List.perm_ext_iff_of_nodup (List.nodup_range.filter _) hnodup).2 fun w => by simpa using hlt w
  have hsplit := (List.filter_append_perm (fun w => decide (w ∈ l)) (List.range n)).length_eq
  rw [List.length_append, hin.length_eq, List.length_range] at hsplit
  rw [List.countP_eq_length_filter]
  exact Nat.eq_sub_of_add_eq' hsplit

/-- A nonzero illegal word, as a number (R155). -/
def illegalWord (w : Nat) : Bool := w != 0 && !legal (BitVec.ofNat 12 w)

/-- A word of twelve bits is nonzero and illegal, or one of the opcode map. -/
theorem illegalWord_iff {w : Nat} (hw : w < 2 ^ 12) : illegalWord w = true ↔ w ∉ opcodeMap.map Prod.fst := by
  have hlegal := legal_iff (c := BitVec.ofNat 12 w)
  rw [BitVec.toNat_ofNat, Nat.mod_eq_of_lt hw] at hlegal
  simp [illegalWord, opcodeMap_words, ← hlegal]

/-- R155's count: the 4096 words of twelve bits without the 44 of the opcode map. -/
theorem count_illegalWord : (List.range (64 * 64)).countP illegalWord = 4052 := by
  calc (List.range (64 * 64)).countP illegalWord
      = (List.range (64 * 64)).countP (fun w => !decide (w ∈ opcodeMap.map Prod.fst)) :=
        List.countP_congr fun w hw => by simpa using illegalWord_iff (List.mem_range.1 hw)
    _ = 64 * 64 - (opcodeMap.map Prod.fst).length := countP_not_mem_range (by decide) (by decide)
    _ = 4052 := rfl

/-! ## A write to CMD -/

variable {s : State} {n : Nat} {b : Bus} {v : Word}

theorem hostWrite_cmd {loc : Loc} (hl : Loc.find s.params loc = some (.bus n, 0x14)) (hb : s.buses[n]? = some b)
    (hr : b.refused = false) : s.hostWrite loc 32 v = s.writeCmd n b v := by
  simp [State.hostWrite, hl, State.writeBusReg, busFor_ok hb hr, andThen, accessOk]

theorem writeCmd_of_decode {i : Instr} (h : decode v = some i) : s.writeCmd n b v = exec i { s with sel := n } := by
  rw [State.writeCmd, h]

theorem writeCmd_of_illegal (h : decode v = none) : s.writeCmd n b v = .next (s.setBus n b.refuse) := by
  rw [State.writeCmd, h, State.refuseBus]

/-- A step takes the first input of the list. -/
theorem step_of_inputs {e : Event} {rest : List Event} (h : s.inputs = e :: rest) : step s = { s with inputs := rest }.apply e := by
  rw [step, State.takeInput, State.nextInput, h]

end Sys2Proof.Laws

end

section

open Sys2Proof Sys2Proof.Machine Sys2Proof.Laws

/-- Settles O2: a command's word is one row of the opcode map (`decodeCmd_eq_some`), and the code is the low twelve bits of the
encoding, whatever stands above. -/
theorem decodeAndEncodeAgree : Obligations.DecodeAndEncodeAgree := by
  refine ⟨fun i => decode_eq_some.2 ?_, fun i hi => decode_eq_some.2 ?_, fun v i => decode_eq_some.1⟩
  · rw [encode, BitVec.extractLsb'_setWidth_of_le (by decide), BitVec.extractLsb'_eq_self]
  · exact BitVec.extractLsb'_append_eq_right

/-- Settles O4: such a word does not decode (`decode_illegal`); the count is that of the words outside the opcode map
(`count_illegalWord`). -/
theorem illegalWordRefused : Obligations.IllegalWordRefused := by
  refine ⟨fun s n b v hb hr h0 hlegal => ?_, ?_, ?_⟩
  · rw [hostWrite_cmd rfl hb hr, writeCmd_of_illegal (decode_illegal h0 hlegal), Bus.refuse]
  · exact (sum_count_rows illegalWord 64 64).trans count_illegalWord
  · simp only [List.forall_mem_cons, List.not_mem_nil, false_implies, implies_true, and_true]
    decide

/-- Settles O1: each word holds the code of its command in its low twelve bits. -/
theorem sampleWordsDecode : Obligations.SampleWordsDecode := by
  unfold Obligations.SampleWordsDecode
  simp only [decode_eq_some]
  decide

/-- Settles O3: the predicate's four classes of commands give the words of the opcode map (`legal_iff`), which are those that
decode with CMD_NOP's (`decodeCmd_isSome`). -/
theorem legalWordsAreTheOpcodeMap : Obligations.LegalWordsAreTheOpcodeMap :=
  fun _ => ⟨legal_iff, decodeCmd_isSome⟩

/-- Settles O5: the step takes the write (`step_of_inputs`), which reaches CMD (`hostWrite_cmd`) and runs what it decodes to. -/
theorem stepRunsDecodedCommand : Obligations.StepRunsDecodedCommand := by
  intro s rest loc n b v i hin hl hb hr hdecode
  rw [step_of_inputs hin]
  exact (hostWrite_cmd (s := { s with inputs := rest }) hl hb hr).trans (writeCmd_of_decode hdecode)

/-- Settles O6: a word with bits [11:0] zero decodes to CMD_NOP, whose meaning leaves the state as it is. -/
theorem nopChangesNothing : Obligations.NopChangesNothing := by
  refine ⟨fun s => rfl, fun s n b v hb hr h0 => ?_⟩
  rw [hostWrite_cmd rfl hb hr, writeCmd_of_decode (decode_eq_some (i := .cmdNop).2 h0)]
  rfl

end

section

namespace Sys2Proof.Laws

open Sys2Proof Sys2Proof.Machine

variable {inputClk f r : Nat} {base : Nat → Nat} {extra w : Word} {high low sel i k : Nat} {t : Timing}

/-! ## The clock divisor calculator -/

theorem lowOf_le (r : Nat) : lowOf r ≤ 15 := Nat.min_le_right ..

theorem highOf_le (r : Nat) : highOf r ≤ 15 := Nat.min_le_right ..

/-- Neither count is clamped for a ratio up to RATIO_MAX. -/
theorem counts_of_le (h2 : 2 ≤ r) (h32 : r ≤ 32) : highOf r + lowOf r + 2 = r := by
  unfold highOf lowOf phaseMax
  omega

/-- A quotient rounded up exceeds the one rounded down by at most one. -/
theorem ceilDiv_le_succ (a b : Nat) : ceilDiv a b ≤ a / b + 1 := by
  rcases Nat.eq_zero_or_pos b with rfl | hb
  · simp [ceilDiv]
  · calc (a + b - 1) / b ≤ (a + b) / b := Nat.div_le_div_right (Nat.sub_le ..)
      _ = a / b + 1 := Nat.add_div_right a hb

/-- Each round of the correction takes one selector of those left. -/
theorem correctionLoop_sel_le : ∀ n sel ratio, (correctionLoop n sel ratio).1 ≤ sel + n
  | 0, _, _ => Nat.le_refl _
  | n + 1, sel, ratio => by
    unfold correctionLoop
    split
    · exact (correctionLoop_sel_le n (sel + 1) (ceilDiv ratio 2)).trans (by omega)
    · exact Nat.le_add_right ..

theorem band_le (f : Nat) : band f ≤ 15 := by
  unfold band
  grind

theorem selectRatio_sel_le (h : selectRatio inputClk base f = (sel, r)) : sel ≤ 15 := by
  unfold selectRatio at h
  split at h <;> cases h
  · exact Nat.zero_le _
  · exact (correctionLoop_sel_le ..).trans (Nat.add_sub_cancel' (band_le f)).le

/-- Only the fast path, which rounds up after its test, gives a ratio above RATIO_MAX. -/
theorem selectRatio_of_lt (h : selectRatio inputClk base f = (sel, r)) (hr : 32 < r) : r = 33 ∧ inputClk / f ≤ 32 := by
  unfold selectRatio at h
  split at h <;> cases h
  next hfast => exact ⟨Nat.le_antisymm ((ceilDiv_le_succ ..).trans (Nat.succ_le_succ hfast)) hr, hfast⟩
  next => exact absurd hr (Nat.not_lt.2 (Nat.min_le_right ..))

/-- An answer of the calculator is made of the selector and of a ratio that has passed the guard. -/
theorem calcNew_eq_some (h : calcNew inputClk base extra f = some t) :
    ∃ sel r, selectRatio inputClk base f = (sel, r) ∧ 2 ≤ r ∧
      t = { word := timingWord extra (highOf r) (lowOf r) sel, sel := sel, high := highOf r, low := lowOf r, ratio := r } := by
  unfold calcNew at h
  split at h
  · cases h
  · dsimp only at h
    split at h
    · cases h
    next hr => exact ⟨_, _, rfl, Nat.not_lt.1 hr, (Option.some.inj h).symm⟩

/-! ## The fields of a timing word -/

/-- A count shifted by `k` has its bits from `k` on. -/
theorem shifted_getLsbD (v : Nat) (hi : i < 32) :
    (BitVec.ofNat 32 v <<< k).getLsbD i = (decide (k ≤ i) && v.testBit (i - k)) := by
  rw [BitVec.getLsbD_shiftLeft, BitVec.getLsbD_ofNat]
  grind

theorem timingWord_getLsbD (hi : i < 32) : (timingWord extra high low sel).getLsbD i =
    (extra.getLsbD i || (decide (16 ≤ i) && high.testBit (i - 16)) || (decide (12 ≤ i) && low.testBit (i - 12)) ||
      sel.testBit i) := by
  simp only [timingWord, BitVec.getLsbD_or, shifted_getLsbD _ hi, BitVec.getLsbD_ofNat, hi, decide_true, Bool.true_and]

/-- A count of four bits has no bit above them. -/
theorem testBit_of_le {v : Nat} (h : v ≤ 15) (hi : 4 ≤ i) : v.testBit i = false :=
  Nat.testBit_lt_two_pow (Nat.lt_of_lt_of_le (Nat.lt_succ_of_le h) (Nat.pow_le_pow_right (n := 2) (by decide) hi))

/-- At its place in the word, a count of four bits has no bit below that place nor above it. -/
theorem placed_eq_false {v : Nat} (hv : v ≤ 15) (h : i < k ∨ k + 4 ≤ i) : (decide (k ≤ i) && v.testBit (i - k)) = false := by
  rcases h with h | h
  · simp [Nat.not_le.2 h]
  · simp [testBit_of_le hv (Nat.le_sub_of_add_le' h)]

/-- A bit of a mask that the word leaves free. -/
theorem getLsbD_of_masked {m : Word} (h : w &&& m = 0) (hm : m.getLsbD i = true) : w.getLsbD i = false := by
  simpa [hm] using congrArg (·.getLsbD i) h

/-- A field of four bits, read off bit by bit. -/
theorem field_eq {v : Nat} (hv : v ≤ 15) (h : ∀ i < 4, w.getLsbD (k + i) = v.testBit i) : (w.extractLsb' k 4).toNat = v := by
  refine Nat.eq_of_testBit_eq fun i => ?_
  rw [BitVec.testBit_toNat, BitVec.getLsbD_extractLsb']
  by_cases hi : i < 4
  · simp [hi, h i hi]
  · simp [hi, testBit_of_le hv (Nat.not_lt.1 hi)]

/-- Where TIMING_EXTRA leaves the places of the fields 0, each field holds its count. -/
theorem timingWord_fields (hextra : extra &&& 0x000FF00F#32 = 0) (hh : high ≤ 15) (hl : low ≤ 15) (hs : sel ≤ 15) :
    baseSel (timingWord extra high low sel) = sel ∧ sclLow (timingWord extra high low sel) = low ∧
      sclHigh (timingWord extra high low sel) = high := by
  have hplaces : ∀ i < 4, (0x000FF00F#32).getLsbD (0 + i) = true ∧ (0x000FF00F#32).getLsbD (12 + i) = true ∧
      (0x000FF00F#32).getLsbD (16 + i) = true := by decide
  refine ⟨field_eq hs fun i hi => ?_, field_eq hl fun i hi => ?_, field_eq hh fun i hi => ?_⟩ <;>
    obtain ⟨hsel, hlow, hhigh⟩ := hplaces i hi
  · rw [timingWord_getLsbD (by omega), getLsbD_of_masked hextra hsel, placed_eq_false hh (by omega),
      placed_eq_false hl (by omega)]
    simp
  · rw [timingWord_getLsbD (by omega), getLsbD_of_masked hextra hlow, placed_eq_false hh (by omega),
      testBit_of_le hs (by omega)]
    simp
  · rw [timingWord_getLsbD (by omega), getLsbD_of_masked hextra hhigh, placed_eq_false hl (by omega),
      testBit_of_le hs (by omega)]
    simp

/-- Outside the places of the fields the word is TIMING_EXTRA. -/
theorem timingWord_rest (hextra : extra &&& 0x000FF00F#32 = 0) (hh : high ≤ 15) (hl : low ≤ 15) (hs : sel ≤ 15) :
    timingWord extra high low sel &&& 0xFFF00FF0#32 = extra := by
  have hplaces : ∀ i < 32, (0xFFF00FF0#32).getLsbD i = !(0x000FF00F#32).getLsbD i ∧
      ((0x000FF00F#32).getLsbD i = false → 4 ≤ i ∧ (i < 12 ∨ 20 ≤ i)) := by decide
  refine BitVec.eq_of_getLsbD_eq fun i hi => ?_
  obtain ⟨hcompl, hout⟩ := hplaces i hi
  rw [BitVec.getLsbD_and, hcompl]
  cases hm : (0x000FF00F#32).getLsbD i with
  | true => simp [getLsbD_of_masked hextra hm]
  | false =>
    obtain ⟨h4, hcounts⟩ := hout hm
    rw [timingWord_getLsbD hi, placed_eq_false hh (by omega), placed_eq_false hl (by omega), testBit_of_le hs h4]
    simp

end Sys2Proof.Laws

end

section

open Sys2Proof Sys2Proof.Machine Sys2Proof.Laws

/-- Settles O56: the counts of a ratio up to RATIO_MAX are not clamped (`counts_of_le`), a ratio above it is 33 and comes from the
fast path (`selectRatio_of_lt`), and four-bit fields stay apart in the word (`timingWord_fields`, `timingWord_rest`). -/
theorem calculatorFieldBounds : Obligations.CalculatorFieldBounds := by
  intro inputClk base extra f t h
  obtain ⟨sel, r, hselect, h2, rfl⟩ := calcNew_eq_some h
  have hsel := selectRatio_sel_le hselect
  refine ⟨lowOf_le r, highOf_le r, hsel, h2, counts_of_le h2, fun hr => ?_, fun hextra => ?_⟩
  · obtain ⟨rfl, hfast⟩ := selectRatio_of_lt hselect hr
    exact ⟨rfl, hfast, rfl⟩
  · obtain ⟨hs, hl, hh⟩ := timingWord_fields hextra (highOf_le r) (lowOf_le r) hsel
    exact ⟨hs, hl, hh, timingWord_rest hextra (highOf_le r) (lowOf_le r) hsel⟩

end

section

namespace Sys2Proof.Laws

open Sys2Proof Sys2Proof.Machine

variable {p : Params} {mem : Memory} {b c : Bus} {rest : List Phase} {pr : Progress} {r : LineResult} {pk : SrcPick}

/-! ## The lines -/

/-- A line that the environment holds reads 0 and does not rise (R57). -/
theorem sda_of_env_low (h : b.env.sda = .low) : b.sda = false ∧ b.sdaFree = false := by
  simp [Bus.sda, Bus.sdaFree, h]

theorem sclFree_of_env_low (h : b.env.scl = .low) : b.sclFree = false := by
  simp [Bus.sclFree, h]

/-- Outside a slot a line's timeout fires only while the environment holds that line, with TIMEOUT on (R265, R266). -/
theorem lineTimeout_scl : b.lineTimeout .scl = true ↔ b.env.scl = .low ∧ b.timeout ≠ 0 := by
  simp [Bus.lineTimeout, Bus.timeoutsOn, and_comm]

theorem lineTimeout_sda : b.lineTimeout .sda = true ↔ b.env.sda = .low ∧ b.timeout ≠ 0 := by
  simp [Bus.lineTimeout, Bus.timeoutsOn, and_comm]

/-- A guarded step that leaves memory alone. -/
theorem guarded_map {q : Bool} {P : Prop} [Decidable P] (h : q = true ↔ P) :
    (if q then some c else none).map (·, mem) = if P then some (c, mem) else none := by
  simp only [h]
  split <;> rfl

theorem env_eq {x y : Drive} (hscl : b.env.scl = x) (hsda : b.env.sda = y) : b.env = { scl := x, sda := y } := by
  rw [← hscl, ← hsda]

/-! ## START and STOP steps -/

/-- A START on a bus that the engine does not own is `wire_S` where it may be tried (R305). -/
theorem masterStep_wireS (hl : b.live) (hm : b.mstate = .exec (.addr :: rest) pr) (hpr : pr = .fresh ∨ pr = .waitBus)
    (hown : b.own = false) (hmay : b.mayStart p pr = true) :
    b.masterStep p mem (.line r) pk = (b.stepS rest r).map (·, mem) := by
  rw [masterStep_exec hl hm]
  rcases hpr with rfl | rfl <;> simp [Bus.phaseStep, Bus.startStep, hown, hmay]

/-- On a bus that it owns it is `wire_Sr`. -/
theorem masterStep_wireSr (hl : b.live) (hm : b.mstate = .exec (.addr :: rest) .fresh) (hown : b.own = true) :
    b.masterStep p mem (.line r) pk = (b.stepSr rest r).map (·, mem) := by
  rw [masterStep_exec hl hm]
  simp [Bus.phaseStep, Bus.startStep, hown]

theorem masterStep_stop (hl : b.live) (hm : b.mstate = .exec (.stop :: rest) pr) :
    b.masterStep p mem (.line r) pk = (b.stopStep rest r).map (·, mem) :=
  masterStep_exec hl hm

theorem slaveSeesOwnStart_fields (b : Bus) : b.slaveSeesOwnStart =
    { b with sstate := if b.slaveEn then .ignore else b.sstate, sDrv := if b.slaveEn then {} else b.sDrv } := by
  by_cases h : b.slaveEn = true
  · simp only [Bus.slaveSeesOwnStart, if_pos h]
  · simp only [Bus.slaveSeesOwnStart, if_neg h]

theorem slaveSeesOwnStop_fields (b : Bus) : b.slaveSeesOwnStop =
    { b with sstate := if b.slaveEn then .idle else b.sstate, sDrv := if b.slaveEn then {} else b.sDrv } := by
  by_cases h : b.slaveEn = true
  · simp only [Bus.slaveSeesOwnStop, if_pos h]
  · simp only [Bus.slaveSeesOwnStop, if_neg h]

/-- A slave that drives nothing has nothing to release. -/
theorem slaveSeesOwnStart_released (h : b.sDrv = {}) :
    b.slaveSeesOwnStart = { b with sstate := if b.slaveEn then .ignore else b.sstate } := by
  rw [slaveSeesOwnStart_fields, h, ite_self, ← h]

theorem slaveSeesOwnStop_released (h : b.sDrv = {}) :
    b.slaveSeesOwnStop = { b with sstate := if b.slaveEn then .idle else b.sstate } := by
  rw [slaveSeesOwnStop_fields, h, ite_self, ← h]

end Sys2Proof.Laws

end

section

open Sys2Proof Sys2Proof.Machine Sys2Proof.Laws

/-- Settles O16: the step is `wire_S` (`masterStep_wireS`), which a low line leaves to that line's timeout alone. -/
theorem startOnFreeBus : Obligations.StartOnFreeBus := by
  intro p mem b rest pr pk hl hm hpr hown hmay
  have hstart : b.mayStart p pr = true := by
    rcases hmay with h | ⟨rfl, h1, h2⟩
    · simp [Bus.mayStart, h]
    · simp [Bus.mayStart, h1, h2]
  have hstep (r : LineResult) : b.masterStep p mem (.line r) pk = (b.stepS rest r).map (·, mem) :=
    masterStep_wireS hl hm hpr hown hstart
  refine ⟨fun hscl hsda => ?_, fun hlow => ?_, hstep .arb, (hstep .sclTo).trans (guarded_map lineTimeout_scl),
    (hstep .sdaTo).trans (guarded_map lineTimeout_sda)⟩
  · simp [hstep, Bus.stepS, hscl, hsda, Bus.started, slaveSeesOwnStart_fields, hown]
  · rw [hstep, Bus.stepS, if_neg (by rcases hlow with h | h <;> simp [h]), Option.map_none]

/-- Settles O18: the step is `wire_Sr` (`masterStep_wireSr`); R248's draw is `Bus.mayLoseCond`. -/
theorem repeatedStart : Obligations.RepeatedStart := by
  intro p mem b rest pk hl hm hown
  have hstep (r : LineResult) : b.masterStep p mem (.line r) pk = (b.stepSr rest r).map (·, mem) :=
    masterStep_wireSr hl hm hown
  refine ⟨fun halone => ?_, fun halone hslot => ?_, fun hslot => ?_, (hstep .sclTo).trans (guarded_map lineTimeout_scl),
    (hstep .sdaTo).trans (guarded_map lineTimeout_sda)⟩
  · obtain ⟨hscl, hsda⟩ := alone_free halone
    rw [hstep, Bus.stepSr, if_pos (by simp [hscl, hsda]), Bus.started, slaveSeesOwnStart_released (by exact halone.2), hown]
    rfl
  · rw [hstep, Bus.stepSr, if_pos (by simp [hslot, alone_free halone])]
    rfl
  · rw [hstep, Bus.stepSr, if_neg (by simp [hslot]), Option.map_none]

/-- Settles O25: the step is `Bus.stopStep` (`masterStep_stop`), with no phase left after it. -/
theorem stopPhase : Obligations.StopPhase := by
  intro p mem b pk hl hm timing
  have hstep (r : LineResult) : b.masterStep p mem (.line r) pk = (b.stopStep [] r).map (·, mem) := masterStep_stop hl hm
  refine ⟨fun halone => ?_, fun halone hslot => ?_, fun hslot => ?_, fun hlow => ?_,
    (hstep .sclTo).trans (guarded_map lineTimeout_scl), (hstep .sdaTo).trans (guarded_map lineTimeout_sda)⟩
  · obtain ⟨hscl, hsda⟩ := alone_free halone
    rw [hstep, Bus.stopStep, if_pos (by simp [hscl, hsda]), Bus.stopped, slaveSeesOwnStop_released (by exact halone.2)]
    rfl
  · rw [hstep, Bus.stopStep, if_pos (by simp [hslot, alone_free halone])]
    rfl
  · rw [hstep, Bus.stopStep, if_neg (by simp [hslot]), Option.map_none]
  · rw [hstep, Bus.stopStep, if_neg ?_, Option.map_none]
    rcases hlow with h | h
    · simp [sclFree_of_env_low h]
    · simp [sda_of_env_low h]

end

section

namespace Sys2Proof.Laws

open Sys2Proof Sys2Proof.Machine

variable {p : Params} {mem : Memory} {b : Bus} {pk : SrcPick}

/-! ## Recovery -/

/-- A pulse counts, and the environment may release SDA in it (R270). -/
theorem recover_pulse {k : Nat} (release : Bool) (hl : b.live) (hm : b.mstate = .recover k) (hs : b.sDrv = {})
    (he : b.env = { sda := .low }) (hk : k < p.recoverPulses) :
    b.masterStep p mem (.pulse release) pk =
      some ({ b with mDrv := { scl := .low, sda := .rel }, sclTiming := b.timing, mstate := .recover (k + 1),
                     lastSlot := b.lastSlot.afterCond, env := { sda := if release then .rel else .low },
                     wire := .pulse :: b.wire }, mem) := by
  simp [masterStep_recover hl hm, Bus.recoverStep, sda_of_env_low, Bus.sclFree, hs, he, hk]

/-- With SDA high the recovery makes its STOP (R270). -/
theorem recover_stop {k : Nat} (hl : b.live) (hm : b.mstate = .recover k) (hs : b.sDrv = {}) (he : b.env = {})
    (hd : b.mDrv.sda = .rel) :
    b.masterStep p mem (.line .ok) pk =
      some ({ b with mDrv := {}, busBusy := false, cmd := 0, mstate := .idle, isr := b.isr ||| 0x2000,
                     lastSlot := b.lastSlot.afterCond, sstate := if b.slaveEn then .idle else b.sstate,
                     wire := .p :: b.wire }, mem) := by
  have hfree : (b.sda && b.sclFree) = true := by simp [Bus.sda, Bus.drvSda, Drive.and, Bus.sclFree, hs, he, hd]
  rw [masterStep_recover hl hm, Bus.recoverStep, if_pos hfree, slaveSeesOwnStop_released (by exact hs)]
  rfl

theorem runMaster_cons {d : Draw} {r r2 : Bus × Memory} (ds : List (Draw × SrcPick)) (h : r.1.masterStep p r.2 d pk = some r2) :
    Bus.runMaster p ((d, pk) :: ds) r = Bus.runMaster p ds r2 := by
  rw [Bus.runMaster, h]

/-- Pulses go out one by one; the last of them releases SDA, and the STOP follows. -/
theorem runMaster_recover (k j : Nat) (hl : b.live) (hm : b.mstate = .recover j) (hs : b.sDrv = {})
    (he : b.env = { sda := .low }) (hk : j + k + 1 ≤ p.recoverPulses) :
    Bus.runMaster p (List.replicate k (.pulse false, pk) ++ [(.pulse true, pk), (.line .ok, pk)]) (b, mem) =
      some ({ b with mDrv := {}, busBusy := false, cmd := 0, mstate := .idle, isr := b.isr ||| 0x2000, env := {},
                     lastSlot := b.lastSlot.afterCond, sstate := if b.slaveEn then .idle else b.sstate, sclTiming := b.timing,
                     wire := .p :: (List.replicate (k + 1) .pulse ++ b.wire) }, mem) := by
  induction k generalizing b j with
  | zero =>
    refine (runMaster_cons _ (recover_pulse true hl hm hs he hk)).trans ?_
    refine (runMaster_cons _ (recover_stop hl rfl hs rfl rfl)).trans ?_
    simp [Bus.runMaster]
  | succ k ih =>
    refine (runMaster_cons _ (recover_pulse false hl hm hs he (by omega))).trans ?_
    refine (ih (j + 1) (by exact hl) rfl (by exact hs) rfl (by omega)).trans ?_
    simp [List.replicate_succ' (n := k + 1)]

/-- Where neither a STOP nor a pulse is possible and no timeout is on, a recovery has no step (R272). -/
theorem recover_blocked {k : Nat} (hscl : b.env.scl = .low) (hsda : b.env.sda = .low) (hk : k < p.recoverPulses)
    (ht : b.timeout = 0) (d : Draw) : b.recoverStep p k d = none := by
  cases d with
  | line r =>
    cases r with
    | ok => simp [Bus.recoverStep, sda_of_env_low hsda]
    | sclTo => simp [Bus.recoverStep, Bus.lineTimeout, Bus.timeoutsOn, ht]
    | arb => rfl
    | sdaTo => rfl
  | pulse release => simp [Bus.recoverStep, sclFree_of_env_low hscl]
  | failed r => simp [Bus.recoverStep, Nat.not_le.2 hk]
  | tx r => rfl
  | rx r => rfl
  | busy w => rfl

end Sys2Proof.Laws

end

section

open Sys2Proof Sys2Proof.Machine Sys2Proof.Laws

/-- Settles O28: each pulse is one step (`recover_pulse`), the STOP follows the release (`recover_stop`), and no pulse goes out
beyond RECOVER_PULSES. -/
theorem recoverFreesBus : Obligations.RecoverFreesBus := by
  intro p mem b hl hm hd hs hscl done
  refine ⟨fun hsda => ?_, fun hsda k hk => ?_, fun hsda k hk r => ?_⟩
  · have he : b.env = {} := env_eq hscl hsda
    rw [recover_stop hl hm hs he (by rw [hd])]
    simp only [done, hd, he]
  · have he : b.env = { sda := .low } := env_eq hscl hsda
    rw [runMaster_recover k 0 hl hm hs he (by omega)]
    simp only [done, hd]
  · rw [masterStep_recover (by exact hl) rfl, Bus.recoverStep, if_neg (by simp [Nat.not_lt.2 hk]), Option.map_none]

/-- Settles O29: each clause is a branch of `Bus.recoverStep`; with TIMEOUT 0 none is left (`recover_blocked`). -/
theorem recoverFails : Obligations.RecoverFails := by
  intro p mem b k r pk hl hm ended
  have hstep (d : Draw) : b.masterStep p mem d pk = (b.recoverStep p k d).map (·, mem) := masterStep_recover hl hm
  refine ⟨fun hsda hk => ?_, fun hscl hsda hk ht => ?_, fun hscl hsda hk ht d => ?_, fun hscl => ?_, fun hsda hk r2 => ?_⟩
  · rw [hstep, Bus.recoverStep, if_pos (by simp [sda_of_env_low hsda, hk])]
    cases p.recoverFail.getD r
    · rfl
    · simp [Bus.recoverFailed, Bus.recoverEnd, ended]
  · rw [hstep, Bus.recoverStep, if_pos (by simp [lineTimeout_scl.2 ⟨hscl, ht⟩, hk])]
    simp [Bus.recoverTimeout, sda_of_env_low hsda, Bus.recoverEnd, Bus.setStatus, maskSclTimeout, ended]
  · rw [hstep, recover_blocked hscl hsda hk ht, Option.map_none]
  · rw [hstep, Bus.recoverStep, if_neg (by simp [Bus.lineTimeout, hscl]), Option.map_none]
  · rw [hstep, Bus.recoverStep, if_neg (by simp [Nat.not_le.2 hk]), Option.map_none]

end

section

namespace Sys2Proof.Laws

open Sys2Proof Sys2Proof.Machine

variable {p : Params} {mem mem2 : Memory} {b c : Bus} {rest : List Phase} {pr : Progress} {pk : SrcPick} {path : Path}
  {f : SlotFault} {i n : Nat} {last : Bool} {v : Byte}

/-! ## Faults in a slot -/

/-- What a slot's fault leaves of `c`, which only a count, `dma_ptr` and records set apart from the bus `b` before the step (R257,
R262). -/
def slotAborted (b : Bus) (f : SlotFault) (pk : SrcPick) (l : LastSlot) (c : Bus) : Bus :=
  { c with mDrv := {}, own := false, cmd := 0, mstate := .idle, lastSlot := l, isr := b.isr ||| f.bit,
           sclTiming := if pk.timing = 0 then b.timing else b.sclTiming, busBusy := f.latch b.busBusy }

theorem slotFault_ranSlot (f : SlotFault) (pk : SrcPick) (l : LastSlot) (c : Bus) :
    (c.ranSlot l).slotFault f pk = slotAborted c f pk l c := by
  rw [slotFault_fields]
  rfl

/-- The count recorded before the abort changes nothing that the abort reads. -/
theorem slotAborted_setMoved (f : SlotFault) (pk : SrcPick) (l : LastSlot) (path : Path) (k : Nat) (b c : Bus) :
    slotAborted (Bus.setMoved path k b) f pk l c = slotAborted b f pk l c := by
  simp [slotAborted]

theorem advanceDma_eq (path : Path) (b : Bus) :
    b.advanceDma path = { b with dmaPtr := if path = .dma then b.dmaPtr + 1 else b.dmaPtr } := by
  cases path <;> rfl

/-- A fault of the address slot, where the slot admits it. -/
theorem addrStep_fault (f : SlotFault) : b.addrStep p rest (.fault f) pk =
    if b.slotReady && b.slotFaultOk (b.sampleTxByte pk != 0) f then some (slotAborted b f pk .other b) else none := by
  rw [← slotFault_ranSlot]
  rfl

/-- A fault of a transmit slot: the bytes before it are counted. -/
theorem txMove_fault (f : SlotFault) (hsrc : b.txSource p mem path i pk = some v) :
    b.txMove p mem path i n rest (.fault f) pk =
      if b.slotFaultOk (v != 0) f then
        some (slotAborted b f pk .other
          (Bus.setMoved path i { b with dmaPtr := if path = .dma then b.dmaPtr + 1 else b.dmaPtr }))
      else none := by
  rw [Bus.txMove, hsrc, advanceDma_eq]
  dsimp only [Bus.txSlot, Bus.txAdmits]
  rw [slotFault_ranSlot, slotAborted_setMoved]
  rfl

/-- A fault of a receive slot, whose ninth bit says what R248 needs to know. -/
theorem rxMove_fault (f : SlotFault) : b.rxMove p mem path last i n rest (.fault f) pk =
    if b.slotFaultOk (rxAnswer last i n == .nak) f then
      some (slotAborted b f pk (rxAnswer last i n).rxSlot (Bus.setMoved path i b), mem)
    else none := by
  rw [← slotAborted_setMoved f pk _ path i b, ← slotFault_ranSlot]
  rfl

theorem rxAnswer_rxSlot : (rxAnswer last i n).rxSlot = if last = true ∧ i + 1 = n then .other else .read := by
  by_cases h : last = true ∧ i + 1 = n <;> simp [rxAnswer, h, Ack.rxSlot]

theorem rxAnswer_ack : rxAnswer last i n = .ack ↔ last = false ∨ i + 1 ≠ n := by
  cases last <;> simp [rxAnswer]

/-! ## The steps of slots -/

theorem masterStep_addrSlot (r : TxResult) (hl : b.live) (hm : b.mstate = .exec (.addr :: rest) .started) :
    b.masterStep p mem (.tx r) pk = (b.addrStep p rest r pk).map (·, mem) :=
  masterStep_exec hl hm

/-- A transmit phase that is not refused takes its first byte in the step that begins it (R330 to R332). -/
theorem txStep_fresh (r : TxResult) (h : b.beginTx p path pk = some (n, c)) :
    b.txStep p mem path .fresh rest r pk = c.txMove p mem path 0 n rest r pk := by
  rw [Bus.txStep, h]

theorem rxStep_fresh (r : RxResult) (h : b.beginRx p path pk = some (n, c)) :
    b.rxStep p mem path last .fresh rest r pk = c.rxMove p mem path last 0 n rest r pk := by
  rw [Bus.rxStep, h]

/-- `do_start` is no slot. -/
theorem startStep_slot_none {d : Draw} (h : ∀ r w, d ≠ .line r ∧ d ≠ .busy w) : b.startStep p pr rest d = none := by
  cases d with
  | line r => exact absurd rfl (h r .wait).1
  | busy w => exact absurd rfl (h .ok w).2
  | _ => cases pr <;> simp [Bus.startStep]

/-- So an address phase whose slot has no such step has none. -/
theorem masterStep_addrSlot_none {r : TxResult} (hm : b.mstate = .exec (.addr :: rest) pr) (h : b.addrStep p rest r pk = none) :
    b.masterStep p mem (.tx r) pk = none := by
  have hstart : b.startStep p pr rest (.tx r) = none := startStep_slot_none (by simp)
  cases pr <;> simp [Bus.masterStep, hm, Bus.phaseStep, h, hstart]

theorem masterStep_tx_none {r : TxResult} (hm : b.mstate = .exec (.tx path :: rest) pr)
    (h : b.txStep p mem path pr rest r pk = none) : b.masterStep p mem (.tx r) pk = none := by
  simp [Bus.masterStep, hm, Bus.phaseStep, h]

theorem masterStep_rx_none {r : RxResult} (hm : b.mstate = .exec (.rx path last :: rest) pr)
    (h : b.rxStep p mem path last pr rest r pk = none) : b.masterStep p mem (.rx r) pk = none := by
  simp [Bus.masterStep, hm, Bus.phaseStep, h]

/-! ## Timeouts with TIMEOUT off -/

/-- The step ends before its slot: the phase is refused, or the bus is stuck at an unmapped address. -/
def EndsBeforeSlot (b c : Bus) : Prop := (c.refused = true ∨ c.stuck = true) ∧ c.isr = b.isr

variable (ht : b.timeout = 0) (hf : f = .sclTo ∨ f = .sdaTo)
include ht hf

theorem slotFaultOk_off (arb : Bool) : b.slotFaultOk arb f = false := by
  rcases hf with rfl | rfl <;> simp [Bus.slotFaultOk, Bus.timeoutsOn, ht]

theorem txMove_off (h : b.txMove p mem path i n rest (.fault f) pk = some c) : EndsBeforeSlot b c := by
  cases hsrc : b.txSource p mem path i pk with
  | none =>
    rw [Bus.txMove, hsrc] at h
    cases h
    exact ⟨.inr rfl, rfl⟩
  | some v =>
    rw [txMove_fault f hsrc, slotFaultOk_off ht hf] at h
    cases h

theorem txStep_off (h : b.txStep p mem path pr rest (.fault f) pk = some c) : EndsBeforeSlot b c := by
  cases pr with
  | fresh =>
    cases hbegin : b.beginTx p path pk with
    | none =>
      rw [Bus.txStep, hbegin] at h
      cases h
      exact ⟨.inl rfl, rfl⟩
    | some r =>
      obtain ⟨hisr, htimeout⟩ := isr_beginTx hbegin
      rw [txStep_fresh _ hbegin] at h
      obtain ⟨hmark, hsame⟩ := txMove_off (htimeout.trans ht) hf h
      exact ⟨hmark, hsame.trans hisr⟩
  | moving i n => exact txMove_off ht hf h
  | waitBus => cases h
  | started => cases h

theorem rxStep_off (h : b.rxStep p mem path last pr rest (.fault f) pk = some (c, mem2)) : EndsBeforeSlot b c ∧ mem2 = mem := by
  cases pr with
  | fresh =>
    cases hbegin : b.beginRx p path pk with
    | none =>
      rw [Bus.rxStep, hbegin] at h
      cases h
      exact ⟨⟨.inl rfl, rfl⟩, rfl⟩
    | some r =>
      rw [rxStep_fresh _ hbegin, rxMove_fault, slotFaultOk_off ((isr_beginRx hbegin).2.trans ht) hf] at h
      cases h
  | moving i n =>
    rw [Bus.rxStep, rxMove_fault, slotFaultOk_off ht hf] at h
    cases h
  | waitBus => cases h
  | started => cases h

theorem phaseStep_off {ph : Phase} {d : Draw} (hd : d = .tx (.fault f) ∨ d = .rx (.fault f))
    (h : b.phaseStep p mem ph pr rest d pk = some (c, mem2)) : EndsBeforeSlot b c ∧ mem2 = mem := by
  unfold Bus.phaseStep at h
  split at h
  · obtain hd | hd := hd <;> cases hd
    rw [addrStep_fault, slotFaultOk_off ht hf, Bool.and_false] at h
    cases h
  · cases h
  · cases h
  · rw [startStep_slot_none (by rcases hd with rfl | rfl <;> simp)] at h
    cases h
  · obtain hd | hd := hd <;> cases hd
    obtain ⟨c2, hstep, he⟩ := Option.map_eq_some_iff.1 (Option.ite_none_right_eq_some.1 h).2
    cases he
    exact ⟨txStep_off ht hf hstep, rfl⟩
  · obtain hd | hd := hd <;> cases hd
    exact rxStep_off ht hf (Option.ite_none_right_eq_some.1 h).2
  · obtain hd | hd := hd <;> cases hd
  · cases h

end Sys2Proof.Laws

end

section

open Sys2Proof Sys2Proof.Machine Sys2Proof.Laws

/-- Settles O20: a slot's fault is `slotAborted` of the bus with the bytes before it counted (`addrStep_fault`, `txMove_fault`,
`rxMove_fault`), in the first slot of a phase too (`txStep_fresh`, `rxStep_fresh`). -/
theorem slotFaultAborts : Obligations.SlotFaultAborts := by
  intro p mem b f rest pk hl hown hscl ends
  have hready : b.slotReady = true := by simp [Bus.slotReady, hown, hscl]
  refine ⟨fun hm hok => ?addr, fun path i n v hm hsrc hok => ?txMoving, fun path n v c hm hbegin hsrc hok => ?txFresh,
    fun path last i n hm hok => ?rxMoving, fun path last n c hm hbegin hok => ?rxFresh⟩
  case addr =>
    rw [masterStep_addrSlot _ hl hm, addrStep_fault, if_pos (by simp only [hready, hok, Bool.and_self])]
    rfl
  case txMoving =>
    rw [masterStep_tx _ hl hown hscl hm, Bus.txStep, txMove_fault f hsrc, if_pos hok]
    rfl
  case txFresh =>
    obtain ⟨-, -, a, rfl⟩ := beginTx_spec hbegin
    rw [masterStep_tx _ hl hown hscl hm, txStep_fresh _ hbegin, txMove_fault f hsrc, if_pos (by exact hok)]
    rfl
  case rxMoving =>
    rw [masterStep_rx _ hl hown hscl hm, Bus.rxStep, rxMove_fault, if_pos hok, rxAnswer_rxSlot]
    rfl
  case rxFresh =>
    obtain ⟨-, -, a, x, y, rfl⟩ := beginRx_spec hbegin
    rw [masterStep_rx _ hl hown hscl hm, rxStep_fresh _ hbegin, rxMove_fault, if_pos (by exact hok), rxAnswer_rxSlot]
    simp only [Nat.zero_add, eq_comm (a := 1)]
    rfl

/-- Settles O21: arbitration loss needs a released bit (`Bus.slotFaultOk`), and with TIMEOUT 0 no slot ends in a timeout, so that
only a step that ends before its slot is left (`txStep_off`, `rxStep_off`). -/
theorem slotFaultsAdmitted : Obligations.SlotFaultsAdmitted := by
  intro p mem b ph rest pr pk hm
  refine ⟨fun ht f hf d hd => ?off, ?addr, ?txMoving, ?txFresh, ?rxMoving, ?rxFresh, fun _ _ _ => rxAnswer_ack⟩
  case off =>
    simp only [List.mem_cons, List.not_mem_nil, or_false] at hf hd
    cases hstep : b.masterStep p mem d pk with
    | none => exact .inl rfl
    | some r =>
      unfold Bus.masterStep at hstep
      rw [hm] at hstep
      obtain ⟨hends, hmem⟩ := phaseStep_off ht hf hd (Option.ite_none_left_eq_some.1 hstep).2
      exact .inr ⟨r.1, by rw [← hmem], hends⟩
  case addr =>
    rintro rfl hv
    exact masterStep_addrSlot_none hm (by simp [addrStep_fault, hv, Bus.slotFaultOk])
  case txMoving =>
    rintro path i n rfl rfl hsrc
    exact masterStep_tx_none hm (by simp [Bus.txStep, txMove_fault _ hsrc, Bus.slotFaultOk])
  case txFresh =>
    rintro path n c rfl rfl hbegin hsrc
    exact masterStep_tx_none hm (by simp [txStep_fresh _ hbegin, txMove_fault _ hsrc, Bus.slotFaultOk])
  case rxMoving =>
    rintro path last i n rfl rfl hack
    exact masterStep_rx_none hm (by simp [Bus.rxStep, rxMove_fault, hack, Bus.slotFaultOk])
  case rxFresh =>
    rintro path last n c rfl rfl hbegin hack
    exact masterStep_rx_none hm (by simp [rxStep_fresh _ hbegin, rxMove_fault, hack, Bus.slotFaultOk])

end

section

namespace Sys2Proof.Laws

open Sys2Proof Sys2Proof.Machine

variable {i : Instr} {s t : State} {b : Bus}

/-! ## Acceptance of master commands -/

/-- Where a master command or RECOVER is accepted: its row of R304's table. -/
def masterTakes (i : Instr) : Bus → Bool :=
  if i = .recover then Bus.takesRecover else if i = .mstop then Bus.takesStop
  else if i.hasStart then Bus.takesStart else Bus.takesData

/-- The master state in which an accepted master command or RECOVER begins (R301, R337). -/
def masterBegins (i : Instr) : MState := if i = .recover then .recover 0 else .exec (phaseList (code i)) .fresh

/-- Every master command and RECOVER is one acceptance, by its row of the table. -/
theorem exec_master (h : i.isMaster = true) :
    exec i s = s.onSel (Bus.command (masterTakes i) (code i) (masterBegins i)) := by
  cases i <;> cases h <;> rfl

theorem exec_master_accepted (h : i.isMaster = true) (hb : s.buses[s.sel]? = some b) (ht : masterTakes i b = true) :
    exec i s = .next (s.setBus s.sel { b with cmd := code i, mstate := masterBegins i, stale := {} }) := by
  rw [exec_master h, onSel_next _ hb, Bus.command, if_pos ht]
  rfl

theorem exec_master_refused (h : i.isMaster = true) (hb : s.buses[s.sel]? = some b) (ht : masterTakes i b = false) :
    exec i s = .next (s.setBus s.sel { b with refused := true }) := by
  rw [exec_master h, onSel_next _ hb, Bus.command, ht]
  rfl

/-! ## The rows of R304's table -/

theorem isMaster_of_hasStart (h : i.hasStart = true) : i.isMaster = true := by simp [Instr.isMaster, h]

theorem isMaster_of_isData (h : i.isData = true) : i.isMaster = true := by simp [Instr.isMaster, h]

theorem masterTakes_hasStart (h : i.hasStart = true) : masterTakes i = Bus.takesStart := by
  cases i <;> cases h <;> rfl

theorem masterTakes_isData (h : i.isData = true) : masterTakes i = Bus.takesData := by
  cases i <;> cases h <;> rfl

theorem masterBegins_phases (h : i ≠ .recover) : masterBegins i = .exec (phaseList (code i)) .fresh := if_neg h

theorem ne_recover_of_hasStart (h : i.hasStart = true) : i ≠ .recover := by
  rintro rfl
  cases h

theorem ne_recover_of_isData (h : i.isData = true) : i ≠ .recover := by
  rintro rfl
  cases h

/-- No row is open in M_OFF, beside a command in progress or beside a running STX (R304, R338). -/
theorem masterTakes_open (h : masterTakes i b = true) : (b.mstate = .idle ∨ b.mstate = .hold) ∧ b.sstate.isTx = false := by
  unfold masterTakes at h
  split_ifs at h
  · simp only [Bus.takesRecover, Bool.and_eq_true, beq_iff_eq, Bool.not_eq_true'] at h
    exact ⟨.inl h.1, h.2⟩
  · simpa only [Bus.takesStop, Bool.and_eq_true, Bool.or_eq_true, beq_iff_eq, Bool.not_eq_true'] using h
  · simpa only [Bus.takesStart, Bool.and_eq_true, Bool.or_eq_true, beq_iff_eq, Bool.not_eq_true'] using h
  · simp only [Bus.takesData, Bool.and_eq_true, beq_iff_eq, Bool.not_eq_true'] at h
    exact ⟨.inr h.1, h.2⟩

end Sys2Proof.Laws

end

section

open Sys2Proof Sys2Proof.Machine Sys2Proof.Laws

/-- Settles O7: a command with M_START is accepted in its row's two states (`exec_master_accepted`). -/
theorem startCommandsAccepted : Obligations.StartCommandsAccepted := by
  intro i s b hi hb hm htx
  have htakes : masterTakes i b = true := by
    rw [masterTakes_hasStart hi]
    rcases hm with hm | hm <;> simp [Bus.takesStart, hm, htx]
  rw [exec_master_accepted (isMaster_of_hasStart hi) hb htakes, masterBegins_phases (ne_recover_of_hasStart hi)]

/-- Settles O8: so is an MTX or MRX form in M_HOLD. -/
theorem dataCommandsAccepted : Obligations.DataCommandsAccepted := by
  intro i s b hi hb hm htx
  have htakes : masterTakes i b = true := by simp [masterTakes_isData hi, Bus.takesData, hm, htx]
  rw [exec_master_accepted (isMaster_of_isData hi) hb htakes, masterBegins_phases (ne_recover_of_isData hi)]

/-- Settles O9: so are MSTOP, in both states, and RECOVER in M_IDLE. -/
theorem stopAndRecoverAccepted : Obligations.StopAndRecoverAccepted := by
  refine ⟨fun s b hb hm htx => exec_master_accepted rfl hb ?_, fun s b hb hm htx => exec_master_accepted rfl hb ?_⟩
  · change b.takesStop = true
    rcases hm with hm | hm <;> simp [Bus.takesStop, hm, htx]
  · change b.takesRecover = true
    simp [Bus.takesRecover, hm, htx]

/-- Settles O10: M_OFF, a command in progress and an STX are outside every row (`masterTakes_open`), the other two cells outside
one row each. -/
theorem masterCommandsRefused : Obligations.MasterCommandsRefused := by
  intro i s b hi hb hcell
  refine exec_master_refused hi hb (Bool.eq_false_iff.2 fun ht => ?_)
  obtain ⟨hm, htx⟩ := masterTakes_open ht
  rcases hcell with h | h | h | ⟨h, hd⟩ | ⟨h, rfl⟩
  · rcases hm with hm | hm <;> cases hm.symm.trans h
  · rcases hm with hm | hm <;> simp [hm, MState.busy] at h
  · cases htx.symm.trans h
  · simp [masterTakes_isData hd, Bus.takesData, h] at ht
  · change b.takesRecover = true at ht
    simp [Bus.takesRecover, h] at ht

/-- Settles O14: the write is `exec_master`, which accepts or refuses on the selected bus alone. -/
theorem masterCommandFrame : Obligations.MasterCommandFrame := by
  intro i s t hi hexec
  cases hb : s.buses[s.sel]? with
  | none => simp [exec_master hi, State.onSel, hb] at hexec
  | some b =>
    refine ⟨b, rfl, ?_⟩
    cases ht : masterTakes i b with
    | true =>
      rw [exec_master_accepted hi hb ht] at hexec
      cases hexec
      exact ⟨_, _, _, _, rfl⟩
    | false =>
      rw [exec_master_refused hi hb ht] at hexec
      cases hexec
      exact ⟨_, _, _, _, rfl⟩

end

section

namespace Sys2Proof.Laws

open Sys2Proof Sys2Proof.Machine

variable {p : Params} {mem : Memory} {b c : Bus} {rest : List Phase} {pr : Progress} {pk : SrcPick}

/-! ## A START on a busy bus -/

/-- The latch holds a START off, unless MULTI_MASTER_DIS lets a fresh one ignore it (R259, R305). -/
theorem mayStart_busy (hbusy : b.busBusy = true) (h : pr ≠ .fresh ∨ b.multiMasterDis = false ∨ p.mmDisEffect = .none) :
    b.mayStart p pr = false := by
  rcases h with h | h | h <;> simp [Bus.mayStart, hbusy, h]

/-- So the step of such a START is the draw of START_WHEN_BUSY. -/
theorem masterStep_busy (w : BusyChoice) (hl : b.live) (hm : b.mstate = .exec (.addr :: rest) .fresh) (hown : b.own = false)
    (hmay : b.mayStart p .fresh = false) :
    b.masterStep p mem (.busy w) pk =
      some (if p.startWhenBusy.getD w = .wait then { b with mstate := .exec (.addr :: rest) .waitBus } else b.mAbort maskArbLoss,
        mem) := by
  rw [masterStep_exec hl hm]
  simp only [Bus.phaseStep, Bus.startStep, hown, hmay, Bool.false_eq_true, if_false, Params.whenBusy]
  cases p.startWhenBusy.getD w <;> rfl

/-- A START that waits has no step while the latch stays 1. -/
theorem masterStep_waitBus_none (hl : b.live) (hm : b.mstate = .exec (.addr :: rest) .waitBus) (hown : b.own = false)
    (hbusy : b.busBusy = true) (d : Draw) : b.masterStep p mem d pk = none := by
  have hmay : b.mayStart p .waitBus = false := mayStart_busy hbusy (.inl (by simp))
  rw [masterStep_exec hl hm]
  simp [Bus.phaseStep, Bus.startStep, hown, hmay]

end Sys2Proof.Laws

end

section

open Sys2Proof Sys2Proof.Machine Sys2Proof.Laws

/-- Settles O17: the latch holds the START off (`mayStart_busy`), so a fresh one draws (`masterStep_busy`) and a waiting one has no
step. -/
theorem startOnBusyBus : Obligations.StartOnBusyBus := by
  intro p mem b rest w pk hl hown hbusy sees
  refine ⟨fun hsees hm hw => ?_, fun hsees hm hw => ?_, fun hm => masterStep_waitBus_none hl hm hown hbusy⟩
  · rw [masterStep_busy w hl hm hown (mayStart_busy hbusy (.inr hsees)), if_pos hw]
  · rw [masterStep_busy w hl hm hown (mayStart_busy hbusy (.inr hsees)), if_neg (by simp [hw])]
    rfl

end

section

namespace Sys2Proof.Laws

open Sys2Proof Sys2Proof.Machine

variable {p : Params} {mem : Memory} {b c : Bus} {rest : List Phase} {pr : Progress} {pk : SrcPick}

/-! ## The address slot -/

/-- A slot may begin: the master owns the bus and holds SCL low (R245). -/
theorem slotReady_of_own (hown : b.own = true) (hscl : b.mDrv.scl = .low) : b.slotReady = true := by
  simp [Bus.slotReady, hown, hscl]

theorem sampleTxByte_current (hst : b.stale = {}) (pk : SrcPick) : b.sampleTxByte pk = b.txByte := by
  simp [Bus.sampleTxByte, hst, pickOld]

/-- With no phase left the master holds the bus (R308). -/
theorem nextPhase_nil_own (hown : b.own = true) (hscl : b.mDrv.scl = .low) :
    b.nextPhase [] = { b with cmd := 0, mstate := .hold } := by
  rw [nextPhase_nil, Bus.endCommand, if_pos hown, ← hscl]

theorem nextPhase_ne_nil (h : rest ≠ []) :
    b.nextPhase rest = { b with cmd := b.cmd &&& pendingBits rest, mstate := .exec rest .fresh } := by
  cases rest with
  | nil => exact absurd rfl h
  | cons ph rest => rfl

theorem afterNak_of_not_mem (h : .stop ∉ rest) : afterNak rest = [] := by
  simp only [afterNak, List.filter_eq_nil_iff, beq_iff_eq]
  rintro ph hph rfl
  exact h hph

/-- The bus after an address byte that was answered A, before the next phase. -/
def addressAcked (p : Params) (rest : List Phase) (b : Bus) : Bus :=
  { b with mDrv := { scl := .low, sda := .rel }, sclTiming := b.timing,
           lastSlot := if b.txByte.getLsbD 0 then .address else .other,
           isr := b.isr ||| b.addrAckStatus p rest,
           wire := .byte b.txByte .ack :: b.wire }

/-- The bus after an address byte that was answered N. -/
def addressNaked (b : Bus) : Bus :=
  { b with mDrv := { scl := .low, sda := .rel }, sclTiming := b.timing, lastSlot := .other, isr := b.isr ||| 0x2,
           wire := .byte b.txByte .nak :: b.wire }

/-- TX_ACK is set or nothing is. -/
theorem or_addrAckStatus (p : Params) (rest : List Phase) (b : Bus) : b.isr ||| b.addrAckStatus p rest =
    if !nextIsTx rest && !(b.cmd == 0x023 && !p.zlAddrAck) then b.isr ||| 0x1 else b.isr := by
  rw [Bus.addrAckStatus]
  split_ifs
  · rfl
  · exact BitVec.or_zero

/-- The address slot answered A and answered N (R306, R309). -/
theorem masterStep_address (hl : b.live) (ha : b.alone) (hm : b.mstate = .exec (.addr :: rest) .started) (hown : b.own = true)
    (hscl : b.mDrv.scl = .low) (hst : b.stale = {}) :
    b.masterStep p mem (.tx .ack) pk = some ((addressAcked p rest b).nextPhase rest, mem) ∧
      b.masterStep p mem (.tx .nak) pk = some ((addressNaked b).nextPhase (afterNak rest), mem) := by
  have hfree : b.sclFree = true := (alone_free ha).1
  have hready : b.slotReady = true := slotReady_of_own hown hscl
  have hbyte : b.sampleTxByte pk = b.txByte := sampleTxByte_current hst pk
  refine ⟨?_, ?_⟩
  · rw [masterStep_addrSlot _ hl hm, Bus.addrStep, hbyte, if_pos (by simp [hready, hfree, Bus.txAdmits])]
    rfl
  · rw [masterStep_addrSlot _ hl hm, Bus.addrStep, hbyte, if_pos (by simp [hready, hfree, Bus.txAdmits])]
    rfl

end Sys2Proof.Laws

end

section

open Sys2Proof Sys2Proof.Machine Sys2Proof.Laws

/-- Settles O19: the slot's two answers (`masterStep_address`), then the phases that are left, if any. -/
theorem addressPhase : Obligations.AddressPhase := by
  intro p mem b rest hl ha hm hown hscl hst b1 sets a n
  obtain ⟨hack, hnak⟩ := masterStep_address (p := p) (mem := mem) (pk := current) hl ha hm hown hscl hst
  refine ⟨?_, fun hrest => ?_, fun hstop => ?_, fun hrest => ?_⟩
  · rintro rfl
    rw [hack, nextPhase_nil_own (by exact hown) rfl, addressAcked, or_addrAckStatus]
  · rw [hack, nextPhase_ne_nil hrest, addressAcked, or_addrAckStatus]
  · rw [hnak, afterNak_of_not_mem hstop, nextPhase_nil_own (by exact hown) rfl]
    rfl
  · have hnak2 : afterNak rest = [.stop] := by
      rcases hrest with rfl | ⟨q, rfl⟩ | ⟨q, l, rfl⟩ <;> rfl
    rw [hnak, hnak2]
    rfl

end

section

namespace Sys2Proof.Laws

open Sys2Proof Sys2Proof.Machine

variable {p : Params} {mem : Memory} {a b c : Bus} {pk : SrcPick}

/-! ## What the remote side leaves of the master function -/

/-- The master function of `c` is as in `b`. -/
structure SameMaster (b c : Bus) : Prop where
  mstate : c.mstate = b.mstate
  own : c.own = b.own
  mDrv : c.mDrv = b.mDrv

theorem SameMaster.refl (b : Bus) : SameMaster b b := ⟨rfl, rfl, rfl⟩

theorem SameMaster.of (h : SameMaster b c) (hb : b.mstate = a.mstate ∧ b.own = a.own ∧ b.mDrv = a.mDrv) : SameMaster a c :=
  ⟨h.mstate.trans hb.1, h.own.trans hb.2.1, h.mDrv.trans hb.2.2⟩

theorem sameMaster_slaveStart (b : Bus) : SameMaster b b.slaveStart := by
  unfold Bus.slaveStart
  split <;> constructor <;> simp

theorem sameMaster_slaveStop (b : Bus) : SameMaster b b.slaveStop := by
  unfold Bus.slaveStop
  split_ifs <;> constructor <;> simp

theorem sameMaster_slaveMid (k : Cond) (b : Bus) : SameMaster b (b.slaveMid k) := by
  unfold Bus.slaveMid
  split
  · cases k <;> constructor <;> simp
  · cases k with
    | start => exact sameMaster_slaveStart b
    | stop => exact sameMaster_slaveStop b

theorem sameMaster_batchNext (b : Bus) : SameMaster b b.batchNext := by
  unfold Bus.batchNext
  dsimp only
  split <;> constructor <;> simp

theorem sameMaster_slaveStore (d : Byte) (b : Bus) : SameMaster b (b.slaveStore p mem d).1 := by
  unfold Bus.slaveStore
  dsimp only
  split
  · exact ⟨rfl, rfl, rfl⟩
  · exact (sameMaster_batchNext _).of ⟨rfl, rfl, rfl⟩
  · split
    · exact (sameMaster_batchNext _).of ⟨rfl, rfl, rfl⟩
    · exact ⟨rfl, rfl, rfl⟩

theorem sameMaster_slaveWrite (d : Byte) (b : Bus) : SameMaster b (b.slaveWrite p mem d).1 := by
  unfold Bus.slaveWrite
  split
  · dsimp only
    split <;> exact ⟨rfl, rfl, rfl⟩
  · exact sameMaster_slaveStore d b
  · exact .refl b

theorem sameMaster_stxAnswered (path : Path) (v : Byte) (k : Ack) (b : Bus) : SameMaster b (b.stxAnswered path v k) := by
  unfold Bus.stxAnswered
  dsimp only
  split
  · split <;> constructor <;> simp
  · constructor <;> simp

theorem sameMaster_slaveRead (k : Ack) (b : Bus) : SameMaster b (b.slaveRead p mem k pk) := by
  unfold Bus.slaveRead
  split
  · split
    · exact ⟨rfl, rfl, rfl⟩
    · exact sameMaster_stxAnswered _ _ k b
  · exact .refl b

theorem sameMaster_slaveTimeout (l : Line) (b : Bus) : SameMaster b (b.slaveTimeout l) := by
  constructor <;> simp [Bus.slaveTimeout]

theorem sameMaster_remoteStep {e : EnvEvent} {r : Bus × Memory} (h : b.remoteStep p mem e pk = some r) : SameMaster b r.1 := by
  cases e with
  | s =>
    cases (Option.ite_none_right_eq_some.1 h).2
    exact (sameMaster_slaveStart _).of ⟨rfl, rfl, rfl⟩
  | sr =>
    cases (Option.ite_none_right_eq_some.1 h).2
    exact sameMaster_slaveStart b
  | p =>
    cases (Option.ite_none_right_eq_some.1 h).2
    exact (sameMaster_slaveStop _).of ⟨rfl, rfl, rfl⟩
  | wbyte d =>
    cases (Option.ite_none_right_eq_some.1 h).2
    exact sameMaster_slaveWrite d b
  | rbyte k =>
    cases (Option.ite_none_right_eq_some.1 h).2
    exact sameMaster_slaveRead k b
  | mid k =>
    cases (Option.ite_none_right_eq_some.1 h).2
    exact (sameMaster_slaveMid k _).of ⟨rfl, rfl, rfl⟩
  | timeout l =>
    cases (Option.ite_none_right_eq_some.1 h).2
    exact sameMaster_slaveTimeout l b
  | hold l => cases h
  | release l => cases h

theorem sameMaster_envStep {e : EnvEvent} {r : Bus × Memory} (h : b.envStep p mem e pk = some r) : SameMaster b r.1 := by
  unfold Bus.envStep at h
  obtain ⟨-, h⟩ := Option.ite_none_left_eq_some.1 h
  split at h
  · cases h
    exact ⟨rfl, rfl, rfl⟩
  · cases h
    exact ⟨rfl, rfl, rfl⟩
  · exact sameMaster_remoteStep (Option.ite_none_left_eq_some.1 h).2

theorem sameMaster_slaveStep (h : b.slaveStep = some c) : SameMaster b c := by
  cases (Option.ite_none_right_eq_some.1 h).2
  exact ⟨rfl, rfl, rfl⟩

/-- The engine moves in M_EXEC and M_RECOVER only. -/
theorem masterStep_waits {d : Draw} (hm : b.mstate = .off ∨ b.mstate = .idle ∨ b.mstate = .hold) :
    b.masterStep p mem d pk = none := by
  rcases hm with h | h | h <;> simp [Bus.masterStep, h]

end Sys2Proof.Laws

end

section

open Sys2Proof Sys2Proof.Machine Sys2Proof.Laws

/-- Settles O27: the engine moves in M_EXEC and M_RECOVER only (`masterStep_waits`), and the remote side and the slave keep
the master function (`SameMaster`). -/
theorem masterWaitsForTheHost : Obligations.MasterWaitsForTheHost := by
  refine ⟨fun p mem b d pk hm => masterStep_waits hm, fun p mem b e pk r h => ?_, fun b c h => ?_⟩
  · obtain ⟨hm, hown, hdrv⟩ := sameMaster_envStep h
    exact ⟨hm, hown, hdrv⟩
  · obtain ⟨hm, hown, hdrv⟩ := sameMaster_slaveStep h
    exact ⟨hm, hown, hdrv⟩

end

section

namespace Sys2Proof.Laws

open Sys2Proof Sys2Proof.Machine

variable {p : Params} {mem mem2 : Memory} {b c : Bus} {rest : List Phase} {pr : Progress} {pk : SrcPick} {path : Path}
  {last : Bool}

/-! ## The frame of whole engine steps -/

theorem keeps_addrStep {r : TxResult} (h : b.addrStep p rest r pk = some c) : EngineKeeps b c := by
  cases (Option.ite_none_right_eq_some.1 h).2
  cases r with
  | ack =>
    exact (keeps_slotDone _ _).trans <| (keeps_onWire _ _).trans <| (keeps_setStatus _ _).trans (keeps_nextPhase _ _)
  | nak =>
    exact (keeps_slotDone _ _).trans <| (keeps_onWire _ _).trans <| (keeps_setStatus _ _).trans (keeps_nextPhase _ _)
  | fault f => exact (keeps_ranSlot _ _).trans (keeps_slotFault _ _ _)

theorem keeps_refuse (b : Bus) : EngineKeeps b b.refuse := by constructor <;> simp

theorem keeps_txStep {r : TxResult} (h : b.txStep p mem path pr rest r pk = some c) : EngineKeeps b c := by
  cases pr with
  | fresh =>
    cases hbegin : b.beginTx p path pk with
    | none =>
      rw [Bus.txStep, hbegin] at h
      cases h
      exact keeps_refuse b
    | some begun =>
      rw [txStep_fresh _ hbegin] at h
      exact (keeps_beginTx hbegin).trans (keeps_txMove h)
  | moving i n => exact keeps_txMove h
  | waitBus => cases h
  | started => cases h

/-- The byte of a data phase whose turn it is. -/
def turnOf : Progress → Nat
  | .moving i _ => i
  | _ => 0

theorem keeps_rxStep {r : RxResult} (h : b.rxStep p mem path last pr rest r pk = some (c, mem2)) :
    RxKeeps path (turnOf pr) b c := by
  cases pr with
  | fresh =>
    cases hbegin : b.beginRx p path pk with
    | none =>
      rw [Bus.rxStep, hbegin] at h
      cases h
      exact (keeps_refuse b).x
    | some begun =>
      rw [rxStep_fresh _ hbegin] at h
      exact (keeps_beginRx hbegin).1.x.trans (keeps_rxMove h).1
  | moving i n => exact (keeps_rxMove h).1
  | waitBus => cases h
  | started => cases h

/-- Only a receive phase changes a register that `EngineKeeps` names. -/
theorem keeps_phaseStep {ph : Phase} {d : Draw} (h : b.phaseStep p mem ph pr rest d pk = some (c, mem2)) :
    EngineKeeps b c ∨ ∃ path last, ph = .rx path last ∧ RxKeeps path (turnOf pr) b c := by
  unfold Bus.phaseStep at h
  split at h
  · obtain ⟨c2, hstep, he⟩ := Option.map_eq_some_iff.1 h
    cases he
    exact .inl (keeps_addrStep hstep)
  · cases h
  · cases h
  · obtain ⟨c2, hstep, he⟩ := Option.map_eq_some_iff.1 h
    cases he
    exact .inl (keeps_startStep hstep)
  · obtain ⟨c2, hstep, he⟩ := Option.map_eq_some_iff.1 (Option.ite_none_right_eq_some.1 h).2
    cases he
    exact .inl (keeps_txStep hstep)
  · exact .inr ⟨_, _, rfl, keeps_rxStep (Option.ite_none_right_eq_some.1 h).2⟩
  · obtain ⟨c2, hstep, he⟩ := Option.map_eq_some_iff.1 h
    cases he
    exact .inl (keeps_stopStep hstep)
  · cases h

/-- A step of the engine is one of a receive phase, one of a recovery, or one that keeps all of it. -/
theorem keeps_masterStep {d : Draw} (h : b.masterStep p mem d pk = some (c, mem2)) :
    EngineKeeps b c ∨ (∃ path last rest pr, b.mstate = .exec (.rx path last :: rest) pr ∧ RxKeeps path (turnOf pr) b c) ∨
      (EngineKeeps { b with env := c.env } c ∧ c.env.scl = b.env.scl ∧ ((∀ r, d ≠ .pulse r) → c.env = b.env)) := by
  unfold Bus.masterStep at h
  obtain ⟨-, h⟩ := Option.ite_none_left_eq_some.1 h
  split at h
  · next ph rest pr hm =>
    rcases keeps_phaseStep h with hkeeps | ⟨path, last, rfl, hkeeps⟩
    · exact .inl hkeeps
    · exact .inr (.inl ⟨path, last, rest, pr, hm, hkeeps⟩)
  · obtain ⟨c2, hstep, he⟩ := Option.map_eq_some_iff.1 h
    cases he
    exact .inr (.inr (keeps_recoverStep hstep))
  · cases h

end Sys2Proof.Laws

end

section

open Sys2Proof Sys2Proof.Machine Sys2Proof.Laws

/-- Settles O34: a receive phase's step keeps `RxKeeps` for the byte whose turn it is, a recovery's all but the environment's SDA,
and every other step `EngineKeeps` (`keeps_masterStep`). -/
theorem engineFrame : Obligations.EngineFrame := by
  intro p mem b c d pk mem2 h
  rcases keeps_masterStep h with ⟨hregs, henv, hrx, hpool⟩ | ⟨path, last, rest, pr, hm, hregs, henv, hrx, hpool, hturn⟩ |
    ⟨⟨hregs, -, hrx, hpool⟩, hscl, henv⟩
  · exact ⟨hregs, fun _ => hrx, fun _ => hpool, fun _ _ _ _ _ _ _ => by rw [hpool], fun _ _ _ _ _ => by rw [hpool],
      fun _ => henv⟩
  · refine ⟨hregs, fun hno => hrx ?_, fun hno => hpool ?_, fun last' rest' i n hm' => ?_, fun last' rest' hm' => ?_,
      fun _ => henv⟩
    · rintro rfl
      exact hno _ _ _ hm
    · rintro rfl
      exact hno _ _ _ hm
    · cases hm.symm.trans hm'
      exact hturn
    · cases hm.symm.trans hm'
      exact hturn
  · exact ⟨by simpa only [hscl] using hregs, fun _ => hrx, fun _ => hpool, fun _ _ _ _ _ _ _ => by rw [hpool],
      fun _ _ _ _ _ => by rw [hpool], henv⟩

end

section

namespace Sys2Proof.Laws

open Sys2Proof Sys2Proof.Machine

variable {p : Params} {mem : Memory} {b c : Bus} {rest : List Phase} {path : Path} {last : Bool}

/-! ## Whole data phases -/

theorem runMaster_snoc {xs : List (Draw × SrcPick)} {d : Draw} {pk : SrcPick} {r r2 : Bus × Memory}
    (h : Bus.runMaster p xs r = some r2) : Bus.runMaster p (xs ++ [(d, pk)]) r = r2.1.masterStep p r2.2 d pk := by
  rw [runMaster_append, h]
  exact runMaster_single p d pk r2.1 r2.2

/-- Every data phase that fits moves a byte (R330 to R335). -/
theorem txBytes_length_pos (hf : b.txFits p path = true) : 0 < (b.txBytes mem path).length := by
  cases path with
  | byte => simp [Bus.txBytes]
  | buf => simp [Bus.txBytes]
  | dma =>
    simp only [Bus.txFits, Bus.dmaFits, Params.dmaRangeOk, Bool.and_eq_true, decide_eq_true_eq] at hf
    simp only [Bus.txBytes, List.length_map, List.length_range]
    omega

theorem rxCount_pos (hf : b.rxFits p path = true) : 0 < b.rxCount path := by
  cases path with
  | byte => exact Nat.one_pos
  | buf => exact Nat.succ_pos _
  | dma =>
    simp only [Bus.rxFits, Bus.dmaFits, Params.dmaRangeOk, Bool.and_eq_true, decide_eq_true_eq] at hf
    simp only [Bus.rxCount]
    omega

/-- The first `k` bytes of a transmit phase, each answered A, with more to come. -/
theorem runMaster_txAt (h : TxReady p mem b path rest) {k : Nat} (hk : k < (b.txBytes mem path).length) :
    Bus.runMaster p (List.replicate k (.tx .ack, current)) (b, mem) = some (txAt b path rest (b.txBytes mem path) k, mem) := by
  induction k with
  | zero => rfl
  | succ k ih =>
    have hbyte := List.getElem?_eq_getElem (Nat.lt_of_succ_lt hk)
    rw [List.replicate_succ', runMaster_snoc (ih (Nat.lt_of_succ_lt hk)), (txAt_answered h k _ hbyte).1, if_neg hk.ne]

/-- What has been received of a receive phase that goes on: nothing yet, or these bytes, each answered A. -/
def Receiving (b : Bus) (path : Path) (last : Bool) (rest : List Phase) (got : List Byte) (c : Bus) : Prop :=
  (got = [] ∧ c = b) ∨
    ∃ old oldm, c = afterRx b path got (got.reverse.map (fun d => .byte d .ack)) .read
      (.exec (.rx path last :: rest) (.moving got.length (b.rxCount path))) old oldm

variable (hl : b.live) (ha : b.alone) (hm : b.mstate = .exec (.rx path last :: rest) .fresh) (hown : b.own = true)
  (hscl : b.mDrv.scl = .low) (hst : b.stale = {}) (hf : b.rxFits p path = true)
include hl ha hm hown hscl hst hf

theorem runMaster_receiving (got : List Byte) (hgot : got.length < b.rxCount path) :
    ∃ c, Bus.runMaster p (got.map (fun d => (.rx (.data d), current))) (b, mem) = some (c, rxMemory b path mem got) ∧
      Receiving b path last rest got c := by
  induction got using List.reverseRecOn with
  | nil => exact ⟨b, by simp [Bus.runMaster, rxMemory, Memory.writeAll], .inl ⟨rfl, rfl⟩⟩
  | append_singleton xs d ih =>
    rw [List.length_append, List.length_singleton] at hgot
    obtain ⟨c, hrun, hc⟩ := ih (Nat.lt_of_succ_lt hgot)
    obtain ⟨old, oldm, hstep⟩ := (rxShape_step hl ha hm hown hscl hst hf xs d (Nat.lt_of_succ_lt hgot) c hc).1 hgot.ne
    rw [List.map_append, List.map_singleton, runMaster_snoc hrun, hstep]
    exact ⟨_, rfl, .inr ⟨old, oldm, by simp⟩⟩

/-- The last byte ends the phase. -/
theorem runMaster_received (xs : List Byte) (d : Byte) (hn : xs.length + 1 = b.rxCount path) :
    ∃ old oldm, Bus.runMaster p ((xs ++ [d]).map (fun d => (.rx (.data d), current))) (b, mem) =
      some (Bus.nextPhase rest (Bus.setMoved path (xs.length + 1)
        { afterRx b path (xs ++ [d]) (.byte d (if last then .nak else .ack) :: xs.reverse.map (fun d => .byte d .ack))
            (if last then .other else .read) b.mstate old oldm with isr := b.isr ||| 4 }), rxMemory b path mem (xs ++ [d])) := by
  have hlt : xs.length < b.rxCount path := by omega
  obtain ⟨c, hrun, hc⟩ := runMaster_receiving (mem := mem) hl ha hm hown hscl hst hf xs hlt
  obtain ⟨old, oldm, hstep⟩ := (rxShape_step hl ha hm hown hscl hst hf xs d hlt c hc).2 hn
  rw [List.map_append, List.map_singleton, runMaster_snoc hrun, hstep, hn]
  exact ⟨old, oldm, rfl⟩

end Sys2Proof.Laws

end

section

open Sys2Proof Sys2Proof.Machine Sys2Proof.Laws

/-- Settles O22: every byte but the last leaves the phase going on (`runMaster_txAt`), and the last one ends it. -/
theorem transmitPhaseAcknowledged : Obligations.TransmitPhaseAcknowledged := by
  intro p mem b path rest hl ha hm hown hscl hst hf bytes
  have hready : TxReady p mem b path rest := ⟨hl, ha, hm, hown, hscl, hst, hf⟩
  obtain ⟨k, hk⟩ : ∃ k, bytes.length = k + 1 := Nat.exists_eq_add_one.2 (txBytes_length_pos hf)
  have hlt : k < bytes.length := by omega
  have hlast := (txAt_answered hready k _ (List.getElem?_eq_getElem hlt)).1
  rw [if_pos hk.symm, ← hk, ackedItems, List.take_length] at hlast
  rw [hk, List.replicate_succ', runMaster_snoc (runMaster_txAt hready hlt), hlast, hk]
  rfl

/-- Settles O23: byte number `k` is answered N in the phase that the bytes before it left (`runMaster_txAt`). -/
theorem transmitPhaseNotAcknowledged : Obligations.TransmitPhaseNotAcknowledged := by
  intro p mem b path rest k hl ha hm hown hscl hst hf hk sent
  have hready : TxReady p mem b path rest := ⟨hl, ha, hm, hown, hscl, hst, hf⟩
  have hbyte := List.getElem?_eq_getElem hk
  have hsent : sent.reverse = (b.txBytes mem path)[k] :: ((b.txBytes mem path).take k).reverse := by
    simp only [sent]
    rw [List.take_add_one, hbyte, Option.toList_some, List.reverse_append, List.reverse_singleton, List.singleton_append]
  rw [runMaster_snoc (runMaster_txAt hready hk), (txAt_answered hready k _ hbyte).2, hsent]
  rfl

/-- Settles O24: every byte but the last leaves the phase going on (`runMaster_receiving`), and the last one ends it
(`runMaster_received`). -/
theorem receivePhase : Obligations.ReceivePhase := by
  intro p mem b path last rest ds hl ha hm hown hscl hst hf hn
  obtain rfl | ⟨xs, d, rfl⟩ := ds.eq_nil_or_concat'
  · exact absurd hn (rxCount_pos hf).ne
  rw [List.length_append, List.length_singleton] at hn ⊢
  obtain ⟨old, oldm, hrun⟩ := runMaster_received (mem := mem) hl ha hm hown hscl hst hf xs d hn
  refine ⟨_, _, hrun, ⟨old, oldm, ?_⟩, rfl⟩
  have hhead : (xs ++ [d]).headD b.rxByte = (xs ++ [d]).headD 0 := by cases xs <;> rfl
  simp only [afterRx, hhead, List.reverse_append, List.reverse_singleton, List.singleton_append, List.length_append,
    List.length_singleton]

end

section

namespace Sys2Proof.Laws

open Sys2Proof Sys2Proof.Machine

variable {p : Params} {mem mem2 : Memory} {b c : Bus} {ph rest : List Phase} {path : Path} {last stops : Bool} {isr : Word}
  {r r2 : Bus × Memory} {i : Instr}

/-! ## Runs of a command to its end -/

/-- A command has ended: off the bus after a STOP, else holding it, with these status bits. -/
structure Ended (stops : Bool) (isr : Word) (b : Bus) : Prop where
  cmd : b.cmd = 0
  live : b.live
  place : if stops then b.mstate = .idle ∧ b.own = false ∧ b.busBusy = false ∧ b.mDrv = {}
    else b.mstate = .hold ∧ b.own = true ∧ b.mDrv.scl = .low
  isr : b.isr = isr

/-- Some draws of the environment bring the command to its end. -/
def Completes (p : Params) (r : Bus × Memory) (stops : Bool) (isr : Word) : Prop :=
  ∃ (ds : List Draw) (b2 : Bus) (mem2 : Memory),
    Bus.runMaster p (ds.map (fun d => (d, current))) r = some (b2, mem2) ∧ Ended stops isr b2

theorem Completes.done (h : Ended stops isr b) : Completes p (b, mem) stops isr := ⟨[], b, mem, rfl, h⟩

theorem Completes.after (ds : List Draw) (hrun : Bus.runMaster p (ds.map (fun d => (d, current))) r = some r2)
    (h : Completes p r2 stops isr) : Completes p r stops isr := by
  obtain ⟨ds2, b2, mem2, hrun2, hend⟩ := h
  refine ⟨ds ++ ds2, b2, mem2, ?_, hend⟩
  rw [List.map_append, runMaster_append, hrun]
  exact hrun2

theorem Completes.afterStep (d : Draw) (hstep : b.masterStep p mem d current = some r2) (h : Completes p r2 stops isr) :
    Completes p (b, mem) stops isr :=
  .after [d] ((runMaster_single p d current b mem).trans hstep) h

/-- The master owns the bus, nothing else is on the lines, no source is older than its register, and the counts of these phases are
in range. -/
structure CanRun (p : Params) (ph : List Phase) (b : Bus) : Prop where
  live : b.live
  alone : b.alone
  own : b.own = true
  scl : b.mDrv.scl = .low
  stale : b.stale = {}
  txFits : ∀ path, .tx path ∈ ph → b.txFits p path = true
  rxFits : ∀ path last, .rx path last ∈ ph → b.rxFits p path = true

theorem CanRun.tail {x : Phase} (h : CanRun p (x :: rest) b) : CanRun p rest b :=
  { h with
    txFits := fun path hmem => h.txFits path (.tail _ hmem)
    rxFits := fun path last hmem => h.rxFits path last (.tail _ hmem) }

theorem CanRun.setMoved (k : Nat) (h : CanRun p ph b) : CanRun p ph (Bus.setMoved path k b) := by
  cases path <;> exact { h with }

theorem CanRun.nextPhase (h : CanRun p rest b) : CanRun p rest (b.nextPhase rest) := by
  cases rest with
  | nil =>
    rw [nextPhase_nil_own h.own h.scl]
    exact { h with }
  | cons x rest => exact { h with }

/-- The engine is about to begin these phases, or the command has ended in M_HOLD when there is none. -/
def AtPhases : List Phase → Bus → Prop
  | [], b => b.cmd = 0 ∧ b.mstate = .hold
  | x :: rest, b => b.mstate = .exec (x :: rest) .fresh

theorem atPhases_nextPhase (hown : b.own = true) : AtPhases rest (b.nextPhase rest) := by
  cases rest with
  | nil => simp [AtPhases, hown]
  | cons x rest => rfl

/-- The status bit that a phase answered A throughout sets; TX_ACK of an address hangs on what follows it (R306). -/
def phaseStatus : Phase → Word
  | .addr => 0
  | .tx _ => maskTxAck
  | .rx _ _ => maskRxDone
  | .stop => maskNormalStop

def phasesStatus (ph : List Phase) : Word := ph.foldr (fun x w => phaseStatus x ||| w) 0

/-- A STOP ends the command off the bus, from M_IDLE too (R323, R339). -/
theorem completes_stop (hl : b.live) (ha : b.alone) (hm : b.mstate = .exec [.stop] .fresh) :
    Completes p (b, mem) true (b.isr ||| maskNormalStop) :=
  .afterStep (.line .ok) ((stopPhase p mem b current hl hm).1 ha) (.done ⟨rfl, hl, ⟨rfl, rfl, rfl, rfl⟩, rfl⟩)

/-- Some draws answer every byte of the phase `x` at the head with A, and leave the engine at the phases `rest`. -/
def PhaseRuns (p : Params) (mem : Memory) (b : Bus) (x : Phase) (rest : List Phase) : Prop :=
  ∃ (ds : List Draw) (c : Bus) (mem2 : Memory),
    Bus.runMaster p (ds.map (fun d => (d, current))) (b, mem) = some (c.nextPhase rest, mem2) ∧ CanRun p rest c ∧
      c.isr = b.isr ||| phaseStatus x

theorem phaseRuns_tx (h : CanRun p (.tx path :: rest) b) (hm : b.mstate = .exec (.tx path :: rest) .fresh) :
    PhaseRuns p mem b (.tx path) rest := by
  have hrun : Bus.runMaster p (List.replicate (b.txBytes mem path).length ((.tx .ack : Draw), current)) (b, mem) = _ :=
    transmitPhaseAcknowledged p mem b path rest h.live h.alone hm h.own h.scl h.stale (h.txFits path (.head _))
  rw [← List.map_replicate (f := fun d => (d, current))] at hrun
  exact ⟨_, _, mem, hrun, .setMoved _ { h.tail with scl := rfl }, isr_setMoved ..⟩

theorem phaseRuns_rx (h : CanRun p (.rx path last :: rest) b) (hm : b.mstate = .exec (.rx path last :: rest) .fresh) :
    PhaseRuns p mem b (.rx path last) rest := by
  obtain ⟨c, mem2, hrun, ⟨old, oldm, rfl⟩, -⟩ :=
    receivePhase p mem b path last rest (List.replicate (b.rxCount path) 0) h.live h.alone hm h.own h.scl h.stale
      (h.rxFits path last (.head _)) List.length_replicate
  have hdraws : (List.replicate (b.rxCount path) (0 : Byte)).map (fun d => (Draw.rx (.data d), current)) =
      ((List.replicate (b.rxCount path) 0).map (fun d => Draw.rx (.data d))).map (fun d => (d, current)) := by
    rw [List.map_map]
    rfl
  rw [hdraws] at hrun
  exact ⟨_, _, mem2, hrun, .setMoved _ { h.tail with scl := rfl }, isr_setMoved ..⟩

/-- The data phases and the STOP of a command, one after the other. -/
theorem completes_phases (hr : restOk ph = true) (h : CanRun p ph b) (hat : AtPhases ph b) :
    Completes p (b, mem) (ph.contains .stop) (b.isr ||| phasesStatus ph) := by
  induction ph generalizing b mem with
  | nil => exact .done ⟨hat.1, h.live, ⟨hat.2, h.own, h.scl⟩, BitVec.or_zero.symm⟩
  | cons x rest ih =>
    have hgoOn (hr : restOk rest = true) (hx : PhaseRuns p mem b x rest) :
        Completes p (b, mem) (rest.contains .stop) (b.isr ||| phasesStatus (x :: rest)) := by
      obtain ⟨ds, c, mem2, hrun, hc, hisr⟩ := hx
      have hrest := ih (mem := mem2) hr hc.nextPhase (atPhases_nextPhase hc.own)
      rw [isr_nextPhase, hisr, BitVec.or_assoc] at hrest
      exact .after ds hrun hrest
    cases x with
    | addr => simp [restOk] at hr
    | stop =>
      cases rest with
      | nil => exact completes_stop h.live h.alone hat
      | cons y rest => simp [restOk] at hr
    | tx path => exact hgoOn hr (phaseRuns_tx h hat)
    | rx path last => exact hgoOn hr (phaseRuns_rx h hat)

/-! ## The address phase of a command -/

/-- The START goes out, repeated or not, where nothing but the engine holds a line (R242, R243). -/
theorem masterStep_start (hl : b.live) (ha : b.alone) (hm : b.mstate = .exec (.addr :: rest) .fresh)
    (hfree : b.own = true ∨ b.own = false ∧ b.mDrv = {} ∧ b.busBusy = false) :
    b.masterStep p mem (.line .ok) current = some (b.started rest, mem) := by
  rcases hfree with hown | ⟨hown, hdrv, hbusy⟩
  · rw [masterStep_wireSr hl hm hown, Bus.stepSr, if_pos (by simp [alone_free ha])]
    rfl
  · have hlines : (b.scl && b.sda) = true := by
      simp [Bus.scl, Bus.sda, Bus.drvScl, Bus.drvSda, Drive.and, hdrv, ha.1, ha.2]
    rw [masterStep_wireS hl hm (.inl rfl) hown (by simp [Bus.mayStart, hbusy]), Bus.stepS, if_pos hlines]
    rfl

theorem started_fields (hs : b.sDrv = {}) : b.started rest =
    { b with mDrv := { scl := .low, sda := .low }, own := true, busBusy := true, sclTiming := b.timing,
             lastSlot := b.lastSlot.afterCond, mstate := .exec (.addr :: rest) .started,
             wire := (if b.own then .sr else .s) :: b.wire, sstate := if b.slaveEn then .ignore else b.sstate } := by
  rw [Bus.started, slaveSeesOwnStart_released (by exact hs)]

/-- A command with M_START runs to its end: START, address, and the phases after it. -/
theorem completes_start (hl : b.live) (ha : b.alone) (hm : b.mstate = .exec (.addr :: rest) .fresh)
    (hfree : b.own = true ∨ b.own = false ∧ b.mDrv = {} ∧ b.busBusy = false) (hst : b.stale = {})
    (htx : ∀ path, .tx path ∈ rest → b.txFits p path = true)
    (hrx : ∀ path last, .rx path last ∈ rest → b.rxFits p path = true)
    (hr : restOk rest = true) :
    Completes p (b, mem) (rest.contains .stop) (b.isr ||| (b.addrAckStatus p rest ||| phasesStatus rest)) := by
  refine .afterStep (.line .ok) (masterStep_start hl ha hm hfree) ?_
  rw [started_fields ha.2]
  refine .afterStep (.tx .ack) (masterStep_address (by exact hl) (by exact ha) rfl rfl rfl (by exact hst)).1 ?_
  have hrun : CanRun p rest (addressAcked p rest (b.started rest)) := by
    rw [started_fields ha.2]
    exact ⟨hl, ha, rfl, rfl, hst, htx, hrx⟩
  have h := completes_phases (mem := mem) hr hrun.nextPhase (atPhases_nextPhase hrun.own)
  rw [started_fields ha.2, isr_nextPhase] at h
  rw [← BitVec.or_assoc]
  exact h

/-! ## The commands -/

/-- M_IDLE does not own the bus (R49). -/
theorem own_of_idle (h : b.Inv p) (hm : b.mstate = .idle) : b.own = false := by
  refine Bool.eq_false_iff.2 fun hown => ?_
  rcases h.ownState hown with hhold | ⟨ph, pr, hexec⟩
  · cases hm.symm.trans hhold
  · cases hm.symm.trans hexec

/-- The phases of a command with M_START: the address, then data phases and at most one STOP (R301). -/
theorem phaseList_hasStart (h : i.hasStart = true) : ∃ rest, phaseList (code i) = .addr :: rest ∧ restOk rest = true := by
  cases i <;> cases h <;> exact ⟨_, rfl, rfl⟩

/-- An MTX or MRX form has no address phase. -/
theorem phaseList_isData (h : i.isData = true) : ∃ x rest, phaseList (code i) = x :: rest ∧ restOk (x :: rest) = true := by
  cases i <;> cases h <;> exact ⟨_, _, rfl, rfl⟩

/-- A command has a STOP phase exactly with M_STOP. -/
theorem phaseList_contains_stop (i : Instr) : (phaseList (code i)).contains .stop = (code i).getLsbD 5 := by
  cases i <;> rfl

/-- The phases of an MTX or MRX form set the completion and intermediate bits of R404. -/
theorem phasesStatus_isData (h : i.isData = true) :
    phasesStatus (phaseList (code i)) = completionBit (code i) ||| intermediateBits (code i) := by
  cases i <;> cases h <;> rfl

/-- So do the address and the phases after it, but for the zero-length write without ZL_ADDR_ACK (R306). -/
theorem phasesStatus_hasStart (h : i.hasStart = true) (hph : phaseList (code i) = .addr :: rest) (hcmd : b.cmd = code i) :
    b.addrAckStatus p rest ||| phasesStatus rest =
      completionBit (code i) ||| (if i = .mstartStop ∧ p.zlAddrAck = false then 0 else intermediateBits (code i)) := by
  rw [Bus.addrAckStatus, hcmd]
  cases p.zlAddrAck <;> cases i <;> cases h <;> cases hph <;> rfl

end Sys2Proof.Laws

end

section

open Sys2Proof Sys2Proof.Machine Sys2Proof.Laws

/-- Settles O26: START and address (`completes_start`), then the phases one by one (`completes_phases`), whose status bits are those
of R404. -/
theorem masterCommandsComplete : Obligations.MasterCommandsComplete := by
  intro p mem b i hinv _ hl ha _ hcmd htxFits hrxFits
  suffices h : Completes p ({ b with cmd := code i, mstate := .exec (phaseList (code i)) .fresh, stale := {} }, mem)
      ((code i).getLsbD 5) (b.isr ||| (completionBit (code i) |||
        (if i = .mstartStop ∧ p.zlAddrAck = false then 0 else intermediateBits (code i)))) by
    obtain ⟨ds, b2, mem2, hrun, hend⟩ := h
    exact ⟨ds, b2, mem2, hrun, hend.cmd, hend.live, hend.place, hend.isr.trans (BitVec.or_assoc ..).symm⟩
  rw [← phaseList_contains_stop]
  rcases hcmd with ⟨hi, hm⟩ | ⟨hi, hm⟩ | ⟨rfl, -⟩
  · obtain ⟨rest, hph, hr⟩ := phaseList_hasStart hi
    rw [hph] at htxFits hrxFits ⊢
    have hfree : b.own = true ∨ b.own = false ∧ b.mDrv = {} ∧ b.busBusy = false :=
      hm.imp hinv.hold fun ⟨hidle, hbusy⟩ => ⟨own_of_idle hinv hidle, hinv.released (.inr hidle), hbusy⟩
    rw [← phasesStatus_hasStart (b := b.accept (code i) (.exec (.addr :: rest) .fresh)) hi hph rfl]
    exact completes_start (b := b.accept (code i) (.exec (.addr :: rest) .fresh)) hl ha rfl hfree rfl
      (fun path h => htxFits path (.tail _ h)) (fun path last h => hrxFits path last (.tail _ h)) hr
  · obtain ⟨x, rest, hph, hr⟩ := phaseList_isData hi
    have hne : i ≠ .mstartStop := by
      rintro rfl
      cases hi
    have hown : b.own = true := hinv.hold hm
    rw [if_neg (hne ·.1), ← phasesStatus_isData hi]
    rw [hph] at htxFits hrxFits ⊢
    exact completes_phases hr ⟨hl, ha, hown, hinv.ownScl hown, rfl, htxFits, hrxFits⟩ rfl
  · have hph : phaseList (code .mstop) = [.stop] := rfl
    have hstatus : completionBit (code .mstop) ||| intermediateBits (code .mstop) = maskNormalStop := rfl
    rw [if_neg (by simp), hstatus, hph]
    exact completes_stop (by exact hl) (by exact ha) rfl

end

section

namespace Sys2Proof.Laws

open Sys2Proof Sys2Proof.Machine

variable {i : Instr} {s t : State} {p : Params} {b : Bus} {path : Path}

/-! ## Operands of the slave commands -/

theorem dmaRangeOk_iff {n : Nat} {a : Word} : p.dmaRangeOk n a = true ↔ 1 ≤ n ∧ n ≤ p.dmaMax ∧ a.toNat + n ≤ 2 ^ 32 := by
  simp only [Params.dmaRangeOk, Bool.and_eq_true, decide_eq_true_eq, and_assoc]

theorem dmaRangeOk_outside {n : BitVec 13} {a : Word} (h : n = 0 ∨ p.dmaMax < n.toNat ∨ 2 ^ 32 < a.toNat + n.toNat) :
    p.dmaRangeOk n.toNat a = false := by
  refine Bool.eq_false_iff.2 fun hok => ?_
  obtain ⟨hpos, hmax, hend⟩ := dmaRangeOk_iff.1 hok
  rcases h with rfl | h | h
  · exact absurd hpos (by decide)
  · omega
  · omega

theorem takesSlaveCmd_iff : b.takesSlaveCmd = true ↔ b.slaveEn = true ∧ b.mstate.busy = false := by
  simp [Bus.takesSlaveCmd]

/-- A command that answers has found its bus. -/
theorem onSel_eq_next {f : Bus → Bus} (h : s.onSel f = .next t) :
    ∃ b, s.buses[s.sel]? = some b ∧ t = s.setBus s.sel (f b) := by
  unfold State.onSel at h
  split at h
  · cases h
  · next b hb =>
    cases h
    exact ⟨b, hb, rfl⟩

/-! ## SRXARM -/

/-- The path of an SRXARM. -/
def srxarmPath (i : Instr) : Path := if i = .srxarmBuf then .buf else .dma

theorem exec_srxarm (h : i.isSrxarm = true) : exec i s = s.onSel (Bus.srxarm s.params (srxarmPath i)) := by
  cases i <;> cases h <;> rfl

theorem exec_srxarm_armed {cap : Nat} (h : i.isSrxarm = true) (hb : s.buses[s.sel]? = some b) (hen : b.slaveEn = true)
    (hst : b.sstate = .rxWait) (hm : b.mstate.busy = false) (hcap : b.armCap s.params (srxarmPath i) = some cap) :
    exec i s = .next (s.setBus s.sel (Bus.setMoved (srxarmPath i) 0
      { b with sCap := cap, sBase := if srxarmPath i = .dma then b.dmaAddr else b.sBase, sPath := srxarmPath i, sCount := 0,
               cmd := 0, rxOldPool := [], rxOldMem := [] })) := by
  rw [exec_srxarm h, onSel_next _ hb]
  simp [Bus.srxarm, takesSlaveCmd_iff.2 ⟨hen, hm⟩, hst, hcap]

theorem exec_srxarm_refused (h : i.isSrxarm = true) (hb : s.buses[s.sel]? = some b)
    (hno : b.slaveEn = false ∨ b.sstate ≠ .rxWait ∨ b.mstate.busy = true ∨ b.armCap s.params (srxarmPath i) = none) :
    exec i s = .next (s.setBus s.sel { b with refused := true }) := by
  rw [exec_srxarm h, onSel_next _ hb, Bus.srxarm]
  split
  · next htakes =>
    simp only [Bool.and_eq_true, beq_iff_eq, takesSlaveCmd_iff] at htakes
    have hcap : b.armCap s.params (srxarmPath i) = none := by simpa [htakes] using hno
    rw [hcap]
    rfl
  · rfl

/-- What an SRXARM may write. -/
theorem srxarm_frame (p : Params) (path : Path) (b : Bus) : ∃ path' count cap base moved dmoved c op om r,
    b.srxarm p path = { b with sPath := path', sCount := count, sCap := cap, sBase := base, bufCount := moved, dmaMoved := dmoved,
                               cmd := c, rxOldPool := op, rxOldMem := om, refused := r } ∧
      (path = .buf → base = b.sBase ∧ dmoved = b.dmaMoved) ∧ (path = .dma → moved = b.bufCount) := by
  unfold Bus.srxarm
  split
  · split
    · exact ⟨_, _, _, _, _, _, _, _, _, _, rfl, fun _ => ⟨rfl, rfl⟩, fun _ => rfl⟩
    · cases path <;> exact ⟨_, _, _, _, _, _, _, _, _, _, rfl, by simp, by simp⟩
  · exact ⟨_, _, _, _, _, _, _, _, _, _, rfl, fun _ => ⟨rfl, rfl⟩, fun _ => rfl⟩

/-! ## STX -/

/-- The path of an STX. -/
def stxPath (i : Instr) : Path := if i = .stxB then .byte else if i = .stxBuf then .buf else .dma

theorem exec_stx (h : i.isStx = true) : exec i s = s.onSel (Bus.stx s.params (stxPath i) (code i)) := by
  cases i <;> cases h <;> rfl

theorem stxPath_dma (h : i.isStx = true) : stxPath i = .dma ↔ i = .stxDma := by
  cases i <;> cases h <;> decide

theorem exec_stx_started {cap : Nat} (h : i.isStx = true) (hb : s.buses[s.sel]? = some b) (hen : b.slaveEn = true)
    (hst : b.sstate = .txWait) (hm : b.mstate.busy = false) (hcap : b.stxCap s.params (stxPath i) = some cap) :
    exec i s = .next (s.setBus s.sel
      { b with sCap := cap, sBase := if stxPath i = .dma then b.dmaAddr else b.sBase, cmd := code i, sCount := 0,
               sstate := .tx (stxPath i), sDrv := { b.sDrv with scl := .rel }, stale := {} }) := by
  rw [exec_stx h, onSel_next _ hb]
  simp [Bus.stx, takesSlaveCmd_iff.2 ⟨hen, hm⟩, hst, hcap]

theorem exec_stx_refused (h : i.isStx = true) (hb : s.buses[s.sel]? = some b)
    (hno : b.slaveEn = false ∨ b.sstate ≠ .txWait ∨ b.mstate.busy = true ∨ b.stxCap s.params (stxPath i) = none) :
    exec i s = .next (s.setBus s.sel { b with refused := true }) := by
  rw [exec_stx h, onSel_next _ hb, Bus.stx]
  split
  · next htakes =>
    simp only [Bool.and_eq_true, beq_iff_eq, takesSlaveCmd_iff] at htakes
    have hcap : b.stxCap s.params (stxPath i) = none := by simpa [htakes] using hno
    rw [hcap]
    rfl
  · rfl

/-- What an STX may write. -/
theorem stx_frame (p : Params) (path : Path) (w : BitVec 12) (b : Bus) : ∃ st count cap base c hold old r,
    b.stx p path w = { b with sstate := st, sCount := count, sCap := cap, sBase := base, cmd := c,
                              sDrv := { b.sDrv with scl := hold }, stale := old, refused := r } ∧
      (path ≠ .dma → base = b.sBase) := by
  unfold Bus.stx
  split
  · split
    · exact ⟨_, _, _, _, _, b.sDrv.scl, _, _, rfl, fun _ => rfl⟩
    · exact ⟨_, _, _, _, _, _, _, _, rfl, fun hp => by simp [hp]⟩
  · exact ⟨_, _, _, _, _, b.sDrv.scl, _, _, rfl, fun _ => rfl⟩

end Sys2Proof.Laws

end

section

open Sys2Proof Sys2Proof.Machine Sys2Proof.Laws

/-- Settles O11: with the slave's side met, the capacity alone decides between `exec_srxarm_armed` and `exec_srxarm_refused`. -/
theorem srxarmArmsOrRefuses : Obligations.SrxarmArmsOrRefuses := by
  intro s b hb
  refine ⟨fun hen hst hm => ⟨fun hcap => ?buf, fun hpos hmax hend => ?dma⟩, fun hno => ?bufRefused, fun hno => ?dmaRefused⟩
  case buf => exact exec_srxarm_armed (i := .srxarmBuf) rfl hb hen hst hm (if_pos hcap)
  case dma => exact exec_srxarm_armed (i := .srxarmDma) rfl hb hen hst hm (if_pos (dmaRangeOk_iff.2 ⟨hpos, hmax, hend⟩))
  case bufRefused =>
    exact exec_srxarm_refused rfl hb (hno.imp_right <| Or.imp_right <| Or.imp_right fun h => if_neg (Nat.not_le.2 h))
  case dmaRefused =>
    refine exec_srxarm_refused rfl hb (hno.imp_right <| Or.imp_right <| Or.imp_right fun h => if_neg ?_)
    simp [dmaRangeOk_outside h]

/-- Settles O12: the three forms of `exec_stx_started`, each with the length of its path. -/
theorem stxStarts : Obligations.StxStarts := by
  intro s b hb hen hst hm
  refine ⟨?byte, fun hcap => ?buf, fun hpos hmax hend => ?dma⟩
  case byte => exact exec_stx_started (i := .stxB) rfl hb hen hst hm rfl
  case buf => exact exec_stx_started (i := .stxBuf) rfl hb hen hst hm (if_pos hcap)
  case dma => exact exec_stx_started (i := .stxDma) rfl hb hen hst hm (if_pos (dmaRangeOk_iff.2 ⟨hpos, hmax, hend⟩))

/-- Settles O13: what the slave's side refuses is refused in every form, a length out of range in its own. -/
theorem stxRefused : Obligations.StxRefused := by
  rintro i s b hb (⟨hi, hno⟩ | ⟨rfl, hlen⟩ | ⟨rfl, hlen⟩)
  · exact exec_stx_refused hi hb (hno.imp_right (Or.imp_right .inl))
  · exact exec_stx_refused rfl hb (.inr (.inr (.inr (if_neg (Nat.not_le.2 hlen)))))
  · exact exec_stx_refused rfl hb (.inr (.inr (.inr (if_neg (by simp [dmaRangeOk_outside hlen])))))

/-- Settles O15: either command is one update of the selected bus, framed by `srxarm_frame` and `stx_frame`. -/
theorem slaveCommandFrame : Obligations.SlaveCommandFrame := by
  refine ⟨fun i s t hi hexec => ?srxarm, fun i s t hi hexec => ?stx⟩
  case srxarm =>
    rw [exec_srxarm hi] at hexec
    obtain ⟨b, hb, rfl⟩ := onSel_eq_next hexec
    obtain ⟨path, count, cap, base, moved, dmoved, c, op, om, r, hbus, hbuf, hdma⟩ := srxarm_frame s.params (srxarmPath i) b
    refine ⟨b, hb, path, count, cap, base, moved, dmoved, c, op, om, r, congrArg _ hbus, ?_, ?_⟩
    · rintro rfl
      exact hbuf rfl
    · rintro rfl
      exact hdma rfl
  case stx =>
    rw [exec_stx hi] at hexec
    obtain ⟨b, hb, rfl⟩ := onSel_eq_next hexec
    obtain ⟨st, count, cap, base, c, hold, old, r, hbus, hbase⟩ := stx_frame s.params (stxPath i) (code i) b
    exact ⟨b, hb, st, count, cap, base, c, hold, old, r, congrArg _ hbus, fun hne => hbase (mt (stxPath_dma hi).1 hne)⟩

end

section

namespace Sys2Proof.Laws

open Sys2Proof Sys2Proof.Machine

variable {p : Params} {mem : Memory} {b : Bus} {pk : SrcPick} {path : Path}

/-! ## The remote side's steps on its own transfer -/

theorem envStep_s (hl : b.live) (hmay : b.remoteMay = true) (hbusy : b.busBusy = false) (hscl : b.scl = true)
    (hsda : b.sda = true) : b.envStep p mem .s pk = some ({ b with busBusy := b.monitoring }.slaveStart, mem) := by
  rw [envStep_remote hl (by simp)]
  exact if_pos (by simp [hmay, hbusy, hscl, hsda])

theorem envStep_sr (hl : b.live) (howns : b.remoteOwns = true) : b.envStep p mem .sr pk = some (b.slaveStart, mem) := by
  rw [envStep_remote hl (by simp)]
  exact if_pos howns

theorem envStep_p (hl : b.live) (howns : b.remoteOwns = true) :
    b.envStep p mem .p pk = some ({ b with busBusy := false }.slaveStop, mem) := by
  rw [envStep_remote hl (by simp)]
  exact if_pos howns

theorem envStep_mid (k : Cond) (hl : b.live) (howns : b.remoteOwns = true) :
    b.envStep p mem (.mid k) pk = some ({ b with busBusy := decide (k = Cond.start) }.slaveMid k, mem) := by
  rw [envStep_remote hl (by simp)]
  exact if_pos howns

theorem envStep_wbyte (d : Byte) (hl : b.live) (howns : b.remoteOwns = true) :
    b.envStep p mem (.wbyte d) pk = some (b.slaveWrite p mem d) := by
  rw [envStep_remote hl (by simp)]
  exact if_pos howns

theorem envStep_rbyte (a : Ack) (hl : b.live) (howns : b.remoteOwns = true) :
    b.envStep p mem (.rbyte a) pk = some (b.slaveRead p mem a pk, mem) := by
  rw [envStep_remote hl (by simp)]
  exact if_pos howns

theorem envStep_timeout (l : Line) (hl : b.live) :
    b.envStep p mem (.timeout l) pk = if b.timeoutMay then some (b.slaveTimeout l, mem) else none :=
  envStep_remote hl (by simp)

/-! ## Bytes -/

theorem slaveWrite_match {d : Byte} (hs : b.sstate = .addr) (hd : d.extractLsb' 1 7 = b.devAddr) :
    b.slaveWrite p mem d = (b.slaveMatch d, mem) := by
  simp [Bus.slaveWrite, hs, Bus.matchesAddr, hd]

theorem slaveWrite_noMatch {d : Byte} (hs : b.sstate = .addr) (hd : d.extractLsb' 1 7 ≠ b.devAddr) :
    b.slaveWrite p mem d = ({ b with sstate := .ignore }, mem) := by
  simp [Bus.slaveWrite, hs, Bus.matchesAddr, hd]

theorem slaveWrite_rx (d : Byte) (hs : b.sstate = .rx) : b.slaveWrite p mem d = b.slaveStore p mem d := by
  simp [Bus.slaveWrite, hs]

/-- The length register of a path after `k` bytes, the other one as it was. -/
theorem setMoved_fields (path : Path) (k : Nat) (b : Bus) : Bus.setMoved path k b =
    { b with bufCount := if path = .buf then BitVec.ofNat 8 k else b.bufCount,
             dmaMoved := if path = .dma then BitVec.ofNat 13 k else b.dmaMoved } := by
  cases path <;> rfl

theorem batchNext_fields (b : Bus) : b.batchNext =
    if b.sCount + 1 = b.sCap then
      { b with sCount := b.sCount + 1, isr := b.isr ||| 0x4, sstate := .rxWait, sDrv := { b.sDrv with scl := .low },
               bufCount := if b.sPath = .buf then BitVec.ofNat 8 (b.sCount + 1) else b.bufCount,
               dmaMoved := if b.sPath = .dma then BitVec.ofNat 13 (b.sCount + 1) else b.dmaMoved }
    else { b with sCount := b.sCount + 1 } := by
  rw [Bus.batchNext, setMoved_fields]
  rfl

theorem slaveStore_byte (d : Byte) (hp : b.sPath = .byte) : b.slaveStore p mem d =
    ((({ b.onWire (.byte d .ack) with rxByte := d }).setStatus maskRxDone).stretch .rxWait, mem) := by
  simp only [Bus.slaveStore, hp]

theorem slaveStore_buf (d : Byte) (hp : b.sPath = .buf) : b.slaveStore p mem d =
    ({ b.onWire (.byte d .ack) with
        pool := b.pool.set b.sCount d, rxOldPool := (b.sCount, b.pool.getD b.sCount 0) :: b.rxOldPool }.batchNext, mem) := by
  simp only [Bus.slaveStore, hp]

theorem slaveStore_dma (d : Byte) (hp : b.sPath = .dma) (hok : p.dmaAllowed (b.sBase.toNat + b.sCount) = true) :
    b.slaveStore p mem d =
      ({ b.onWire (.byte d .ack) with
          rxOldMem := (b.sBase.toNat + b.sCount, mem.read (b.sBase.toNat + b.sCount)) :: b.rxOldMem }.batchNext,
        mem.write (b.sBase.toNat + b.sCount) d) := by
  simp only [Bus.slaveStore, hp, hok, if_true]

/-- The byte that STX sends next, by the registers (R369). -/
def stxByte (mem : Memory) (path : Path) (b : Bus) : Byte :=
  match path with
  | .byte => b.txByte
  | .buf => b.pool.getD b.sCount 0
  | .dma => mem.read (b.sBase.toNat + b.sCount)

/-- With no older source recorded, STX samples the registers. -/
theorem stxSource_current (hst : b.stale = {}) (hok : path = .dma → p.dmaAllowed (b.sBase.toNat + b.sCount) = true) :
    b.stxSource p mem path pk = some (stxByte mem path b) := by
  cases path with
  | byte => rw [Bus.stxSource, sampleTxByte_current hst]; rfl
  | buf => simp [Bus.stxSource, Bus.samplePool, hst, olderAt, pickOld, stxByte]
  | dma => simp [Bus.stxSource, hok rfl, hst, olderAt, pickOld, stxByte]

/-- An STX whose last byte was answered `r`, with the status `m` (R370, R371). -/
def stxEnded (path : Path) (v : Byte) (r : Ack) (m : Word) (b : Bus) : Bus :=
  { b with sCount := b.sCount + 1, cmd := 0, isr := b.isr ||| m, wire := .byte v r :: b.wire,
           bufCount := if path = .buf then BitVec.ofNat 8 (b.sCount + 1) else b.bufCount,
           dmaMoved := if path = .dma then BitVec.ofNat 13 (b.sCount + 1) else b.dmaMoved }

theorem stxAnswered_ack (path : Path) (v : Byte) (b : Bus) : b.stxAnswered path v .ack =
    if b.sCount + 1 = b.sCap then (stxEnded path v .ack 0x1 b).stretch .txWait
    else { b with sCount := b.sCount + 1, wire := .byte v .ack :: b.wire } := by
  rw [Bus.stxAnswered, setMoved_fields]
  rfl

theorem stxAnswered_nak (path : Path) (v : Byte) (b : Bus) : b.stxAnswered path v .nak =
    { stxEnded path v .nak 0x2 b with sstate := .waitStop, sDrv := {} } := by
  rw [Bus.stxAnswered, setMoved_fields]
  rfl

theorem slaveRead_tx (a : Ack) {v : Byte} (hs : b.sstate = .tx path) (hv : b.stxSource p mem path pk = some v) :
    b.slaveRead p mem a pk = b.stxAnswered path v a := by
  simp [Bus.slaveRead, hs, hv]

/-! ## Conditions -/

theorem listening_iff (st : SState) : st.listening = true ↔ st = .rx ∨ st = .waitStop ∨ st.isTx = true := by
  cases st <;> simp [SState.listening, SState.isTx]

theorem inByte_iff (st : SState) : st.inByte = true ↔ st = .rx ∨ st.isTx = true := by
  cases st <;> simp [SState.inByte, SState.isTx]

/-- The bus after a condition of the remote side that this slave hears, in the words of the statements: the latch, the slave's new
state and the status bits that the condition itself sets. -/
def conditionHeard (busy : Bool) (st : SState) (m : Word) (b : Bus) : Bus :=
  { b with busBusy := busy, sstate := st, sDrv := {}, cmd := if b.sstate.isTx then 0 else b.cmd,
           isr := b.isr ||| (if b.sstate = .rx ∧ b.sPath ≠ .byte ∧ 0 < b.sCount then 0x4 else 0) ||| m,
           bufCount := if b.cutPhase .buf then BitVec.ofNat 8 b.sCount else b.bufCount,
           dmaMoved := if b.cutPhase .dma then BitVec.ofNat 13 b.sCount else b.dmaMoved }

theorem phaseEnd_heard (busy : Bool) (st : SState) (m : Word) (b : Bus) :
    { ({ b with busBusy := busy }.deliverBatch.setStatus m).dropStx with sstate := st, sDrv := {} } = conditionHeard busy st m b := by
  rw [phaseEnd_fields]
  rfl

theorem setStatus_setStatus (v w : Word) (b : Bus) : (b.setStatus v).setStatus w = b.setStatus (v ||| w) := by
  simp [Bus.setStatus, BitVec.or_assoc]

theorem setStatus_dropStx (w : Word) (b : Bus) : b.dropStx.setStatus w = (b.setStatus w).dropStx := by
  unfold Bus.dropStx
  dsimp only [setStatus_sstate]
  split
  · exact setMoved_setStatus _ _ _ _
  · rfl

/-- Outside a transfer a condition ends no phase. -/
theorem conditionHeard_idle (busy : Bool) (st : SState) (hs : b.sstate.listening = false) :
    conditionHeard busy st 0 b = { b with busBusy := busy, sstate := st, sDrv := {} } := by
  obtain ⟨hrx, -, htx⟩ : b.sstate ≠ .rx ∧ b.sstate ≠ .waitStop ∧ ¬b.sstate.isTx = true := by
    simpa only [not_or] using mt (listening_iff _).2 (Bool.eq_false_iff.1 hs)
  have hcut (q : Path) : b.cutPhase q = false := by
    have hq : b.sstate ≠ .tx q := fun h => htx (by rw [h]; rfl)
    simp [Bus.cutPhase, hrx, hq]
  simp [conditionHeard, hrx, htx, hcut]

theorem slaveStart_heard (busy : Bool) (hen : b.slaveEn = true) :
    { b with busBusy := busy }.slaveStart = conditionHeard busy .addr 0 b := by
  rw [Bus.slaveStart, if_pos hen, ← phaseEnd_heard, setStatus_zero]

theorem slaveStop_heard (busy : Bool) (hen : b.slaveEn = true) :
    { b with busBusy := busy }.slaveStop = conditionHeard busy .idle (if b.sstate.listening then 0x10 else 0) b := by
  rw [Bus.slaveStop, if_pos hen]
  cases hs : b.sstate.listening with
  | true => exact phaseEnd_heard busy .idle 0x10 b
  | false => exact (conditionHeard_idle busy .idle hs).symm

theorem slaveMid_start_heard (busy : Bool) (hen : b.slaveEn = true) (hin : b.sstate.inByte = true) :
    { b with busBusy := busy }.slaveMid .start = conditionHeard busy .addr 0x20 b := by
  rw [Bus.slaveMid, if_pos (by simp [hen, hin])]
  exact phaseEnd_heard busy .addr 0x20 b

theorem slaveMid_stop_heard (busy : Bool) (hen : b.slaveEn = true) (hin : b.sstate.inByte = true) :
    { b with busBusy := busy }.slaveMid .stop = conditionHeard busy .idle 0x30 b := by
  rw [Bus.slaveMid, if_pos (by simp [hen, hin])]
  have hboth (c : Bus) : (c.setStatus maskAbnormal).dropStx.setStatus maskNormalStop = (c.setStatus 0x30).dropStx := by
    rw [setStatus_dropStx, setStatus_setStatus]
    rfl
  exact (congrArg (fun c : Bus => { c with sstate := .idle, sDrv := {} }) (hboth _)).trans (phaseEnd_heard busy .idle 0x30 b)

/-- Outside a transfer's bytes there is no middle of a byte. -/
theorem slaveMid_plain (hin : b.sstate.inByte = false) : b.slaveMid .start = b.slaveStart ∧ b.slaveMid .stop = b.slaveStop := by
  simp [Bus.slaveMid, hin]

theorem slaveStart_off (hen : b.slaveEn = false) : b.slaveStart = b := by simp [Bus.slaveStart, hen]

theorem slaveStop_off (hen : b.slaveEn = false) : b.slaveStop = b := by simp [Bus.slaveStop, hen]

theorem remoteOwns_iff : b.remoteOwns = true ↔ b.remoteMay = true ∧ b.busBusy = true := by simp [Bus.remoteOwns]

theorem withBusBusy_self {v : Bool} (h : b.busBusy = v) : { b with busBusy := v } = b := by
  subst h
  rfl

/-! ## Stretches and timeouts -/

theorem timeoutMay_iff : b.timeoutMay = true ↔ b.timeout ≠ 0 ∧
    (b.sstate = .rx ∨ b.sstate = .waitStop ∨ b.sstate.isTx = true) ∧ b.mstate.holdsRemote = false := by
  simp [Bus.timeoutMay, Bus.timeoutsOn, listening_iff, and_assoc]

/-- A slave that holds SCL low pulls the line down whatever the others do. -/
theorem scl_of_stretch (h : b.sDrv.scl = .low) : b.drvScl = .low ∧ b.scl = false := by
  have hdrv : b.drvScl = .low := by
    rw [Bus.drvScl, h]
    cases b.mDrv.scl <;> rfl
  exact ⟨hdrv, by simp [Bus.scl, hdrv]⟩

/-- While SCL is held low and the slave listens to nothing, the remote side waits. -/
theorem remoteStep_stretched (e : EnvEvent) (hscl : b.drvScl = .low) (hs : b.sstate.listening = false) :
    b.remoteStep p mem e pk = none := by
  have hmay : b.remoteMay = false := by simp [Bus.remoteMay, hscl]
  cases e <;> simp [Bus.remoteStep, Bus.remoteOwns, Bus.timeoutMay, hmay, hs]

theorem slaveStep_eq (hl : b.live) : b.slaveStep =
    if b.sstate = .rxWait ∧ b.isr.getLsbD 2 = false ∧ (b.sPath = .byte ∨ b.sCount < b.sCap) then
      some { b with sstate := .rx, sDrv := { b.sDrv with scl := .rel } }
    else none := by
  simp [Bus.slaveStep, hl.1, hl.2, hasAny_rxDone, and_assoc]

/-! ## The frame of the remote side's steps -/

theorem lastSlot_slaveStart (b : Bus) : b.slaveStart.lastSlot = b.lastSlot := by
  unfold Bus.slaveStart
  split <;> simp

theorem lastSlot_slaveStop (b : Bus) : b.slaveStop.lastSlot = b.lastSlot := by
  unfold Bus.slaveStop
  split_ifs <;> simp

theorem lastSlot_slaveMid (k : Cond) (b : Bus) : (b.slaveMid k).lastSlot = b.lastSlot := by
  unfold Bus.slaveMid
  split <;> cases k <;> simp [lastSlot_slaveStart, lastSlot_slaveStop]

theorem lastSlot_batchNext (b : Bus) : b.batchNext.lastSlot = b.lastSlot := by
  rw [batchNext_fields]
  split <;> rfl

theorem lastSlot_slaveWrite (d : Byte) (b : Bus) : (b.slaveWrite p mem d).1.lastSlot = b.lastSlot := by
  unfold Bus.slaveWrite Bus.slaveStore
  split
  · dsimp only
    split <;> rfl
  · split
    · rfl
    · exact lastSlot_batchNext _
    · dsimp only
      split
      · exact lastSlot_batchNext _
      · rfl
  · rfl

theorem lastSlot_slaveRead (a : Ack) (b : Bus) : (b.slaveRead p mem a pk).lastSlot = b.lastSlot := by
  unfold Bus.slaveRead
  split
  · split
    · rfl
    · cases a with
      | ack =>
        rw [stxAnswered_ack]
        split <;> rfl
      | nak =>
        rw [stxAnswered_nak]
        rfl
  · rfl

theorem lastSlot_slaveTimeout (l : Line) (b : Bus) : (b.slaveTimeout l).lastSlot = b.lastSlot := by
  simp [Bus.slaveTimeout]

theorem slaveKeeps_recordBatch (b : Bus) : SlaveKeeps b b.recordBatch := by
  unfold Bus.recordBatch
  split
  · exact slaveKeeps_setMoved _ _ _
  · exact slaveKeeps_refl b

theorem slaveKeeps_slaveTimeout (l : Line) (b : Bus) : SlaveKeeps b (b.slaveTimeout l) :=
  (slaveKeeps_recordBatch b).trans <| (slaveKeeps_setStatus _ _).trans <| (slaveKeeps_dropStx _).trans (slaveKeeps_sstate _ _ _)

theorem slaveKeeps_env (b : Bus) (w : Wires) : SlaveKeeps b { b with env := w } := by
  refine ⟨⟨?_⟩, ?_, ?_⟩ <;> simp

/-- The remote side's steps keep the record of the last slot, and only a byte it writes can change RX_BYTE, the pool or memory. -/
theorem remoteStep_keeps {e : EnvEvent} {r : Bus × Memory} (h : b.remoteStep p mem e pk = some r) :
    r.1.lastSlot = b.lastSlot ∧ ((∃ d, e = .wbyte d ∧ r = b.slaveWrite p mem d) ∨ (SlaveKeeps b r.1 ∧ r.2 = mem)) := by
  cases e with
  | s =>
    cases (Option.ite_none_right_eq_some.1 h).2
    exact ⟨lastSlot_slaveStart _, .inr ⟨(slaveKeeps_busBusy b _).trans (slaveKeeps_slaveStart _), rfl⟩⟩
  | sr =>
    cases (Option.ite_none_right_eq_some.1 h).2
    exact ⟨lastSlot_slaveStart b, .inr ⟨slaveKeeps_slaveStart b, rfl⟩⟩
  | p =>
    cases (Option.ite_none_right_eq_some.1 h).2
    exact ⟨lastSlot_slaveStop _, .inr ⟨(slaveKeeps_busBusy b _).trans (slaveKeeps_slaveStop _), rfl⟩⟩
  | wbyte d =>
    cases (Option.ite_none_right_eq_some.1 h).2
    exact ⟨lastSlot_slaveWrite d b, .inl ⟨d, rfl, rfl⟩⟩
  | rbyte k =>
    cases (Option.ite_none_right_eq_some.1 h).2
    exact ⟨lastSlot_slaveRead k b, .inr ⟨slaveKeeps_slaveRead p mem k pk b, rfl⟩⟩
  | mid k =>
    cases (Option.ite_none_right_eq_some.1 h).2
    exact ⟨lastSlot_slaveMid k _, .inr ⟨(slaveKeeps_busBusy b _).trans (slaveKeeps_slaveMid k _), rfl⟩⟩
  | timeout l =>
    cases (Option.ite_none_right_eq_some.1 h).2
    exact ⟨lastSlot_slaveTimeout l b, .inr ⟨slaveKeeps_slaveTimeout l b, rfl⟩⟩
  | hold l => cases h
  | release l => cases h

/-- A step of the environment is a line hold or a step of the remote side. -/
theorem envStep_cases {e : EnvEvent} {r : Bus × Memory} (h : b.envStep p mem e pk = some r) :
    (∃ w, r = ({ b with env := w }, mem)) ∨ b.remoteStep p mem e pk = some r := by
  unfold Bus.envStep at h
  obtain ⟨-, h⟩ := Option.ite_none_left_eq_some.1 h
  split at h
  · cases h
    exact .inl ⟨_, rfl⟩
  · cases h
    exact .inl ⟨_, rfl⟩
  · exact .inr (Option.ite_none_left_eq_some.1 h).2

theorem envStep_keeps {e : EnvEvent} {r : Bus × Memory} (h : b.envStep p mem e pk = some r) :
    r.1.lastSlot = b.lastSlot ∧ ((∃ d, e = .wbyte d ∧ r = b.slaveWrite p mem d) ∨ (SlaveKeeps b r.1 ∧ r.2 = mem)) := by
  rcases envStep_cases h with ⟨w, rfl⟩ | h
  · exact ⟨rfl, .inr ⟨slaveKeeps_env b w, rfl⟩⟩
  · exact remoteStep_keeps h

end Sys2Proof.Laws

end

section

open Sys2Proof Sys2Proof.Machine Sys2Proof.Laws

/-- Settles O36: a byte the remote side writes is framed by `slaveKeeps_slaveWrite`, every other step keeps RX_BYTE, the pool and
memory (`envStep_keeps`). -/
theorem slaveFrame : Obligations.SlaveFrame := by
  refine fun p mem b c mem2 => ⟨fun e pk h => ?env, fun h => ?slave⟩
  case env =>
    obtain ⟨hm, hown, hdrv⟩ := sameMaster_envStep h
    obtain ⟨hslot, hcases⟩ := envStep_keeps h
    have hmaster : c.mstate = b.mstate ∧ c.own = b.own ∧ c.lastSlot = b.lastSlot ∧ c.mDrv = b.mDrv := ⟨hm, hown, hslot, hdrv⟩
    rcases hcases with ⟨d, rfl, hw⟩ | ⟨⟨⟨hregs⟩, hrx, hpool⟩, hmem⟩
    · obtain ⟨⟨hregs⟩, hpool, hbyte, hmem, hread⟩ := slaveKeeps_slaveWrite p mem d b
      rw [← hw] at hregs hpool hbyte hmem hread
      exact ⟨by simpa only [and_assoc] using And.intro hregs hmaster, fun hno => absurd rfl (hno d), hpool, hbyte, hmem, hread⟩
    · cases hmem
      exact ⟨by simpa only [and_assoc] using And.intro hregs hmaster, fun _ => ⟨hrx, hpool, rfl⟩, fun _ => hpool,
        fun _ _ => congrArg (·[_]?) hpool, fun _ => rfl, fun _ _ _ => rfl⟩
  case slave => exact (Option.some_inj.1 (Option.ite_none_right_eq_some.1 h).2).symm

/-- Settles O39: the invariant holds SCL low in both stretches, so that the remote side waits (`remoteStep_stretched`), and
`slaveStep_eq` is the guard of R364. -/
theorem slaveStretches : Obligations.SlaveStretches := by
  intro p mem b hinv hl
  refine ⟨fun hs => ?held, fun hs hdone hroom => ?ends, fun hno => ?stays⟩
  case held =>
    obtain ⟨hdrv, hscl⟩ := scl_of_stretch (hinv.stretch.2 hs)
    refine ⟨hdrv, hscl, fun e pk he => ?_⟩
    rw [envStep_remote hl he]
    exact remoteStep_stretched e hdrv (by rcases hs with hs | hs <;> simp [hs, SState.listening])
  case ends => rw [slaveStep_eq hl, if_pos ⟨hs, hdone, hroom⟩]
  case stays =>
    rw [slaveStep_eq hl, if_neg]
    rintro ⟨hs, hdone, hroom⟩
    rcases hno with h | h | ⟨hp, hfull⟩
    · exact h hs
    · cases hdone.symm.trans h
    · exact hroom.elim hp (Nat.not_lt.2 hfull)

/-- Settles O40: the slave's store on each path, and `batchNext_fields` for the count and the full batch. -/
theorem slaveStoresBytes : Obligations.SlaveStoresBytes := by
  intro p mem b d pk hl howns hs a wire
  rw [envStep_wbyte d hl howns]
  refine ⟨fun hp => ?byte, fun hp => ?buf, fun hp hok => ?dma, fun hp hun => ?unmapped⟩
  case byte =>
    rw [slaveWrite_rx d hs, slaveStore_byte d hp]
    rfl
  case buf =>
    refine ⟨(b.sCount, b.pool.getD b.sCount 0) :: b.rxOldPool, ?_⟩
    rw [slaveWrite_rx d hs, slaveStore_buf d hp, batchNext_fields]
    simp [hp, wire, Bus.onWire]
  case dma =>
    refine ⟨(a, mem.read a) :: b.rxOldMem, ?_⟩
    rw [slaveWrite_rx d hs, slaveStore_dma d hp hok, batchNext_fields]
    simp [hp, a, wire, Bus.onWire]
  case unmapped =>
    rw [slaveWrite_unmapped d hs hp hun]
    rfl

/-- Settles O41: the byte is that of the registers (`stxSource_current`), and `stxAnswered_ack` and `stxAnswered_nak` say what its
answer does. -/
theorem stxSendsBytes : Obligations.StxSendsBytes := by
  intro p mem b path pk hl howns hs hst a v ended
  refine ⟨fun hok => ?sent, fun hp hun r => ?unmapped⟩
  case sent =>
    have hv : stxByte mem path b = v := by cases path <;> rfl
    have hstep : ∀ r, b.envStep p mem (.rbyte r) pk = some (b.stxAnswered path v r, mem) := fun r => by
      rw [envStep_rbyte r hl howns, slaveRead_tx r hs (stxSource_current hst hok), hv]
    refine ⟨fun hmore => ?_, fun hlast => ?_, ?_⟩
    · rw [hstep, stxAnswered_ack, if_neg hmore]
    · rw [hstep, stxAnswered_ack, if_pos hlast]
      rfl
    · rw [hstep, stxAnswered_nak]
      rfl
  case unmapped =>
    subst hp
    rw [envStep_rbyte r hl howns, slaveRead_unmapped r hs hun]

/-- Settles O42: both conditions are `conditionHeard` where SLAVE_EN is set (`slaveStart_heard`, `slaveStop_heard`), and move the
latch alone where it is not. -/
theorem slaveSeesStartAndStop : Obligations.SlaveSeesStartAndStop := by
  intro p mem b pk hl batch heard after
  refine ⟨fun hen hmay hfree hscl hsda => ?start, fun hen howns => ⟨?repeated, ?stop⟩,
    fun hen hmay => ⟨fun hfree hscl hsda => ?offStart, fun hbusy => ?offOwned⟩⟩
  case start =>
    have hmon : b.monitoring = true := by simp [Bus.monitoring, hen]
    rw [envStep_s hl hmay hfree hscl hsda, hmon, slaveStart_heard true hen]
    rfl
  case repeated =>
    have hself := withBusBusy_self (remoteOwns_iff.1 howns).2
    rw [envStep_sr hl howns, ← hself, slaveStart_heard true hen]
    rfl
  case stop =>
    rw [envStep_p hl howns, slaveStop_heard false hen]
    simp only [listening_iff]
    rfl
  case offStart =>
    have hmon : b.monitoring = b.masterEn := by simp [Bus.monitoring, hen]
    rw [envStep_s hl hmay hfree hscl hsda, hmon, slaveStart_off (by exact hen)]
  case offOwned =>
    have howns := remoteOwns_iff.2 ⟨hmay, hbusy⟩
    exact ⟨by rw [envStep_sr hl howns, slaveStart_off hen], by rw [envStep_p hl howns, slaveStop_off (by exact hen)]⟩

/-- Settles O43: inside a byte a condition is `conditionHeard` with ABNORMAL, elsewhere the plain one (`slaveMid_plain`). -/
theorem slaveMidByteCondition : Obligations.SlaveMidByteCondition := by
  intro p mem b pk hl howns batch after
  refine ⟨fun hen hin => ?inByte, fun hrx htx => ?plain⟩
  case inByte =>
    have hin := (inByte_iff _).2 hin
    exact ⟨by rw [envStep_mid _ hl howns, slaveMid_start_heard _ hen hin]; rfl,
      by rw [envStep_mid _ hl howns, slaveMid_stop_heard _ hen hin]; rfl⟩
  case plain =>
    have hin : b.sstate.inByte = false := Bool.eq_false_iff.2 (by simp [inByte_iff, hrx, htx])
    rw [envStep_mid _ hl howns, envStep_mid _ hl howns, envStep_sr hl howns, envStep_p hl howns]
    constructor
    · rw [decide_eq_true rfl, withBusBusy_self (remoteOwns_iff.1 howns).2, (slaveMid_plain hin).1]
    · exact congrArg (fun c => some (c, mem)) (slaveMid_plain (by exact hin)).2

/-- Settles O44: `timeoutMay_iff` is the guard of R378, and `timeoutEnd_fields` what an admitted timeout leaves. -/
theorem slaveTimeouts : Obligations.SlaveTimeouts := by
  intro p mem b l pk hl heard
  rw [envStep_timeout l hl]
  refine ⟨fun ht hs hm => ?fires, fun hno => ?none⟩
  case fires =>
    rw [if_pos (timeoutMay_iff.2 ⟨ht, hs, hm⟩), Bus.slaveTimeout, timeoutEnd_fields]
    cases l <;> rfl
  case none =>
    refine if_neg fun hmay => ?_
    obtain ⟨ht, hs, hm⟩ := timeoutMay_iff.1 hmay
    rcases hno with h | h | h
    · exact ht h
    · exact h hs
    · cases hm.symm.trans h

/-- Settles O37: the match of R362, written out. -/
theorem slaveAddressMatch : Obligations.SlaveAddressMatch := by
  intro p mem b d pk hl howns hs hd
  rw [envStep_wbyte d hl howns, slaveWrite_match hs hd]
  rfl

/-- Settles O38: a byte reaches the slave in S_ADDR, S_RX and S_TX only. -/
theorem slaveIgnoresOthers : Obligations.SlaveIgnoresOthers := by
  intro p mem b pk hl howns
  refine ⟨fun hs d hd => ?other, fun hs => ⟨fun d => ?written, fun a => ?read⟩⟩
  case other => rw [envStep_wbyte d hl howns, slaveWrite_noMatch hs hd]
  case written =>
    rw [envStep_wbyte d hl howns]
    rcases hs with hs | hs | hs | hs <;> simp [Bus.slaveWrite, hs]
  case read =>
    rw [envStep_rbyte a hl howns]
    rcases hs with hs | hs | hs | hs <;> simp [Bus.slaveRead, hs]

end

section

namespace Sys2Proof.Laws

open Sys2Proof Sys2Proof.Machine

variable {x m k : Word}

/-! ## Words as sets of bits -/

theorem and_and_not_self (x m : Word) : x &&& m &&& ~~~x = 0 := by
  rw [BitVec.and_comm x m, BitVec.and_assoc, BitVec.and_not_self]
  exact BitVec.and_zero

theorem and_not_or_self (x m : Word) : x &&& ~~~(x ||| m) = 0 := by
  rw [BitVec.not_or, ← BitVec.and_assoc, BitVec.and_not_self]
  exact BitVec.zero_and

/-- Taking the bits `x &&& m` out of `x` splits `x` in two parts, disjoint. -/
theorem and_inter_rest (x m : Word) : x &&& m &&& (x &&& ~~~(x &&& m)) = 0 := by
  rw [BitVec.and_comm x (~~~(x &&& m)), ← BitVec.and_assoc, BitVec.and_not_self]
  exact BitVec.zero_and

theorem and_or_and_not (x m : Word) : x &&& m ||| x &&& ~~~m = x := by
  rw [← BitVec.and_or_distrib_left, BitVec.or_not_self, BitVec.and_allOnes]

theorem and_union_rest (x m : Word) : x &&& m ||| x &&& ~~~(x &&& m) = x := by
  have hrest : x &&& ~~~(x &&& m) = x &&& ~~~m := by
    rw [BitVec.not_and, BitVec.and_or_distrib_left, BitVec.and_not_self]
    exact BitVec.zero_or
  rw [hrest, and_or_and_not]

theorem and_eq_zero_of_sub (h : x &&& m = 0) (hk : m &&& k = k) : x &&& k = 0 := by
  rw [← hk, ← BitVec.and_assoc, h]
  exact BitVec.zero_and

theorem and_and_eq_zero (x : Word) (h : m &&& k = 0) : x &&& m &&& k = 0 := by
  rw [BitVec.and_assoc, h]
  exact BitVec.and_zero

theorem and_eq_self_of_and_not (h : x &&& ~~~m = 0) : x &&& m = x :=
  calc
    x &&& m = x &&& m ||| x &&& ~~~m := by rw [h]; exact BitVec.or_zero.symm
    _ = x := and_or_and_not x m

theorem and_twoPow_of_ne_zero {i : Nat} (h : x &&& BitVec.twoPow 32 i ≠ 0) : x &&& BitVec.twoPow 32 i = BitVec.twoPow 32 i := by
  rw [BitVec.and_twoPow] at h ⊢
  exact if_pos (ite_ne_right_iff.1 h).1

theorem hasAny_iff : hasAny x m = true ↔ x &&& m ≠ 0 := bne_iff_ne

theorem not_hasAny (h : x &&& m = 0) : ¬hasAny x m = true := fun hx => hasAny_iff.1 hx h

theorem not_hasAny_of_sub (h : x &&& m = 0) (hk : m &&& k = k) : ¬hasAny x k = true := not_hasAny (and_eq_zero_of_sub h hk)

theorem hasAny_eq_false_iff : hasAny x m = false ↔ x &&& m = 0 := bne_eq_false_iff_eq

/-! ## Routing (R401, R402, R416) -/

variable {sh : SCtx} {ctx : MCtx} {st : Word}

/-- The bits that the slave's claim leaves (R401). -/
def restBits (sh : SCtx) (st : Word) : Word := st &&& ~~~(st &&& slaveClaim sh st)

theorem route_slave (sh : SCtx) (ctx : MCtx) (st : Word) : (route sh ctx st).slave = st &&& slaveClaim sh st := rfl

theorem route_master (sh : SCtx) (ctx : MCtx) (st : Word) :
    (route sh ctx st).master = restBits sh st &&& maskIf ctx.takesBits masterBits := by
  show maskIf ctx.takesBits (restBits sh st &&& masterBits) = _
  cases ctx.takesBits
  · exact BitVec.and_zero.symm
  · rfl

theorem route_unclaimed (sh : SCtx) (ctx : MCtx) (st : Word) :
    (route sh ctx st).unclaimed = restBits sh st &&& ~~~(route sh ctx st).master := rfl

theorem slave_and_restBits (m : Word) : (route sh ctx st).slave &&& (restBits sh st &&& m) = 0 := by
  rw [route_slave, restBits, ← BitVec.and_assoc, and_inter_rest]
  exact BitVec.zero_and

theorem takesBits_eq_false (hi : ctx ≠ .cmdIssued) (hr : ctx ≠ .recovering) : ctx.takesBits = false := by
  cases ctx with
  | idle | complete | error | claimed => rfl
  | cmdIssued => exact absurd rfl hi
  | recovering => exact absurd rfl hr

/-- The claim is of SLAVE_BITS alone, whatever the two bits it looks at (R402, R416). -/
theorem slaveClaim_slaveBits (sh : SCtx) (st : Word) : slaveClaim sh st &&& ~~~0x40F7 = 0 := by
  unfold slaveClaim
  generalize hasAny st maskSlaveMatch = m, hasAny st maskNormalStop = q
  revert m q
  cases sh <;> decide

theorem slaveClaim_match (h : st &&& 0x80 ≠ 0) : slaveClaim sh st &&& 0x80 = 0x80 := by
  have hmatch : hasAny st maskSlaveMatch = true := hasAny_iff.2 h
  unfold slaveClaim
  rw [hmatch]
  generalize hasAny st maskNormalStop = q
  revert q
  cases sh <;> decide

theorem slaveClaim_idle (h : st &&& 0x80 = 0) : slaveClaim .idle st = 0 := by
  have hmatch : hasAny st maskSlaveMatch = false := hasAny_eq_false_iff.2 h
  unfold slaveClaim
  rw [hmatch]
  rfl

theorem slave_match (sh : SCtx) (ctx : MCtx) (st : Word) : (route sh ctx st).slave &&& 0x80 = st &&& 0x80 := by
  rw [route_slave]
  by_cases h : st &&& 0x80 = 0
  · rw [BitVec.and_comm st, BitVec.and_assoc, h]
    exact BitVec.and_zero
  · rw [BitVec.and_assoc, slaveClaim_match h]

/-! ## The master decoder (R404 to R408) -/

variable {c : BitVec 12}

theorem completionBit_cases (c : BitVec 12) :
    completionBit c = 0x10 ∨ completionBit c = 0x4 ∨ completionBit c = 0x1 := by
  unfold completionBit
  dsimp only
  split_ifs
  · exact .inl rfl
  · exact .inr (.inl rfl)
  · exact .inr (.inr rfl)

theorem intermediateBits_eq (c : BitVec 12) : intermediateBits c =
    maskIf ((CmdBits.of c).t && completionBit c != 0x1) 0x1 |||
      maskIf ((CmdBits.of c).r && completionBit c == 0x10) 0x4 := rfl

theorem and_completionBit (c : BitVec 12) : 0x15 &&& completionBit c = completionBit c := by
  rcases completionBit_cases c with h | h | h <;> rw [h] <;> rfl

/-- `I(c)` is of TX_ACK and RX_DONE, without `E(c)` (R404). -/
theorem intermediateBits_bounds (c : BitVec 12) :
    0x5 &&& intermediateBits c = intermediateBits c ∧ intermediateBits c &&& completionBit c = 0 := by
  rw [intermediateBits_eq]
  generalize (CmdBits.of c).t = t, (CmdBits.of c).r = r
  rcases completionBit_cases c with h | h | h <;> rw [h] <;> revert t r <;> decide

theorem decodeIssued_arb (h : m &&& 0x8 ≠ 0) : decodeIssued c m = .error .retryable := if_pos (hasAny_iff.2 h)

theorem decodeIssued_timeout (ha : m &&& 0x8 = 0) (h : m &&& 0x4040 ≠ 0) : decodeIssued c m = .error .busCondition :=
  (if_neg (not_hasAny ha)).trans (if_pos (hasAny_iff.2 h))

theorem decodeIssued_abnormal (ht : m &&& 0x4048 = 0) (h : m &&& 0x20 ≠ 0) : decodeIssued c m = .error .protocol :=
  (if_neg (not_hasAny_of_sub ht rfl)).trans <| (if_neg (not_hasAny_of_sub ht rfl)).trans <|
    if_pos (hasAny_iff.2 h)

theorem decodeIssued_nak (hf : m &&& 0x4068 = 0) (h : m &&& 0x2 ≠ 0) : decodeIssued c m = .error .addressing :=
  (if_neg (not_hasAny_of_sub hf rfl)).trans <| (if_neg (not_hasAny_of_sub hf rfl)).trans <|
    (if_neg (not_hasAny_of_sub hf rfl)).trans <| if_pos (hasAny_iff.2 h)

/-- Without a fault bit and TX_NAK the command's own bits decide (R405). -/
theorem decodeIssued_noError (h : m &&& 0x406A = 0) : decodeIssued c m =
    if hasAny m (completionBit c) then .chunkDone else if hasAny m (intermediateBits c) then .notYet
    else if m = 0 then .none else .unrecognized :=
  (if_neg (not_hasAny_of_sub h rfl)).trans <| (if_neg (not_hasAny_of_sub h rfl)).trans <|
    (if_neg (not_hasAny_of_sub h rfl)).trans <| if_neg (not_hasAny_of_sub h rfl)

theorem decodeIssued_chunkDone (h : m &&& 0x406A = 0) (hc : m &&& completionBit c ≠ 0) : decodeIssued c m = .chunkDone := by
  rw [decodeIssued_noError h, if_pos (hasAny_iff.2 hc)]

theorem decodeIssued_notYet (hm : m ≠ 0) (hi : m &&& ~~~intermediateBits c = 0) : decodeIssued c m = .notYet := by
  obtain ⟨hsub, hcompl⟩ := intermediateBits_bounds c
  have hself : m &&& intermediateBits c = m := and_eq_self_of_and_not hi
  have hout : ∀ k, intermediateBits c &&& k = 0 → m &&& k = 0 := fun k hk => hself ▸ and_and_eq_zero m hk
  have herr : intermediateBits c &&& 0x406A = 0 := by
    rw [BitVec.and_comm]
    exact and_eq_zero_of_sub rfl hsub
  rw [decodeIssued_noError (hout _ herr), if_neg (not_hasAny (hout _ hcompl)), if_pos (hasAny_iff.2 (by rwa [hself]))]

/-- A word without a bit that any command sets. -/
theorem decodeIssued_foreign (h : m &&& 0x407F = 0) : decodeIssued c m = if m = 0 then .none else .unrecognized := by
  have hcompl : m &&& completionBit c = 0 := and_eq_zero_of_sub (and_eq_zero_of_sub h rfl) (and_completionBit c)
  have hinter : m &&& intermediateBits c = 0 :=
    and_eq_zero_of_sub (and_eq_zero_of_sub h rfl) (intermediateBits_bounds c).1
  rw [decodeIssued_noError (and_eq_zero_of_sub h rfl), if_neg (not_hasAny hcompl), if_neg (not_hasAny hinter)]

theorem decodeIssued_zero (c : BitVec 12) : decodeIssued c 0 = .none := decodeIssued_foreign rfl

theorem decodeIssued_recoverDone (c : BitVec 12) : decodeIssued c 0x2000 = .unrecognized := decodeIssued_foreign rfl

theorem decodeRecovering_done (h : m &&& 0x2000 ≠ 0) : decodeRecovering m = .recoverDone := if_pos (hasAny_iff.2 h)

theorem decodeRecovering_timeout (hr : m &&& 0x2000 = 0) (h : m &&& 0x4040 ≠ 0) :
    decodeRecovering m = .error .busCondition :=
  (if_neg (not_hasAny hr)).trans (if_pos (hasAny_iff.2 h))

/-! ## One dispatch (R419) -/

variable {p : Params} {h : HostBus} {rx : Byte} {count : Nat} {data : List Byte}

/-- Step (3) of R419: the actions of both paths, in R401's order. -/
def actionOps (p : Params) (h : HostBus) (st : Word) (rx : Byte) (count : Nat) (data : List Byte) : List HOp :=
  let r := route h.sh h.ctx st
  let sl := slaveOps p h r.slave rx count data
  let ma := masterOps h r.master
  if slaveFirst h.sh st then sl ++ ma else ma ++ sl

theorem mem_actionOps {op : HOp} (ho : op ∈ actionOps p h st rx count data) :
    op ∈ slaveOps p h (route h.sh h.ctx st).slave rx count data ∨ op ∈ masterOps h (route h.sh h.ctx st).master := by
  unfold actionOps at ho
  dsimp only at ho
  split at ho
  · exact List.mem_append.1 ho
  · exact (List.mem_append.1 ho).symm

theorem mem_masterOps {op : HOp} {sm : Word} (ho : op ∈ masterOps h sm) : ∃ o m, op = .master o m := by
  unfold masterOps at ho
  split at ho
  · exact ⟨_, _, List.mem_singleton.1 ho⟩
  · cases ho

/-- The actions write no register. -/
theorem wr_notMem_actionOps (off : Nat) (v : Word) : HOp.wr off v ∉ actionOps p h st rx count data := by
  intro hv
  rcases mem_actionOps hv with hv | hv
  · rcases mem_slaveOps hv with ⟨_, he⟩ | he | ⟨_, he⟩ <;> cases he
  · obtain ⟨_, _, he⟩ := mem_masterOps hv
    cases he

/-- Steps (2) to (4) of R419. -/
theorem decideOps_eq (p : Params) (h : HostBus) (st : Word) (rx : Byte) (count : Nat) (data : List Byte) :
    decideOps p h st rx count data =
      (let r := route h.sh h.ctx st
      HOp.wr 0x10 (st &&& ~~~(r.slave &&& 0x4)) :: actionOps p h st rx count data ++
        (if r.slave &&& 0x4 ≠ 0 then [HOp.wr 0x10 0x4] else []) ++
        [HOp.logBits (unrecognizedBits h r rx count data), HOp.busDone]) := by
  have hlast : (if hasAny (route h.sh h.ctx st).slave maskRxDone then [HOp.wr offIsr maskRxDone] else []) =
      if (route h.sh h.ctx st).slave &&& 0x4 ≠ 0 then [HOp.wr 0x10 0x4] else [] := if_congr hasAny_iff rfl rfl
  unfold decideOps
  dsimp only
  rw [hlast]
  rfl

/-- The dispatcher's writes to ISR. -/
theorem wr_mem_decideOps {v : Word} (hv : HOp.wr 0x10 v ∈ decideOps p h st rx count data) :
    v = st &&& ~~~((route h.sh h.ctx st).slave &&& 0x4) ∨ v = 0x4 ∧ (route h.sh h.ctx st).slave &&& 0x4 ≠ 0 := by
  rw [decideOps_eq] at hv
  simpa [wr_notMem_actionOps, and_comm] using hv

theorem onOutcome_unrecognized (p : Params) (h : HostBus) (m : Word) (count : Nat) (rx : Byte) (data : List Byte) (byte : Byte) :
    h.onOutcome p .unrecognized m count rx data byte = (h, []) := ite_self _

end Sys2Proof.Laws

end

section

open Sys2Proof Sys2Proof.Machine Sys2Proof.Laws

/-- Settles O57: each part is cut out of what the one before it left (`and_inter_rest`, `and_union_rest`), and the claim of R416 is
bounded by `slaveClaim_slaveBits`. -/
theorem routeIsPartition : Obligations.RouteIsPartition := by
  intro sh ctx st r
  have hmaster : r.master = restBits sh st &&& maskIf ctx.takesBits masterBits := route_master sh ctx st
  refine ⟨?union, ?slaveMaster, slave_and_restBits _, ?masterRest, ?slaveBits, ?masterBits, fun hi hr => ?notTaken,
    fun hsh hm => ?idle, slave_match sh ctx st⟩
  case union =>
    rw [BitVec.or_assoc, route_unclaimed, hmaster, and_union_rest]
    exact and_union_rest st _
  case slaveMaster =>
    rw [hmaster]
    exact slave_and_restBits _
  case masterRest =>
    rw [route_unclaimed, hmaster]
    exact and_inter_rest _ _
  case slaveBits => exact and_and_eq_zero st (slaveClaim_slaveBits sh st)
  case masterBits =>
    have hmask : maskIf ctx.takesBits masterBits &&& ~~~0x607F = 0 := by cases ctx <;> rfl
    rw [hmaster]
    exact and_and_eq_zero _ hmask
  case notTaken =>
    rw [hmaster, takesBits_eq_false hi hr]
    exact BitVec.and_zero
  case idle =>
    rw [route_slave, hsh, slaveClaim_idle hm]
    exact BitVec.and_zero

/-- Settles O58: the error tests in their order, then `E(c)` and `I(c)`, apart from each other and from the errors
(`intermediateBits_bounds`). -/
theorem masterDecoderOutcomes : Obligations.MasterDecoderOutcomes :=
  fun i _ _ => ⟨decodeIssued_arb, decodeIssued_timeout, decodeIssued_abnormal, decodeIssued_nak,
    fun _ => decodeIssued_chunkDone, fun _ => decodeIssued_notYet, decodeIssued_zero (code i), decodeIssued_recoverDone (code i),
    decodeRecovering_done, decodeRecovering_timeout⟩

/-- Settles O59: `decideOps_eq` is the order of R419, and a RX_DONE that the slave claims was in the word read. -/
theorem dispatcherClearsWhatItRead : Obligations.DispatcherClearsWhatItRead := by
  intro p h st rx count data r
  refine ⟨⟨actionOps p h st rx count data, decideOps_eq p h st rx count data, wr_notMem_actionOps⟩, fun v hv => ?wasRead,
    fun n hd op d s t ops he hop => dispatcherOp_spares he hop, ?logged, fun m byte => onOutcome_unrecognized p h m count rx data byte⟩
  case wasRead =>
    rcases wr_mem_decideOps hv with rfl | ⟨rfl, hs⟩
    · exact and_and_not_self _ _
    · have hbit : r.slave &&& 0x4 = 0x4 := and_twoPow_of_ne_zero (i := 2) hs
      rw [← hbit, route_slave, BitVec.and_assoc st]
      exact and_and_not_self _ _
  case logged =>
    unfold unrecognizedBits
    rw [BitVec.or_assoc]
    exact and_not_or_self _ _

end

section

namespace Sys2Proof.Laws

open Sys2Proof Sys2Proof.Machine

variable {p : Params} {path : Path} {t : Txn} {m : Msg} {last : Bool}

/-! ## The words of the next command (R444) -/

/-- A legal word with M_START, RX_LAST and M_STOP as given. -/
def Marks (c : BitVec 12) (start rxLast stop : Bool) : Prop :=
  legal c = true ∧ c.getLsbD 0 = start ∧ c.getLsbD 4 = rxLast ∧ c.getLsbD 5 = stop

/-- MSTART and MSTART.STOP. -/
theorem marks_addressWord (stop : Bool) : Marks (bitsStart ||| stopIf stop) true false stop := by
  unfold Marks
  revert stop
  decide

/-- MTX[.STOP].P. -/
theorem marks_txWord (path : Path) (stop : Bool) : Marks (bitsTx path ||| stopIf stop) false false stop := by
  unfold Marks
  revert stop
  cases path <;> decide

/-- MSTART.TX[.STOP].P. -/
theorem marks_startTxWord (path : Path) (stop : Bool) : Marks (bitsStart ||| bitsTx path ||| stopIf stop) true false stop := by
  unfold Marks
  revert stop
  cases path <;> decide

/-- MRX[L][.STOP].P: M_STOP comes with RX_LAST only. -/
theorem marks_rxWord (path : Path) (fin last : Bool) :
    Marks (bitsRx path fin ||| stopIf (fin && last)) false fin (fin && last) := by
  unfold Marks
  revert fin last
  cases path <;> decide

/-- MSTART.RX[L][.STOP].P. -/
theorem marks_startRxWord (path : Path) (fin last : Bool) :
    Marks (bitsStart ||| (bitsRx path fin ||| stopIf (fin && last))) true fin (fin && last) := by
  unfold Marks
  revert fin last
  cases path <;> decide

/-! ## Where RX_LAST and M_STOP belong (R444, R448) -/

/-- What is left of the message fits one chunk. -/
def finalChunk (p : Params) (path : Path) (t : Txn) : Bool :=
  min (t.lenEff - t.xfer) (p.chunk path) == t.lenEff - t.xfer

/-- The next command of a read is the message's last: its length is known, and what is left fits one chunk. -/
def readEnds (p : Params) (path : Path) (t : Txn) : Bool := !t.varlenPending && finalChunk p path t

/-- The next command of a write of `len` bytes is the message's last. -/
def writeEnds (p : Params) (path : Path) (t : Txn) (len : Nat) : Bool :=
  len == 0 || match path with
    | .byte => t.started && t.lenEff - t.xfer == 1
    | path => finalChunk p path t

theorem finalChunk_iff : finalChunk p path t = true ↔ min (t.lenEff - t.xfer) (p.chunk path) = t.lenEff - t.xfer :=
  beq_iff_eq

theorem readEnds_iff : readEnds p path t = true ↔ t.varlenPending = false ∧ finalChunk p path t = true := by
  rw [readEnds, Bool.and_eq_true, Bool.not_eq_true']

@[simp] theorem writeEnds_zero : writeEnds p path t 0 = true := rfl

theorem writeEnds_byte {len : Nat} (hlen : len ≠ 0) : writeEnds p .byte t len = (t.started && t.lenEff - t.xfer == 1) := by
  rw [writeEnds, beq_false_of_ne hlen, Bool.false_or]

theorem writeEnds_chunk {len : Nat} (hlen : len ≠ 0) (hpath : path ≠ .byte) : writeEnds p path t len = finalChunk p path t := by
  cases path
  case byte => exact absurd rfl hpath
  all_goals exact congrArg (· || finalChunk p _ t) (beq_false_of_ne hlen)

/-! ## The next command -/

theorem nextWrite_word_zero (hlen : m.len = 0) : (nextWrite p path t m last).2 = bitsStart ||| stopIf last := by
  simp [nextWrite, hlen]

/-- In BYTE mode the address goes alone. -/
theorem nextWrite_word_byte (hlen : m.len ≠ 0) : (nextWrite p .byte t m last).2 =
    if t.started then bitsTx .byte ||| stopIf (last && t.lenEff - t.xfer == 1) else bitsStart := by
  simp only [nextWrite, hlen, if_false]
  split <;> rfl

theorem nextWrite_word_chunk (hlen : m.len ≠ 0) (hpath : path ≠ .byte) : (nextWrite p path t m last).2 =
    if t.started then bitsTx path ||| stopIf (last && finalChunk p path t)
    else bitsStart ||| bitsTx path ||| stopIf (last && finalChunk p path t) := by
  cases path
  case byte => exact absurd rfl hpath
  all_goals
    simp only [nextWrite, hlen, if_false]
    split <;> rfl

/-- The marks of a write's next command. -/
theorem marks_nextWrite : Marks (nextWrite p path t m last).2 (!t.started || m.len == 0) false
    (last && writeEnds p path t m.len) := by
  by_cases hlen : m.len = 0
  · rw [nextWrite_word_zero hlen, hlen, writeEnds_zero, Bool.and_true, beq_self_eq_true, Bool.or_true]
    exact marks_addressWord last
  rw [beq_false_of_ne hlen, Bool.or_false]
  by_cases hpath : path = .byte
  · subst hpath
    rw [nextWrite_word_byte hlen, writeEnds_byte hlen]
    cases t.started
    · simpa [stopIf] using marks_addressWord false
    · exact marks_txWord .byte _
  · rw [nextWrite_word_chunk hlen hpath, writeEnds_chunk hlen hpath]
    cases t.started
    · exact marks_startTxWord path _
    · exact marks_txWord path _

theorem nextRead_word : (nextRead p path t m last).2 =
    if t.started then bitsRx path (readEnds p path t) ||| stopIf (readEnds p path t && last)
    else bitsStart ||| (bitsRx path (readEnds p path t) ||| stopIf (readEnds p path t && last)) := by
  unfold nextRead readEnds finalChunk
  cases t.varlenPending <;> cases t.started <;> rfl

theorem marks_nextRead : Marks (nextRead p path t m last).2 (!t.started) (readEnds p path t)
    (readEnds p path t && last) := by
  rw [nextRead_word]
  cases t.started
  · exact marks_startRxWord path _ last
  · exact marks_rxWord path _ last

theorem nextCmd_write (hm : t.msgs[t.idx]? = some m) (hd : m.dir = .write) :
    (nextCmd p path t).2.1 = (nextWrite p path t m (t.idx + 1 == t.msgs.length)).2 := by
  simp [nextCmd, hm, hd]

theorem nextCmd_read (hm : t.msgs[t.idx]? = some m) (hd : m.dir = .read) :
    (nextCmd p path t).2.1 = (nextRead p path t m (t.idx + 1 == t.msgs.length)).2 := by
  simp [nextCmd, hm, hd]

theorem nextCmd_txn (hm : t.msgs[t.idx]? = some m) : (nextCmd p path t).2.2 = { t with started := true } := by
  simp [nextCmd, hm]

end Sys2Proof.Laws

end

section

open Sys2Proof Sys2Proof.Machine Sys2Proof.Laws

/-- Settles O60: the word's marks by the message's direction (`marks_nextWrite`, `marks_nextRead`). -/
theorem nextCommandWord : Obligations.NextCommandWord := by
  intro p path t m hm
  dsimp only
  rw [← finalChunk_iff, nextCmd_txn hm]
  cases hd : m.dir with
  | write =>
    obtain ⟨hlegal, hstart, hrxLast, hstop⟩ := marks_nextWrite (p := p) (path := path) (t := t) (m := m)
      (last := t.idx + 1 == t.msgs.length)
    rw [nextCmd_write hm hd, hstart, hrxLast, hstop, Bool.and_eq_true, beq_iff_eq]
    refine ⟨hlegal, rfl, nofun, fun _ => rfl, nofun, fun _ hlen => ?zero, fun _ hlen hpath => ?chunk, fun _ hlen hpath => ?byte, rfl⟩
    case zero => simp [hlen]
    case chunk => rw [writeEnds_chunk hlen hpath]
    case byte => rw [hpath, writeEnds_byte hlen, Bool.and_eq_true, beq_iff_eq]
  | read =>
    obtain ⟨hlegal, hstart, hrxLast, hstop⟩ := marks_nextRead (p := p) (path := path) (t := t) (m := m)
      (last := t.idx + 1 == t.msgs.length)
    rw [nextCmd_read hm hd, hstart, hrxLast, hstop, Bool.and_eq_true, beq_iff_eq, readEnds_iff]
    exact ⟨hlegal, (Bool.or_false _).symm, fun _ => Iff.rfl, nofun, fun _ => and_comm, nofun, nofun, nofun, rfl⟩

end

section

namespace Sys2Proof.Laws

open Sys2Proof Sys2Proof.Machine

/-! ## Status bits that go -/

variable {p : Params} {s t : State} {b c : Bus} {n m : Nat} {op : HOp}

/-- The status bits that are set in `b` and not in `c`. -/
def lostBits (b c : Bus) : Word := b.isr &&& ~~~c.isr

theorem lostBits_of_same (h : c.isr = b.isr) : lostBits b c = 0 := by
  rw [lostBits, h]
  exact BitVec.and_not_self _

/-- A step of the engine, the slave or the environment only adds bits. -/
theorem SetsMask.lostBits_eq_zero (h : SetsMask b c) : lostBits b c = 0 := by
  obtain ⟨w, -, hisr, -⟩ := h
  rw [lostBits, hisr]
  exact and_not_or_self _ _

/-- A write of `v` to ISR clears no bit outside `v` (R61). -/
theorem lostBits_of_cleared {v : Word} (h : c.isr = b.isr &&& ~~~(v &&& isrImpl)) : lostBits b c &&& ~~~v = 0 := by
  rw [lostBits, h]
  ext i hi
  simp only [BitVec.getElem_and, BitVec.getElem_not]
  cases b.isr[i] <;> cases v[i] <;> simp

theorem SubIsr.clears (h : SubIsr op b c) (hlost : lostBits b c ≠ 0) : ∃ v, op = .wr 0x10 v ∧ lostBits b c &&& ~~~v = 0 := by
  rcases h with hsame | ⟨v, hop, hcleared⟩
  · exact absurd (lostBits_of_same hsame) hlost
  · exact ⟨v, hop, lostBits_of_cleared hcleared⟩

theorem DispIsr.clears (h : DispIsr p op b c) (hlost : lostBits b c ≠ 0) :
    (∃ v, op = .wr 0x10 v ∧ lostBits b c &&& ~~~v = 0) ∨ (op = .rdIsr ∧ p.statusClearOnRead = true) := by
  rcases h with hwrite | ⟨hop, hp, -⟩
  · exact .inl (hwrite.clears hlost)
  · exact .inr ⟨hop, hp⟩

/-- Only the bus that a step works on can lose a bit. -/
theorem OneBus.of_lostBits {R : Bus → Bus → Prop} (h : OneBus s t m R) (hb : s.buses[n]? = some b) (hc : t.buses[n]? = some c)
    (hlost : lostBits b c ≠ 0) : n = m ∧ R b c := by
  obtain ⟨hother, hthis⟩ := h n b c hb hc
  by_cases hn : n = m
  · exact ⟨hn, hthis hn⟩
  · exact absurd (lostBits_of_same (congrArg Bus.isr (hother hn))) hlost

theorem lostBits_of_buses (h : t.buses = s.buses) (hb : s.buses[n]? = some b) (hc : t.buses[n]? = some c) : lostBits b c = 0 := by
  rw [h, hb] at hc
  cases hc
  exact lostBits_of_same rfl

theorem busStep_lostBits {f : Bus → Option (Bus × Memory)} (hf : ∀ b r, f b = some r → SetsMask b r.1)
    (hb : s.buses[n]? = some b) (hc : (s.busStep m f).buses[n]? = some c) : lostBits b c = 0 :=
  ((oneBus_busStep (fun _ => setsMask_same rfl) hf).all (fun _ => setsMask_same rfl) hb hc).lostBits_eq_zero

end Sys2Proof.Laws

end

section

open Sys2Proof Sys2Proof.Machine Sys2Proof.Laws

/-- Settles O31: each of the three steps sets one of the masks of R504 (`isr_masterStep`, `isr_envStep`); the slave's own sets none. -/
theorem statusBitsSetTogether : Obligations.StatusBitsSetTogether := by
  intro p mem b c mem2 hstep
  have hmask : SetsMask b c := by
    rcases hstep with ⟨d, pk, hengine⟩ | ⟨e, pk, henv⟩ | hslave
    · exact isr_masterStep hengine
    · exact isr_envStep henv
    · exact setsMask_same (isr_slaveStep hslave)
  obtain ⟨w, hw, hisr, -⟩ := hmask
  exact ⟨w, hw, hisr⟩

/-- Settles O33: bus steps only set bits, and a host context loses one only by its access to ISR. -/
theorem statusBitsStaySet : Obligations.StatusBitsStaySet := by
  intro s e t n b c h hb hc hnoReset gone (hlost : lostBits b c ≠ 0)
  cases e with
  | read loc width d =>
    rcases hostRead_isr h hb hc with hsame | ⟨hloc, hp, -⟩
    · exact absurd (lostBits_of_same hsame) hlost
    · exact .inr (.inl ⟨loc, width, d, rfl, hloc, hp⟩)
  | write loc width v =>
    rcases hostWrite_isr h hb hc with hsame | ⟨hloc, hcleared⟩
    · exact absurd (lostBits_of_same hsame) hlost
    · exact .inl ⟨loc, width, v, rfl, hloc, lostBits_of_cleared hcleared⟩
  | memRead a old => cases h; exact absurd (lostBits_of_buses rfl hb hc) hlost
  | memWrite a v => cases h; exact absurd (lostBits_of_same (isr_hostMemWrite hb hc)) hlost
  | engine k d pk => cases h; exact absurd (busStep_lostBits (fun _ _ => isr_masterStep) hb hc) hlost
  | slave k =>
    cases h
    exact absurd (busStep_lostBits (fun _ _ hr => setsMask_map hr fun _ hstep => setsMask_same (isr_slaveStep hstep)) hb hc) hlost
  | env k ev pk => cases h; exact absurd (busStep_lostBits (fun _ _ => isr_envStep) hb hc) hlost
  | blockReset u => exact absurd rfl (hnoReset u)
  | boot => exact absurd (lostBits_of_buses (writeGlobal_buses h) hb hc) hlost
  | call k call => cases h; exact absurd (lostBits_of_buses (callStep_buses s k call) hb hc) hlost
  | submitter k hd =>
    rcases submitterStep_isr h with hsame | ⟨host, op, rest, hhost, hsub, hone⟩
    · exact absurd (lostBits_of_buses hsame hb hc) hlost
    · obtain ⟨rfl, hisr⟩ := hone.of_lostBits hb hc hlost
      obtain ⟨v, rfl, hv⟩ := hisr.clears hlost
      exact .inr (.inr (.inl ⟨hd, host, v, rest, rfl, hhost, hsub, hv⟩))
  | hostTimeout k => cases h; exact absurd (lostBits_of_buses (hostTimeout_buses s k) hb hc) hlost
  | irqEntry => cases h; exact absurd (lostBits_of_buses (irqEntryStep_buses s) hb hc) hlost
  | dispatcher hd =>
    rcases dispatcherStep_isr h with hsame | ⟨d, op, rest, hdisp, htodo, hone⟩
    · exact absurd (lostBits_of_buses hsame hb hc) hlost
    · obtain ⟨hn, hisr⟩ := hone.of_lostBits hb hc hlost
      exact .inr (.inr (.inr ⟨hd, d, op, rest, rfl, hdisp, hn.symm, htodo, hisr.clears hlost⟩))

end

section

namespace Sys2Proof.Machine

/-- Every bus is `Bus.afterReset` for the part's own parameters, one bus and one host record per number. -/
theorem State.Inv.resetFor (p : Params) : (State.resetFor p).Inv where
  buses := List.length_replicate
  hosts := List.length_replicate
  mem := rfl
  bus := by
    intro b hb
    rw [List.eq_of_mem_replicate hb]
    exact Bus.Inv.afterReset {} {}

end Sys2Proof.Machine

end

section

open Sys2Proof Sys2Proof.Machine

/-- Settles O55: `State.reset` is `State.resetFor` at the illustrative parameters, and `State.Inv.resetFor` holds for all. -/
theorem resetHasInvariant : Obligations.ResetHasInvariant :=
  ⟨State.Inv.resetFor Params.illustrative, State.Inv.resetFor⟩

end
